-- ==== Sys2Proof/Word.lean ====
section
/-!
DEFINITION. The words of the SW-880 and the one grid on which this model counts time.
Nothing here is a rule of its own: R4 and R30 give the units, "Units and time" the relation between them.
-/
namespace Sys2Proof

abbrev Byte := BitVec 8
/-- A 32-bit word: the unit of the scratchpads, the Shared Store and the registers (R19, R23). -/
abbrev Word := BitVec 32
/-- A 64-bit register or stamp register. -/
abbrev DWord := BitVec 64
/-- An address of the 40-bit internal space (R473). -/
abbrev Addr := BitVec 40
/-- A value of the common timebase (R4): [55:8] AT, [7:0] 1/256 AT. -/
abbrev Stamp := BitVec 56
/-- A queue id (R14, R40). -/
abbrev QueueId := BitVec 20
/-- A W byte address of the Crumb's program counter (R20, R308). -/
abbrev CodeAddr := BitVec 18

abbrev FrondId := Fin 128
abbrev GroupId := Fin 16
abbrev CtxId := Fin 4
abbrev PartId := Fin 8
abbrev LinkId := Fin 4
abbrev CoreId := Fin 4
abbrev ChanId := Fin 16
abbrev RingId := Fin 2048
abbrev ProgId := Fin 4096
/-- A Crumb general register, g0 to g31 (R6). -/
abbrev Reg := Fin 32
/-- A PCI Express function: 0 the physical function, n + 1 virtual function n (R451). -/
abbrev FnId := Fin 9

/-- A moment on the model's own grid: 1/19200 AT, the coarsest grid on which AT, XC, FC and the 1/256 AT
steps of R4 all fall (DESIGN CHOICE, log entry 2). -/
abbrev Time := Nat

/-- One AT (R4). -/
abbrev tAT : Nat := 19200
/-- One XC: 300 XC make one AT (R30). -/
abbrev tXC : Nat := 64
/-- One timebase unit, 1/256 AT (R4). -/
abbrev tUnit : Nat := 75
/-- One microsecond: 3.84 AT. -/
abbrev tUs : Nat := 73728
/-- One millisecond: 3 840 AT. -/
abbrev tMs : Nat := 73728000

end Sys2Proof
end

