-- ==== Sys2Proof/Syntax.lean ====
section
/-!
DEFINITION. The commands of the SW-880 as a block: one constructor of Instr for each row of the table of operations and
events, and the operand types. Every command carries the moment `t` at which it happens (a Crumb instruction inside its
Issue); commands of one moment stand in the queue in the order the coincidence tables of the manual give.
-/
namespace Sys2Proof

/-- A Crumb instruction's issue: its moment, its Frond, its own W byte address and that of the next one, and whether it is
the program's last. The manual gives
no instruction encodings, so the program supplies the instructions one by one (DESIGN CHOICE, log entry 6). -/
structure Issue where
  t : Time
  f : FrondId
  ia : CodeAddr
  nx : CodeAddr
  last : Bool
deriving DecidableEq, Repr

/-- The three part numbers (R1). -/
inductive Part where
  | sw15 | sw11 | sw15T
deriving DecidableEq, Repr

/-- A Frond's three scratchpads (R208). -/
inductive Mem where
  | w | a | p
deriving DecidableEq, Repr

/-- The tag kinds that an access names (R218); TSET and TCLR are instructions of their own. -/
inductive TagKind where
  | plain | put | take | peek
deriving DecidableEq, Repr

/-- Who owns a scratchpad access on the Crumb's side (R223, R211). -/
inductive Owner where
  | fetch | drain | inbound | crumb | array
deriving DecidableEq, Repr

/-- The two transfer engines. -/
inductive Engine where
  | fetch | drain
deriving DecidableEq, Repr

/-- A bit flip (or two) that strikes a stored word: bits 0 to 31 are data, 32 to 38 the check bits (R236, R482). -/
structure Upset where
  addr : Addr
  first : Fin 39
  second : Option (Fin 39)
deriving DecidableEq, Repr

/-- A fault of one copy of a triplicated item (R362); `cur` names the copy and the bit of CUR's encoding. -/
inductive TripleUpset where
  | lock (copy : Fin 3)
  | cur (copy : Fin 3) (b : Fin 2)
deriving DecidableEq, Repr

/-- An integer operand: a register or an immediate word. -/
inductive Src where
  | reg (r : Reg)
  | imm (x : Word)
deriving DecidableEq, Repr

/-- Integer ALU operations, immediate loads and register moves (R484). The manual names the class only; this list is
the model's (PRESUMED, log entry 7). -/
inductive AluOp where
  | add | sub | and | or | xor | shl | shr | sar | slt | sltu | mov
deriving DecidableEq, Repr

/-- The three atomics (R305). -/
inductive AmoOp where
  | swap | add | cas
deriving DecidableEq, Repr

/-- The relation an FCMP tests (the manual names none: DESIGN CHOICE, log entry 8). -/
inductive FRel where
  | lt | le | eq
deriving DecidableEq, Repr

/-- The direction of an FCVT (R103). -/
inductive FcvtDir where
  | toInt | toFloat
deriving DecidableEq, Repr

/-- A field of XEXP from which an X24 operand of a fused row operation takes its exponent (R90, R163). -/
inductive XField where
  | ea | eb | eacc | eout
deriving DecidableEq, Repr

/-- Where an array instruction reads a vector: word index in A (or P), or a circular region (R211, R224). -/
inductive VecSrc where
  | word (a : BitVec 16) (tag : TagKind)
  | circ (i : Fin 8)
deriving DecidableEq, Repr

/-- Where an array instruction writes vectors. -/
inductive VecDst where
  | word (m : Mem) (a : BitVec 16) (tag : TagKind)
  | circ (i : Fin 8)
deriving DecidableEq, Repr

/-- The fields of an MMA (R71, R74). -/
structure MmaArgs where
  solver : Bool
  fmt : BitVec 2
  rc : Bool
  acc : Bool
  count : BitVec 6
  tile : Fin 2
  src : VecSrc
  dst : BitVec 16
  dstCirc : Option (Fin 8)
  accTag : TagKind
  dstTag : TagKind
deriving DecidableEq, Repr

/-- The fields of a CVT (R74). `src` is read in P (SRC 0) or A (SRC 1). -/
structure CvtArgs where
  solver : Bool
  fromA : Bool
  tgt : BitVec 3
  scl : Bool
  rc : Bool
  count : BitVec 6
  src : BitVec 16
  srcTag : TagKind
  dst : VecDst
deriving DecidableEq, Repr

/-- Fields of a tile load: first W word, format (R74's FMT), mode, and whether the block is read transposed (R72, R217). -/
structure TileArgs where
  tile : Fin 2
  waddr : BitVec 16
  solver : Bool
  fmt : BitVec 2
  transposed : Bool
deriving DecidableEq, Repr

/-- The place an engine command reads. -/
inductive EngSrc where
  | addr (a : Addr) (tag : TagKind)
  | strided (m : Mem) (a0 : BitVec 16) (s : BitVec 16) (tag : TagKind)
  | transposed (m : Mem) (a0 : BitVec 16) (fmt : BitVec 2) (tag : TagKind)
  | circ (i : Fin 8)
deriving DecidableEq, Repr

/-- The place an engine command writes. -/
inductive EngDst where
  | addr (a : Addr) (tag : TagKind)
  | circ (i : Fin 8)
deriving DecidableEq, Repr

/-- A fetch-engine or drain-engine command: `n` words from `src` to `dst`. -/
structure EngArgs where
  src : EngSrc
  dst : EngDst
  n : BitVec 20
deriving DecidableEq, Repr

/-- Where a Crumb scratchpad load puts its data: a register, or SCALE[0..31], which one slot read of a line loads (R85). -/
inductive LoadDst where
  | reg (r : Reg)
  | scale
deriving DecidableEq, Repr

/-- A 32-element X24 block in A memory: its first word, the XEXP field that holds its exponent, and the tag kind of its access (R163,
R218). -/
structure XBlk where
  word : BitVec 16
  e : XField
  tag : TagKind
deriving DecidableEq, Repr

/-- Operands of XRHS (R163): x, q, the w of the covering box block if any, and the accumulator in P with its tag kind. σ is the
program's (R161). -/
structure XrhsArgs where
  x : XBlk
  q : XBlk
  w : Option XBlk
  dst : BitVec 16
  dstTag : TagKind
deriving DecidableEq, Repr

/-- Operands of XRELAX (R163): x̃, x, and where x goes. α is the program's (R161). -/
structure XrelaxArgs where
  xt : XBlk
  x : XBlk
  dst : XBlk
deriving DecidableEq, Repr

/-- Operands of XPROJ (R163): ẑ, z, y, l, u, the W word with the block's bits of the mask that names equality rows (R161), and where z, y
and w go. α and ρ are the program's (R161). -/
structure XprojArgs where
  zh : XBlk
  z : XBlk
  y : XBlk
  l : XBlk
  u : XBlk
  mask : BitVec 16
  dz : XBlk
  dy : XBlk
  dw : XBlk
deriving DecidableEq, Repr

/-- What the SFDP tables of the attached flash say (R363, R455). -/
structure Sfdp where
  signature : Bool
  minorRev : BitVec 8
  basicTable : Bool
  profileTable : Bool
  read8D : Bool
  addr4 : Bool
  erase4K : Bool
  erase64K : Bool
  bytes : Nat
deriving DecidableEq, Repr

/-- A data frame of known layout as received (R334, R337): header fields, payload and CRC, and the number both ends count for it,
which is not on the wire. -/
structure Frame where
  part : PartId
  snode : Fin 128
  dnode : Fin 128
  sfrond : BitVec 8
  space : Bool
  line : BitVec 20
  tag : Fin 64
  payload : List Word
  crc : BitVec 16
  num : BitVec 16
deriving DecidableEq, Repr

/-- The content of a control frame (R336), whose bit layout the manual does not give: the cumulative count of good data
frames, a NAK with the number it asks for, the receive credits of the three VCs, and the stamp of its transmission; the stamps it echoes
are operands of OFFSET_EXCHANGE. -/
structure CtrlInfo where
  ack : BitVec 16
  nak : Option (BitVec 16)
  credit0 : Nat
  credit1 : Nat
  credit2 : Nat
  stamp : Stamp
deriving DecidableEq, Repr

/-- The content of a JOIN frame (R339, R350): identity; admission of a node, with the newcomer's route table (node, path, role, link);
a retrained link readmitted; a device refused behind a link. -/
inductive JoinMsg where
  | identity (treeId : Word) (gen : BitVec 64) (digest8 : BitVec 64) (role : Fin 4) (held : Option (Fin 128 × BitVec 24))
  | admission (node : Fin 128) (path : BitVec 24) (role : Fin 4) (offSum : Int) (nLinks oneWay : Nat) (strobe : Stamp)
    (routes : List (Fin 128 × BitVec 24 × Fin 4 × LinkId))
  | readmit (link : LinkId) (strobe : Stamp)
  | refuse (link : LinkId)
deriving DecidableEq, Repr

/-- The content of an HBEAT frame (R338, R341, R350, R351, R355, R357): a heartbeat with the manager's timebase, epoch, whether it formed
that epoch, and path; its answer; a manager claim; a link that went down; a neighbour that reached UP, as measured. -/
inductive HbeatMsg where
  | beat (stamp : Stamp) (epoch : Word) (active : Bool) (path : BitVec 24)
  | answer
  | claim (epoch : Word) (path : BitVec 24)
  | linkDown (node : Fin 128) (link : LinkId)
  | linkUp (node : Fin 128) (link : LinkId) (role : Fin 4) (held : Option (Fin 128)) (lat : Nat) (off : Int)
deriving DecidableEq, Repr

/-- The content of a SPORE frame (R347): the checked spore, the stretch, W, k and the holder's action time. -/
structure SporeMsg where
  spore : List Word
  lo : Nat
  hi : Nat
  w : Nat
  k : Nat
  action : Stamp
deriving DecidableEq, Repr

/-- The content of a PDONE frame (R347, R349). -/
structure PdoneMsg where
  queue : QueueId
  tag : BitVec 64
  k : Nat
  status : Byte
  iter : Byte
  flags : BitVec 7
  preempt : Byte
deriving DecidableEq, Repr

/-- One stretch a STOP frame names, and whether it is to end as ABORT (else as STOP) (R335, R352). -/
structure StopItem where
  queue : QueueId
  tag : BitVec 64
  abort : Bool
deriving DecidableEq, Repr

/-- One piece of an epoch (R353): a member's node, path and role; a work-list spore with its queue's descriptor; the words
of a prior-solution area or of a state block; a ring's position and pass. -/
inductive EpochItem where
  | member (node : Fin 128) (path : BitVec 24) (role : Fin 4)
  | spore (queue : QueueId) (idx : Fin 64) (clamp : Bool) (spore desc : List Word)
  | prior (queue : QueueId) (ws : List Word)
  | block (queue : QueueId) (ws : List Word)
  | ring (r : RingId) (wr : BitVec 16) (odd : Bool)
deriving DecidableEq, Repr

/-- The address fields of a frame whose payload this model takes as structured content (R334), its number (R337), and whether
its CRC is right. -/
structure Hdr where
  part : PartId
  snode : Fin 128
  dnode : Fin 128
  sfrond : BitVec 8
  num : BitVec 16
  good : Bool
deriving DecidableEq, Repr

/-- A request that arrives at a lottery port (R263, R265, R267): its requester id (or class at the PCI Express egress),
partition (none: device class) and the router input it came through; `ref` names the waiting transfer. -/
structure Arrival where
  id : Fin 32
  part : Option PartId
  input : Fin 5
  ref : Nat
deriving DecidableEq, Repr

/-- Why a PCI Express core reset happens (R452). -/
inductive CoreReset where
  | perst | hotReset | linkDown
deriving DecidableEq, Repr

/-- Why a link goes down (R338, R432). -/
inductive DownCause where
  | laneLock | naks | silence
deriving DecidableEq, Repr

/-! ### The commands -/

/-- The commands, one constructor per row of the table, in the table's order. -/
inductive Instr where
  | registerWrite (t : Time) (req : Fin 32) (addr : Addr) (data : Word)
  | majorityCheck (t : Time) (upset : Option TripleUpset)
  | powerOnReset (t : Time) (refsel : Bool)
  | resetInput (t : Time)
  | resetRelease (t : Time) (refclk bsref testMode : Bool) (flash : List (Nat × Byte))
  | bootPllLock (t : Time)
  | sfdpRead (t : Time) (r : Sfdp)
  | octalModeEntry (t : Time) (ok : Bool)
  | dqsCalibration (t : Time) (reads : List Bool)
  | headerRead (t : Time)
  | verifyPass (t : Time)
  | loadPass (t : Time) (reread : List (Nat × Byte)) (eccError : Bool)
  | firmwareReady (t : Time)
  | fwStartTimeout (t : Time)
  | programSetDigest (t : Time)
  | lockSequence (t : Time)
  | bootReady (t : Time)
  | stgBegin (t : Time)
  | stgErase (t : Time) (foff len : BitVec 27)
  | stgProgram (t : Time) (foff len : BitVec 27) (boff : BitVec 24)
  | stgReadback (t : Time) (foff len : BitVec 27) (boff : BitVec 24)
  | stgFinalize (t : Time)
  | stgAbort (t : Time)
  | stagingCommandDone (t : Time) (flashErr : Bool)
  | hostWindowWrite (t : Time) (fn : FnId) (bar : Fin 6) (off : Nat) (data : List Byte)
  | hostWindowRead (t : Time) (fn : FnId) (bar : Fin 6) (off n : Nat)
  | doorbellWrite (t : Time) (fn : FnId) (off : Nat) (data : List Byte)
  | sporeAccept (t : Time)
  | sporeBufferWrite (t : Time) (q : QueueId) (entry : Fin 64)
  | cancelLineWrite (t : Time) (fn : FnId) (off : Nat) (data : List Byte)
  | cancel (t : Time)
  | slotStrobe (t : Time)
  | worklistBuild (t : Time)
  | bitmapReadAndClear (t : Time)
  | bitmapLineReturn (t : Time) (line : Fin 1024)
  | worklistPop (t : Time)
  | admission (t : Time) (q : QueueId)
  | placement (t : Time) (q : QueueId)
  | contextStaged (t : Time) (f : FrondId) (c : CtxId)
  | mma (k : Issue) (a : MmaArgs)
  | mmaRetire (t : Time) (f : FrondId)
  | tileLoad (k : Issue) (a : TileArgs)
  | tileLoadComplete (t : Time) (f : FrondId) (tile : Fin 2)
  | cvt (k : Issue) (a : CvtArgs)
  | rmaxclr (k : Issue)
  | mul (k : Issue) (rd ra rb : Reg)
  | mulh (k : Issue) (rd ra rb : Reg)
  | mulhu (k : Issue) (rd ra rb : Reg)
  | multiplyComplete (t : Time) (f : FrondId)
  | fadd (k : Issue) (rd ra rb : Reg)
  | fsub (k : Issue) (rd ra rb : Reg)
  | fmul (k : Issue) (rd ra rb : Reg)
  | fmin (k : Issue) (rd ra rb : Reg)
  | fmax (k : Issue) (rd ra rb : Reg)
  | fcmp (k : Issue) (rel : FRel) (rd ra rb : Reg)
  | fcvt (k : Issue) (dir : FcvtDir) (rd ra : Reg)
  | fdiv (k : Issue) (rd ra rb : Reg)
  | fsqrt (k : Issue) (rd ra : Reg)
  | div (k : Issue) (rd ra rb : Reg)
  | divu (k : Issue) (rd ra rb : Reg)
  | rem (k : Issue) (rd ra rb : Reg)
  | remu (k : Issue) (rd ra rb : Reg)
  | xrcp (k : Issue) (rd rlo rhi : Reg)
  | xgiv (k : Issue) (rc rs rr ra rb : Reg)
  | dividerComplete (t : Time) (f : FrondId)
  | xrhs (k : Issue) (a : XrhsArgs)
  | xrelax (k : Issue) (a : XrelaxArgs)
  | xproj (k : Issue) (a : XprojArgs)
  | fbeg (k : Issue)
  | fend (k : Issue)
  | itmark (k : Issue) (bufs : List Word)
  | outmark (k : Issue)
  | cheap (k : Issue) (imm : Word)
  | tset (k : Issue) (m : Mem) (line : BitVec 11)
  | tclr (k : Issue) (m : Mem) (line : BitVec 11)
  | creset (k : Issue) (i : Fin 8)
  | wopen (k : Issue) (i : Fin 16) (w0 w1 w2 : Word)
  | wclose (k : Issue) (i : Fin 16)
  | fenceSl (k : Issue)
  | fenceE (k : Issue)
  | fenceAll (k : Issue)
  | amoswap (k : Issue) (rd : Reg) (addr : Addr) (rs : Reg)
  | amoadd (k : Issue) (rd : Reg) (addr : Addr) (rs : Reg)
  | amocas (k : Issue) (rd : Reg) (addr : Addr) (rcmp rnew : Reg)
  | integerAluOp (k : Issue) (op : AluOp) (rd : Reg) (a b : Src)
  | scratchpadLoad (k : Issue) (dst : LoadDst) (addr : Addr) (tag : TagKind)
  | scratchpadStore (k : Issue) (rs : Reg) (addr : Addr) (tag : TagKind)
  | sharedStoreLoad (k : Issue) (rd : Reg) (addr : Addr)
  | sharedStoreStore (k : Issue) (rs : Reg) (addr : Addr)
  | remoteLoad (k : Issue) (rd : Reg) (addr : Addr)
  | remoteStore (k : Issue) (rs : Reg) (addr : Addr)
  | configAliasLoad (k : Issue) (rd : Reg) (addr : Addr)
  | configAliasStore (k : Issue) (rs : Reg) (addr : Addr)
  | storeVisible (t : Time) (f : FrondId) (c : CtxId)
  | fetchCommand (k : Issue) (a : EngArgs)
  | drainCommand (k : Issue) (a : EngArgs)
  | rangeRetire (t : Time) (f : FrondId) (c : CtxId) (i : Fin 24)
  | stridedRead (t : Time) (f : FrondId) (c : CtxId) (e : Engine)
  | transposedRead (t : Time) (f : FrondId) (c : CtxId) (e : Engine)
  | circAppend (t : Time) (f : FrondId) (c : CtxId) (who : Owner) (i : Fin 8) (data : List Word)
  | circTake (t : Time) (f : FrondId) (c : CtxId) (who : Owner) (i : Fin 8)
  | circPeek (t : Time) (f : FrondId) (c : CtxId) (who : Owner) (i : Fin 8) (d : BitVec 11)
  | circRelease (t : Time) (f : FrondId) (c : CtxId) (who : Owner) (i : Fin 8) (r : BitVec 11)
  | scratchpadSlotAccess (t : Time) (f : FrondId) (m : Mem) (upsets : List Upset)
  | scratchpadAccessDone (t : Time) (f : FrondId)
  | inboundLine (t : Time) (f : FrondId)
  | inboundRetry (t : Time) (f : FrondId)
  | refusalAtSender (t : Time) (f : FrondId) (c : CtxId)
  | scratchpadScrub (t : Time) (f : FrondId) (m : Mem) (upsets : List Upset)
  | scrubWriteback (t : Time) (f : FrondId)
  | lotteryContest (t : Time) (port : Fin 21) (arrivals : List Arrival)
  | regulatorAccrual (t : Time)
  | ticketCommit (t : Time)
  | fabmodeWrite (t : Time) (mode : BitVec 2)
  | ssLineAccess (t : Time) (port : Fin 16) (upsets : List Upset)
  | ssEccWriteback (t : Time) (port : Fin 16)
  | ssScrub (t : Time) (port : Fin 16) (upsets : List Upset)
  | tracePacketSend (t : Time) (router : Fin 16)
  | traceFrame (t : Time)
  | ctxRun (t : Time) (f : FrondId) (c : CtxId)
  | ctxPreempt (t : Time) (f : FrondId) (c : CtxId)
  | ctxAbort (t : Time) (f : FrondId) (c : CtxId)
  | ctxStop (t : Time) (f : FrondId) (c : CtxId)
  | contextBoundary (t : Time) (f : FrondId) (c : CtxId)
  | pwaitExpiry (t : Time) (f : FrondId) (c : CtxId)
  | waitYield (t : Time) (f : FrondId) (c : CtxId)
  | saveComplete (t : Time) (f : FrondId) (c : CtxId)
  | restoreComplete (t : Time) (f : FrondId) (c : CtxId)
  | contextTeardown (t : Time) (f : FrondId) (c : CtxId)
  | teardownComplete (t : Time) (f : FrondId) (c : CtxId)
  | ringRecordWrite (t : Time) (r : RingId)
  | tailMirrorUpdate (t : Time) (r : RingId)
  | ringEnable (t : Time) (r : RingId)
  | ringDisable (t : Time) (r : RingId)
  | ringHeadWrite (t : Time) (r : RingId) (head : BitVec 16)
  | coalesceTimeout (t : Time) (r : RingId)
  | deadlineComparatorFire (t : Time) (q : QueueId) (entry : Fin 64)
  | deadlineAction (t : Time) (q : QueueId) (entry : Fin 64)
  | iterateDelivery (t : Time) (f : FrondId) (c : CtxId)
  | substituteCopy (t : Time)
  | digestComplete (t : Time) (q : QueueId) (entry : Fin 64)
  | leSampleBoundary (t : Time) (ch : ChanId)
  | leStart (t : Time) (ch : ChanId) (seq : Byte)
  | leStop (t : Time) (ch : ChanId) (seq : Byte)
  | leRezero (t : Time) (ch : ChanId) (seq : Byte) (zpos : Word)
  | leInputRead (t : Time) (ch : ChanId)
  | leInputReturn (t : Time) (ch : ChanId)
  | leQuadratureSample (t : Time) (ch : ChanId) (qa qb : Bool)
  | leDecoderWindow (t : Time)
  | lePwmPeriod (t : Time) (ch : ChanId)
  | leOntimeWindow (t : Time) (ch : ChanId)
  | leOntimeLimit (t : Time) (ch : ChanId)
  | leShadowWrite (t : Time) (ch : ChanId) (i : Fin 16) (x : Word)
  | leBankCommit (t : Time) (ch : ChanId)
  | linkTraining (t : Time) (l : LinkId)
  | trainingTimeout (t : Time) (l : LinkId)
  | offsetExchange (t : Time) (l : LinkId) (t1 t2 t3 t4 : Stamp)
  | linkUp (t : Time) (l : LinkId)
  | linkDown (t : Time) (l : LinkId) (cause : DownCause)
  | ctrlFrame (t : Time) (l : LinkId) (i : CtrlInfo) (good : Bool)
  | writeFrame (t : Time) (l : LinkId) (f : Frame)
  | writewFrame (t : Time) (l : LinkId) (f : Frame)
  | readFrame (t : Time) (l : LinkId) (f : Frame)
  | rdataFrame (t : Time) (l : LinkId) (f : Frame)
  | wackFrame (t : Time) (l : LinkId) (f : Frame)
  | sporeFrame (t : Time) (l : LinkId) (h : Hdr) (m : SporeMsg)
  | pdoneFrame (t : Time) (l : LinkId) (h : Hdr) (m : PdoneMsg)
  | epochFrame (t : Time) (l : LinkId) (h : Hdr) (n : Word) (cut : Stamp) (m : EpochItem)
  | ependFrame (t : Time) (l : LinkId) (h : Hdr) (n : Word) (count : Nat)
  | doneFrame (t : Time) (l : LinkId) (h : Hdr) (xs : List (BitVec 64 × QueueId))
  | hbeatFrame (t : Time) (l : LinkId) (h : Hdr) (m : HbeatMsg)
  | joinFrame (t : Time) (l : LinkId) (h : Hdr) (m : JoinMsg)
  | stopFrame (t : Time) (l : LinkId) (h : Hdr) (xs : List StopItem)
  | reservedFrame (t : Time) (l : LinkId) (f : Frame) (odd : Bool)
  | cutNotice (t : Time) (l : LinkId) (node : Fin 128) (c : Stamp)
  | heartbeatSend (t : Time)
  | memberLost (t : Time) (node : Fin 128)
  | managerLost (t : Time)
  | epochInstall (t : Time)
  | roleNoticeWrite (t : Time)
  | workerOrphan (t : Time)
  | epochCopy (t : Time)
  | pllLock (t : Time) (g : GroupId)
  | sequencerTake (t : Time)
  | clockStepDone (t : Time)
  | rampComplete (t : Time)
  | proofHoldDone (t : Time)
  | idleCountExpiry (t : Time) (g : GroupId)
  | haltedRamp (t : Time)
  | thermalCheck (t : Time) (temps : List Int)
  | referenceLoss (t : Time)
  | referenceReturn (t : Time)
  | token (t : Time) (bytes : List Byte)
  | tokenBlockGo (t : Time)
  | tokenCheckDone (t : Time)
  | remainTick (t : Time)
  | serviceExpiry (t : Time)
  | svcexit (t : Time) (viaTap : Bool)
  | extest (t : Time) (bits : BitVec 141)
  | samplePreload (t : Time) (pins bits : BitVec 141)
  | idcode (t : Time)
  | clamp (t : Time)
  | highz (t : Time)
  | bootstat (t : Time)
  | chal (t : Time)
  | dbgsel (t : Time)
  | bypass (t : Time)
  | testLogicReset (t : Time)
  | dbgRead (t : Time) (addr : Addr) (dspace : Bool)
  | dbgWrite (t : Time) (addr : Addr) (dspace : Bool) (data : Word)
  | fuseProgram (t : Time) (word : Byte) (data : Word)
  | dumpRead (t : Time) (tap : Bool) (off n : Nat)
  | frz (t : Time)
  | counterFreeze (t : Time)
  | utilisationSample (t : Time)
  | sampleRecordWrite (t : Time)
  | checkpointTick (t : Time) (passed : List CoreId)
  | watchdogExpiry (t : Time) (core : CoreId)
  | teardownHang (t : Time) (f : FrondId) (c : CtxId)
  | overdue (t : Time) (q : QueueId) (entry : Fin 64)
  | backlog (t : Time)
  | waitEvent (t : Time) (f : FrondId) (c : CtxId)
  | waitGraphBuild (t : Time)
  | graphTimeout (t : Time)
  | globalStopCut (t : Time)
  | linkCaptureEnd (t : Time)
  | replayGo (t : Time)
  | replayPrepDone (t : Time)
  | replayStrobe (t : Time)
  | replayEntryRelease (t : Time)
  | replayEnd (t : Time)
  | replayDone (t : Time)
  | functionLevelReset (t : Time) (fn : FnId)
  | pcieCoreReset (t : Time) (cause : CoreReset)
  | ppsEdge (t : Time)
  | pcieLinkUp (t : Time) (enabled : List FnId)
  | pePerstNRelease (t : Time)
  | frameLock (t : Time) (l : LinkId)
  | uncoreRampComplete (t : Time)
deriving DecidableEq, Repr

end Sys2Proof
end

