-- ==== Sys2Proof/Decode.lean ====
section
/-!
DEFINITION. Decoding of command words. The table of operations and events gives no row any bits: no word spells a command.
-/
namespace Sys2Proof

/-- The command a word spells: none, for every width and value. -/
def decodeTableWord (_nbits _w : Nat) : Option Instr := none

end Sys2Proof
end

