-- ==== Sys2Proof/Machine/Bits.lean ====
section
/-!
DEFINITION. Bit fields, byte order, saturating counts and the update of fixed tables: the small operations every
other file is written with. All multi-byte fields of the device are little-endian (chapter "The image format").
-/
namespace Sys2Proof.Machine

/-- Bits [hi:lo] of `x` as a number. -/
def field {w : Nat} (x : BitVec w) (hi lo : Nat) : Nat := (x.toNat >>> lo) % 2 ^ (hi + 1 - lo)

/-- Bit `i` of `x`. -/
def bit {w : Nat} (x : BitVec w) (i : Nat) : Bool := x.toNat.testBit i

/-- Bits [hi:lo] of `x` replaced by the low bits of `v`. -/
def setField {w : Nat} (x : BitVec w) (hi lo : Nat) (v : Nat) : BitVec w :=
  let mask := (2 ^ (hi + 1 - lo) - 1) <<< lo
  BitVec.ofNat w ((x.toNat ^^^ (x.toNat &&& mask)) ||| ((v % 2 ^ (hi + 1 - lo)) <<< lo))

/-- Bit `i` of `x` set to `b`. -/
def setBit {w : Nat} (x : BitVec w) (i : Nat) (b : Bool) : BitVec w := setField x i i b.toNat

/-- A number placed at bit `lo`: the fields of a register are added up from these. -/
def at_ (lo : Nat) (v : Nat) : Nat := v <<< lo

/-- The low `w` bits of `v` read as two's complement. -/
def signed (w : Nat) (v : Nat) : Int := (BitVec.ofNat w v).toInt

/-- `v` clamped into [lo, hi] (R9). -/
def clampNat (lo hi v : Nat) : Nat := if v < lo then lo else if hi < v then hi else v

/-- `v` clamped into [lo, hi]. -/
def clampInt (lo hi v : Int) : Int := if v < lo then lo else if hi < v then hi else v

/-- A counter of `w` bits that saturates. -/
def satAdd {w : Nat} (x : BitVec w) (n : Nat) : BitVec w :=
  if x.toNat + n < 2 ^ w then BitVec.ofNat w (x.toNat + n) else BitVec.ofNat w (2 ^ w - 1)

/-- A counter of `w` bits that saturates gains 1. -/
def satInc {w : Nat} (x : BitVec w) : BitVec w := satAdd x 1

/-- The little-endian number of a list of bytes. -/
def leNat : List Byte → Nat
  | [] => 0
  | b :: bs => b.toNat + 256 * leNat bs

/-- The big-endian number of a list of bytes. -/
def beNat (bs : List Byte) : Nat := leNat bs.reverse

/-- `n` little-endian bytes of `v`. -/
def leBytes : Nat → Nat → List Byte
  | 0, _ => []
  | n + 1, v => BitVec.ofNat 8 v :: leBytes n (v / 256)

/-- `n` big-endian bytes of `v`. -/
def beBytes (n v : Nat) : List Byte := (leBytes n v).reverse

/-- The four bytes of a word, least significant first. -/
def wordBytes (x : Word) : List Byte := leBytes 4 x.toNat

/-- The bytes of a list of words. -/
def wordsBytes (xs : List Word) : List Byte := xs.flatMap wordBytes

/-- The word whose bytes begin the list; missing bytes read 0 (R367). -/
def bytesWord (bs : List Byte) : Word := BitVec.ofNat 32 (leNat (bs.take 4))

/-- `n` words from a list of bytes; missing bytes read 0 (R367). -/
def bytesWords : Nat → List Byte → List Word
  | 0, _ => []
  | n + 1, bs => bytesWord bs :: bytesWords n (bs.drop 4)

/-- Byte `i` of a list, 0 beyond its end. -/
def byteAt (bs : List Byte) (i : Nat) : Byte := bs.getD i 0

/-- Word `i` of a list, 0 beyond its end. -/
def wordAt (ws : List Word) (i : Nat) : Word := ws.getD i 0

/-- The low and the high word of a 64-bit register. -/
def loWord (x : DWord) : Word := BitVec.ofNat 32 x.toNat
def hiWord (x : DWord) : Word := BitVec.ofNat 32 (x.toNat / 2 ^ 32)

/-- A 64-bit register from its two words. -/
def dword (lo hi : Word) : DWord := BitVec.ofNat 64 (lo.toNat + 2 ^ 32 * hi.toNat)

/-- Entry `i` of a table replaced by `f` of itself. -/
def vmod {α : Type} {n : Nat} (v : Vector α n) (i : Fin n) (f : α → α) : Vector α n :=
  v.set i.val (f (v.get i)) i.isLt

/-- Entry `i` of a table replaced. -/
def vset {α : Type} {n : Nat} (v : Vector α n) (i : Fin n) (x : α) : Vector α n := v.set i.val x i.isLt

/-- Entry `i` of a table by number; `d` where there is none. -/
def vgetD {α : Type} {n : Nat} (v : Vector α n) (i : Nat) (d : α) : α := v.toList.getD i d

/-- Entry `i` of a table, by number, replaced by `f` of itself; nothing where there is none. -/
def vmodNat {α : Type} {n : Nat} (v : Vector α n) (i : Nat) (f : α → α) : Vector α n :=
  if h : i < n then vmod v ⟨i, h⟩ f else v

/-- A number as an index of a table of `n + 1` entries, reduced modulo its size. -/
def idx (n : Nat) (v : Nat) : Fin (n + 1) := ⟨v % (n + 1), Nat.mod_lt _ (Nat.succ_pos n)⟩

/-- The first `n` numbers. -/
def upto (n : Nat) : List Nat := List.range n

/-- Every index of a table. -/
def allFin (n : Nat) : List (Fin n) := List.finRange n

/-- Ceiling of a quotient. -/
def ceilDiv (a b : Nat) : Nat := (a + b - 1) / b

/-- A number kept in a sorted list of numbers without repeats. -/
def insertNat (n : Nat) : List Nat → List Nat
  | [] => [n]
  | x :: xs => if n < x then n :: x :: xs else if n = x then x :: xs else x :: insertNat n xs

/-- A number removed from a list of numbers. -/
def removeNat (n : Nat) (xs : List Nat) : List Nat := xs.filter (· != n)

/-- The bitwise majority of three copies (R362). -/
def majority {w : Nat} (a b c : BitVec w) : BitVec w := (a &&& b) ||| (a &&& c) ||| (b &&& c)

/-- Entry `i` of a list replaced by `f` of itself. -/
def lmod {α : Type} (xs : List α) (i : Nat) (f : α → α) : List α := xs.modify i f

end Sys2Proof.Machine
end

