-- ==== Sys2Proof/Machine/Operands.lean ====
section
/-!
DEFINITION. The number formats and the operand forms: M8, M16, F19, A32 and X24 (R77 to R79), exact values, the one
rounding of R81, binary32 ingest (R80) and the packing of vectors in words.
-/
namespace Sys2Proof.Machine

/-- The value of a floating-point encoding: a NaN, an infinity with its sign, or the exact value m × 2^e. -/
inductive Num where
  | nan
  | inf (neg : Bool)
  | fin (m e : Int)
deriving DecidableEq, Repr

/-- The floating-point formats of R77. -/
inductive Fmt where
  | m8 | m16 | f19 | a32
deriving DecidableEq, Repr

/-- Exponent bits, fraction bits and bias of a format (R77). -/
def Fmt.ebits : Fmt → Nat
  | .m8 => 4 | .m16 => 6 | .f19 => 8 | .a32 => 8
def Fmt.fbits : Fmt → Nat
  | .m8 => 3 | .m16 => 9 | .f19 => 10 | .a32 => 23
def Fmt.bias : Fmt → Nat
  | .m8 => 7 | .m16 => 31 | .f19 => 127 | .a32 => 127
/-- Width of an encoding (R77). -/
def Fmt.width (f : Fmt) : Nat := 1 + f.ebits + f.fbits
/-- Elements held by one 32-bit word (R77). -/
def Fmt.perWord : Fmt → Nat
  | .m8 => 4 | .m16 => 2 | .f19 => 1 | .a32 => 1
/-- The NaN the device writes (R78). -/
def Fmt.nanBits : Fmt → Nat
  | .m8 => 0x7F | .m16 => 0x7F00 | .f19 => 0x3FE00 | .a32 => 0x7FC00000

/-- +0, the one zero (R79). -/
def Num.zero : Num := .fin 0 0

/-- Whether a value is zero. -/
def Num.isZero : Num → Bool
  | .fin m _ => m == 0
  | _ => false

def Num.isNan : Num → Bool
  | .nan => true
  | _ => false

/-- What an encoding reads as (R78, R79): exponent field 0 reads +0. -/
def decodeNum (f : Fmt) (w : Word) : Num :=
  let bits := w.toNat % 2 ^ f.width
  let neg := bits.testBit (f.ebits + f.fbits)
  let e := bits / 2 ^ f.fbits % 2 ^ f.ebits
  let frac := bits % 2 ^ f.fbits
  let top := 2 ^ f.ebits - 1
  if e = 0 then .zero
  else if f = .m8 && e = top && frac = 7 then .nan
  else if f != .m8 && e = top then (if frac = 0 then .inf neg else .nan)
  else
    let m : Int := Int.ofNat (2 ^ f.fbits + frac)
    .fin (if neg then -m else m) (Int.ofNat e - Int.ofNat f.bias - Int.ofNat f.fbits)

/-- floor(log2 |m|) + e for a nonzero m (R82). -/
def expOf (m e : Int) : Int := Int.ofNat m.natAbs.log2 + e

/-- m × 2^e × 2^k as an integer, rounded toward zero (R82's trunc_toward_zero). -/
def truncAt (m e k : Int) : Int :=
  if 0 ≤ e + k then m * 2 ^ (e + k).toNat else Int.tdiv m (2 ^ (-(e + k)).toNat)

/-- m × 2^e × 2^k as an integer, rounded to nearest, ties to even (R75). -/
def nearestAt (m e k : Int) : Int :=
  if 0 ≤ e + k then m * 2 ^ (e + k).toNat
  else
    let d : Int := 2 ^ (-(e + k)).toNat
    let q := Int.fdiv m d
    let r := Int.fmod m d
    if 2 * r > d ∨ (2 * r = d ∧ q % 2 ≠ 0) then q + 1 else q

/-- m × 2^e × 2^k as an integer, rounded down (R98, R318). -/
def floorAt (m e k : Int) : Int :=
  if 0 ≤ e + k then m * 2 ^ (e + k).toNat else Int.fdiv m (2 ^ (-(e + k)).toNat)

/-- m × 2^e rounded to `p` significant bits as though the exponent range were unbounded (R81). -/
def roundSig (p : Nat) (trunc : Bool) (m e : Int) : Int × Int :=
  if m.natAbs.log2 + 1 ≤ p then (m, e)
  else
    let sh : Int := Int.ofNat (m.natAbs.log2 + 1 - p)
    (if trunc then truncAt m 0 (-sh) else nearestAt m 0 (-sh), e + sh)

/-- The bits of a rounded finite value inside a format's normal range. -/
def packNum (f : Fmt) (m e : Int) : Nat :=
  let x := expOf m e
  let frac := (truncAt (Int.ofNat m.natAbs) e (Int.ofNat f.fbits - x)).toNat % 2 ^ f.fbits
  (if m < 0 then 2 ^ (f.ebits + f.fbits) else 0) + (x + Int.ofNat f.bias).toNat * 2 ^ f.fbits + frac

/-- The bits of an infinity; M8 has none and takes ±448, its largest finite (R84). -/
def infBits (f : Fmt) (neg : Bool) : Nat :=
  (if neg then 2 ^ (f.ebits + f.fbits) else 0) +
    (if f = .m8 then 0x7E else (2 ^ f.ebits - 1) * 2 ^ f.fbits)

/-- Whether a rounded value lies above the format's largest finite (R78): 448 in M8. -/
def tooLarge (f : Fmt) (m e : Int) : Bool :=
  if f = .m8 then decide (expOf m e > 8) || (expOf m e == 8 && decide (truncAt (Int.ofNat m.natAbs) e (-5) > 14))
  else decide (expOf m e > Int.ofNat (2 ^ f.ebits - 2) - Int.ofNat f.bias)

/-- A value placed in a format: the bits, and whether a finite value exceeded the largest finite (R81, R84). -/
structure Packed where
  bits : Word
  ovf : Bool
deriving DecidableEq, Repr

/-- The conversion of R81 and R84 to a floating-point format, one rounding. -/
def encodeNum (f : Fmt) (trunc : Bool) (x : Num) : Packed :=
  match x with
  | .nan => ⟨BitVec.ofNat 32 f.nanBits, false⟩
  | .inf neg => ⟨if f = .m8 then BitVec.ofNat 32 f.nanBits else BitVec.ofNat 32 (infBits f neg), false⟩
  | .fin m e =>
    if m = 0 then ⟨0, false⟩
    else
      let (m', e') := roundSig (f.fbits + 1) trunc m e
      if expOf m' e' < 1 - Int.ofNat f.bias then ⟨0, false⟩
      else if tooLarge f m' e' then ⟨BitVec.ofNat 32 (infBits f (decide (m < 0))), true⟩
      else ⟨BitVec.ofNat 32 (packNum f m' e'), false⟩

/-- The product table of R83. -/
def mulNum (u v : Num) : Num :=
  match u, v with
  | .nan, _ => .nan
  | _, .nan => .nan
  | .inf a, .inf b => .inf (a != b)
  | .inf a, .fin m _ => if m = 0 then .nan else .inf (a != decide (m < 0))
  | .fin m _, .inf b => if m = 0 then .nan else .inf (decide (m < 0) != b)
  | .fin m e, .fin n d => if m = 0 ∨ n = 0 then .zero else .fin (m * n) (e + d)

/-- The exact sum of two finite values; the table of R83 for the others. -/
def addNum (u v : Num) : Num :=
  match u, v with
  | .nan, _ => .nan
  | _, .nan => .nan
  | .inf a, .inf b => if a = b then .inf a else .nan
  | .inf a, .fin _ _ => .inf a
  | .fin _ _, .inf b => .inf b
  | .fin m e, .fin n d =>
    let k := if e < d then e else d
    .fin (m * 2 ^ (e - k).toNat + n * 2 ^ (d - k).toNat) k

/-- The value with its sign exchanged. -/
def negNum : Num → Num
  | .nan => .nan
  | .inf a => .inf (!a)
  | .fin m e => .fin (-m) e

/-- The magnitude of a value. -/
def absNum : Num → Num
  | .nan => .nan
  | .inf _ => .inf false
  | .fin m e => .fin (Int.ofNat m.natAbs) e

/-- u < v, for values that are not NaN. -/
def ltNum (u v : Num) : Bool :=
  match u, v with
  | .nan, _ => false
  | _, .nan => false
  | .inf a, .inf b => a && !b
  | .inf a, .fin _ _ => a
  | .fin _ _, .inf b => !b
  | .fin m e, .fin n d =>
    let k := if e < d then e else d
    decide (m * 2 ^ (e - k).toNat < n * 2 ^ (d - k).toNat)

/-- A quotient of nonzero finite values, kept to 80 bits and a sticky bit, enough for one rounding to any format. -/
def divFin (m e n d : Int) : Num :=
  let a := m.natAbs * 2 ^ (n.natAbs.log2 + 80)
  let q := a / n.natAbs
  let s := 2 * q + (if a % n.natAbs = 0 then 0 else 1)
  .fin (if decide (m < 0) == decide (n < 0) then Int.ofNat s else -Int.ofNat s)
    (e - d - Int.ofNat (n.natAbs.log2 + 80) - 1)

/-- The largest number whose square is at most n, found in as many halvings as n has bits. -/
def isqrtLoop : Nat → Nat → Nat → Nat
  | 0, r, _ => r
  | k + 1, r, n => isqrtLoop k (if (r + 2 ^ k) * (r + 2 ^ k) ≤ n then r + 2 ^ k else r) n

def isqrt (n : Nat) : Nat := isqrtLoop (n.log2 / 2 + 1) 0 n

/-- A square root of a positive finite value, kept to more than 60 bits and a sticky bit. -/
def sqrtFin (m e : Int) : Num :=
  let odd := e % 2 ≠ 0
  let n := m.natAbs * (if odd then 2 else 1) * 2 ^ 120
  let e1 := if odd then e - 1 else e
  let r := isqrt n
  .fin (Int.ofNat (2 * r + (if r * r = n then 0 else 1))) (e1 / 2 - 60 - 1)

/-- binary32 ingest to F19 (R80): the bits and whether rounding reached infinity. -/
def ingestB32 (rc : Bool) (x : Word) : Packed :=
  match decodeNum .a32 x with
  | .nan => ⟨0x3FE00, false⟩
  | .inf s => ⟨BitVec.ofNat 32 (infBits .f19 s), false⟩
  | .fin m e => encodeNum .f19 (!rc) (.fin m e)

/-- The X24 mantissa in a word (R77). -/
def x24 (w : Word) : Int := signed 24 w.toNat

/-- The word of an X24 mantissa: [31:24] copies of bit 23 (R77). -/
def x24Word (m : Int) : Word := BitVec.ofInt 32 m

/-- An X24 mantissa saturated to its range, and whether it was (R95). -/
def satX24 (m : Int) : Int × Bool :=
  (clampInt (-(2 ^ 23)) (2 ^ 23 - 1) m, decide (m < -(2 ^ 23)) || decide (m > 2 ^ 23 - 1))

/-- The signed bit length L of R97: the least L with −2^L ≤ m < 2^L. -/
def signedLen (m : Int) : Nat :=
  let n := if m < 0 then (-m - 1).toNat else m.toNat
  if n = 0 then 0 else n.log2 + 1

/-- Element `k` of a packed vector (R77). -/
def element (f : Fmt) (ws : List Word) (k : Nat) : Word :=
  let w := wordAt ws (k / f.perWord)
  BitVec.ofNat 32 (w.toNat / 2 ^ (f.width * (k % f.perWord)) % 2 ^ f.width)

/-- 32 elements packed into words (R77). -/
def packVector (f : Fmt) (es : List Word) : List Word :=
  (upto (es.length / f.perWord)).map fun i =>
    BitVec.ofNat 32 (((upto f.perWord).map fun j =>
      (wordAt es (i * f.perWord + j)).toNat % 2 ^ f.width * 2 ^ (f.width * j)).sum)

/-- A 64-bit solver-mode accumulator from its two words (R92). -/
def acc64 (lo hi : Word) : Int := (dword lo hi).toInt

/-- The two words of a 64-bit solver-mode accumulator: low word first, row r of a vector at words 2r and 2r + 1. The rules give no layout (DESIGN
CHOICE, log entry 95). -/
def acc64Words (a : Int) : List Word :=
  let x := BitVec.ofInt 64 a
  [loWord x, hiWord x]

/-- An 8-bit two's-complement exponent field. -/
def exp8 (x : BitVec 8) : Int := x.toInt

end Sys2Proof.Machine
end

