-- ==== Sys2Proof/Machine/Memory.lean ====
section
/-!
DEFINITION. Memory as a list of (address, byte) pairs in one canonical form: addresses strictly rising, no pair that
holds the byte an unlisted address reads as. The internal space (R473) reads 0 where nothing is listed (DESIGN CHOICE,
log entry 4); the attached flash reads 0xFF, its erased value (R365 table, log entry 5).
-/
namespace Sys2Proof.Machine

/-- The byte at `a`; `d` where the list has none. -/
def cellGet (d : Byte) : List Host.Cell → Nat → Byte
  | [], _ => d
  | (k, v) :: m, a => if a = k then v else cellGet d m a

/-- A byte put in its place among rising addresses. -/
def cellPut : List Host.Cell → Nat → Byte → List Host.Cell
  | [], a, b => [(a, b)]
  | (k, v) :: m, a, b => if a < k then (a, b) :: (k, v) :: m else if a = k then (a, b) :: m else (k, v) :: cellPut m a b

/-- The byte at `a` replaced, keeping the canonical form for the default `d`: writing the default removes the pair. -/
def cellSet (d : Byte) (m : List Host.Cell) (a : Nat) (b : Byte) : List Host.Cell :=
  if b = d then m.filter fun c => c.1 != a else cellPut m a b

/-- Every listed address lies above `lo` (when one is given), they rise strictly, and none holds `d`. -/
def cellWf (d : Byte) : Option Nat → List Host.Cell → Bool
  | _, [] => true
  | lo, (k, v) :: m =>
    (match lo with | none => true | some l => decide (l < k)) && v != d && cellWf d (some k) m

/-- The canonical form of the internal memory. -/
def Memory.wf (m : List Host.Cell) : Bool := cellWf 0 none m

/-- `n` bytes from `a`. -/
def cellRead (d : Byte) (m : List Host.Cell) (a n : Nat) : List Byte := (upto n).map fun i => cellGet d m (a + i)

/-- Bytes stored from `a`. -/
def cellWrite (d : Byte) (m : List Host.Cell) : Nat → List Byte → List Host.Cell
  | _, [] => m
  | a, b :: bs => cellWrite d (cellSet d m a b) (a + 1) bs

/-- `n` bytes from `a` set to the default (an erase, or a zero-fill). -/
def cellClear (m : List Host.Cell) (a n : Nat) : List Host.Cell :=
  m.filter fun c => !(decide (a ≤ c.1) && decide (c.1 < a + n))

/-- The word at byte address `a`. -/
def memWord (m : List Host.Cell) (a : Nat) : Word := bytesWord (cellRead 0 m a 4)

/-- `n` words from byte address `a`. -/
def memWords (m : List Host.Cell) (a n : Nat) : List Word := (upto n).map fun i => memWord m (a + 4 * i)

/-- A word stored at byte address `a`. -/
def memSetWord (m : List Host.Cell) (a : Nat) (x : Word) : List Host.Cell := cellWrite 0 m a (wordBytes x)

/-- Words stored from byte address `a`. -/
def memSetWords (m : List Host.Cell) : Nat → List Word → List Host.Cell
  | _, [] => m
  | a, x :: xs => memSetWords (memSetWord m a x) (a + 4) xs

end Sys2Proof.Machine
end

