-- ==== Sys2Proof/Config.lean ====
section
/-!
DEFINITION. What the manual leaves open: free values, each an opaque constant without a body, so that no proof can
see which value it is. Every one is named in a row of notes/assumptions.
-/
namespace Sys2Proof.Config

/-- The next challenge from the conditioned entropy source (R412), by the count of free values drawn so far. -/
opaque entropy : Nat → BitVec 64
/-- The result word of an operation on operands for which the manual states no result, by the count of free values
drawn so far and the operand words. -/
opaque openWord : Nat → List (BitVec 32) → BitVec 32
/-- A byte of the dump whose section layout the manual does not give (R441), by dump offset and draw count. -/
opaque dumpByte : Nat → Nat → BitVec 8
/-- Whether a word of W memory lies in the factor-cache region of a program on a Frond (R168): by program, Frond and word. -/
opaque cacheWord : Nat → Nat → Nat → Bool
/-- Where staging puts word i of a program's warm start or filter state in a Frond (R142, R175 give no place): a byte offset of the
Frond's region, by program, Frond and i. -/
opaque stageAt : Nat → Nat → Nat → Nat
/-- Where word i of a program's template lies in a Frond (R142, R175 name W memory only): a word of W, by program, Frond and i. -/
opaque templateAt : Nat → Nat → Nat → Nat

/-- Where in the firmware region the code (false) and the data (true) of a Hearth core begin that fill its buffers (R25 gives no place): a
byte offset of the region (log entry 88). -/
opaque fwAt : Nat → Bool → Nat

/-! ### What an image holds in layouts the manual does not give -/

/-- What a field of a kernel descriptor counts, each with its limits (R123, R124, R130, R159, R182). -/
inductive KernelSize where
  /-- Right-hand sides of one solve. -/
  | rhs
  /-- Rows of one strip of an update. -/
  | stripRows
  /-- Augmented columns. -/
  | augmented
  /-- Unknowns of a dense or triangular system, or of an estimation program. -/
  | order
  /-- Unknowns of a sparse system, or variables of a stagewise program. -/
  | sparseOrder
  /-- Columns of a supernode. -/
  | supernode
  /-- Rows of a batch. -/
  | batchRows
  /-- Rows of one update. -/
  | updateRows
  /-- Dimension of the process noise. -/
  | noise
  /-- Unknowns of a positioning program, its users, sites and measurements. -/
  | unknowns
  | users
  | sites
  | measurements
  /-- Steps of a horizon. -/
  | horizon
deriving DecidableEq, Repr

/-- A field of a kernel descriptor in the data of an image: the word, counted from the record's first, its bits, and what it counts. -/
structure KernelField where
  word : Nat
  hi : Nat
  lo : Nat
  size : KernelSize
deriving DecidableEq, Repr

/-- The kernel descriptors that a SCRATCH record carries (R123, R124, R130; log entry 77): by Frond, byte offset and bytes. -/
opaque kernelFields : Nat → Nat → List (BitVec 8) → List KernelField

/-- Whether the K of a one-Frond FORM 1 program is dense (R182; log entry 77), by the words of its record. -/
opaque denseK : List (BitVec 32) → Bool

/-- Where word i of x lies that a program's last ITMARK named (R172, R178): which of its Fronds, in the record's order, and a byte offset of
that Frond's region, by program, the words of the ITMARK and i (log entry 91). -/
opaque iterateAt : Nat → List (BitVec 32) → Nat → Nat × Nat

/-- Whether a priming by the firmware fails (R169; log entry 23), by the count of free values drawn so far, Frond and program. -/
opaque primeFails : Nat → Nat → Nat → Bool

/-- Whether a priming by the firmware replaces a pivot and whether it saturates (R171; log entry 23), by Frond and program: K is of image
constants alone. -/
opaque primeFlags : Nat → Nat → Bool × Bool

/-- Users of a positioning program (R147, R148), whose number no record of the image holds (log entry 78). -/
opaque usersOf : Nat → Nat

/-- Whether the image defines a site for a positioning program (R148; log entry 78). -/
opaque siteDefined : Nat → Nat → Bool

/-- Whether the input of a KIND 1, 2 or 3 program holds records beyond a size limit, which are ignored (R159): the manual gives no layout of
them; by program and the bytes read (log entry 78). -/
opaque inputBeyond : Nat → List (BitVec 8) → Bool

end Sys2Proof.Config
end

