-- ==== Sys2Proof/Machine/State.lean ====
section
/-!
DEFINITION. The state of the SW-880 as plain data, its reset, and the reasons a command can stop. Each structure names
the rules that give it; INVENTORY.md lists every field with its width and reset value.
-/
namespace Sys2Proof.Machine

/-- What is wrong with a stored word (R236, R482): one flipped bit, which a read corrects (memory keeps the corrected
data), or more, which no read corrects (memory holds the raw word). Words not listed are sound. -/
inductive EccMark where
  | single (b : Fin 39)
  | uncorrectable
deriving DecidableEq, Repr

/-! ### Boot, lock and flash (R361 to R387) -/

/-- Where the boot controller stands in the cold-start sequence (R363, R375, R376, R379, R387). -/
inductive BootPhase where
  | held
  | noRefclk
  | pllWait
  | sfdp
  | octal
  | calib
  | headers
  | verify
  | load
  | fwStart
  | digest
  | lock
  | priming
  | ready
  | stopped
deriving DecidableEq, Repr

/-- One of the two image slots (R364). -/
inductive Slot where
  | a | b
deriving DecidableEq, Repr

/-- A clamp note (R377). -/
structure Note where
  count : BitVec 16
  word : BitVec 8
  cls : BitVec 4
deriving DecidableEq, Repr

/-- What a verify pass found of a slot (R374): the digest it hashed and whether the slot is valid. -/
structure Verified where
  slot : Slot
  digest : List Byte
  valid : Bool
deriving DecidableEq, Repr

/-- The boot controller, its control block (R382) and the lock (R379). `lock0` to `lock2` are the three volatile lock
copies (R362). `porHeld` says that the reset now held is a power-on reset; `resetPin` that RESET_N or POR_N is asserted; `released` that
it was released when the boot could not yet start, with REFCLK and BSREF as sampled then. -/
structure Boot where
  phase : BootPhase
  code : BitVec 8
  slot : Slot
  ready : Bool
  aReason : BitVec 4
  bReason : BitVec 4
  clamps : BitVec 8
  dupRec : BitVec 4
  imgGen : BitVec 64
  dirSkip : BitVec 16
  imgDig : List Byte
  imgSlotLen : Nat
  lock0 : Bool
  lock1 : Bool
  lock2 : Bool
  late : Bool
  majFix : Bool
  majCnt : BitVec 8
  lateAddr : BitVec 40
  lateReq : BitVec 5
  lateXC : Option Nat
  lateThis : Option (Nat × BitVec 40 × BitVec 5)
  devNote : Note
  notes : List (Nat × Note)
  cand : List Slot
  verified : List Verified
  chosen : Slot
  lower : Bool
  erase64K : Bool
  buildId : List Byte
  porHeld : Bool
  resetPin : Bool
  released : Option (Bool × Bool)
  phaseAt : Time
  progDigest : List Byte
  wDigests : List (List Byte)
  bootDone : Bool
deriving DecidableEq, Repr

/-- The staging block and Hearth core 3's staging work (R385, R386). `cmd` is the command being carried out with its
clamped operands; `result` is set when its flash work completes. `finalHdr` and `pendResult` are what a FINALIZE began
with. -/
structure Staging where
  cmdReg : BitVec 4
  foff : BitVec 27
  len : BitVec 27
  boff : BitVec 24
  busy : Bool
  session : Bool
  result : BitVec 4
  rej : BitVec 16
  header : List Byte
  finalHdr : List Byte
  pendResult : BitVec 4
deriving DecidableEq, Repr

/-! ### Fuses and security (R362, R407 to R421) -/

/-- The fuses: what has been programmed (`written` lists the fuse words), and the copies of the triplicated items as sensed at the last power-on
reset (R362, R416); LIFE as sensed lies in `Session`. -/
structure Fuses where
  hash : Vector (List Byte) 4
  written : List Nat
  life : Vector Bool 3
  revoked : Vector (BitVec 4) 3
  dumap : Vector (BitVec 64) 3
  devid : BitVec 64
  sRevoked : Vector (BitVec 4) 3
  sDumap : Vector (BitVec 64) 3
  sHash : Vector (List Byte) 4
deriving DecidableEq, Repr

/-- The security states; R382 encodes them 0, 1 and 2. -/
inductive Cur where
  | opened | service | sealed
deriving DecidableEq, Repr

/-- LIFE as sensed, CUR in its three copies, and the session that only the causes of R408 change (R362, R407, R411, R413). -/
structure Session where
  sLife : Vector Bool 3
  cur0 : Cur
  cur1 : Cur
  cur2 : Cur
  scope : BitVec 8
  remain : BitVec 16
  remainAt : Time
deriving DecidableEq, Repr

/-- The rest of the security block (R421), the SECURITY record (R409) and the token under check (R412). -/
structure Security where
  secpol : Word
  svcKey : List Byte
  chal : BitVec 64
  devid : BitVec 64
  tokLock : Bool
  tokFail : BitVec 4
  tapRef : BitVec 16
  svcn : BitVec 16
  tokenBlock : List Byte
  checking : List (List Byte × BitVec 64 × Time)
  svcexitAt : Option Time
deriving DecidableEq, Repr

/-- The instructions of the public TAP (R414). -/
inductive TapInstr where
  | extest | samplePreload | idcode | clamp | highz | bootstat | chal | token | svcexit | dbgsel | bypass
deriving DecidableEq, Repr

/-- The public and the private TAP (R414, R415, R464): the instruction in force, the data register as captured, the
boundary cells, and DBGACC's result. -/
structure Tap where
  ir : TapInstr
  dr : List Bool
  boundary : BitVec 141
  pinsDriven : Bool
  pinsHighZ : Bool
  linked : Bool
  linkNext : Bool
  unlinkNext : Bool
  data : Word
  stat : BitVec 3
  busyUntil : Time
deriving DecidableEq, Repr

/-! ### Power (R388 to R406) -/

/-- Group states (R389). -/
inductive PState where
  | off | cold | warm | proofUp | proofDown | active | halted
deriving DecidableEq, Repr

/-- A request that waits for the sequencer (R392). -/
inductive PReq where
  | wake | toWarm | toCold
deriving DecidableEq, Repr

/-- One Frond group's power (R389 to R398). Currents are in 1/80 A (0.2 A is 16, 1.5 A is 120, 9.5 A is 760). -/
structure Group where
  st : PState
  pll : Bool
  pllAt : Time
  cur : Nat
  req : Option (PReq × Time)
  rewake : Bool
  idle : BitVec 8
  ready : Stamp
deriving DecidableEq, Repr

/-- What the sequencer is doing (R392, R403): nothing, a clock step, a ramp or a hold on the way to a group state, or an
uncore ramp. -/
inductive SeqStep where
  | idle
  | clock (g : GroupId) (dst : PState)
  | ramp (g : GroupId) (dst : PState)
  | hold (g : GroupId) (dst : PState)
  | uncore (down : Bool)
deriving DecidableEq, Repr

/-- The power governor (R391 to R398) and the thermal trip (R402). The step in progress ends at `stepAt`; a ramp reaches
`rampTo` then. `named` are the groups a request of the present window names, `deferred` those whose wake waits for the
next window (R395). -/
structure Power where
  cfg0 : Word
  cfg1 : Word
  groups : Vector Group 16
  seq : SeqStep
  stepAt : Time
  rampFrom : Nat
  rampTo : Nat
  uncore : Nat
  fabricFast : Bool
  wakes : BitVec 16
  sleeps : BitVec 16
  defer : BitVec 16
  lastDrop : BitVec 2
  thermLatch : Bool
  tripAt : Time
  resetting : Bool
  windowOpen : Bool
  named : List Nat
  deferred : List Nat
deriving DecidableEq, Repr

/-! ### Timing and pins (R457 to R466) -/

structure Timing where
  refsel : Bool
  refok : Bool
  refLost : Bool
  refBackAt : Time
  lostAt : Time
  lostSince : Bool
  stbStamp : Stamp
  stbCnt : Word
  stbShort : BitVec 16
  stbAt : Option Time
  stbSinceLock : Bool
  ppsStamp : Stamp
  ppsCnt : Word
  ppsDev : BitVec 16
  ppsSeen : Bool
deriving DecidableEq, Repr

/-! ### Loop Engine (R309 to R328) -/

/-- Channel states (R324), coded 0 to 4. -/
inductive LeState where
  | off | stopped | run | decay | efault
deriving DecidableEq, Repr

inductive LeDir where
  | none | fwd | rev
deriving DecidableEq, Repr

/-- One Loop Engine channel. `period` is the AT count at which the current PWM period began, with the direction and duty
fixed for it; `blank` holds the outputs low from an on-time limit to the next period start after ELIM clears (R323).
`accAt` is the AT count up to which ONCNT has been added up. -/
structure LeChan where
  cfg : Vector Word 5
  bank0 : Vector Word 16
  bank1 : Vector Word 16
  abank : Bool
  st : LeState
  dir : LeDir
  elim : Bool
  pend : Bool
  dtwin : BitVec 5
  cmdSeq : BitVec 8
  count : Word
  err : Word
  dutyNow : BitVec 12
  onCnt : BitVec 20
  dtTot : BitVec 16
  elims : BitVec 16
  swaps : BitVec 16
  stale : BitVec 16
  inputs : List Word
  returned : Option (List Word)
  awaiting : Bool
  readId : Nat
  readAt : Option Nat
  inTransit : Option (List Word × Bool)
  sampleAt : Option Nat
  first : Bool
  toEfault : Bool
  pdir : LeDir
  period : Option Nat
  blank : Bool
  accAt : Nat
  sync : List (Bool × Bool)
  pair : Bool × Bool
  runA : Nat
  runB : Nat
  dirWas : LeDir
  late : List (Option (Fin 16 × Word))
  lateAt : Nat
  quadAt : Option Nat
  pinsAt : Option Nat
deriving DecidableEq, Repr

/-! ### Fronds and contexts (chapters 3, 4, 8, 9, 11) -/

/-- Context states (R283), coded 0 to 7. -/
inductive CtxState where
  | idle | staging | ready | running | saving | saved | restoring | teardown
deriving DecidableEq, Repr

/-- Why a context is to be torn down with a fault, in the precedence of R89. -/
inductive FaultKind where
  | ecc | window | nan | nv | dz | of | idz
deriving DecidableEq, Repr

/-- What an instruction waits on (R292): nothing, a tag, a circular region, a scoreboard range. -/
inductive WaitKind where
  | none | tag | region | range
deriving DecidableEq, Repr

/-- A block of the Crumb, the array or an engine (R432): since when, the DATA of its WAIT event, whether that was written. -/
structure Blk where
  since : Time
  data : Word
  logged : Bool
deriving DecidableEq, Repr

/-- A marked scoreboard range (R243, R246, R255); `len` 0 is the whole memory. -/
structure SbRange where
  base : BitVec 16
  mem : Mem
  wr : Bool
  len : BitVec 7
deriving DecidableEq, Repr

/-- The first-NaN record (R90). -/
structure Fnr where
  valid : Bool
  kind : BitVec 2
  row : BitVec 5
  col : BitVec 5
  step : BitVec 5
  opfmt : BitVec 2
  layer : BitVec 16
  operator : BitVec 16
  iaddr : BitVec 18
deriving DecidableEq, Repr

/-- One of the two tile registers as a context sees it (R72, R291). `pendArgs` names a load in progress, `rows` the words it has moved and
`bad` an uncorrectable one among them; `loadAt` is its end, known from its last slot on (R217). -/
structure Tile where
  valid : Bool
  solver : Bool
  fmt : BitVec 2
  waddr : BitVec 16
  transposed : Bool
  words : List Word
  issued : Bool
  loadAt : Option Time
  pendArgs : Option TileArgs
  rows : List Word
  bad : Bool
  mark : List Nat
deriving DecidableEq, Repr

/-- The home of a buffered store (R301, R302). -/
inductive Home where
  | scratch | shared | config
  | remote (node : Nat)
deriving DecidableEq, Repr

/-- An entry of the store buffer (R302): `sent` when it has left for its home, `done` when its home has written it. -/
structure StoreEnt where
  home : Home
  addr : Nat
  data : Word
  sent : Bool
  done : Bool
  id : Nat
deriving DecidableEq, Repr

/-- A load or an atomic whose data has not returned from outside the Frond (R305, R484); no `rd` once a later instruction has written
the register (log entry 28). -/
structure LoadWait where
  home : Home
  addr : Nat
  rd : Option Reg
  id : Nat
  amo : Bool
deriving DecidableEq, Repr

/-- A Crumb instruction held at its issue until its CRD slot (R85, R221, R484): a load into `rd`, or a store whose tag kind is PUT. -/
structure SlotWait where
  m : Mem
  word : Nat
  tag : TagKind
  rd : LoadDst
  put : Option Word
  issue : Issue
deriving DecidableEq, Repr

/-- An engine command in its queue (R221, R243): words moved, the piece now held in the engine, and the access awaited; of a strided
or transposed read the slots it has taken and the words it has gathered (R216, R217). `mark` lists the scoreboard entries it marked. -/
structure EngCmd where
  args : EngArgs
  done : Nat
  buf : Option (List Word)
  busy : Option Nat
  poison : Bool
  slots : Nat
  part : List Word
  mark : List Nat
  blk : Option Blk
deriving DecidableEq, Repr

/-- What the hardware set in one FC in registers that are cleared by writing 1 (R86, R91, R119): bits of ASTAT, the first-NaN record and the
pivot record it had to capture. -/
structure Fresh where
  fc : Nat
  bits : BitVec 8
  fnr : Option Fnr
  piv : Option (Word × Word)
deriving DecidableEq, Repr

/-- The first uncorrectable word of an FC as ECCADDR captures it (R238). -/
structure EccCap where
  fc : Nat
  word : BitVec 16
  mem : BitVec 2
  scrub : Bool
deriving DecidableEq, Repr

/-- A hardware context (R90, R118, R188, R255, R283, R291, R308). `lost` is a stall counted by FC: for want
of a range entry or not, and the FC counted up to (R245); `waitOn` the access that its tag last blocked (R298); `cresetAt` the lines that the CRESET at hand has emptied (R226); `swept` says that
teardown has done steps 7 and 8 (R299). -/
structure Ctx where
  st : CtxState
  preq : Bool
  areq : Bool
  stopReq : Bool
  preemptNow : Bool
  pwaitAt : Time
  kind : Bool
  waitk : WaitKind
  blk : Option Blk
  prog : BitVec 12
  waitq : BitVec 16
  cmd : BitVec 3
  job : Option Nat
  g : Vector Word 32
  pc : CodeAddr
  ctl : Vector Word 7
  store : List StoreEnt
  load : Option LoadWait
  slotWait : Option SlotWait
  astat : BitVec 8
  trapen : BitVec 5
  xexp : Word
  mulfix : Bool
  fnr : Fnr
  ctxid : Word
  scale : Vector (BitVec 19) 32
  rmax : Vector Word 32
  xmax : Vector Byte 32
  piveps : Word
  pivrcp : BitVec 8
  pivcnt : Word
  pivrec0 : Word
  pivrec1 : Word
  fdepth : BitVec 4
  tact : Stamp
  armed : Bool
  fired : Bool
  final : Bool
  itcnt : BitVec 16
  holdProg : BitVec 12
  holdDemoted : Bool
  mark : List Word
  mode : Option Bool
  tiles : Vector Tile 2
  fetchQ : List EngCmd
  drainQ : List EngCmd
  sbEn : Bool
  sb : Vector (Option SbRange) 24
  sbStalls : BitVec 16
  sbNinth : BitVec 16
  npre : BitVec 8
  yielded : Bool
  delivering : Bool
  noOutput : Bool
  atCheap : Option (BitVec 6)
  fault : Option FaultKind
  completed : Bool
  stamp : Stamp
  tearAt : Time
  torn : Bool
  divert : Bool
  fcRun : Nat
  lastRun : Option Time
  fresh : Fresh
  lost : Option (Bool × Nat)
  waitOn : Option (Mem × Nat × TagKind)
  cresetAt : Nat
  swept : Bool
deriving DecidableEq, Repr

/-- A circular region descriptor (R223). -/
structure Circ where
  en : Bool
  mem : Bool
  ctx : CtxId
  prod : BitVec 3
  cons : BitVec 3
  base : BitVec 11
  size : BitVec 11
  head : BitVec 12
  tail : BitVec 12
  pstall : BitVec 16
  cstall : BitVec 16
deriving DecidableEq, Repr

/-- An inbound window (R227). -/
structure FWin where
  opened : Bool
  mem : BitVec 2
  mode : BitVec 2
  ctx : CtxId
  circ : Fin 8
  xdev : Bool
  base : BitVec 16
  limit : BitVec 16
  srcf : BitVec 8
  srcdev : BitVec 24
  acc : BitVec 16
  ref : BitVec 16
deriving DecidableEq, Repr

/-- Where a line for a Frond came from (R227, R228): the sending unit, the 24-bit path of its device (none: this
device), its partition, and, for a line of this device, the sending context, with the id of the transfer to acknowledge. -/
structure LineFrom where
  part : PartId
  unit : BitVec 8
  path : Option (BitVec 24)
  node : Nat
  ctx : CtxId
  id : Nat
  job : Option Nat
deriving DecidableEq, Repr

/-- A line in a Frond's inbound buffer (R229): first word of its 32, the words present. -/
structure InLine where
  sender : LineFrom
  mem : Mem
  word : Nat
  data : List (Option Word)
deriving DecidableEq, Repr

/-- A scratchpad access on its 6 FC way back (R212). -/
inductive Flight where
  | load (c : CtxId) (rd : Option Reg) (x : Word)
  | engRead (c : CtxId) (e : Engine) (ws : List Word) (poison : Bool)
  | engAck (c : CtxId) (e : Engine) (n : Nat)
  | line (ws : List Word)
  | scale (c : CtxId) (ws : List Word)
  | storeAck (c : CtxId)
deriving DecidableEq, Repr

/-- The iterative multiplier or the divider with an operation in progress (R100 to R107, R113). -/
structure UnitOp where
  ctx : CtxId
  outs : List (Reg × Word)
  astat : BitVec 8
  trap : Option FaultKind
  ready : Time
deriving DecidableEq, Repr

/-- An array instruction between issue and retirement (R71). -/
structure MmaOp where
  ctx : CtxId
  args : MmaArgs
  out : List (List Word)
  ready : Time
  mark : List Nat
deriving DecidableEq, Repr

/-- A line that an array instruction has read and whose ARR slot is still to come: its tag, or the pointer of its region, changes there (R219,
R224); `mma` tells an MMA from an instruction that writes when it issues. -/
structure ArrLine where
  ctx : CtxId
  m : Mem
  word : Nat
  tag : TagKind
  circ : Option (Fin 8)
  mma : Bool
deriving DecidableEq, Repr

/-- Range entries of an array instruction that writes when it issues, until its end (R243). -/
structure ArrHold where
  ctx : CtxId
  mark : List Nat
  at_ : Time
deriving DecidableEq, Repr

/-- A scratchpad access of the firmware that waits for an EXT slot (R215, R231): words of a line to write; a word of W to read for one to
write; the tag of a line to set EMPTY (R299). `c` names the context it is made for. -/
inductive FwAccess where
  | write (c : Option CtxId) (m : Mem) (word : Nat) (ws : List (Option Word))
  | copy (c : Option CtxId) (src : Nat) (m : Mem) (word : Nat)
  | clear (c : Option CtxId) (line : Nat)
deriving DecidableEq, Repr

/-- A Frond (R19, R208 to R240). FULL tags and touched bits are sorted lists of lines: A line l is l, P line l is
1280 + l (R218, R248). Of the tables for W, A and P, `taken` holds the last slot that carried an access, counted from the start of time
(R214), and `scrubFc` the last FC in which a slot went to scrub (R237). `eccNew` is what ECCADDR had to capture in its FC (R238), `fwPend` the
firmware accesses that wait for EXT slots (R215), `resumeAt` the W phase 0 before which nothing of a resumed context takes a slot (R213). -/
structure Frond where
  cur : Option CtxId
  ctxs : Vector Ctx 4
  code : CodeAddr
  codelen : BitVec 19
  pwrmap : Word
  scrubEn : Bool
  gshift : BitVec 3
  corr : BitVec 16
  uncorr : BitVec 16
  eccWord : BitVec 16
  eccMem : BitVec 2
  eccScrub : Bool
  eccValid : Bool
  circ : Vector Circ 8
  fwin : Vector FWin 16
  full : List Nat
  touched : List Nat
  sbmix : BitVec 16
  scrubW : Nat
  scrubA : Nat
  scrubP : Nat
  wback : List Nat
  inbound : List InLine
  held : List (InLine × Time)
  refusals : List (CtxId × Option Nat × Word)
  flight : List (Time × Flight)
  mul : Option UnitOp
  div : Option UnitOp
  mma : List MmaOp
  arrFree : Time
  arrMode : Option Bool
  line : List Word
  issueAt : Time
  busySince : Time
  regReady : List (Nat × Time)
  cacheValid : List Nat
  cachePivb : List Nat
  cacheSat : List Nat
  taken : Vector (Option Nat) 3
  scrubFc : Vector (Option Nat) 3
  eccNew : Option EccCap
  fwPend : List FwAccess
  resumeAt : Time
  arrLines : List ArrLine
  arrHold : List ArrHold
deriving DecidableEq, Repr

/-! ### Spores, queues, rings (chapters 2, 7) -/

/-- A data window of a partition (R370): base in 64 B units from the image region base, size in words. -/
structure Win where
  base : BitVec 18
  hostr : Bool
  hostw : Bool
  size : BitVec 24
deriving DecidableEq, Repr

/-- A partition as its record defines it (R370), and its counters (R70, R207, R423). -/
structure Partition where
  en : Bool
  qbase : BitVec 20
  qcount : BitVec 21
  rfirst : BitVec 11
  rcount : BitVec 12
  rcbwin : BitVec 4
  rcboff : BitVec 24
  win : Vector Win 16
deriving DecidableEq, Repr

/-- PCNT of one partition (R423); the fields are in the order of the register's words. -/
structure Pcnt where
  accept : Word
  refuse : Word
  unmatch : BitVec 16
  late : BitVec 16
  waitSum : Word
  preSum : Word
  demote : BitVec 16
  trunc : BitVec 16
  fbModel : BitVec 16
  fbShift : BitVec 16
  fbNopr : BitVec 16
  peerLost : BitVec 16
  done : Word
deriving DecidableEq, Repr

/-- Where a spore buffer entry stands (R39, R51): reserved until stage 2, holding its spore, taken by a job, holding a
record that waits for its ring, or freed behind an older entry still counted. -/
inductive EntrySt where
  | reserved | buffered | taken | waiting | freed
deriving DecidableEq, Repr

/-- A counted spore buffer entry: what the device knows of it besides the 64 B in the Shared Store. `spore` is held here
until stage 2 writes it. -/
structure Entry where
  queue : QueueId
  idx : Fin 64
  st : EntrySt
  part : PartId
  accept : Stamp
  acceptAt : Time
  clamp : Bool
  toNull : Bool
  spore : List Word
deriving DecidableEq, Repr

/-- Where a spore stands between its admission and its record (R34, R185, R195). -/
inductive JobSt where
  | admitted
  | placed
  | delivering
  | stopping
  | substitute
  | finishing
deriving DecidableEq, Repr

/-- The part of a job that is a stretch or a sharded spore (R346 to R349). -/
inductive ShardSt where
  | none
  | stretch (lo hi w k : Nat) (manager : Nat)
  | sharded (holders : List Nat) (outcomes : List (Nat × Byte × Byte × BitVec 7 × Byte)) (haloClamp : Bool)
deriving DecidableEq, Repr

/-- A spore that a program holds, or a substitute being delivered, until its record is formed. `dueAt`: when its action or its
substitute fell due (R201); `cancelStatus`: what a cancel made its status (R203); `areaAt`, `stateAt` and `outAt`: its run or substitute has written a word of the prior-solution area, of the state data, of the output window; `begun`: what comes before the output window
has been done, `hdrAt`: the header was written then, `areaWas`: the area before it was advanced then (R144, R176). -/
structure Job where
  id : Nat
  queue : QueueId
  idx : Fin 64
  part : PartId
  spore : List Word
  accept : Stamp
  clamp : Bool
  req : BitVec 12
  hold : BitVec 12
  demoted : Bool
  st : JobSt
  tact : Stamp
  fired : Bool
  started : Option Stamp
  fault : Option FaultKind
  status : Byte
  iter : Byte
  pivb : Bool
  sat : Bool
  nanrec : Bool
  preempt : BitVec 8
  finish : Stamp
  line : Nat
  dueAt : Time
  cancelled : Bool
  cancelStatus : Byte
  primes : List FrondId
  stateK : Nat
  digestItems : Option (List Byte)
  digestDone : Bool
  shard : ShardSt
  peerLost : Bool
  areaAt : Bool
  stateAt : Bool
  outAt : Bool
  begun : Bool
  hdrAt : Bool
  areaWas : Option (List Word)
deriving DecidableEq, Repr

/-- A completion record that waits for its ring or for the port (R39, R66, R488). -/
structure RingRec where
  ring : Nat
  queue : QueueId
  idx : Fin 64
  part : PartId
  irq : Bool
  slots : Nat
  replay : Bool
  direct : Option (List Word)
  waited : Bool
  tail : Nat
deriving DecidableEq, Repr

/-- The device's side of a completion ring (R65 to R68): as latched at the last enable, the write index and pass, its view of HEAD (R67), the
records written to the port whose writes have not all left, and the coalescing count. -/
structure Ring where
  enabled : Bool
  base : BitVec 64
  size : BitVec 5
  wr : BitVec 16
  oddPass : Bool
  head : BitVec 16
  out : List RingRec
  unsig : Nat
  unsigAt : Time
deriving DecidableEq, Repr

/-- A work-list entry (R55): word index, mask, and the strobe count when it was published. -/
structure WorkEntry where
  word : Nat
  mask : BitVec 64
  born : Nat
deriving DecidableEq, Repr

/-- The work-list builder (R52 to R57): summaries, the build in progress (its strobe stamp, lines whose read-and-clear has not reached its
port, lines issued in order with the words of those returned, lines read), and the list; `setXC` holds the bits set in an XC, with what
they were before it (R53). -/
structure Builder where
  l1 : List Nat
  want : Option Stamp
  again : Option Stamp
  active : Bool
  scanned : Bool
  toIssue : List Nat
  issued : List (Nat × Option (List Word))
  lineAt : List (Nat × List Word)
  list : List WorkEntry
  setXC : Option (Nat × List (QueueId × Bool))
deriving DecidableEq, Repr

/-! ### Fabric (chapter 10) -/

/-- A request at a lottery port: arrival time, age, where it is held (a pending entry, or a router input's register); `waits`: it
waits in the input buffer behind a held request (R265, R267); `oldAge`: its age before the last commit (R271). -/
structure Contender where
  id : Nat
  part : Option PartId
  at_ : Time
  age : Nat
  input : Option (Fin 5)
  ref : Nat
  waits : Bool
  oldAge : Nat
deriving DecidableEq, Repr

/-- A lottery port (R258, R262 to R268). `granted` holds the transfers granted and not yet performed; `creditStart` the credits at the start
of the XC `startXC`, `accXC` the XC last accrued (R273); `lastAt` is the moment of the last contest (R258), `usedXC` the XC in which a
Shared Store port last moved a line (R23, R482). -/
structure Port where
  lfsr : Word
  cons : List Contender
  granted : List (Nat × Nat)
  aged : BitVec 16
  qfull : BitVec 16
  grants : Word
  credit : Vector Int 8
  creditStart : Vector Int 8
  startXC : Option Nat
  accXC : Option Nat
  lastAt : Option Time
  usedXC : Option Nat
  scrub : Nat
  wback : List Nat
  oldLfsr : Word
deriving DecidableEq, Repr

/-- A regulator's settings and counts (R273, R280). -/
structure Reg273 where
  rate : BitVec 16
  burst : BitVec 16
  en : Bool
  slack : Bool
  held : BitVec 16
  slackg : BitVec 16
deriving DecidableEq, Repr

/-- The ticket, AGE and SEED values, once live and once in shadow (R269 to R271). -/
structure Tickets where
  ss : Vector Byte 32
  lk : Vector Byte 32
  pe : Vector Byte 9
  seed : Word
  ageSS : BitVec 12
  ageLK : BitVec 12
  agePE : BitVec 12
deriving DecidableEq, Repr

/-- What a transfer through a port does when it is performed. A `recordRead` fetches a record for the TLPs `ids`, which hold no bytes
until then. -/
inductive Xfer where
  | load (f : FrondId) (c : CtxId) (id : Nat) (addr : Nat)
  | store (f : FrondId) (c : CtxId) (id : Nat) (addr : Nat) (x : Word)
  | engRead (f : FrondId) (c : CtxId) (e : Engine) (addr n : Nat)
  | engWrite (f : FrondId) (c : CtxId) (e : Engine) (addr : Nat) (ws : List Word) (output : Bool) (job : Option Nat)
  | leInput (ch : ChanId) (id : Nat)
  | amo (f : FrondId) (c : CtxId) (id : Nat) (addr : Nat) (op : AmoOp) (x y : Word)
  | saveLine (f : FrondId) (c : CtxId) (addr : Nat) (ws : List Word)
  | restoreLine (f : FrondId) (c : CtxId) (addr n : Nat)
  | bitmapLine (line : Nat)
  | hostLine (staging : Bool) (addr : Nat) (ws : List (Word × Word))
  | hostRead (rd : Nat) (addr n : Nat)
  | recordRead (ids : List Nat) (addr n : Nat) (oddPass : Bool)
  | linkLine (link : LinkId) (f : Frame) (ws : List (Option Word))
  | linkRead (link : LinkId) (f : Frame) (addr n : Nat)
  | tlp (fn : FnId) (addr : Nat) (bytes : List Byte) (ring : Option Nat)
  | message (fn : FnId) (vector : Nat)
  | completion (fn : FnId) (rd : Nat) (bytes : List Byte) (last : Bool)
  | frame (link : LinkId)
deriving DecidableEq, Repr

/-- A transfer sent towards its lottery port: its id, the requester id that its request carries or its traffic class at the PCI Express
egress (R259, R260), the partition it is attributed to, none for the device class (R261), and what it does. -/
structure Sent where
  id : Nat
  req : Fin 32
  part : Option PartId
  x : Xfer
deriving DecidableEq, Repr

/-- A packet of trace records (R428 to R430). -/
structure TracePacket where
  recs : List (List Word)
  crc : Word
deriving DecidableEq, Repr

/-- A router's trace collector (R276, R430): the records of the packet being filled with their times, full packets. -/
structure Collector where
  recs : List (Time × List Word)
  packets : List (List (List Word))
  dropped : Nat
deriving DecidableEq, Repr

/-- The fabric arbitration block, its ports and the trace port (R276, R280, R429). -/
structure Fabric where
  mode : BitVec 2
  live : Tickets
  shadow : Tickets
  trdrop : BitVec 16
  shdrop : Bool
  regSS : Vector Reg273 8
  regPE : Vector Reg273 8
  regLK : Vector Reg273 8
  ports : Vector Port 21
  xlat : BitVec 16
  xfers : List Sent
  coll : Vector Collector 16
  traceQ : List (List (List Word))
  traceOn : Bool
  traceSeq : Word
  sinceSync : Nat
  stepDue : Bool
  traceAt : Time
  traceOut : List TracePacket
  old : Option (Nat × Tickets)
  commitXC : Option Nat
  accruedXC : Option Nat
deriving DecidableEq, Repr

/-! ### Solver tree and links (chapter 13) -/

/-- Link states (R359, R360), coded 0 to 5. -/
inductive LinkState where
  | off | training | up | down | refused | inService
deriving DecidableEq, Repr

/-- A control frame as it leaves (R336, R340): the cumulative count, a NAK with the number it asks for, the receive credits of the virtual
channels, the frame's own transmit stamp, and the stamps echoed: the transmit stamp of the last control frame received and the timebase at
its receipt. -/
structure CtrlMsg where
  ack : BitVec 16
  nak : Option (BitVec 16)
  credits : Vector Nat 3
  sentAt : Stamp
  echo : Option (Stamp × Stamp)
deriving DecidableEq, Repr

/-- What a frame on a link carries (R335). -/
inductive Msg where
  | ctrl (m : CtrlMsg)
  | cut (node : Fin 128) (c : Stamp)
  | write (f : Frame)
  | writew (f : Frame)
  | read (f : Frame)
  | rdata (f : Frame)
  | wack (f : Frame)
  | spore (m : SporeMsg)
  | pdone (m : PdoneMsg)
  | epoch (n : Word) (cut : Stamp) (m : EpochItem)
  | epend (n : Word) (count : Nat)
  | done (xs : List (BitVec 64 × QueueId))
  | hbeat (m : HbeatMsg)
  | join (m : JoinMsg)
  | stop (xs : List StopItem)
deriving DecidableEq, Repr

/-- A message on its way: its partition, destination node and content. -/
structure Packet where
  part : PartId
  snode : Fin 128
  dnode : Fin 128
  msg : Msg
deriving DecidableEq, Repr

/-- One Rhizoid link (R333 to R341, R359). `retry` holds frames sent and not acknowledged, with their numbers; `outq`
holds frames that wait for the egress port, by transfer id; `sinceCtrl` counts the data frames since the last control frame; `echo` holds
the stamps to echo; `nakRun` counts the NAKs this end sent for `nakNum`, `nakGot` those it received for `nakFor`. -/
structure Link where
  st : LinkState
  badType : BitVec 8
  retrain : BitVec 8
  crcErr : BitVec 16
  lat : Nat
  off : Int
  samples : List (Int × Int)
  frameLocked : Bool
  joined : Bool
  mismatch : Bool
  peerRole : Fin 4
  peerHeld : Option (Fin 128)
  trainAt : Time
  refusedBy344 : Bool
  admitAt : Option Stamp
  txCount : BitVec 16
  retry : List (BitVec 16 × Packet)
  credits : Vector Nat 3
  outq : List (Nat × Packet)
  rxCount : BitVec 16
  rxWait : Bool
  nakNum : BitVec 16
  nakRun : Nat
  nakFor : BitVec 16
  nakGot : Nat
  sinceCtrl : Nat
  echo : Option (Stamp × Stamp)
  lastGood : Time
  sent : List Packet
  txfr : Word
  rxfr : Word
  naks : BitVec 16
  downs : BitVec 16
  wref : BitVec 16
  captured : List (Stamp × Packet)
  captureEnd : Bool
deriving DecidableEq, Repr

/-- A member as the manager (or a member's route table) knows it (R330, R331, R344, R350, R351). -/
structure Member where
  node : Nat
  path : BitVec 24
  role : Fin 4
  link : LinkId
  nLinks : Nat
  oneWay : Nat
  offSum : Int
  answeredAt : Time
  lost : Bool
  joinAt : Option Stamp
deriving DecidableEq, Repr

/-- An epoch at the standby (R353, R354): the number, the cut, its pieces in order and the spores marked complete. -/
structure Epoch where
  num : Word
  cut : Stamp
  items : List EpochItem
  marked : List (BitVec 64 × QueueId)
deriving DecidableEq, Repr

/-- A remote access outstanding at this device (R343): read tag, or write id, with the context it serves, its line and words. -/
structure RemoteOp where
  id : Nat
  f : FrondId
  c : CtxId
  node : Nat
  read : Bool
  tag : Nat
  line : Nat
  words : Nat
  job : Option Nat
deriving DecidableEq, Repr

/-- The solver tree: the tree record as clamped (R329), TREESTAT (R359) and what the manager, standby and members keep. -/
structure Tree where
  rcd : Vector Word 8
  role : BitVec 2
  member : Bool
  node : BitVec 7
  path : BitVec 24
  epoch : Word
  offErr : BitVec 16
  rttMax : BitVec 16
  epSkip : Byte
  epOver : Byte
  drift : Byte
  takeovers : Byte
  members : List Member
  freeing : List (Nat × Nat)
  holders : List Nat
  beatAt : Time
  beatSent : Time
  managerLost : Bool
  highEpoch : Word
  claimed : Word
  claimPath : BitVec 24
  complete : Option Epoch
  partialE : Option Epoch
  epCount : Nat
  noticeSeq : Word
  takeAt : Stamp
  installed : Bool
  noticeDue : Bool
  wasActive : Bool
  pendStep : Option (Int × Stamp)
  tags : List RemoteOp
  downLinks : List (Nat × Nat)
  refused : List Member
  yielded : Bool
  cut : Stamp
  strobes : Nat
deriving DecidableEq, Repr

/-! ### Observability (chapter 17) -/

/-- FCNT of one Frond (R423). -/
structure Fcnt where
  busy : Word
  done : BitVec 16
  preempt : BitVec 16
  demote : BitVec 16
  fallbk : BitVec 16
  eccc : BitVec 16
  eccu : BitVec 16
  faults : BitVec 16
  trunc : BitVec 16
deriving DecidableEq, Repr

/-- DCNT without the sums that other units hold (R423). -/
structure Dcnt where
  trdrop : Word
  sscorr : BitVec 16
  ssunc : BitVec 16
  evover : Word
deriving DecidableEq, Repr

/-- An event ring (R431): the last 64 entries by slot, and the count written. -/
structure EvRing where
  slots : List (Nat × List Word)
  cnt : Word
deriving DecidableEq, Repr

/-- Replay states (R446), coded 0 to 5. -/
inductive ReplaySt where
  | idle | prep | running | drain | done | refused
deriving DecidableEq, Repr

/-- The replay engine (R446, R447). -/
structure Replay where
  st : ReplaySt
  perturb : Bool
  nstrobe : Nat
  nent : Nat
  entoff : Nat
  sper : Nat
  skip : BitVec 16
  goAt : Time
  start : Stamp
  prepped : Bool
  wheel0 : Nat
  k : Nat
  nextEnt : Nat
  lastR : Nat
  held : List (QueueId × Fin 64)
deriving DecidableEq, Repr

/-- Counters, samples, event rings, hang and dump state (R422 to R449). -/
structure Obs where
  rcd : Vector Word 9
  frz : Bool
  frzAt : Nat
  fsrc : BitVec 3
  seq : BitVec 16
  snapStamp : Stamp
  widx : Byte
  fcnt : Vector Fcnt 128
  pcnt : Vector Pcnt 8
  dcnt : Dcnt
  snap : List Word
  sample : Option (Stamp × List Word)
  sampledAt : Option Stamp
  sampleSeq : Word
  rings : Vector EvRing 159
  checkAt : Vector Time 4
  checkSeen : Vector Nat 4
  hang : Option (Byte × Time)
  graph : Bool
  stopReq : Option Stamp
  cutDue : Option Stamp
  cut : Option Stamp
  halted : Bool
  stopOfs : List Byte
  origin : Byte
  sender : Byte
  hostDisc : BitVec 16
  lnkDisc : BitVec 16
  dumpRead : Bool
  dumpSeed : Nat
  dumpData : List Byte
  leFrozen : List LeChan
  replay : Replay
deriving DecidableEq, Repr

/-! ### PCI Express (chapter 18) and the host's side -/

/-- One function's view (R451, R452): enabled with Memory Space Enable, its doorbell and cancel line buffers, and the
MSI-X vectors that are masked or pending. -/
structure Fn where
  enabled : Bool
  lines : List (Nat × List Host.Cell)
  cancels : List (Nat × List Host.Cell)
  masked : List Nat
  pendingVec : List Nat
  msgs : List Nat
deriving DecidableEq, Repr

/-- A host read in progress: its id, function and partition (none: device traffic), its bytes from the word that holds the first one
asked for, which stands `skip` bytes into it, and their number, the lines still to be read from the Shared Store (byte position, address,
words), and the bytes that have left (R260, R261). -/
structure HostRead where
  id : Nat
  fn : FnId
  part : Option PartId
  bytes : List Byte
  skip : Nat
  len : Nat
  waiting : List (Nat × Nat × Nat)
  sent : List Byte
deriving DecidableEq, Repr

/-- The PCI Express port (R450 to R452, R488): link and reset, functions, spores waiting to be accepted in order with the moment of their
acceptance (R44), the first moment at which the next may be accepted, cancels on
their way to Hearth core 1, what has left for the host, host reads in progress, and the data of the last one completed. -/
structure Pcie where
  up : Bool
  perst : Bool
  fns : Vector Fn 9
  sporeQ : List (FnId × List Byte × Time)
  acceptAt : Time
  cancelQ : List (PartId × QueueId × BitVec 64)
  toHost : List (Nat × List Byte)
  reads : List HostRead
  readData : List Byte
deriving DecidableEq, Repr

/-- A Hearth core's 16 KiB instruction and data buffers, as filled from the firmware region of the Shared Store; empty until then (R25;
log entry 88). -/
structure HearthCore where
  ibuf : List Word
  dbuf : List Word
deriving DecidableEq, Repr

/-- Why the machine stops. -/
inductive Fault where
  /-- Raised by every command while the device is in manufacturing test (R466): "no rule of this manual applies to it".
  Safe: nothing is claimed of that mode. -/
  | manufacturingTest
deriving DecidableEq, Repr

/-- Why a command has no meaning. -/
inductive Refusal where
  /-- Raised by an arm of `exec` whose command has no meaning in this model yet. Safe. -/
  | notModelled (mnemonic : String)
deriving DecidableEq, Repr

/-- The whole machine. `now`, `tbAdj`, `freeCtr` and `nextId` are the model's own: the moment of the last command, what R340
has added to the timebase, the free values drawn, and the last id given to a transfer or job. `pending` is the queue of
commands that wait, first in first out. -/
structure State where
  now : Time
  tbAdj : Stamp
  freeCtr : Nat
  nextId : Nat
  testMode : Bool
  part : Part
  mem : List Host.Cell
  ecc : List (Nat × EccMark)
  flash : List Host.Cell
  boot : Boot
  stg : Staging
  stgBase : BitVec 18
  stgSize : BitVec 7
  fuses : Fuses
  session : Session
  sec : Security
  tap : Tap
  power : Power
  timing : Timing
  le : Vector LeChan 16
  fronds : Vector Frond 128
  builder : Builder
  parts : Vector Partition 8
  programs : List (Nat × List Word)
  entries : List Entry
  deadQueues : List Nat
  popped : List (QueueId × Fin 64)
  jobs : List Job
  ringQ : List RingRec
  rings : Vector Ring 2048
  fabric : Fabric
  links : Vector Link 4
  hearth : Vector HearthCore 4
  tree : Tree
  obs : Obs
  pcie : Pcie
  pending : List Instr
deriving DecidableEq, Repr

/-! ### Reset: the values the manual states; the others are named in the assumption log. -/

def Note.none : Note := { count := 0, word := 0, cls := 0 }

def Boot.reset : Boot :=
  { phase := .held, code := 0x01, slot := .a, ready := false, aReason := 7, bReason := 7, clamps := 0, dupRec := 0,
    imgGen := 0, dirSkip := 0, imgDig := List.replicate 48 0, imgSlotLen := 0, lock0 := false, lock1 := false,
    lock2 := false, late := false, majFix := false, majCnt := 0, lateAddr := 0, lateReq := 0, lateXC := none, lateThis := none, devNote := Note.none,
    notes := [], cand := [], verified := [], chosen := .a, lower := false, erase64K := false, buildId := List.replicate 16 0,
    porHeld := true, resetPin := true, released := none, phaseAt := 0, progDigest := List.replicate 32 0, wDigests := [], bootDone := false }

def Staging.reset : Staging :=
  { cmdReg := 0, foff := 0, len := 0, boff := 0, busy := false, session := false, result := 0, rej := 0,
    header := List.replicate 256 0xFF, finalHdr := [], pendResult := 0 }

def Fuses.reset : Fuses :=
  { hash := Vector.replicate 4 (List.replicate 48 0), written := [],
    life := Vector.replicate 3 false, revoked := Vector.replicate 3 0, dumap := Vector.replicate 3 0, devid := 0,
    sRevoked := Vector.replicate 3 0, sDumap := Vector.replicate 3 0,
    sHash := Vector.replicate 4 (List.replicate 48 0) }

def Session.reset : Session :=
  { sLife := Vector.replicate 3 false, cur0 := .opened, cur1 := .opened, cur2 := .opened, scope := 0, remain := 0, remainAt := 0 }

def Security.reset : Security :=
  { secpol := 0, svcKey := List.replicate 97 0, chal := 0, devid := 0, tokLock := false, tokFail := 0, tapRef := 0,
    svcn := 0, tokenBlock := List.replicate 144 0, checking := [], svcexitAt := none }

def Tap.reset : Tap :=
  { ir := .idcode, dr := [], boundary := 0, pinsDriven := false, pinsHighZ := false, linked := false,
    linkNext := false, unlinkNext := false, data := 0, stat := 0, busyUntil := 0 }

def Group.reset : Group :=
  { st := .off, pll := false, pllAt := 0, cur := 0, req := none, rewake := false, idle := 0,
    ready := BitVec.allOnes 56 }

def Power.reset : Power :=
  { cfg0 := 0x20010020, cfg1 := 0, groups := Vector.replicate 16 Group.reset, seq := .idle,
    stepAt := 0, rampFrom := 0, rampTo := 0, uncore := 0, fabricFast := false, wakes := 0, sleeps := 0, defer := 0,
    lastDrop := 0, thermLatch := false, tripAt := 0, resetting := false, windowOpen := false, named := [], deferred := [] }

def Timing.reset : Timing :=
  { refsel := false, refok := false, refLost := false, refBackAt := 0, lostAt := 0,
    lostSince := false, stbStamp := 0, stbCnt := 0, stbShort := 0,
    stbAt := none, stbSinceLock := false, ppsStamp := 0, ppsCnt := 0, ppsDev := 0, ppsSeen := false }

def LeChan.reset : LeChan :=
  { cfg := Vector.replicate 5 0, bank0 := Vector.replicate 16 0, bank1 := Vector.replicate 16 0, abank := false,
    st := .off, dir := .none, elim := false, pend := false, dtwin := 0, cmdSeq := 0, count := 0, err := 0, dutyNow := 0,
    onCnt := 0, dtTot := 0, elims := 0, swaps := 0, stale := 0, inputs := List.replicate 32 0, returned := none,
    awaiting := false, readId := 0, readAt := none, inTransit := none, sampleAt := none, first := false, toEfault := false, pdir := .none, period := none, blank := false,
    accAt := 0, sync := [], pair := (false, false), runA := 0, runB := 0, dirWas := .none, late := [], lateAt := 0,
    quadAt := none, pinsAt := none }

def Fnr.reset : Fnr :=
  { valid := false, kind := 0, row := 0, col := 0, step := 0, opfmt := 0, layer := 0, operator := 0, iaddr := 0 }

def Tile.reset : Tile :=
  { valid := false, solver := false, fmt := 0, waddr := 0, transposed := false, words := [], issued := false, loadAt := none,
    pendArgs := none, rows := [], bad := false, mark := [] }

def Ctx.reset : Ctx :=
  { st := .idle, preq := false, areq := false, stopReq := false, preemptNow := false, pwaitAt := 0, kind := false,
    waitk := .none, blk := none, prog := 0, waitq := 0, cmd := 0, job := none,
    g := Vector.replicate 32 0, pc := 0, ctl := Vector.replicate 7 0, store := [], load := none, slotWait := none, astat := 0, trapen := 0,
    xexp := 0, mulfix := false, fnr := Fnr.reset, ctxid := 0, scale := Vector.replicate 32 0x1FC00,
    rmax := Vector.replicate 32 0, xmax := Vector.replicate 32 0, piveps := 0xED400000, pivrcp := 0x15, pivcnt := 0,
    pivrec0 := 0, pivrec1 := 0, fdepth := 0, tact := 0, armed := false, fired := false, final := false, itcnt := 0,
    holdProg := 0, holdDemoted := false, mark := [], mode := none, tiles := Vector.replicate 2 Tile.reset, fetchQ := [],
    drainQ := [], sbEn := false, sb := Vector.replicate 24 none, sbStalls := 0, sbNinth := 0, npre := 0,
    yielded := false, delivering := false, noOutput := false, atCheap := none, fault := none, completed := false,
    stamp := 0, tearAt := 0, torn := false, divert := false, fcRun := 0, lastRun := none,
    fresh := { fc := 0, bits := 0, fnr := none, piv := none }, lost := none, waitOn := none, cresetAt := 0, swept := false }

def Circ.reset : Circ :=
  { en := false, mem := false, ctx := 0, prod := 0, cons := 0, base := 0, size := 0, head := 0, tail := 0, pstall := 0,
    cstall := 0 }

def FWin.reset : FWin :=
  { opened := false, mem := 0, mode := 0, ctx := 0, circ := 0, xdev := false, base := 0, limit := 0, srcf := 0,
    srcdev := 0, acc := 0, ref := 0 }

def Frond.reset : Frond :=
  { cur := none, ctxs := Vector.replicate 4 Ctx.reset, code := 0, codelen := 0, pwrmap := 0, scrubEn := false, gshift := 3,
    corr := 0, uncorr := 0, eccWord := 0, eccMem := 0, eccScrub := false, eccValid := false,
    circ := Vector.replicate 8 Circ.reset, fwin := Vector.replicate 16 FWin.reset, full := [], touched := [],
    sbmix := 0, scrubW := 0, scrubA := 0, scrubP := 0, wback := [], inbound := [], held := [], refusals := [], flight := [], mul := none,
    div := none, mma := [], arrFree := 0, arrMode := none, line := [], issueAt := 0, busySince := 0, regReady := [], cacheValid := [], cachePivb := [],
    cacheSat := [], taken := Vector.replicate 3 none, scrubFc := Vector.replicate 3 none, eccNew := none, fwPend := [], resumeAt := 0,
    arrLines := [], arrHold := [] }

def Win.reset : Win := { base := 0, hostr := false, hostw := false, size := 0 }

def Partition.reset : Partition :=
  { en := false, qbase := 0, qcount := 0, rfirst := 0, rcount := 0, rcbwin := 0, rcboff := 0,
    win := Vector.replicate 16 Win.reset }

def Pcnt.reset : Pcnt :=
  { accept := 0, refuse := 0, unmatch := 0, late := 0, waitSum := 0, preSum := 0, demote := 0, trunc := 0, fbModel := 0,
    fbShift := 0, fbNopr := 0, peerLost := 0, done := 0 }

def Ring.reset : Ring :=
  { enabled := false, base := 0, size := 0, wr := 0, oddPass := true, head := 0, out := [], unsig := 0,
    unsigAt := 0 }

def Builder.reset : Builder :=
  { l1 := [], want := none, again := none, active := false, scanned := false, toIssue := [], issued := [], lineAt := [],
    list := [], setXC := none }

/-- Default tickets of a requester at the Shared Store ports (R259). -/
def defaultSS (r : Nat) : Byte :=
  if r < 16 then 0x08 else if r = 16 then 0x20 else if r = 17 then 0x20 else if r = 18 then 0x10
  else if r < 23 then 0x08 else if r = 23 then 0x04 else if r = 24 then 0x04 else if r = 25 then 0x02 else 0

/-- Default tickets of a requester at the link egresses (R259); an id that never requests has 0. -/
def defaultLK (r : Nat) : Byte :=
  if r < 16 then 0x08 else if r = 16 then 0x20 else if 19 ≤ r ∧ r < 23 then 0x10 else 0

def Tickets.reset : Tickets :=
  { ss := Vector.ofFn fun r => defaultSS r.val, lk := Vector.ofFn fun r => defaultLK r.val,
    pe := Vector.ofFn fun c => if c.val = 8 then 0x20 else 0x10, seed := 1, ageSS := 0x0FF, ageLK := 0x0DF,
    agePE := 0x57F }

def Reg273.reset : Reg273 := { rate := 1, burst := 0x80, en := false, slack := false, held := 0, slackg := 0 }

def Port.reset (k : Nat) : Port :=
  { lfsr := BitVec.rotateLeft 1 k, cons := [], granted := [], aged := 0, qfull := 0, grants := 0,
    credit := Vector.replicate 8 0,
    creditStart := Vector.replicate 8 0, startXC := none, accXC := none, lastAt := none, usedXC := none, scrub := 0, wback := [], oldLfsr := BitVec.rotateLeft 1 k }

def Collector.reset : Collector := { recs := [], packets := [], dropped := 0 }

def Fabric.reset : Fabric :=
  { mode := 0, live := Tickets.reset, shadow := Tickets.reset, trdrop := 0, shdrop := false,
    regSS := Vector.replicate 8 Reg273.reset, regPE := Vector.replicate 8 Reg273.reset,
    regLK := Vector.replicate 8 Reg273.reset, ports := Vector.ofFn fun k => Port.reset k.val, xlat := 0, xfers := [],
    coll := Vector.replicate 16 Collector.reset, traceQ := [], traceOn := false, traceSeq := 0, sinceSync := 0,
    stepDue := false, traceAt := 0, traceOut := [], old := none, commitXC := none, accruedXC := none }

def Link.reset : Link :=
  { st := .off, badType := 0, retrain := 0, crcErr := 0, lat := 0, off := 0, samples := [], frameLocked := false,
    joined := false, mismatch := false, peerRole := 0,
    peerHeld := none, trainAt := 0, refusedBy344 := false, admitAt := none, txCount := 0, retry := [],
    credits := Vector.replicate 3 32, outq := [], rxCount := 0, rxWait := false, nakNum := 0, nakRun := 0,
    nakFor := 0, nakGot := 0, sinceCtrl := 0, echo := none, lastGood := 0, sent := [],
    txfr := 0, rxfr := 0, naks := 0, downs := 0, wref := 0, captured := [], captureEnd := false }

def Tree.reset : Tree :=
  { rcd := Vector.replicate 8 0, role := 0, member := false, node := 0, path := 0xFFFFFF, epoch := 0, offErr := 0,
    rttMax := 0, epSkip := 0, epOver := 0, drift := 0, takeovers := 0, members := [], freeing := [], holders := [],
    beatAt := 0, beatSent := 0, managerLost := false, highEpoch := 0, claimed := 0, claimPath := 0, complete := none,
    partialE := none, epCount := 0, noticeSeq := 0, takeAt := 0, installed := false, noticeDue := false,
    wasActive := false, pendStep := none, tags := [], downLinks := [], refused := [],
    yielded := false, cut := 0, strobes := 0 }

def Fcnt.reset : Fcnt :=
  { busy := 0, done := 0, preempt := 0, demote := 0, fallbk := 0, eccc := 0, eccu := 0, faults := 0, trunc := 0 }

def Replay.reset : Replay :=
  { st := .idle, perturb := false, nstrobe := 0, nent := 0, entoff := 0, sper := 0, skip := 0, goAt := 0, start := 0,
    prepped := false, wheel0 := 0, k := 0, nextEnt := 0, lastR := 0, held := [] }

def Obs.reset : Obs :=
  { rcd := Vector.replicate 9 0, frz := false, frzAt := 0, fsrc := 0, seq := 0, snapStamp := 0, widx := 0,
    fcnt := Vector.replicate 128 Fcnt.reset, pcnt := Vector.replicate 8 Pcnt.reset,
    dcnt := { trdrop := 0, sscorr := 0, ssunc := 0, evover := 0 }, snap := [], sample := none, sampledAt := none, sampleSeq := 0,
    rings := Vector.replicate 159 { slots := [], cnt := 0 }, checkAt := Vector.replicate 4 0, checkSeen := Vector.replicate 4 0, hang := none,
    graph := false, stopReq := none, cutDue := none, cut := none, halted := false, stopOfs := [], origin := 0,
    sender := 0, hostDisc := 0, lnkDisc := 0, dumpRead := false, dumpSeed := 0, dumpData := [], leFrozen := [],
    replay := Replay.reset }

def Fn.reset : Fn := { enabled := false, lines := [], cancels := [], masked := [], pendingVec := [], msgs := [] }

def Pcie.reset : Pcie :=
  { up := false, perst := false, fns := Vector.replicate 9 Fn.reset, sporeQ := [], acceptAt := 0,
    cancelQ := [], toHost := [], reads := [], readData := [] }

/-- The device in its power-on reset, held: fuses sensed, everything else at its reset value, memory and flash with
nothing listed, no command waiting. -/
def State.reset : State :=
  { now := 0, tbAdj := 0, freeCtr := 0, nextId := 0, testMode := false, part := .sw15, mem := [], ecc := [], flash := [],
    boot := Boot.reset, stg := Staging.reset, stgBase := 0, stgSize := 0, fuses := Fuses.reset, session := Session.reset,
    sec := Security.reset, tap := Tap.reset, power := Power.reset, timing := Timing.reset,
    le := Vector.replicate 16 LeChan.reset, fronds := Vector.replicate 128 Frond.reset, builder := Builder.reset,
    parts := Vector.replicate 8 Partition.reset, programs := [], entries := [], deadQueues := [], popped := [], jobs := [],
    ringQ := [], rings := Vector.replicate 2048 Ring.reset, fabric := Fabric.reset,
    links := Vector.replicate 4 Link.reset, hearth := Vector.replicate 4 { ibuf := [], dbuf := [] }, tree := Tree.reset, obs := Obs.reset, pcie := Pcie.reset, pending := [] }

end Sys2Proof.Machine
end

