-- ==== Sys2Proof/Machine/Ops.lean ====
section
/-!
DEFINITION. The named operations over the whole state: time, the guards every command passes, the timebase, event rings,
memory with its check state, and access to Fronds, contexts, links, rings and ports by number.
-/
namespace Sys2Proof.Machine

/-! ### Time and guards -/

/-- The state at moment `t`; the model's time never runs back (log entry 2). -/
def atTime (s : State) (t : Time) : State := { s with now := max s.now t }

/-- A command of a device that works under this manual (R466). Its effect leaves the queue to `step` and the session of
R407 to the commands R408 names. -/
def live (t : Time) (s : State) (f : State → State) : Host.Outcome State Fault Refusal :=
  if s.testMode then .fault .manufacturingTest
  else .next { f (atTime s t) with pending := s.pending, session := s.session }

/-- A command that R408 lets change the security state. -/
def liveSession (t : Time) (s : State) (f : State → State) : Host.Outcome State Fault Refusal :=
  if s.testMode then .fault .manufacturingTest
  else .next { f (atTime s t) with pending := s.pending }

/-- One of the two effects of a command whose condition may not hold: without it nothing happens (log entry 3). -/
def when_ (b : Bool) (s : State) (f : State → State) : State := if b then f s else s

/-- FC in grid ticks (R1, R30): 400 or 300 per AT. -/
def tFC (s : State) : Nat := if s.part = .sw11 then 64 else 48

/-- The common timebase at a moment (R4). -/
def stampOf (s : State) (t : Time) : Stamp := BitVec.ofNat 56 (t / tUnit) + s.tbAdj

/-- The common timebase (R4). -/
def stamp (s : State) : Stamp := stampOf s s.now

/-- The AT count, bits [55:8] of the timebase (R4). -/
def atCount (s : State) : Nat := (stamp s).toNat / 256

/-- The timebase at the AT edge that begins the present AT. -/
def edgeStamp (s : State) : Stamp := BitVec.ofNat 56 (256 * atCount s)

/-- `a` is earlier than `b` (R5): the difference read as a signed 56-bit number. -/
def earlier (a b : Stamp) : Bool := decide ((a - b).toInt < 0)

/-- `a` is earlier than or equal to `b` (R5). -/
def notLater (a b : Stamp) : Bool := decide ((a - b).toInt ≤ 0)

/-- XC as 1/256 AT units, rounded up (300 XC are 256 units). -/
def xcUnits (n : Nat) : Nat := ceilDiv (n * 256) 300

/-- A fresh id for a transfer or a job. -/
def freshId (s : State) : Nat × State := (s.nextId, { s with nextId := s.nextId + 1 })

/-- A transfer sent towards its lottery port under a fresh id, with the requester id (or class) and the partition it is attributed to
(R259 to R261). -/
def putXfer (s : State) (req : Fin 32) (part : Option PartId) (x : Nat → Xfer) : Nat × State :=
  (s.nextId, { s with
    nextId := s.nextId + 1
    fabric := { s.fabric with xfers := s.fabric.xfers ++ [{ id := s.nextId, req := req, part := part, x := x s.nextId }] } })

/-- A word the manual leaves open: a free value, a new one each time. -/
def drawWord (s : State) (args : List Word) : Word × State :=
  (Config.openWord s.freeCtr args, { s with freeCtr := s.freeCtr + 1 })

/-- LOCKSTAT.LOCKED: the majority of the three lock copies (R362, R382). -/
def locked (s : State) : Bool :=
  (s.boot.lock0 && s.boot.lock1) || (s.boot.lock0 && s.boot.lock2) || (s.boot.lock1 && s.boot.lock2)

/-- CUR's encoding (R382). -/
def Cur.code : Cur → BitVec 2
  | .opened => 0 | .service => 1 | .sealed => 2

/-- The value of an encoding of CUR; 3 never appears (R382). -/
def Cur.ofCode (x : BitVec 2) : Cur := if x = 0 then .opened else if x = 1 then .service else .sealed

/-- CUR as every reader sees it (R362, R407). -/
def curOf (s : State) : Cur :=
  Cur.ofCode (majority s.session.cur0.code s.session.cur1.code s.session.cur2.code)

/-- LIFE as sensed (R362, R407): SEALED? -/
def lifeSealed (s : State) : Bool :=
  let v := s.session.sLife
  (v[0] && v[1]) || (v[0] && v[2]) || (v[1] && v[2])

/-- Revocation bits as sensed (R362). -/
def revoked (s : State) : BitVec 4 := majority s.fuses.sRevoked[0] s.fuses.sRevoked[1] s.fuses.sRevoked[2]

/-- The disabled-unit map as sensed, before the clamp of R17. -/
def dumapRaw (s : State) : BitVec 64 := majority s.fuses.sDumap[0] s.fuses.sDumap[1] s.fuses.sDumap[2]

/-- DUMAP: fields 9 to 15 clamped to 8 (R17, R18). -/
def dumap (s : State) : BitVec 64 :=
  BitVec.ofNat 64 (((upto 16).map fun k =>
    (clampNat 0 8 (field (dumapRaw s) (4 * k + 3) (4 * k))) * 2 ^ (4 * k)).sum)

/-- The device is past the lock and works: neither held in reset nor halted after a cut (R361, R389, R437). -/
def operating (s : State) : Bool :=
  locked s && !s.obs.halted && !s.power.thermLatch && !s.timing.refLost &&
    (s.boot.phase == .priming || s.boot.phase == .ready)

/-- The device accepts doorbells (R379). -/
def deviceReady (s : State) : Bool := operating s && s.boot.ready

/-! ### Tables by number -/

def frond (s : State) (f : FrondId) : Frond := s.fronds.get f
def modFrond (s : State) (f : FrondId) (g : Frond → Frond) : State := { s with fronds := vmod s.fronds f g }
def ctx (s : State) (f : FrondId) (c : CtxId) : Ctx := (s.fronds.get f).ctxs.get c
def modCtx (s : State) (f : FrondId) (c : CtxId) (g : Ctx → Ctx) : State :=
  modFrond s f fun fr => { fr with ctxs := vmod fr.ctxs c g }
def group (s : State) (g : GroupId) : Group := s.power.groups.get g
def modGroup (s : State) (g : GroupId) (h : Group → Group) : State :=
  { s with power := { s.power with groups := vmod s.power.groups g h } }
/-- Logical Frond n lies in group n div 8 (R16). -/
def groupOf (f : FrondId) : GroupId := ⟨f.val / 8, by omega⟩
def groupActive (s : State) (f : FrondId) : Bool := (group s (groupOf f)).st == .active
def modLe (s : State) (k : ChanId) (g : LeChan → LeChan) : State := { s with le := vmod s.le k g }
def modLink (s : State) (k : LinkId) (g : Link → Link) : State := { s with links := vmod s.links k g }
def modRing (s : State) (r : RingId) (g : Ring → Ring) : State := { s with rings := vmod s.rings r g }
def modPort (s : State) (p : Fin 21) (g : Port → Port) : State :=
  { s with fabric := { s.fabric with ports := vmod s.fabric.ports p g } }
def modPcnt (s : State) (p : PartId) (g : Pcnt → Pcnt) : State :=
  { s with obs := { s.obs with pcnt := vmod s.obs.pcnt p g } }
def modFcnt (s : State) (f : FrondId) (g : Fcnt → Fcnt) : State :=
  { s with obs := { s.obs with fcnt := vmod s.obs.fcnt f g } }
def modDcnt (s : State) (g : Dcnt → Dcnt) : State := { s with obs := { s.obs with dcnt := g s.obs.dcnt } }
def modTree (s : State) (g : Tree → Tree) : State := { s with tree := g s.tree }
def modFabric (s : State) (g : Fabric → Fabric) : State := { s with fabric := g s.fabric }
def modObs (s : State) (g : Obs → Obs) : State := { s with obs := g s.obs }
def modBoot (s : State) (g : Boot → Boot) : State := { s with boot := g s.boot }
def modPower (s : State) (g : Power → Power) : State := { s with power := g s.power }
def modPcie (s : State) (g : Pcie → Pcie) : State := { s with pcie := g s.pcie }
def modFn (s : State) (n : FnId) (g : Fn → Fn) : State := modPcie s fun p => { p with fns := vmod p.fns n g }

/-- The job with an id. -/
def jobOf (s : State) (id : Nat) : Option Job := s.jobs.find? (·.id == id)
def modJob (s : State) (id : Nat) (g : Job → Job) : State :=
  { s with jobs := s.jobs.map fun j => if j.id = id then g j else j }
/-- The job of a buffer entry. -/
def jobAt (s : State) (q : QueueId) (i : Fin 64) : Option Job := s.jobs.find? fun j => j.queue == q && j.idx == i
/-- The counted buffer entry at an index. -/
def entryAt (s : State) (q : QueueId) (i : Fin 64) : Option Entry := s.entries.find? fun e => e.queue == q && e.idx == i
def modEntry (s : State) (q : QueueId) (i : Fin 64) (g : Entry → Entry) : State :=
  { s with entries := s.entries.map fun e => if e.queue = q ∧ e.idx = i then g e else e }

/-! ### Event rings (R431, R432, R477) -/

/-- Units in the order of R477. -/
def uFrond (f : FrondId) : Nat := f.val
def uHearth (c : Nat) : Nat := 128 + c
def uLink (l : LinkId) : Nat := 132 + l.val
def uPort (p : Nat) : Nat := 136 + p
def uPcie : Nat := 152
def uBuilder : Nat := 153
def uDigest : Nat := 154
def uLoop : Nat := 155
def uGovernor : Nat := 156
def uBoot : Nat := 157
def uTrace : Nat := 158

/-- The 16 B of an event (R431). -/
def eventWords (code sub : Nat) (t : Stamp) (data : Word) : List Word :=
  [BitVec.ofNat 32 (code + at_ 8 (sub % 256)), BitVec.ofNat 32 t.toNat, BitVec.ofNat 32 (t.toNat / 2 ^ 32), data]

/-- An entry in a unit's ring at slot EVCNT mod 64; EVOVER counts an entry overwritten (R423, R431). -/
def logEvent (s : State) (unit code sub : Nat) (data : Word) : State :=
  let r := vgetD s.obs.rings unit { slots := [], cnt := 0 }
  let slot := r.cnt.toNat % 64
  let ovf := r.slots.any (·.1 == slot)
  let rest := r.slots.filter (·.1 != slot)
  let s1 := modObs s fun o => { o with rings := vmodNat o.rings unit fun _ =>
    { slots := (slot, eventWords code sub (stamp s) data) :: rest, cnt := r.cnt + 1 } }
  if ovf then modDcnt s1 fun d => { d with evover := satInc d.evover } else s1

/-- A Frond's copy of a program's factor becomes valid and keeps PIVB and SAT of its priming (R169, R171). -/
def setCopy (s : State) (f : FrondId) (p : Nat) (piv sat : Bool) : State :=
  modFrond s f fun fr => { fr with
    cacheValid := insertNat p fr.cacheValid
    cachePivb := if piv then insertNat p fr.cachePivb else removeNat p fr.cachePivb
    cacheSat := if sat then insertNat p fr.cacheSat else removeNat p fr.cacheSat }

/-- A nonzero PIVCNT.COUNT enters the Frond's event ring with PIVREC (R119). R432 gives PIVREC no code: its two words follow PIVCNT under
the same code (DESIGN CHOICE, log entry 89). -/
def logPivots (s : State) (f : FrondId) (c : CtxId) (cnt rec0 rec1 : Word) : State :=
  if cnt.toNat % 2 ^ 16 = 0 then s
  else [cnt, rec0, rec1].foldl (fun s w => logEvent s (uFrond f) 0x08 c.val w) s

/-! ### Memory with its check state (R236, R473, R482) -/

/-- Bases of the internal space (R473). -/
def frondBase (f : FrondId) : Nat := 0x1000000000 + f.val * 0x100000
def ssBase : Nat := 0x2000000000
def imageBase : Nat := 0x2001600000
def imageSize : Nat := 0xA00000

/-- Offset and size of a scratchpad in its Frond's region (R208). -/
def memBase : Mem → Nat
  | .w => 0 | .a => 0x40000 | .p => 0x68000
def memSize : Mem → Nat
  | .w => 0x40000 | .a => 0x28000 | .p => 0x18000
/-- Words of a scratchpad (R208). -/
def memWordsN (m : Mem) : Nat := memSize m / 4

/-- Byte address of word `w` of a scratchpad. -/
def padAddr (f : FrondId) (m : Mem) (w : Nat) : Nat := frondBase f + memBase m + 4 * w

def rdWord (s : State) (a : Nat) : Word := memWord s.mem a
def rdWords (s : State) (a n : Nat) : List Word := memWords s.mem a n

/-- What is wrong with the word at `a`, if anything. -/
def markAt (s : State) (a : Nat) : Option EccMark := (s.ecc.find? (·.1 == a / 4 * 4)).map (·.2)

/-- The check state of the word at `a` replaced. -/
def setMark (s : State) (a : Nat) (x : Option EccMark) : State :=
  let k := a / 4 * 4
  let rest := s.ecc.filter (·.1 != k)
  { s with ecc := match x with
      | none => rest
      | some v => (rest.takeWhile fun p => decide (p.1 < k)) ++ (k, v) :: (rest.dropWhile fun p => decide (p.1 < k)) }

/-- A full write of the word at `a`: its data and sound check bits; a write-back that waits for it is skipped
(R236, R237, R482). -/
def wrWord (s : State) (a : Nat) (x : Word) : State :=
  setMark { s with mem := memSetWord s.mem a x } a none

/-- Words written from `a`. -/
def wrWords (s : State) : Nat → List Word → State
  | _, [] => s
  | a, x :: xs => wrWords (wrWord s a x) (a + 4) xs

/-- The word at `a` uncorrectable? -/
def poisoned (s : State) (a : Nat) : Bool := markAt s a == some .uncorrectable

/-- Some word of `n` from `a` uncorrectable? -/
def anyPoisoned (s : State) (a n : Nat) : Bool := (upto n).any fun i => poisoned s (a + 4 * i)

/-- Data bit `b` of a word exchanged; a check bit leaves the data alone. -/
def flipData (x : Word) (b : Fin 39) : Word := if b.val < 32 then x ^^^ BitVec.ofNat 32 (2 ^ b.val) else x

/-- A write-back of the word at `a` that still waits is skipped: a word found sound has been written since it was read (R237, R482). -/
def dropWback (s : State) (a : Nat) : State :=
  let k := a / 4 * 4
  let s1 := modPort s (idx 20 (k / 128 % 16)) fun x => { x with wback := x.wback.filter (· != k) }
  modFrond s1 (idx 127 (k / 0x100000 % 128)) fun x => { x with wback := x.wback.filter (· != k) }

/-- One flipped bit strikes the word at `a`. -/
def strike (s : State) (a : Nat) (b : Fin 39) : State :=
  match markAt s a with
  | none => setMark (dropWback s a) a (some (.single b))
  | some (.single c) =>
    if c = b then setMark s a none
    else setMark { s with mem := memSetWord s.mem (a / 4 * 4) (flipData (flipData (rdWord s (a / 4 * 4)) b) c) } a
      (some .uncorrectable)
  | some .uncorrectable => { s with mem := memSetWord s.mem (a / 4 * 4) (flipData (rdWord s (a / 4 * 4)) b) }

/-- Upsets strike stored words inside the scratchpads and the Shared Store. -/
def strikeAll (s : State) (us : List Upset) : State :=
  us.foldl (fun s u =>
    let s1 := strike s u.addr.toNat u.first
    match u.second with
    | none => s1
    | some b => strike s1 u.addr.toNat b) s

/-- The port that owns a Shared Store address (R23). -/
def portOf (addr : Nat) : Nat := addr / 128 % 16

/-- DATA of a Shared Store ECC event: the byte offset in the Shared Store (log entry 22). -/
def ssData (a : Nat) : Word := BitVec.ofNat 32 (a - ssBase)

/-- The check of one Shared Store word (R482). -/
def ssCheck (s : State) (a : Nat) : State × Bool :=
  let p := portOf a
  match markAt s a with
  | none => (s, false)
  | some (.single _) =>
    let s1 := modPort s (idx 20 p) fun x => { x with wback := if x.wback.contains a then x.wback else x.wback ++ [a] }
    (logEvent (modDcnt s1 fun d => { d with sscorr := satInc d.sscorr }) (uPort p) 0x03 0 (ssData a), false)
  | some .uncorrectable => (logEvent (modDcnt s fun d => { d with ssunc := satInc d.ssunc }) (uPort p) 0x04 0 (ssData a), true)

/-- The check of `n` words. -/
def ssCheckAll (s : State) (a n : Nat) : State × Bool :=
  (upto n).foldl (fun r i =>
    let x := ssCheck r.1 (a + 4 * i)
    (x.1, r.2 || x.2)) (s, false)

/-- A read of `n` words by Hearth core `core` or by a unit of the device that R482 does not name: checked as every read is, the raw
words used, and the address of an uncorrectable one logged in the core's ring. -/
def fwRead (s : State) (core a n : Nat) : State × List Word :=
  ((upto n).foldl (fun s i =>
    let (s1, bad) := ssCheck s (a + 4 * i)
    if bad then logEvent s1 (uHearth core) 0x16 0 (ssData (a + 4 * i)) else s1) s, rdWords s a n)

/-- A word read and written back by the firmware: the read is checked and its raw word used, and what is written is sound (R482). -/
def rmwWord (s : State) (core a : Nat) (g : Word → Word) : State := wrWord (fwRead s core a 1).1 a (g (rdWord s a))

/-! ### Queue descriptors (R37, R38) -/

def descAddr (q : QueueId) : Nat := ssBase + 16 * q.toNat
def desc (s : State) (q : QueueId) (i : Nat) : Word := rdWord s (descAddr q + 4 * i)
def setDesc (s : State) (q : QueueId) (i : Nat) (x : Word) : State := wrWord s (descAddr q + 4 * i) x
def qEn (s : State) (q : QueueId) : Bool := bit (desc s q 0) 0 && !s.deadQueues.contains q.toNat
def qDepth (s : State) (q : QueueId) : Nat := 2 ^ clampNat 0 6 (field (desc s q 0) 6 4)
def qPriorValid (s : State) (q : QueueId) : Bool := bit (desc s q 0) 7
def qCount (s : State) (q : QueueId) : Nat := field (desc s q 0) 14 8
def qHead (s : State) (q : QueueId) : Nat := field (desc s q 0) 20 15
def qRing (s : State) (q : QueueId) : Nat := field (desc s q 0) 31 21
def qPool (s : State) (q : QueueId) : Nat := imageBase + 64 * field (desc s q 1) 17 0
def qRunning (s : State) (q : QueueId) : Bool := bit (desc s q 1) 18
def qPriorArea (s : State) (q : QueueId) : Nat := field (desc s q 2) 17 0
def poolEntry (s : State) (q : QueueId) (i : Fin 64) : Nat := qPool s q + 64 * i.val

end Sys2Proof.Machine
end

