-- ==== Sys2Proof/Machine/LoopEngine.lean ====
section
/-! DEFINITION. The Loop Engine: sample boundaries, the law, banks, quadrature, PWM, on-time limit and decay (R309 to R328). -/
namespace Sys2Proof.Machine

/-! ### Configuration fields (R311) -/
def LeChan.en (c : LeChan) : Bool := bit c.cfg[0] 0
def LeChan.law (c : LeChan) : Bool := bit c.cfg[0] 1
def LeChan.msrc (c : LeChan) : Bool := bit c.cfg[0] 2
def LeChan.rsrc (c : LeChan) : Bool := bit c.cfg[0] 3
def LeChan.autorun (c : LeChan) : Bool := bit c.cfg[0] 4
def LeChan.dirinv (c : LeChan) : Bool := bit c.cfg[0] 5
def LeChan.qfilt (c : LeChan) : Nat := field c.cfg[0] 10 8
def LeChan.dtthr (c : LeChan) : Nat := field c.cfg[0] 15 12
def LeChan.rexp (c : LeChan) : Int := signed 8 (field c.cfg[0] 23 16)
def LeChan.uexp (c : LeChan) : Int := signed 8 (field c.cfg[0] 31 24)
def LeChan.sdiv (c : LeChan) : Nat := field c.cfg[1] 11 0
def LeChan.pper (c : LeChan) : Nat := field c.cfg[1] 27 16
def LeChan.dead (c : LeChan) : Nat := field c.cfg[2] 7 0
def LeChan.dmax (c : LeChan) : Nat := field c.cfg[2] 19 8
def LeChan.dstep (c : LeChan) : Nat := field c.cfg[2] 31 20
def LeChan.ewin (c : LeChan) : Nat := field c.cfg[3] 7 0
def LeChan.onmax (c : LeChan) : Nat := field c.cfg[3] 31 8
def LeChan.mexp (c : LeChan) : Int := signed 8 (field c.cfg[4] 7 0)
/-- Address of the input block (R311, R314). -/
def LeChan.iblk (c : LeChan) : Nat := imageBase + 128 * field c.cfg[4] 24 8

/-- The active and the shadow bank (R318). -/
def LeChan.active (c : LeChan) : Vector Word 16 := if c.abank then c.bank1 else c.bank0
def LeChan.shadow (c : LeChan) : Vector Word 16 := if c.abank then c.bank0 else c.bank1
def LeChan.setShadow (c : LeChan) (i : Fin 16) (x : Word) : LeChan :=
  if c.abank then { c with bank0 := vset c.bank0 i x } else { c with bank1 := vset c.bank1 i x }

/-- R310: enabled by its EN bit and a completed lock; nothing runs while the device is held or cut. -/
def leRuns (s : State) (ch : ChanId) : Bool := operating s && (s.le.get ch).en

/-- The value of LESTAT.STATE (R324). -/
def LeState.code : LeState → Nat
  | .off => 0 | .stopped => 1 | .run => 2 | .decay => 3 | .efault => 4
def LeDir.code : LeDir → Nat
  | .none => 0 | .fwd => 1 | .rev => 2

/-! ### Outputs and on-time (R322, R323) -/

/-- Whether an output is being driven in this period. -/
def LeChan.driving (c : LeChan) : Bool :=
  (c.st == .run || c.st == .decay) && c.pdir != .none && !c.elim && !c.blank

/-- The AT counts [lo, hi) of the period in which the named output is high. -/
def LeChan.highSpan (c : LeChan) : Nat × Nat :=
  match c.period with
  | none => (0, 0)
  | some p => (p + c.dead, p + c.dead + c.dutyNow.toNat)

/-- ONCNT at AT count `n`: each AT in which an output is high adds 1, up to ONMAX, where the outputs go low (R323). -/
def LeChan.onCntAt (c : LeChan) (n : Nat) : Nat :=
  if c.driving then
    let (lo, hi) := c.highSpan
    min c.onmax (c.onCnt.toNat + (min n hi - max c.accAt lo))
  else c.onCnt.toNat

/-- ONCNT added up to AT count `n`. -/
def LeChan.accrue (c : LeChan) (n : Nat) : LeChan :=
  { c with onCnt := BitVec.ofNat 20 (c.onCntAt n), accAt := n }

/-- LE_PAk and LE_PBk at AT count `n` (R310, R322, R323). -/
def LeChan.pins (c : LeChan) (n : Nat) : Bool × Bool :=
  let (lo, hi) := c.highSpan
  let high := c.driving && decide (lo ≤ n) && decide (n < hi) && decide (c.onCntAt n < c.onmax)
  (high && c.pdir == .fwd, high && c.pdir == .rev)

/-- The registers of a channel as the dump of a cut at AT count `n` holds them: ONCNT stands from the cut on (R327). -/
def LeChan.frozenAt (c : LeChan) (n : Nat) : LeChan := { c.accrue n with pdir := .none }

/-- The pins of a channel of the device now. -/
def lePins (s : State) (ch : ChanId) : Bool × Bool := (s.le.get ch).pins (atCount s)

/-! ### Reference, measurement, error and law (R316, R317) -/

/-- An X24 mantissa at exponent `e` in channel units. -/
def LeChan.units (c : LeChan) (m e : Int) : Int :=
  clampInt (-(2 ^ 31)) (2 ^ 31 - 1) (nearestAt m 0 (e - 23 - c.uexp))

def LeChan.band (c : LeChan) (i : Fin 16) : Int := max 0 (c.units (x24 (c.active.get i)) c.rexp)

def LeChan.error (c : LeChan) : Int :=
  let ref := if c.rsrc then c.units (x24 (wordAt c.inputs 0)) c.rexp else c.units (x24 (c.active.get 0)) c.rexp
  let meas := if c.msrc then c.units (x24 (wordAt c.inputs 1)) c.mexp else c.count.toInt
  clampInt (-(2 ^ 31)) (2 ^ 31 - 1) (ref - meas)

/-- The direction after an evaluation (R317). -/
def LeChan.newDir (c : LeChan) (e : Int) : LeDir :=
  let hlo := c.band 1
  let hhi := c.band 2
  if c.law then
    match c.dir with
    | .none => if e > hhi then .fwd else if e < -hlo then .rev else .none
    | .fwd => if e < -hlo then .rev else if e ≤ 0 then .none else .fwd
    | .rev => if e > hhi then .fwd else if 0 ≤ e then .none else .rev
  else if c.first then (if 0 ≤ e then .fwd else .rev)
  else
    match c.dir with
    | .fwd => if e < -hlo then .rev else .fwd
    | .rev => if e > hhi then .fwd else .rev
    | .none => .none

def LeChan.evaluate (c : LeChan) : LeChan :=
  let e := c.error
  { c with dir := c.newDir e, err := BitVec.ofInt 32 e, first := false }

/-! ### States and commands (R324, R325) -/

/-- Entering RUN: no direction yet, the next evaluation is the first. -/
def LeChan.enterRun (c : LeChan) : LeChan := { c with st := .run, dir := .none, first := true }

/-- Entering DECAY at AT count `n`; with DIR NONE the target is reached at once (R324), and ONCNT keeps the ATs of the period that were
high (R323). -/
def LeChan.enterDecay (c : LeChan) (n : Nat) (efault : Bool) : LeChan :=
  if c.dir = .none then
    { c.accrue n with st := if efault then .efault else .stopped, pdir := .none, dutyNow := 0, toEfault := false }
  else { c with st := .decay, toEfault := efault }

/-- The command word acts when its SEQ is new, and its SEQ is then recorded whatever its code (R325). -/
def LeChan.command (c : LeChan) (n code : Nat) (seq : Byte) (zpos : Word) : LeChan :=
  if seq = c.cmdSeq ∨ c.st = .off then c
  else
    let c1 := { c with cmdSeq := seq }
    match code, c1.st with
    | 1, .stopped => c1.enterRun
    | 2, .run => c1.enterDecay n false
    | 3, .stopped => { c1 with count := zpos }
    | 3, .efault => { c1 with count := zpos, dtwin := 0, st := .stopped }
    | _, _ => c1

/-- The swap of R319. -/
def LeChan.swap (c : LeChan) : LeChan :=
  let c1 := { c with abank := !c.abank, pend := false, swaps := satInc c.swaps }
  if c1.abank then { c1 with bank0 := c1.bank1 } else { c1 with bank1 := c1.bank0 }

/-- A word of the shadow bank written: PEND clears (R319). -/
def LeChan.shadowWrite (c : LeChan) (i : Fin 16) (x : Word) : LeChan := { c.setShadow i x with pend := false }

/-- A write to the shadow bank, or a commit (R319). -/
def LeChan.bankWrite (c : LeChan) : Option (Fin 16 × Word) → LeChan
  | some (i, x) => c.shadowWrite i x
  | none => { c with pend := true }

/-- The bank writes that waited for the boundary of their AT (R319). -/
def LeChan.flush (c : LeChan) : LeChan := c.late.foldl LeChan.bankWrite { c with late := [] }

/-- A boundary falls in this AT and has not been taken yet. -/
def leEarly (s : State) (ch : ChanId) : Bool :=
  let c := s.le.get ch
  leRuns s ch && atCount s % c.sdiv == 0 && c.sampleAt != some (atCount s)

/-- Bank writes: those accepted in the AT of a boundary come after its swap (R319). -/
def leBank (s : State) (ch : ChanId) (ws : List (Option (Fin 16 × Word))) : State :=
  if leEarly s ch then
    modLe s ch fun c => if c.lateAt = atCount s then { c with late := c.late ++ ws } else { c.flush with late := ws, lateAt := atCount s }
  else modLe s ch fun c => ws.foldl LeChan.bankWrite c.flush

/-! ### Quadrature (R320, R321) -/

/-- One line through the filter: its accepted level and the count of samples that differ from it. -/
def filterLine (acc : Bool) (run q : Nat) (x : Bool) : Bool × Nat :=
  if x = acc then (acc, 0) else if run + 1 ≥ q + 1 then (x, 0) else (acc, run + 1)

/-- The step of the count between two accepted pairs: forward, reverse, none, or a double transition. -/
inductive QStep where
  | none | fwd | rev | double
deriving DecidableEq, Repr

/-- Position of (A, B) in the forward sequence 00, 10, 11, 01. -/
def quadPos (p : Bool × Bool) : Nat :=
  match p with
  | (false, false) => 0 | (true, false) => 1 | (true, true) => 2 | (false, true) => 3

def quadStep (old new : Bool × Bool) : QStep :=
  match (quadPos new + 4 - quadPos old) % 4 with
  | 0 => .none | 1 => .fwd | 3 => .rev | _ => .double

/-- Encoder fault at AT count `n` (R321): RUN and DECAY go towards EFAULT, STOPPED enters it. -/
def LeChan.encoderFault (c : LeChan) (n : Nat) : LeChan :=
  match c.st with
  | .run => c.enterDecay n true
  | .decay => { c with toEfault := true }
  | .stopped => { c with st := .efault }
  | .off => { c with st := .efault }
  | .efault => c

/-- The count is frozen in EFAULT and on the way to it (R321, R324). -/
def LeChan.countHeld (c : LeChan) : Bool := c.st == .efault || (c.st == .decay && c.toEfault)

/-- The AT `n` of the decoder: the levels of the second synchroniser stage go through the filter and the accepted pair is compared with
the one of the AT before; the count of a window starts anew in the AT of its start (R320, R321, R326). The pins of this AT, `qa` and
`qb`, reach the filter two ATs later. -/
def LeChan.quadSample (c : LeChan) (n : Nat) (qa qb : Bool) : LeChan :=
  let seen := c.sync.getD 1 (false, false)
  let (a, ra) := filterLine c.pair.1 c.runA c.qfilt seen.1
  let (b, rb) := filterLine c.pair.2 c.runB c.qfilt seen.2
  let c1 := { c with
    sync := (qa, qb) :: c.sync.take 1, pair := (a, b), runA := ra, runB := rb, quadAt := some n
    dtwin := if n % 3840 = 0 then 0 else c.dtwin }
  match quadStep c.pair (a, b) with
  | .none => c1
  | .fwd => if c1.countHeld then c1 else { c1 with count := if c1.dirinv then c1.count - 1 else c1.count + 1 }
  | .rev => if c1.countHeld then c1 else { c1 with count := if c1.dirinv then c1.count + 1 else c1.count - 1 }
  | .double =>
    let c2 := { c1 with dtwin := satInc c1.dtwin, dtTot := satInc c1.dtTot }
    if c2.dtwin.toNat > c2.dtthr then c2.encoderFault n else c2

/-- The decoder's AT taken ahead of a boundary of the same AT, so that an encoder fault comes first (R326). The pins of this AT are not
needed for it: until the row that samples them, the levels last seen stand in the first synchroniser stage. -/
def LeChan.quadAhead (c : LeChan) (n : Nat) : LeChan :=
  if c.msrc || c.quadAt = some n then c
  else c.quadSample n (c.sync.getD 0 (false, false)).1 (c.sync.getD 0 (false, false)).2

/-- The pins sampled at AT count `n`: the decoder's AT, or, where a boundary has taken it already, the first synchroniser stage alone.
Each AT samples once (R320). -/
def LeChan.quadPins (c : LeChan) (n : Nat) (qa qb : Bool) : LeChan :=
  if c.pinsAt = some n then c
  else if c.quadAt = some n then { c with sync := (qa, qb) :: c.sync.drop 1, pinsAt := some n }
  else { c.quadSample n qa qb with pinsAt := some n }

/-- R313's four steps, after an encoder fault of the same AT (R326) and the entry of R311's AUTORUN. -/
def LeChan.boundary (c : LeChan) (n : Nat) : LeChan :=
  let c := c.quadAhead n
  let c := if c.lateAt = n then c else c.flush
  let c0 := if c.st = .off then (if c.autorun then c.enterRun else { c with st := .stopped }) else c
  let c1 := if c0.pend then c0.swap else c0
  let c2 := match c1.returned with
    | some ws => { c1 with inputs := ws, returned := none, awaiting := false }
    | none => { c1 with stale := satInc c1.stale, awaiting := false }
  let cmd := wordAt c2.inputs 16
  let c3 := c2.command n (field cmd 3 0) (BitVec.ofNat 8 (field cmd 15 8)) (wordAt c2.inputs 17)
  let c4 := if c3.st = .run then c3.evaluate else c3
  { c4.flush with sampleAt := some n, dirWas := c3.dir }

/-- LE_SAMPLE_BOUNDARY (R312, R313): at AT counts that are multiples of SDIV. -/
def execLeSampleBoundary (t : Time) (ch : ChanId) (s : State) : Host.Outcome State Fault Refusal :=
  live t s fun s =>
    let n := atCount s
    let c := s.le.get ch
    when_ (leRuns s ch && n % c.sdiv == 0 && c.sampleAt != some n) s fun s => modLe s ch fun c => c.boundary n

/-- A command word alone, as step 3 of R313 acts on it (log entry 9). -/
def leCommandAt (t : Time) (ch : ChanId) (code : Nat) (seq : Byte) (zpos : Word) (s : State) :
    Host.Outcome State Fault Refusal :=
  live t s fun s => when_ (leRuns s ch) s fun s => modLe s ch fun c => c.command (atCount s) code seq zpos

/-- LE_START (R325). -/
def execLeStart (t : Time) (ch : ChanId) (seq : Byte) (s : State) : Host.Outcome State Fault Refusal :=
  leCommandAt t ch 1 seq 0 s

/-- LE_STOP (R325). -/
def execLeStop (t : Time) (ch : ChanId) (seq : Byte) (s : State) : Host.Outcome State Fault Refusal :=
  leCommandAt t ch 2 seq 0 s

/-- LE_REZERO (R325). -/
def execLeRezero (t : Time) (ch : ChanId) (seq : Byte) (zpos : Word) (s : State) : Host.Outcome State Fault Refusal :=
  leCommandAt t ch 3 seq zpos s

/-- LE_INPUT_READ (R315): one line read, issued 2 AT before a boundary, as requester 24 and of device class. -/
def execLeInputRead (t : Time) (ch : ChanId) (s : State) : Host.Outcome State Fault Refusal :=
  live t s fun s =>
    when_ (leRuns s ch && (atCount s + 2) % (s.le.get ch).sdiv == 0 && (s.le.get ch).readAt != some (atCount s)) s fun s =>
      let (id, s1) := putXfer s 24 none fun id => .leInput ch id
      modLe s1 ch fun c =>
        { c with awaiting := true, returned := none, inTransit := none, readId := id, readAt := some (atCount s) }

/-- LE_INPUT_RETURN (R315): the line returns for the boundary; one with an uncorrectable error is not used, and logged. -/
def execLeInputReturn (t : Time) (ch : ChanId) (s : State) : Host.Outcome State Fault Refusal :=
  live t s fun s =>
    let c := s.le.get ch
    match c.inTransit with
    | some (ws, bad) =>
      when_ (leRuns s ch && c.awaiting) s fun s =>
        let s1 := modLe s ch fun c => { c with inTransit := none, returned := if bad then none else some ws }
        if bad then logEvent s1 uLoop 0x12 ch.val (BitVec.ofNat 32 ch.val) else s1
    | none => s

/-- LE_QUADRATURE_SAMPLE (R320, R321), in a channel with MSRC 0. -/
def execLeQuadratureSample (t : Time) (ch : ChanId) (qa qb : Bool) (s : State) : Host.Outcome State Fault Refusal :=
  live t s fun s =>
    let c := s.le.get ch
    when_ (leRuns s ch && !c.msrc) s fun s => modLe s ch fun c => c.quadPins (atCount s) qa qb

/-- LE_DECODER_WINDOW (R321): at AT counts that are multiples of 3 840. -/
def execLeDecoderWindow (t : Time) (s : State) : Host.Outcome State Fault Refusal :=
  live t s fun s =>
    when_ (operating s && atCount s % 3840 == 0) s fun s =>
      { s with le := s.le.map fun c => if c.en && !c.msrc && c.quadAt != some (atCount s) then { c with dtwin := 0 } else c }

/-! ### PWM (R322 to R324) -/

/-- The duty in AT of a bank word (R318). -/
def LeChan.duty (c : LeChan) (i : Fin 16) : Nat :=
  let m := x24 (c.active.get i)
  if m < 0 then 0 else min (m.toNat * c.pper / 2 ^ 23) c.dmax

/-- What a period start fixes, by state: a direction chosen in this AT waits for the next period (R313), and a window that starts in
this AT ends the limit (R323, R326). -/
def LeChan.periodStart (c : LeChan) (n : Nat) : LeChan :=
  let c0 := c.accrue n
  let c1 := { c0 with period := some n, blank := c0.blank && c0.elim && n % (c0.ewin * 3840) != 0 }
  let dir := if c1.sampleAt = some n then c1.dirWas else c1.dir
  match c1.st with
  | .run =>
    let d := match dir with
      | .fwd => c1.duty 3 | .rev => c1.duty 4 | .none => 0
    { c1 with pdir := dir, dutyNow := BitVec.ofNat 12 d }
  | .decay =>
    let d := c1.dutyNow.toNat - c1.dstep
    if d = 0 then
      { c1 with st := if c1.toEfault then .efault else .stopped, dir := .none, pdir := .none, dutyNow := 0,
                toEfault := false }
    else { c1 with dutyNow := BitVec.ofNat 12 d }
  | _ => { c1 with pdir := .none, dutyNow := 0 }

/-- LE_PWM_PERIOD (R322, R324): at multiples of PPER; after a cut the decay sequencer alone goes on (R327). -/
def execLePwmPeriod (t : Time) (ch : ChanId) (s : State) : Host.Outcome State Fault Refusal :=
  live t s fun s =>
    let n := atCount s
    let c := s.le.get ch
    let due := leRuns s ch || (s.obs.halted && locked s && c.en && c.st == .decay)
    when_ (due && n % c.pper == 0 && c.period != some n) s fun s => modLe s ch fun c => c.periodStart n

/-- LE_ONTIME_WINDOW (R323): at multiples of EWIN × 3 840. -/
def execLeOntimeWindow (t : Time) (ch : ChanId) (s : State) : Host.Outcome State Fault Refusal :=
  live t s fun s =>
    let n := atCount s
    let c := s.le.get ch
    when_ (leRuns s ch && n % (c.ewin * 3840) == 0) s fun s => modLe s ch fun c =>
      { c with onCnt := 0, elim := false, accAt := n }

/-- LE_ONTIME_LIMIT (R323, R326): ONCNT reaches ONMAX, in an AT where no window starts. -/
def execLeOntimeLimit (t : Time) (ch : ChanId) (s : State) : Host.Outcome State Fault Refusal :=
  live t s fun s =>
    let n := atCount s
    let c := s.le.get ch
    when_ (leRuns s ch && !c.elim && n % (c.ewin * 3840) != 0 && decide (c.onmax ≤ c.onCntAt n)) s fun s => modLe s ch fun c =>
      { c.accrue n with elim := true, blank := true, elims := satInc c.elims }

/-- LE_SHADOW_WRITE (R319). -/
def execLeShadowWrite (t : Time) (ch : ChanId) (i : Fin 16) (x : Word) (s : State) : Host.Outcome State Fault Refusal :=
  live t s fun s => when_ (operating s) s fun s => leBank s ch [some (i, x)]

/-- LE_BANK_COMMIT (R319): BANKCMT.GO written 1. -/
def execLeBankCommit (t : Time) (ch : ChanId) (s : State) : Host.Outcome State Fault Refusal :=
  live t s fun s => when_ (operating s) s fun s => leBank s ch [none]

end Sys2Proof.Machine
end

