-- ==== Sys2Proof/Machine/Crypto.lean ====
section
/-!
DEFINITION. The published algorithms the manual names: SHA-256 and SHA-384 (FIPS 180-4), ECDSA verification on P-384
(FIPS 186-5), the CRC-32 of R365 and the CRC-16 of R334.
-/
namespace Sys2Proof.Machine

/-! ### SHA-2 -/

/-- The first eighty primes, from whose roots FIPS 180-4 takes its constants. -/
def shaPrimes : List Nat :=
  [2, 3, 5, 7, 11, 13, 17, 19, 23, 29, 31, 37, 41, 43, 47, 53, 59, 61, 67, 71, 73, 79, 83, 89, 97, 101, 103, 107, 109,
   113, 127, 131, 137, 139, 149, 151, 157, 163, 167, 173] ++
  [179, 181, 191, 193, 197, 199, 211, 223, 227, 229, 233, 239, 241, 251, 257, 263, 269, 271, 277, 281, 283, 293, 307,
   311, 313, 317, 331, 337, 347, 349, 353, 359, 367, 373, 379, 383, 389, 397, 401, 409]

/-- The largest number whose cube is at most n, found bit by bit from bit k - 1. -/
def icbrtLoop : Nat → Nat → Nat → Nat
  | 0, r, _ => r
  | k + 1, r, n => icbrtLoop k (if (r + 2 ^ k) ^ 3 ≤ n then r + 2 ^ k else r) n

/-- The first `w` bits of the fraction of a square root. -/
def fracSqrt (w p : Nat) : Nat := isqrt (p * 2 ^ (2 * w)) % 2 ^ w

/-- The first `w` bits of the fraction of a cube root. -/
def fracCbrt (w p : Nat) : Nat := icbrtLoop (w + 4) 0 (p * 2 ^ (3 * w)) % 2 ^ w

/-- One of the two word sizes of SHA-2: rounds, and the rotations and shifts of its four functions. -/
structure Sha where
  w : Nat
  rounds : Nat
  a0 : Nat
  a1 : Nat
  a2 : Nat
  e0 : Nat
  e1 : Nat
  e2 : Nat
  s0 : Nat
  s1 : Nat
  s2 : Nat
  t0 : Nat
  t1 : Nat
  t2 : Nat
deriving DecidableEq, Repr

def sha32 : Sha := ⟨32, 64, 2, 13, 22, 6, 11, 25, 7, 18, 3, 17, 19, 10⟩
def sha64 : Sha := ⟨64, 80, 28, 34, 39, 14, 18, 41, 1, 8, 7, 19, 61, 6⟩

/-- Round constants. -/
def Sha.consts (h : Sha) : List Nat := (shaPrimes.take h.rounds).map (fracCbrt h.w)

def sha32K : List Nat := sha32.consts
def sha64K : List Nat := sha64.consts

/-- x rotated right by n in a word of `w` bits. -/
def rotr (w x n : Nat) : Nat := (x >>> n) ||| ((x <<< (w - n)) % 2 ^ w)

def Sha.bigA (h : Sha) (x : Nat) : Nat := rotr h.w x h.a0 ^^^ rotr h.w x h.a1 ^^^ rotr h.w x h.a2
def Sha.bigE (h : Sha) (x : Nat) : Nat := rotr h.w x h.e0 ^^^ rotr h.w x h.e1 ^^^ rotr h.w x h.e2
def Sha.sml0 (h : Sha) (x : Nat) : Nat := rotr h.w x h.s0 ^^^ rotr h.w x h.s1 ^^^ (x >>> h.s2)
def Sha.sml1 (h : Sha) (x : Nat) : Nat := rotr h.w x h.t0 ^^^ rotr h.w x h.t1 ^^^ (x >>> h.t2)

/-- The message schedule, newest word first. -/
def Sha.schedule (h : Sha) : Nat → List Nat → List Nat
  | 0, ws => ws
  | n + 1, ws => Sha.schedule h n
      (((h.sml1 (ws.getD 1 0) + ws.getD 6 0 + h.sml0 (ws.getD 14 0) + ws.getD 15 0) % 2 ^ h.w) :: ws)

/-- The eight working variables. -/
structure ShaVars where
  a : Nat
  b : Nat
  c : Nat
  d : Nat
  e : Nat
  f : Nat
  g : Nat
  h : Nat
deriving DecidableEq, Repr

def Sha.round (h : Sha) (v : ShaVars) (kw : Nat × Nat) : ShaVars :=
  let m := 2 ^ h.w
  let ch := (v.e &&& v.f) ^^^ ((m - 1 - v.e) &&& v.g)
  let t1 := v.h + h.bigE v.e + ch + kw.1 + kw.2
  let maj := (v.a &&& v.b) ^^^ (v.a &&& v.c) ^^^ (v.b &&& v.c)
  ⟨(t1 + h.bigA v.a + maj) % m, v.a, v.b, v.c, (v.d + t1) % m, v.e, v.f, v.g⟩

def ShaVars.add (w : Nat) (x y : ShaVars) : ShaVars :=
  let m := 2 ^ w
  ⟨(x.a + y.a) % m, (x.b + y.b) % m, (x.c + y.c) % m, (x.d + y.d) % m, (x.e + y.e) % m, (x.f + y.f) % m,
   (x.g + y.g) % m, (x.h + y.h) % m⟩

def ShaVars.toList (v : ShaVars) : List Nat := [v.a, v.b, v.c, v.d, v.e, v.f, v.g, v.h]

def ShaVars.ofList (l : List Nat) : ShaVars :=
  ⟨l.getD 0 0, l.getD 1 0, l.getD 2 0, l.getD 3 0, l.getD 4 0, l.getD 5 0, l.getD 6 0, l.getD 7 0⟩

/-- Sixteen big-endian words of a block, newest (last) first. -/
def Sha.blockWords (h : Sha) (bs : List Byte) : List Nat :=
  ((upto 16).map fun i => beNat ((bs.drop (i * (h.w / 8))).take (h.w / 8))).reverse

def Sha.block (h : Sha) (k : List Nat) (v : ShaVars) (bs : List Byte) : ShaVars :=
  let ws := (Sha.schedule h (h.rounds - 16) (h.blockWords bs)).reverse
  ShaVars.add h.w v ((k.zip ws).foldl (Sha.round h) v)

/-- Blocks of a padded message. -/
def Sha.blocks (h : Sha) (k : List Nat) : Nat → ShaVars → List Byte → ShaVars
  | 0, v, _ => v
  | n + 1, v, bs => Sha.blocks h k n (Sha.block h k v (bs.take (2 * h.w))) (bs.drop (2 * h.w))

/-- The padding of FIPS 180-4: a one bit, zeros, and the length in bits. -/
def Sha.pad (h : Sha) (bs : List Byte) : List Byte :=
  let blk := 2 * h.w
  let z := (2 * blk - (bs.length + 1 + h.w / 4) % blk) % blk
  bs ++ [0x80] ++ List.replicate z 0 ++ beBytes (h.w / 4) (8 * bs.length)

def Sha.hash (h : Sha) (k : List Nat) (init : List Nat) (bs : List Byte) : List Nat :=
  let p := h.pad bs
  (Sha.blocks h k (p.length / (2 * h.w)) (ShaVars.ofList init) p).toList

/-- SHA-256: 32 bytes. -/
def sha256 (bs : List Byte) : List Byte :=
  (sha32.hash sha32K ((shaPrimes.take 8).map (fracSqrt 32)) bs).flatMap (beBytes 4)

/-- SHA-384: 48 bytes. -/
def sha384 (bs : List Byte) : List Byte :=
  (((sha64.hash sha64K (((shaPrimes.drop 8).take 8).map (fracSqrt 64)) bs).take 6).flatMap (beBytes 8))

/-! ### ECDSA on P-384 -/

/-- The field prime, 2^384 − 2^128 − 2^96 + 2^32 − 1. -/
def p384p : Nat := 2 ^ 384 - 2 ^ 128 - 2 ^ 96 + 2 ^ 32 - 1
def p384n : Nat := 0xffffffffffffffffffffffffffffffffffffffffffffffffc7634d81f4372ddf581a0db248b0a77aecec196accc52973
def p384b : Nat := 0xb3312fa7e23ee7e4988e056be3f82d19181d9c6efe8141120314088f5013875ac656398d8a2ed19d2a85c8edd3ec2aef
def p384gx : Nat := 0xaa87ca22be8b05378eb1c71ef320ad746e1d3b628ba79b9859f741e082542a385502f25dbf55296c3a545e3872760ab7
def p384gy : Nat := 0x3617de4a96262c6f5d9e98bf9292dc29f8f41dbd289a147ce9da3113b5f0b8c00a60b1ce1d7e819d7a431d7c90ea0e5f

/-- b^e mod m over the low `k` bits of `e`. -/
def powMod (m b : Nat) : Nat → Nat → Nat
  | 0, _ => 1 % m
  | k + 1, e =>
    let h := powMod m (b * b % m) k (e / 2)
    if e % 2 = 1 then h * b % m else h

/-- The inverse modulo a prime below 2^384. -/
def invMod (m a : Nat) : Nat := powMod m (a % m) 384 (m - 2)

/-- A point in Jacobian coordinates; z = 0 is the point at infinity. -/
structure ECPoint where
  x : Nat
  y : Nat
  z : Nat
deriving DecidableEq, Repr

def ecDouble (a : ECPoint) : ECPoint :=
  let p := p384p
  if a.z = 0 ∨ a.y = 0 then ⟨1, 1, 0⟩
  else
    let yy := a.y * a.y % p
    let s := 4 * a.x * yy % p
    let zz := a.z * a.z % p
    let m := 3 * (a.x + zz) * (a.x + p - zz) % p
    let x := (m * m + 2 * p - 2 * s) % p
    ⟨x, (m * (s + p - x) + 8 * p - 8 * (yy * yy % p)) % p, 2 * a.y * a.z % p⟩

def ecAdd (a b : ECPoint) : ECPoint :=
  let p := p384p
  if a.z = 0 then b
  else if b.z = 0 then a
  else
    let za := a.z * a.z % p
    let zb := b.z * b.z % p
    let u1 := a.x * zb % p
    let u2 := b.x * za % p
    let s1 := a.y * zb % p * b.z % p
    let s2 := b.y * za % p * a.z % p
    if u1 = u2 then (if s1 = s2 then ecDouble a else ⟨1, 1, 0⟩)
    else
      let h := (u2 + p - u1) % p
      let r := (s2 + p - s1) % p
      let hh := h * h % p
      let h3 := hh * h % p
      let v := u1 * hh % p
      let x := (r * r + 3 * p - h3 - 2 * v) % p
      ⟨x, (r * (v + p - x) + p - s1 * h3 % p) % p, h * a.z % p * b.z % p⟩

/-- k × P over the low `n` bits of k. -/
def ecMul (q : ECPoint) : Nat → Nat → ECPoint
  | 0, _ => ⟨1, 1, 0⟩
  | n + 1, k =>
    let h := ecDouble (ecMul q n (k / 2))
    if k % 2 = 1 then ecAdd h q else h

/-- The affine point of a 97-byte SEC1 uncompressed encoding that lies on P-384. -/
def sec1Point (bs : List Byte) : Option ECPoint :=
  let x := beNat ((bs.drop 1).take 48)
  let y := beNat ((bs.drop 49).take 48)
  if byteAt bs 0 = 0x04 ∧ bs.length = 97 ∧ x < p384p ∧ y < p384p ∧
      y * y % p384p = (x * x % p384p * x + 3 * (p384p - x) + p384b) % p384p then some ⟨x, y, 1⟩
  else none

/-- ECDSA verification of a 48-byte digest under a public key (FIPS 186-5). -/
def ecdsaVerify (key digest r s : List Byte) : Bool :=
  match sec1Point key with
  | none => false
  | some q =>
    let rn := beNat r
    let sn := beNat s
    if rn = 0 ∨ sn = 0 ∨ p384n ≤ rn ∨ p384n ≤ sn then false
    else
      let w := invMod p384n sn
      let u1 := beNat digest % p384n * w % p384n
      let u2 := rn * w % p384n
      let g : ECPoint := ⟨p384gx, p384gy, 1⟩
      let pt := ecAdd (ecMul g 384 u1) (ecMul q 384 u2)
      if pt.z = 0 then false
      else
        let zi := invMod p384p pt.z
        let x := pt.x * (zi * zi % p384p) % p384p
        decide (x % p384n = rn)

/-! ### Cyclic redundancy checks -/

/-- Eight steps of a reflected CRC. -/
def crcStepR (poly : Nat) : Nat → Nat → Nat
  | 0, c => c
  | k + 1, c => crcStepR poly k (if c % 2 = 1 then (c >>> 1) ^^^ poly else c >>> 1)

/-- CRC-32 as R365 gives it: IEEE 802.3, reflected, initial value and final XOR all ones. -/
def crc32 (bs : List Byte) : Word :=
  BitVec.ofNat 32 ((bs.foldl (fun c b => crcStepR 0xEDB88320 8 (c ^^^ b.toNat)) 0xFFFFFFFF) ^^^ 0xFFFFFFFF)

/-- Eight steps of a CRC taken from the top bit, 16 bits wide. -/
def crcStepM (poly : Nat) : Nat → Nat → Nat
  | 0, c => c
  | k + 1, c => crcStepM poly k (if 2 ^ 15 ≤ c then (c * 2 % 2 ^ 16) ^^^ poly else c * 2)

/-- The CRC-16 of a data frame (R334): polynomial 0x1021, initial value 0xFFFF. -/
def crc16 (bs : List Byte) : BitVec 16 :=
  BitVec.ofNat 16 (bs.foldl (fun c b => crcStepM 0x1021 8 (c ^^^ (b.toNat * 256))) 0xFFFF)

end Sys2Proof.Machine
end

