-- ==== Sys2Proof/Machine/Records.lean ====
section
/-!
DEFINITION. What the device reads from the records the Starter image loaded: the fields of a program record (R372 with
R131, R161, R186, R281, R345), of a partition (R370) and of the OBSERVE and TREE records (R422, R329).
-/
namespace Sys2Proof.Machine

/-! ### Program records (R372) -/

/-- The built-in null program (R41): a record of zeros but for NFROND. -/
def nullProgram : List Word := (0x00001000 : Word) :: List.replicate 47 0

/-- The 48 words of the record of program `p` as loaded; zeros where the image defines none. -/
def progRec (s : State) (p : Nat) : List Word := ((s.programs.find? (·.1 == p)).map (·.2)).getD (List.replicate 48 0)

/-- Whether the image (or R41) defines program `p`. -/
def progDefined (s : State) (p : Nat) : Bool := s.programs.any (·.1 == p)

def pf (s : State) (p w hi lo : Nat) : Nat := field (wordAt (progRec s p) w) hi lo

def progNFrond (s : State) (p : Nat) : Nat := clampNat 1 16 (pf s p 0 16 12)
def progKspore (s : State) (p : Nat) : Bool := pf s p 0 17 17 == 1
def progEntry (s : State) (p : Nat) : Nat := pf s p 1 17 0
def progDeliv (s : State) (p : Nat) : Nat := pf s p 2 17 0
def progInDecl (s : State) (p : Nat) : Nat := pf s p 3 23 0
def progOutDecl (s : State) (p : Nat) : Nat := pf s p 4 23 0
def progTrapen (s : State) (p : Nat) : BitVec 5 := BitVec.ofNat 5 (pf s p 5 4 0)
def progMulfix (s : State) (p : Nat) : Bool := pf s p 5 5 5 == 1
def progPiveps (s : State) (p : Nat) : Word := wordAt (progRec s p) 6
def progPivrcp (s : State) (p : Nat) : BitVec 8 := BitVec.ofNat 8 (pf s p 7 7 0)

/-- A logical Frond number of a record: above 127 it is 127 (R372). -/
def frondNo (v : Nat) : FrondId := ⟨min v 127, by omega⟩

/-- The logical Fronds of a program, in the record's order (R372). -/
def progFronds (s : State) (p : Nat) : List FrondId :=
  (upto (progNFrond s p)).map fun i => frondNo (field (wordAt (progRec s p) (8 + i / 4)) (8 * (i % 4) + 7) (8 * (i % 4)))

def progFirst (s : State) (p : Nat) : FrondId := (progFronds s p).getD 0 0

/-! Deadline extension (R186), words 12 to 15. -/
def progMargin (s : State) (p : Nat) : Nat :=
  let m := pf s p 12 15 0
  if m = 0 then 0x312 else clampNat 0x63 0x4CCC m
def progFbEn (s : State) (p : Nat) : Bool := pf s p 12 16 16 == 1
def progKeep (s : State) (p : Nat) : Bool := pf s p 12 17 17 == 1
def progFb (s : State) (p : Nat) : Nat := pf s p 12 31 20
def progCfs (s : State) (p : Nat) : Nat := (wordAt (progRec s p) 13).toNat
def progCprime (s : State) (p : Nat) : Nat := pf s p 14 23 0
def progXcrit (s : State) (p : Nat) : Nat := pf s p 14 31 24
def progCout (s : State) (p : Nat) : Nat := pf s p 15 15 0

/-! Estimation extension (R131), words 16 to 19. -/
def progKind (s : State) (p : Nat) : Nat := pf s p 16 2 0
def progStateful (s : State) (p : Nat) : Bool := pf s p 16 3 3 == 1
def progKmax (s : State) (p : Nat) : Nat := clampNat 1 8 (pf s p 16 7 4)
def progSteps (s : State) (p : Nat) : Nat := clampNat 1 255 (pf s p 16 15 8)
def progLayout (s : State) (p : Nat) : Nat := pf s p 16 31 16
def progSbase (s : State) (p : Nat) : Nat := pf s p 17 17 0
def progSq0 (s : State) (p : Nat) : Nat := pf s p 18 19 0
def progSstride (s : State) (p : Nat) : Nat := clampNat 1 0xFFF (pf s p 19 11 0)
def progSqn (s : State) (p : Nat) : Nat := pf s p 19 31 12

/-! Control extension (R161), words 20 to 23. -/
def progForm (s : State) (p : Nat) : Nat := pf s p 20 1 0
def progCache (s : State) (p : Nat) : Bool := pf s p 20 2 2 == 1 && progForm s p != 0
def progDuals (s : State) (p : Nat) : Bool := pf s p 20 3 3 == 1
def progAlpha (s : State) (p : Nat) : Nat := pf s p 20 6 4
def progIters (s : State) (p : Nat) : Nat := clampNat 1 255 (pf s p 20 15 8)
def progRhoe (s : State) (p : Nat) : BitVec 8 := BitVec.ofNat 8 (pf s p 20 23 16)
def progSige (s : State) (p : Nat) : BitVec 8 := BitVec.ofNat 8 (pf s p 20 31 24)
def progH (s : State) (p : Nat) : Nat := clampNat 1 64 (pf s p 21 6 0)
def progStage (s : State) (p : Nat) : Nat := clampNat 1 256 (pf s p 21 15 7)
def progPrefix (s : State) (p : Nat) : Nat := pf s p 21 23 16
def progEqsh (s : State) (p : Nat) : Nat := pf s p 21 27 24
def progCstage (s : State) (p : Nat) : Nat := min 256 (pf s p 22 8 0)
def progCprefix (s : State) (p : Nat) : Nat := pf s p 22 16 9
def progM (s : State) (p : Nat) : Nat := min 8192 (pf s p 22 30 17)
def progExpen (s : State) (p : Nat) : Bool := pf s p 23 0 0 == 1
def progExpch (s : State) (p : Nat) : ChanId := idx 15 (pf s p 23 4 1)
def progExpbank (s : State) (p : Nat) : Bool := pf s p 23 5 5 == 1
def progExpoff (s : State) (p : Nat) : Nat := pf s p 23 19 8
def progExpn (s : State) (p : Nat) : Nat := pf s p 23 23 20 + 1
def progExpboff (s : State) (p : Nat) : Nat := pf s p 23 31 24
/-- n of R161: the length of x. -/
def progN (s : State) (p : Nat) : Nat :=
  let out := max 1 (progOutDecl s p)
  if progDuals s p then max 1 (out - progM s p) else out

/-! Scheduling extension (R281), words 24 and 25. -/
def progCtx (s : State) (p : Nat) : CtxId := idx 3 (pf s p 24 1 0)
def progSbmode (s : State) (p : Nat) : Bool := pf s p 24 2 2 == 1
def progPwait (s : State) (p : Nat) : Nat := 16 * pf s p 24 15 8
def progWaitq (s : State) (p : Nat) : Nat :=
  let q := pf s p 24 31 16
  if q = 0 then 0 else max 64 q

/-! Tree extension (R345), words 26 to 29, and TAGAREA (R372), words 30 and 31. -/
def progShard (s : State) (p : Nat) : Bool := pf s p 26 0 0 == 1
def progMirror (s : State) (p : Nat) : Bool := pf s p 26 1 1 == 1
def progLxcrit (s : State) (p : Nat) : Nat := pf s p 26 15 8
def progHalo (s : State) (p : Nat) : Nat := pf s p 26 31 16
def progSpan (s : State) (p : Nat) : Nat := max 1 (pf s p 27 23 0)
def progElemw (s : State) (p : Nat) : Nat := max 1 (pf s p 27 31 24)
def progWmin (s : State) (p : Nat) : Nat := clampNat 1 127 (pf s p 28 6 0)
def progWmax (s : State) (p : Nat) : Nat := max (progWmin s p) (pf s p 28 13 7)
/-- The lines of TAGAREA, numbered as `Frond.full` numbers them. -/
def progTagLines (s : State) (p : Nat) : List Nat :=
  let a0 := pf s p 30 10 0
  let an := pf s p 30 26 16
  let p0 := pf s p 31 9 0
  let pn := pf s p 31 25 16
  ((upto an).map (a0 + ·)).filter (· < 1280) ++ (((upto pn).map (p0 + ·)).filter (· < 768)).map (1280 + ·)

/-! ### Partitions (R370) -/

def part (s : State) (p : PartId) : Partition := s.parts.get p

/-- The enabled partition whose queue range holds a queue. -/
def partOfQueue (s : State) (q : QueueId) : Option PartId :=
  (allFin 8).find? fun p =>
    let r := part s p
    r.en && decide (r.qbase.toNat ≤ q.toNat) && decide (q.toNat < r.qbase.toNat + r.qcount.toNat)

/-- The enabled partition whose ring range holds a ring. -/
def partOfRing (s : State) (r : Nat) : Option PartId :=
  (allFin 8).find? fun p =>
    let x := part s p
    x.en && decide (x.rfirst.toNat ≤ r) && decide (r < x.rfirst.toNat + x.rcount.toNat)

/-- The sink queue of a partition: the highest of its range (R40). -/
def sinkOf (s : State) (p : PartId) : QueueId :=
  BitVec.ofNat 20 ((part s p).qbase.toNat + (part s p).qcount.toNat - 1)

/-- First byte and words of a data window (R370). -/
def winBase (w : Win) : Nat := imageBase + 64 * w.base.toNat
def winSize (w : Win) : Nat := w.size.toNat

/-! ### OBSERVE (R422) -/

def obsW (s : State) (i : Nat) : Word := vgetD s.obs.rcd i 0
def samplen (s : State) : Nat := field (obsW s 0) 23 0
def frzper (s : State) : Nat := field (obsW s 1) 15 0
def trcEn (s : State) : Bool := bit (obsW s 2) 0
def engMask (s : State) (e : Nat) : Bool := bit (obsW s 2) (1 + e)
def trcHth (s : State) : Bool := bit (obsW s 2) 5
def trcLnk (s : State) : Bool := bit (obsW s 2) 6
def partMask (s : State) (p : PartId) : Bool := bit (obsW s 2) (8 + p.val)
def waitEv (s : State) : Nat := max 1 (field (obsW s 2) 23 16)
def treeStop (s : State) : Bool := bit (obsW s 2) 24
def replayEn (s : State) : Bool := bit (obsW s 2) 25
def frMask (s : State) (f : FrondId) : Bool := bit (obsW s (4 + f.val / 32)) (f.val % 32)
def rpWin (s : State) : Nat := field (obsW s 8) 3 0
def rpPart (s : State) : PartId := idx 7 (field (obsW s 8) 6 4)
def rpOff (s : State) : Nat := field (obsW s 8) 31 8

/-- A replay is on its way (R446). -/
def replayRuns (s : State) : Bool := s.obs.replay.st == .prep || s.obs.replay.st == .running || s.obs.replay.st == .drain

/-- The external strobes are suspended: from GO to the end of the replay's own (R447). -/
def strobesHeld (s : State) : Bool := s.obs.replay.st == .prep || s.obs.replay.st == .running

/-- Byte address of the replay control block, RPOFF clamped so that the block lies in its window; none where RPWIN has no room
for it (R422, R446). -/
def replayBlock (s : State) : Option Nat :=
  let w := (part s (rpPart s)).win.get (idx 15 (rpWin s))
  if winSize w < 8 then none else some (winBase w + 4 * min (rpOff s) (winSize w - 8))

/-- PERTURB (R446): a host access or a write-back fell inside the replay. -/
def setPerturb (s : State) : State :=
  if replayRuns s && !s.obs.replay.perturb then
    let s1 := modObs s fun o => { o with replay := { o.replay with perturb := true } }
    match replayBlock s with
    | some b => wrWord s1 b (setBit (rdWord s1 b) 4 true)
    | none => s1
  else s

/-! ### A job and its contexts -/

/-- The Fronds and the context of a job's holding program. -/
def jobFronds (s : State) (j : Job) : List FrondId := progFronds s j.hold.toNat
def jobCtx (s : State) (j : Job) : CtxId := progCtx s j.hold.toNat

/-- The job that a context carries. -/
def ctxJob (s : State) (f : FrondId) (c : CtxId) : Option Job := (ctx s f c).job.bind (jobOf s)

/-- Contexts that carry a job. -/
def ctxsOf (s : State) (j : Job) : List (FrondId × CtxId) :=
  ((jobFronds s j).map fun f => (f, jobCtx s j)).filter fun p => (ctx s p.1 p.2).job == some j.id

/-- Past its final mark, or past its last instruction (R194, R196). -/
def pastFinal (x : Ctx) : Bool := x.final || x.completed

/-- A deadline action of the job stands out: its contexts act at their next instruction boundary, and it wins over a pre-emption (R193, R196,
R203). -/
def actionPending (s : State) (f : FrondId) (c : CtxId) : Bool :=
  match ctxJob s f c with
  | some j => j.fired && j.st == .placed && !((ctxsOf s j).all fun p => pastFinal (ctx s p.1 p.2))
  | none => false

/-! ### The action time (R183, R203) -/

/-- The moment at which the timebase reached a stamp; none while it has not. -/
def reachedAt (s : State) (t : Stamp) : Option Time :=
  let d := (stamp s - t).toInt
  if d < 0 then none else some ((s.now / tUnit - d.toNat) * tUnit)

/-- The timebase reaches a stamp in the present XC (R193, R203). -/
def reachedNow (s : State) (t : Stamp) : Bool :=
  match reachedAt s t with
  | some m => m / tXC == s.now / tXC
  | none => false

end Sys2Proof.Machine
end

