-- ==== Sys2Proof/Machine/Trace.lean ====
section
/-!
DEFINITION. Trace records, the collectors and the trace port (R276, R418, R419, R427 to R430).
-/
namespace Sys2Proof.Machine

/-- SVCST.SCOPE bits count only in SERVICE (R411). -/
def scopeBit (s : State) (b : Nat) : Bool := curOf s == .service && bit s.session.scope b

def svcEn (s : State) : Bool := bit s.sec.secpol 0
def stagEn (s : State) : Bool := bit s.sec.secpol 1
def trcSeal (s : State) : Bool := bit s.sec.secpol 2
def privAp (s : State) : Bool := bit s.sec.secpol 3
def dumpSum (s : State) : Bool := bit s.sec.secpol 4

/-- Whether the trace port may run: the OBSERVE record, the lock, and the row of R418. -/
def traceRuns (s : State) : Bool :=
  operating s && trcEn s &&
    match curOf s with
    | .opened => true
    | .service => scopeBit s 0 || trcSeal s
    | .sealed => trcSeal s

/-- The four words of a trace record (R428). -/
def traceWords (kind engine unit ctx prog : Nat) (t : Stamp) (info layer operator : Nat) : List Word :=
  [BitVec.ofNat 32 (kind % 16 + at_ 4 (engine % 8) + at_ 8 (unit % 256) + at_ 16 (ctx % 4) + at_ 18 (prog % 4096)),
   BitVec.ofNat 32 t.toNat,
   BitVec.ofNat 32 (t.toNat / 2 ^ 32 + at_ 24 (info % 256)),
   BitVec.ofNat 32 (layer % 2 ^ 16 + at_ 16 (operator % 2 ^ 16))]

/-- A record that carries a 32-bit value in its last word: DROP and STEP. -/
def traceValue (kind unit : Nat) (t : Stamp) (v : Nat) : List Word := traceWords kind 0 unit 0 0 t 0 v (v / 2 ^ 16)

def traceNull : List Word := [0, 0, 0, 0]

/-- A record reaches its router's collector, or is dropped and counted when the 4-packet buffer is full (R276, R430). A
DROP leads the next packet begun. -/
def collect (s : State) (router : Fin 16) (rec : List Word) : State :=
  let c := s.fabric.coll.get router
  if 4 ≤ c.packets.length then
    modDcnt (modFabric s fun f => { f with
      trdrop := satInc f.trdrop, coll := vset f.coll router { c with dropped := c.dropped + 1 } }) fun d =>
      { d with trdrop := satInc d.trdrop }
  else
    let lead := if c.recs.isEmpty && decide (0 < c.dropped) then [(s.now, traceValue 5 router.val (stamp s) c.dropped)] else []
    let recs := c.recs ++ lead ++ [(s.now, rec)]
    let c1 := { c with dropped := if lead.isEmpty then c.dropped else 0 }
    let c2 := if 8 ≤ recs.length then { c1 with recs := recs.drop 8, packets := c1.packets ++ [(recs.take 8).map (·.2)] }
      else { c1 with recs := recs }
    modFabric s fun f => { f with coll := vset f.coll router c2 }

/-- Records of partition p's spores are traced by PARTMASK; device-class records always (R422). -/
def partTraced (s : State) : Option PartId → Bool
  | none => true
  | some p => partMask s p

/-- A record of a Frond engine (0 Crumb, 1 array, 2 fetch, 3 drain) for a context (R427). -/
def traceFrond (s : State) (f : FrondId) (c : CtxId) (engine kind info : Nat) : State :=
  let x := ctx s f c
  let p := (x.job.bind (jobOf s)).map (·.part)
  if traceRuns s && frMask s f && engMask s engine && partTraced s p then
    collect s (groupOf f) (traceWords kind engine f.val c.val x.prog.toNat (stamp s) info (field x.ctxid 15 0) (field x.ctxid 31 16))
  else s

/-- A record of a Hearth core, at router 5 (R28, R427). -/
def traceHearth (s : State) (core kind prog info : Nat) (p : PartId) : State :=
  if traceRuns s && trcHth s && partMask s p then
    collect s 5 (traceWords kind 4 (0x80 + core) 0 prog (stamp s) info 0 0)
  else s

/-- The router of a Rhizoid link (R28). -/
def linkRouter (l : LinkId) : Fin 16 := if l.val = 0 then 0 else if l.val = 1 then 3 else if l.val = 2 then 12 else 15

/-- A record of a link: link-down (END) and retrain (BEGIN) (R427). -/
def traceLink (s : State) (l : LinkId) (kind : Nat) : State :=
  if traceRuns s && trcLnk s then collect s (linkRouter l) (traceWords kind 5 (0x84 + l.val) 0 0 (stamp s) 0 0 0) else s

/-- The STEP record of a join; its stamp is taken after the step, and a SYNC packet follows (R340, R428, R429). -/
def traceStep (s : State) (d : Int) : State :=
  if traceRuns s then
    collect (modFabric s fun f => { f with stepDue := true }) 2
      (traceValue 10 s.tree.node.toNat (stamp s) (BitVec.ofInt 32 d).toNat)
  else s

/-- TRACE_PACKET_SEND: a collector sends a full packet, or one whose oldest record is 1 µs old filled with NULL, at most one
per 61 XC device-wide (R276, R430). -/
def execTracePacketSend (t : Time) (router : Fin 16) (s : State) : Host.Outcome State Fault Refusal :=
  live t s fun s =>
    let c := s.fabric.coll.get router
    if !traceRuns s || decide (s.now < s.fabric.traceAt + 61 * tXC) then s
    else
      let send := fun (p : List (List Word)) (c' : Collector) =>
        modFabric s fun f => { f with traceQ := f.traceQ ++ [p], traceAt := s.now, coll := vset f.coll router c' }
      match c.packets, c.recs with
      | p :: ps, _ => send p { c with packets := ps }
      | [], (t0, r) :: rs =>
        if t0 + tUs ≤ s.now then
          let p := r :: rs.map (·.2)
          send (p ++ List.replicate (8 - p.length) traceNull) { c with recs := [] }
        else s
      | [], [] => s

/-- The SYNC packet (R428, R429). -/
def syncPacket (s : State) : List (List Word) :=
  traceWords 4 0 s.tree.node.toNat 0 0 (stamp s) s.tree.member.toNat s.fabric.traceSeq.toNat s.tree.offErr.toNat ::
    List.replicate 7 traceNull

/-- TRACE_FRAME: the port sends one packet and its CRC-32; a SYNC packet when it starts, after 256 packets, after a STEP
(R429). A port that may not run idles. -/
def execTraceFrame (t : Time) (s : State) : Host.Outcome State Fault Refusal :=
  live t s fun s =>
    if !traceRuns s then modFabric s fun f => { f with traceOn := false, traceQ := [] }
    else
      let out : List (List Word) → Fabric → Fabric := fun p f =>
        { f with traceOut := f.traceOut ++ [{ recs := p, crc := crc32 (wordsBytes p.flatten) }], traceSeq := f.traceSeq + 1, traceOn := true }
      if !s.fabric.traceOn || s.fabric.stepDue || decide (256 ≤ s.fabric.sinceSync) then
        modFabric s fun f => { out (syncPacket s) f with stepDue := false, sinceSync := 0 }
      else match s.fabric.traceQ with
        | [] => s
        | p :: ps => modFabric s fun f => { out p f with traceQ := ps, sinceSync := f.sinceSync + 1 }

end Sys2Proof.Machine
end

