-- ==== Sys2Proof/Machine/Fabric.lean ====
section
/-!
DEFINITION. The mesh and its routes, the lottery ports, their tickets, shadows and modes, and the per-partition regulators (R27, R28,
R256 to R280).
-/
namespace Sys2Proof.Machine

/-! ### The mesh (R27, R28, R257) -/

/-- The router that hosts the unit of a requester id (R28, R259); reserved ids have none. -/
def unitRouter (req : Nat) : Option Nat :=
  if req < 16 then some req else [5, 6, 1, 0, 3, 12, 15, 9, 10, 2][req - 16]?

/-- The router in which a lottery port sits (R28, R258). -/
def portRouter (p : Fin 21) : Nat := if p.val < 16 then p.val else [1, 0, 3, 12, 15].getD (p.val - 16) 0

/-- The next router on the way from `a` to `b`: along the row to the column of `b` first, then along the column (R27, R257). -/
def nextRouter (a b : Nat) : Nat :=
  if a % 4 < b % 4 then a + 1 else if b % 4 < a % 4 then a - 1 else if a / 4 < b / 4 then a + 4 else if b / 4 < a / 4 then a - 4 else a

/-- The routers of the fixed route from `a` to `b`, `a` first; no route crosses more than 6 hops (R27, R256). -/
def route (a b : Nat) : List Nat := go a 6
where
  /-- The route from a router on, with at most `n` hops left. -/
  go (r : Nat) : Nat → List Nat
  | 0 => [r]
  | n + 1 => if r = b then [r] else r :: go (nextRouter r b) n

/-- The input of router `r` at which packets from router `q` arrive: 0 from a unit of its own, 1 from the next lower column, 2 from the
next higher column, 3 from the next lower row, 4 from the next higher row (the numbering is the model's, log entry 84). -/
def inputFrom (q r : Nat) : Fin 5 := if q + 1 = r then 1 else if q = r + 1 then 2 else if q + 4 = r then 3 else if q = r + 4 then 4 else 0

/-- The input of a port's router through which the requests of a requester come: the last hop of its route (R257, R267). -/
def inputOf (req : Nat) (p : Fin 21) : Fin 5 :=
  if p.val = 16 then 0
  else match unitRouter req with
    | none => 0
    | some u => match (route u (portRouter p)).reverse with
      | r :: q :: _ => inputFrom q r
      | _ => 0

/-! ### Ports and their settings -/

/-- The class of a port: 0 Shared Store, 1 PCI Express egress, 2 link egress (R258, R273). -/
def portClass (p : Fin 21) : Nat := if p.val < 16 then 0 else if p.val = 16 then 1 else 2

/-- The regulator of a partition for a port class (R273). -/
def regOf (f : Fabric) (cls : Nat) (p : PartId) : Reg273 :=
  if cls = 0 then f.regSS.get p else if cls = 1 then f.regPE.get p else f.regLK.get p

def modReg (f : Fabric) (cls : Nat) (p : PartId) (g : Reg273 → Reg273) : Fabric :=
  if cls = 0 then { f with regSS := vmod f.regSS p g }
  else if cls = 1 then { f with regPE := vmod f.regPE p g }
  else { f with regLK := vmod f.regLK p g }

/-- AGE of a port (R280). -/
def portAge (f : Fabric) (p : Fin 21) : Nat :=
  if portClass p = 0 then f.live.ageSS.toNat else if portClass p = 1 then f.live.agePE.toNat else f.live.ageLK.toNat

/-- t(c): the tickets of a requester, or of a class at the PCI Express egress (R264). -/
def ticketsOf (f : Fabric) (p : Fin 21) (id : Nat) : Nat :=
  if portClass p = 0 then (vgetD f.live.ss id 0).toNat
  else if portClass p = 1 then (vgetD f.live.pe id 0).toNat
  else (vgetD f.live.lk id 0).toNat

/-- One step of a port's generator (R262). -/
def lfsrStep (s : Word) : Word := if bit s 0 then (s >>> 1) ^^^ 0x80200003 else s >>> 1

def lfsrSteps : Nat → Word → Word
  | 0, s => s
  | n + 1, s => lfsrSteps n (lfsrStep s)

/-- The state a port loads from SEED (R262). -/
def lfsrLoad (seed : Word) (k : Nat) : Word :=
  let x := seed.rotateLeft k
  if x = 0 then 1 else x

/-- The current XC. -/
def xcNow (s : State) : Nat := s.now / tXC

/-- The fabric as a contest of this XC sees it: a write of this XC acts from the next XC on (R270, R271). -/
def inForce (s : State) : Fabric :=
  match s.fabric.old with
  | some (n, t) => if n = xcNow s then { s.fabric with live := t } else s.fabric
  | none => s.fabric

/-- The values before the first change of an XC are kept for that XC's contests (R270). -/
def noteOld (f : Fabric) (xc : Nat) : Option (Nat × Tickets) :=
  match f.old with
  | some (n, t) => if n = xc then some (n, t) else some (xc, f.live)
  | none => some (xc, f.live)

/-- A commit was made in this XC (R271). -/
def committing (s : State) : Bool := s.fabric.commitXC == some (xcNow s)

/-! ### Contests (R263 to R268) -/

/-- A request is held in the port's ejection register for the router input (R267). -/
def regTaken (cs : List Contender) (i : Option (Fin 5)) : Bool := i.isSome && cs.any fun c => !c.waits && c.input == i

/-- The first of a list on each router input, given the inputs that are blocked. -/
def firstPerInput : List Contender → List (Option (Fin 5)) → List Contender
  | [], _ => []
  | c :: cs, seen => if seen.contains c.input then firstPerInput cs seen else c :: firstPerInput cs (c.input :: seen)

/-- The requests that reach the port in a contest: on each router input whose register is free, the first of those that wait in the
input buffer and of the `fresh` ones behind them (R27, R267). -/
def reaching (now : Time) (cons fresh : List Contender) : List Contender :=
  ((firstPerInput ((cons.filter (·.waits)) ++ fresh) []).filter fun c => !regTaken cons c.input).map fun c => { c with at_ := now, waits := false }

/-- The requests that stay in the input buffers (R267). -/
def behind (cons fresh : List Contender) : List Contender :=
  let came := (reaching 0 cons fresh).map (·.ref)
  ((cons.filter (·.waits) ++ fresh).filter fun c => !came.contains c.ref).map fun c => { c with waits := true }

/-- The oldest request of each requester. -/
def oldestPer : List Contender → List Nat → List Contender
  | [], _ => []
  | c :: cs, seen => if seen.contains c.id then oldestPer cs seen else c :: oldestPer cs (c.id :: seen)

/-- Credit at the start of this XC (R273). -/
def creditAt (s : State) (x : Port) (p : PartId) : Int :=
  if x.startXC = some (xcNow s) then x.creditStart.get p else x.credit.get p

/-- The credits as an XC begins are kept for its contest, before the first change of that XC (R273). -/
def Port.noteStart (x : Port) (xc : Nat) : Port :=
  if x.startXC = some xc then x else { x with startXC := some xc, creditStart := x.credit }

/-- The accrual of an XC at one port, once (R273). -/
def Port.accrue (f : Fabric) (k : Fin 21) (xc : Nat) (x : Port) : Port :=
  if x.accXC = some xc then x
  else { x.noteStart xc with
    accXC := some xc
    credit := Vector.ofFn fun (p : Fin 8) =>
      let r := regOf f (portClass k) p
      if r.en then min (x.credit.get p + Int.ofNat r.rate.toNat) (Int.ofNat r.burst.toNat * 256) else x.credit.get p }

/-- Eligible: device class, an unregulated partition, or credit above 0 (R261, R263, R273). -/
def eligible (s : State) (cls : Nat) (x : Port) (c : Contender) : Bool :=
  match c.part with
  | none => true
  | some p => !(regOf s.fabric cls p).en || decide (0 < creditAt s x p)

/-- May be granted by slack (R264, R274). -/
def slackable (s : State) (cls : Nat) (x : Port) (c : Contender) : Bool :=
  match c.part with
  | none => false
  | some p =>
    let r := regOf s.fabric cls p
    r.slack && decide (creditAt s x p > -(Int.ofNat r.burst.toNat * 256))

/-- The oldest by arrival XC; ties to the lower requester id. -/
def firstArrived : List Contender → Option Contender
  | [] => none
  | c :: cs =>
    match firstArrived cs with
    | none => some c
    | some d => if c.at_ / tXC < d.at_ / tXC ∨ (c.at_ / tXC = d.at_ / tXC ∧ c.id < d.id) then some c else some d

def insertById (c : Contender) : List Contender → List Contender
  | [] => [c]
  | d :: ds => if c.id ≤ d.id then c :: d :: ds else d :: insertById c ds

def byId (cs : List Contender) : List Contender := cs.foldl (fun l c => insertById c l) []

/-- The contender at which the running sum of weights first exceeds w. -/
def drawAt (weight : Contender → Nat) (w : Nat) : Nat → List Contender → Option Contender
  | _, [] => none
  | cum, c :: cs => if w < cum + weight c then some c else drawAt weight w (cum + weight c) cs

/-- How a contest was settled. -/
structure Grant where
  who : Contender
  byAge : Bool
  bySlack : Bool
  lfsr : Word
deriving DecidableEq, Repr

/-- R264's procedure. -/
def contest (s : State) (p : Fin 21) (x : Port) (cs : List Contender) : Option Grant :=
  let cls := portClass p
  let e0 := cs.filter (eligible s cls x)
  let slack := e0.isEmpty
  let e := if slack then cs.filter (slackable s cls x) else e0
  match firstArrived (e.filter fun c => decide (portAge s.fabric p ≤ c.age)) with
  | some c => some ⟨c, true, slack, x.lfsr⟩
  | none =>
    let t := fun (c : Contender) => ticketsOf s.fabric p c.id
    let zero := e.all fun c => t c == 0
    let d := byId (if zero then e else e.filter fun c => t c != 0)
    let weight := fun (c : Contender) => if zero then 1 else t c
    match d with
    | [] => none
    | [c] => some ⟨c, false, slack, x.lfsr⟩
    | _ =>
      let l := lfsrSteps 32 x.lfsr
      let total := (d.map weight).sum
      let w := (field l 31 16 * total) >>> 16
      match drawAt weight w 0 d with
      | some c => some ⟨c, false, slack, l⟩
      | none => none

/-- Entries of the pending queue. -/
def parked (cs : List Contender) : Nat := (cs.filter fun c => c.input.isNone).length

/-- After a contest the requests that reached the port in it and remain are parked; with 16 entries in the queue one is held in
its input's register, which is free as it reached the port (R265, R267). -/
def settle (old : List Contender) : List Contender → List Contender
  | [] => old
  | c :: cs => settle (old ++ [if parked old < 16 then { c with input := none } else c]) cs

/-- The virtual channel of a frame; control frames have none (R335). -/
def Msg.vc : Msg → Option (Fin 3)
  | .ctrl _ => none
  | .cut _ _ => none
  | .write _ => some 0
  | .writew _ => some 0
  | .read _ => some 0
  | .rdata _ => some 1
  | .wack _ => some 1
  | .pdone _ => some 1
  | .done _ => some 1
  | .spore _ => some 2
  | .epoch _ _ _ => some 2
  | .epend _ _ => some 2
  | .hbeat _ => some 2
  | .join _ => some 2
  | .stop _ => some 2

/-- The receiver has a credit for a message's virtual channel (R335, R336). -/
def hasCredit (k : Link) (m : Msg) : Bool := match m.vc with | some v => decide (0 < k.credits.get v) | none => true

/-- The control frame that leaves a link now: link-local, with 32 frames of room on every virtual channel (R335, R336). -/
def ctrlPacket (s : State) (l : LinkId) (nak : Option (BitVec 16)) : Packet :=
  let k := s.links.get l
  { part := 0, snode := idx 127 s.tree.node.toNat, dnode := 0
    msg := .ctrl { ack := k.rxCount, nak := nak, credits := Vector.replicate 3 32, sentAt := stamp s, echo := k.echo } }

/-- A control frame leaves a link (R336). -/
def Link.ctrl (k : Link) (c : Packet) : Link := { k with sent := k.sent ++ [c], sinceCtrl := 0 }

/-- A data frame takes its slot; after the 180th since the last control frame one follows (R333, R336). -/
def Link.data (k : Link) (c p : Packet) : Link :=
  if k.sinceCtrl + 1 < 180 then { k with sent := k.sent ++ [p], sinceCtrl := k.sinceCtrl + 1 }
  else Link.ctrl { k with sent := k.sent ++ [p] } c

/-- A data frame leaves: it takes the next number and a credit, and is kept until acknowledged (R336, R337). -/
def Link.put (k : Link) (c p : Packet) : Link :=
  Link.data { k with
    txCount := k.txCount + 1, retry := k.retry ++ [(k.txCount, p)], txfr := k.txfr + 1
    credits := match p.msg.vc with | some v => vmod k.credits v (· - 1) | none => k.credits } c p

/-- A frame granted at a link's egress leaves (R337). -/
def linkSend (s : State) (l : LinkId) (ref : Nat) : State :=
  match ((s.links.get l).outq.find? (·.1 == ref)).map (·.2) with
  | none => s
  | some p => modLink s l fun k => { k.put (ctrlPacket s l none) p with outq := k.outq.filter (·.1 != ref) }

/-- A request may contend: at a link egress, a credit for its frame is there, and room in the retry buffer of 256 frames (R336, R337, R436). -/
def sendable (s : State) (p : Fin 21) (c : Contender) : Bool :=
  if portClass p = 2 then
    let k := s.links.get (idx 3 (p.val - 17))
    match (k.outq.find? (·.1 == c.ref)).map (·.2) with
    | some q => hasCredit k q.msg && decide (k.retry.length < 256)
    | none => true
  else true

/-! ### Transfers (R258 to R261, R266) -/

/-- The transfer sent under an id. -/
def sentOf (s : State) (ref : Nat) : Option Sent := s.fabric.xfers.find? (·.id == ref)
/-- The transfer a request named. -/
def xferOf (s : State) (ref : Nat) : Option Xfer := (sentOf s ref).map (·.x)
def dropXfer (s : State) (ref : Nat) : State := modFabric s fun f => { f with xfers := f.xfers.filter (·.id != ref) }

/-- The Shared Store port of an address. -/
def ssPort (a : Nat) : Fin 21 := idx 20 (portOf a)

/-- The lottery port a transfer goes to (R23, R258). -/
def xferPort (s : State) : Xfer → Fin 21
  | .load _ _ _ a => ssPort a
  | .store _ _ _ a _ => ssPort a
  | .engRead _ _ _ a _ => ssPort a
  | .engWrite _ _ _ a _ _ _ => ssPort a
  | .leInput ch _ => ssPort (s.le.get ch).iblk
  | .amo _ _ _ a _ _ _ => ssPort a
  | .saveLine _ _ a _ => ssPort a
  | .restoreLine _ _ a _ => ssPort a
  | .bitmapLine l => ssPort (128 * l)
  | .hostLine _ a _ => ssPort a
  | .hostRead _ a _ => ssPort a
  | .recordRead _ a _ _ => ssPort a
  | .linkLine _ f _ => ssPort (128 * f.line.toNat)
  | .linkRead _ _ a _ => ssPort a
  | .tlp _ _ _ _ => 16
  | .message _ _ => 16
  | .completion _ _ _ _ => 16
  | .frame l => idx 20 (17 + l.val)

/-- A TLP whose bytes are still to be read from the Shared Store does not enter the egress yet (R261). -/
def Xfer.ready : Xfer → Bool
  | .tlp _ _ bytes _ => !bytes.isEmpty
  | _ => true

/-- A transfer has reached its port: it contends, waits behind it, or has been granted. -/
def arrived (x : Port) (ref : Nat) : Bool := x.cons.any (·.ref == ref) || x.granted.any (·.2 == ref)

/-- The transfers of a requester on their way to a port, in the order sent. -/
def underWay (s : State) (p : Fin 21) (req : Fin 32) : List Sent :=
  s.fabric.xfers.filter fun e => e.req == req && xferPort s e.x == p && !arrived (s.fabric.ports.get p) e.id

/-- Units whose accesses to the Shared Store this model does not hold one by one: the Hearth's firmware, the digest engine, the router-10
block and the trace port (log entry 84). Their requests come as operands of the contest. -/
def freeRequester (req : Fin 32) : Bool := req == 16 || req == 23 || req == 24 || req == 25

/-- A request may arrive: through the router input of its route; a transfer that this model holds, with the requester and partition it
was sent with and in the order that its requester sent it (R27, R259 to R261, R266); a request of a unit whose accesses are not held one
by one, of the device class unless it is the digest engine's. -/
def mayArrive (s : State) (p : Fin 21) (a : Arrival) : Bool :=
  a.input == inputOf a.id.val p &&
  match sentOf s a.ref with
  | some e => e.req == a.id && e.part == a.part && e.x.ready && ((underWay s p a.id).head?.any fun h => h.id == a.ref)
  | none => portClass p == 0 && freeRequester a.id && decide (2 ^ 64 ≤ a.ref) && (a.part.isNone || a.id == 23) && !arrived (s.fabric.ports.get p) a.ref

/-- The requests of a list that arrive in one XC: one for each input of the router, as a mesh link carries 128 B in an XC (R27). -/
def admitted (s : State) (p : Fin 21) : List Arrival → List (Fin 5) → List Nat → List Arrival
  | [], _, _ => []
  | a :: as, ins, refs =>
    if mayArrive s p a && !ins.contains a.input && !refs.contains a.ref then a :: admitted s p as (a.input :: ins) (a.ref :: refs)
    else admitted s p as ins refs

/-- What a grant moves: a Shared Store access waits to be performed in order; a TLP or a message leaves for the host; a frame leaves. -/
def deliverGrant (s : State) (p : Fin 21) (c : Contender) : State :=
  if portClass p = 0 then modPort s p fun x => { x with granted := x.granted ++ [(c.id, c.ref)] }
  else if portClass p = 1 then
    match xferOf s c.ref with
    | some (.tlp _ addr bytes _) => modPcie (dropXfer s c.ref) fun q => { q with toHost := q.toHost ++ [(addr, bytes)] }
    | some (.message fn v) => modFn (dropXfer s c.ref) fn fun f => { f with msgs := f.msgs ++ [v] }
    | some (.completion _ rd bytes last) => completed (dropXfer s c.ref) rd bytes last
    | _ => s
  else linkSend (dropXfer s c.ref) (idx 3 (p.val - 17)) c.ref
where
  /-- A completion of a host read leaves; with the last one the read is over (R260). -/
  completed (s : State) (rd : Nat) (bytes : List Byte) (last : Bool) : State :=
    match s.pcie.reads.find? (·.id == rd) with
    | none => s
    | some r =>
      if last then modPcie s fun q => { q with readData := r.sent ++ bytes, reads := q.reads.filter (·.id != rd) }
      else modPcie s fun q => { q with reads := q.reads.map fun h => if h.id = rd then { h with sent := h.sent ++ bytes } else h }

/-- Whether a port holds contests: none after a cut (R268), none while its link or the PCI Express port cannot send. -/
def portRuns (s : State) (p : Fin 21) : Bool :=
  !s.obs.halted && operating s &&
    (if portClass p = 0 then true
     else if portClass p = 1 then s.pcie.up
     else
       let k := s.links.get (idx 3 (p.val - 17))
       k.st == .inService && decide (k.retry.length < 256))

/-- The port may hold its next contest: one per XC at a Shared Store port, one per 128 B of payload time at the PCI Express egress
(2.03125 ns), one per frame time of 4.92 ns at a link egress (R258). -/
def contestDue (s : State) (p : Fin 21) : Bool :=
  match (s.fabric.ports.get p).lastAt with
  | none => true
  | some t =>
    if portClass p = 0 then t / tXC != xcNow s
    else if portClass p = 1 then decide (14976 ≤ 100 * (s.now - t))
    else decide (36274176 ≤ 100000 * (s.now - t))

/-- LOTTERY_CONTEST: requests arrive at a port and one contender is granted (R258, R263 to R267, R273, R274). A contest in the XC of a
commit uses the values from before it, and leaves ages, credits and generator as the commit set them (R271). -/
def execLotteryContest (t : Time) (port : Fin 21) (arrivals : List Arrival) (s : State) : Host.Outcome State Fault Refusal :=
  live t s fun s =>
    if !portRuns s port || !contestDue s port then s
    else
      let cls := portClass port
      let x := (s.fabric.ports.get port).accrue s.fabric port (xcNow s)
      let fresh := (admitted s port arrivals [] []).map fun (a : Arrival) =>
        ({ id := a.id.val, part := a.part, at_ := s.now, age := 0, input := some a.input, ref := a.ref, waits := false, oldAge := 0 } : Contender)
      let there := x.cons.filter fun c => !c.waits
      let came := reaching s.now x.cons fresh
      let later := behind x.cons fresh
      let com := committing s
      let seen := if com then there.map fun c => { c with age := c.oldAge } else there
      let cs := (oldestPer (seen ++ came) []).filter (sendable s port)
      if cs.isEmpty then modPort s port fun _ => { x with cons := settle there came ++ later }
      else
      let inel := (allFin 8).filter fun p => cs.any fun c => c.part == some p && !eligible s cls x c
      let f1 := inel.foldl (fun f p => modReg f cls p fun r => { r with held := satInc r.held }) s.fabric
      match contest { s with fabric := { f1 with live := (inForce s).live } } port { x with lfsr := if com then x.oldLfsr else x.lfsr } cs with
      | none => modPort { s with fabric := f1 } port fun _ => { x with cons := settle there came ++ later, lastAt := some s.now }
      | some g =>
        let e0 := cs.filter (eligible s cls x)
        let e := if e0.isEmpty then cs.filter (slackable s cls x) else e0
        let bump := fun (c : Contender) => if !com && e.any (fun d => d.ref == c.ref) then { c with age := c.age + 1 } else c
        let old := (there.filter (·.ref != g.who.ref)).map bump
        let new := (came.filter (·.ref != g.who.ref)).map bump
        let f2 := match g.who.part with
          | some p => if g.bySlack then modReg f1 cls p fun r => { r with slackg := satInc r.slackg } else f1
          | none => f1
        let debit := fun (y : Port) => match g.who.part with
          | some p => if (regOf f2 cls p).en && !com then { y with credit := vmod y.credit p fun v => v - 128 * 256 } else y
          | none => y
        let s1 := modPort { s with fabric := f2 } port fun _ => { debit x with
          cons := settle old new ++ later, lfsr := if com then x.lfsr else g.lfsr, grants := x.grants + 1, lastAt := some s.now
          aged := if g.byAge then satInc x.aged else x.aged }
        deliverGrant s1 port g.who

/-- REGULATOR_ACCRUAL: once in an XC each enabled regulator accrues RATE up to BURST at every port of its class (R273), and QFULL counts
the XC where the pending queue is full (R280). -/
def execRegulatorAccrual (t : Time) (s : State) : Host.Outcome State Fault Refusal :=
  live t s fun s =>
    if s.obs.halted || !operating s || s.fabric.accruedXC == some (xcNow s) then s
    else modFabric s fun f => { f with
      accruedXC := some (xcNow s)
      ports := Vector.ofFn fun (k : Fin 21) =>
        let x := f.ports.get k
        { x.accrue f k (xcNow s) with qfull := if 16 ≤ parked x.cons then satInc x.qfull else x.qfull } }

/-! ### Modes, shadows and the commit (R269 to R271, R278) -/

/-- Every regulator's credit at BURST, at every port (R273). -/
def startCredits (f : Fabric) : Fabric :=
  { f with ports := Vector.ofFn fun (k : Fin 21) =>
      let x := f.ports.get k
      { x with credit := Vector.ofFn fun (p : Fin 8) => Int.ofNat (regOf f (portClass k) p).burst.toNat * 256 } }

/-- AGE_SS limited by XLAT (R278); before an image is loaded XLAT is 0 and stands for the bound of AGE_SS itself. -/
def clampAge (f : Fabric) (t : Tickets) : Tickets :=
  if f.xlat ≠ 0 ∧ f.xlat.toNat - 102 < t.ageSS.toNat then { t with ageSS := BitVec.ofNat 12 (f.xlat.toNat - 102) } else t

/-- The commit: shadows into the live fields, every generator reloaded, every age cleared (R271). -/
def commitTickets (xc : Nat) (f : Fabric) : Fabric :=
  let l := clampAge f f.shadow
  let again := f.commitXC == some xc
  startCredits { f with
    live := l, shadow := l, old := noteOld f xc, commitXC := some xc
    ports := Vector.ofFn fun (k : Fin 21) =>
      let x := f.ports.get k
      { x.noteStart xc with
        lfsr := lfsrLoad l.seed k.val, oldLfsr := if again then x.oldLfsr else x.lfsr
        cons := x.cons.map fun c => { c with age := 0, oldAge := if again then c.oldAge else c.age } } }

/-- A change of MODE discards uncommitted shadows (R271). -/
def setMode (f : Fabric) (m : BitVec 2) : Fabric :=
  if m = f.mode then f
  else { f with mode := m, shdrop := f.shdrop || f.shadow != f.live, shadow := f.live }

/-- Whether a write of MODE takes effect (R269, R418). -/
def modeAllowed (s : State) (m : BitVec 2) : Bool :=
  if m = 0 then !locked s
  else if m = 2 then
    match curOf s with
    | .opened => true
    | .service => scopeBit s 6
    | .sealed => false
  else true

/-- TICKET_COMMIT: TKCOMMIT.GO; in NORMAL nothing is committed (R271, R280). -/
def execTicketCommit (t : Time) (s : State) : Host.Outcome State Fault Refusal :=
  live t s fun s => when_ (s.fabric.mode != 1 && !s.obs.halted && s.boot.phase != .held) s fun s => modFabric s (commitTickets (xcNow s))

/-- FABMODE_WRITE (R269). -/
def execFabmodeWrite (t : Time) (mode : BitVec 2) (s : State) : Host.Outcome State Fault Refusal :=
  live t s fun s =>
    when_ (modeAllowed s mode && !s.obs.halted && s.boot.phase != .held) s fun s => modFabric s fun f => setMode f mode

/-- A ticket, AGE or SEED write: tickets take effect at once in NORMAL; every other such write goes to the shadows,
and with them into the commit of the same XC (R269 to R271). -/
def writeTickets (xc : Nat) (f : Fabric) (isTicket : Bool) (g : Tickets → Tickets) : Fabric :=
  if f.mode = 1 then
    if isTicket then { f with live := g f.live, shadow := g f.shadow, old := noteOld f xc } else { f with shadow := g f.shadow }
  else
    let f1 := { f with shadow := g f.shadow }
    if f.commitXC = some xc then commitTickets xc f1 else f1

end Sys2Proof.Machine
end

