-- ==== Sys2Proof/Machine/Power.lean ====
section
/-!
DEFINITION. The power governor: currents and SLEW, the sequencer, wakes and sleeps, the ramps of Halted and of the reset
input (R388 to R406). Currents are in 1/80 A.
-/
namespace Sys2Proof.Machine

/-- T_PLL = 2.35 µs, rounded up to the grid (R392). -/
def tPLL : Nat := 173261
/-- The clock step and the proof hold, 0.25 µs each (R392). -/
def tStep : Nat := 18432

/-- SLEW in 1/16 A/µs (R397). -/
def slew (s : State) : Nat :=
  let v := field s.power.cfg0 8 0
  if v = 0 then 32 else clampNat 4 256 v
def twarm (s : State) : Nat := max 1 (field s.power.cfg0 23 16)
def tcold (s : State) : Nat := field s.power.cfg0 31 24
def keepAwake (s : State) (g : GroupId) : Bool := bit s.power.cfg1 g.val

/-- The time to change a current by `d` at SLEW. -/
def rampTicks (s : State) (d : Nat) : Nat := ceilDiv (d * tUs) (5 * slew s)

/-- The level of a group state: 0.2 A, 1.5 A, or the allowance of 9.5 A (R389, R392). -/
def PState.level : PState → Nat
  | .active => 760
  | .warm => 120
  | .halted => 120
  | .cold => 16
  | _ => 0

/-- The current now of the ramp in progress, which reaches `rampTo` at `stepAt` at SLEW. -/
def rampNow (s : State) : Nat :=
  let d := 5 * slew s * (s.power.stepAt - s.now) / tUs
  if s.power.rampFrom ≤ s.power.rampTo then s.power.rampTo - min d (s.power.rampTo - s.power.rampFrom)
  else s.power.rampTo + min d (s.power.rampFrom - s.power.rampTo)

/-- The present current of a group. -/
def groupCur (s : State) (g : GroupId) : Nat :=
  match s.power.seq with
  | .ramp h _ => if h = g then rampNow s else (group s g).cur
  | _ => (group s g).cur

/-- The present current of the uncore. -/
def uncoreCur (s : State) : Nat :=
  match s.power.seq with
  | .uncore _ => rampNow s
  | _ => s.power.uncore

/-- PGCNT.ALLOW in 1/16 A (R398). -/
def allow (s : State) : Nat := (((allFin 16).map (groupCur s)).sum + uncoreCur s) / 5

/-- The sequencer begins a ramp of a group from its present current. -/
def beginRamp (s : State) (g : GroupId) (target : PState) : State :=
  let c := groupCur s g
  let l := target.level
  modPower s fun p => { p with
    groups := vmod p.groups g fun x => { x with cur := c }
    seq := .ramp g target, rampFrom := c, rampTo := l, stepAt := s.now + rampTicks s (max c l - min c l) }

/-- The sequencer begins a clock step of a group. -/
def beginClock (s : State) (g : GroupId) (target : PState) : State :=
  modPower s fun p => { p with seq := .clock g target, stepAt := s.now + tStep }

/-- The uncore ramp begins (R392, R403). -/
def beginUncore (s : State) (down : Bool) : State :=
  let c := uncoreCur s
  let l := if down then 0 else 1040
  modPower s fun p => { p with
    seq := .uncore down, uncore := c, rampFrom := c, rampTo := l
    stepAt := s.now + rampTicks s (max c l - min c l) }

/-! ### Wake requests (R392, R395, R405) -/

/-- A wake request that reaches the governor for one group. -/
def requestWake (s : State) (g : GroupId) : State :=
  let t := s.now
  let st := stamp s
  modGroup { s with power := { s.power with named := insertNat g.val s.power.named } } g fun x =>
    let y := { x with idle := 0 }
    match x.st with
    | .active => if x.req.isSome then { y with req := none, ready := st } else y
    | .warm =>
      match x.req with
      | some (.wake, _) => y
      | _ => { y with req := some (.wake, t), pll := true }
    | .cold =>
      match x.req with
      | some (.wake, _) => y
      | _ => { y with req := some (.wake, t), pll := false, pllAt := t + tPLL }
    | .proofDown => { y with rewake := true }
    | _ => y

/-- Dormant or on its way down: a program that needs the group needs a wake. -/
def needsWake (s : State) (g : GroupId) : Bool :=
  match (group s g).st with
  | .cold | .warm | .proofDown => true
  | .active => (group s g).req.isSome
  | _ => false

/-- A wake for the group of an admitted program: in the boundary window at once, after it in the next window (R395). A
request that only withdraws a sleep is made at once. -/
def wakeFor (s : State) (g : GroupId) : State :=
  if !needsWake s g then modPower s fun p => { p with named := insertNat g.val p.named }
  else if s.power.windowOpen || (group s g).st == .active then requestWake s g
  else if s.power.deferred.contains g.val then s
  else modPower s fun p => { p with deferred := insertNat g.val p.deferred, defer := satInc p.defer }

/-- Every context of the group's Fronds is IDLE and no spore waits for them (R395). -/
def groupIdle (s : State) (g : GroupId) : Bool :=
  ((allFin 128).all fun f => groupOf f != g || (s.fronds.get f).ctxs.toList.all fun c => c.st == .idle) &&
  (s.jobs.all fun j =>
    !(j.st == .admitted || j.st == .placed || j.st == .delivering) || (jobFronds s j).all fun f => groupOf f != g)

/-- The end of the boundary window: idle counts, and the window closes (R395). -/
def windowEnd (s : State) : State :=
  if !s.power.windowOpen then s
  else modPower s fun p => { p with
    windowOpen := false, named := []
    groups := Vector.ofFn fun (g : Fin 16) =>
      let x := p.groups.get g
      if groupIdle s g && !p.named.contains g.val && !keepAwake s g then { x with idle := satInc x.idle }
      else { x with idle := 0 } }

/-- The boundary window opens at an accepted strobe, with the wakes deferred to it (R395). -/
def windowOpenAt (s : State) : State :=
  let ds := s.power.deferred
  let s1 := modPower s fun p => { p with windowOpen := true, named := [], deferred := [] }
  ds.foldl (fun s g => requestWake s (idx 15 g)) s1

/-! ### The sequencer (R392) -/

/-- `a` was requested before `b`; requests of one XC count as one moment, in ascending group number. -/
def older (a b : GroupId × Time) : Bool :=
  decide (a.2 / tXC < b.2 / tXC) || (a.2 / tXC == b.2 / tXC && decide (a.1.val < b.1.val))

/-- The oldest of a list of requests. -/
def oldest : List (GroupId × Time) → Option (GroupId × Time)
  | [] => none
  | r :: rs =>
    match oldest rs with
    | none => some r
    | some q => if older r q then some r else some q

/-- Wakes whose PLL is locked. -/
def wakesReady (gs : Vector Group 16) : List (GroupId × Time) :=
  (allFin 16).filterMap fun g =>
    match (gs.get g).req with
    | some (.wake, t) => if (gs.get g).pll then some (g, t) else none
    | _ => none

/-- Sleeps that wait. -/
def sleepsReady (gs : Vector Group 16) : List (GroupId × Time) :=
  (allFin 16).filterMap fun g =>
    match (gs.get g).req with
    | some (.toWarm, t) => some (g, t)
    | some (.toCold, t) => some (g, t)
    | _ => none

/-- The request the sequencer takes next: wakes before sleeps. -/
def nextRequest (gs : Vector Group 16) : Option (GroupId × PState) :=
  match oldest (wakesReady gs) with
  | some (g, _) => some (g, .active)
  | none =>
    match oldest (sleepsReady gs) with
    | some (g, _) => some (g, if (gs.get g).req.any (·.1 == .toCold) then .cold else .warm)
    | none => none

/-- The time a request takes once taken. -/
def requestTicks (s : State) (x : Group) (target : PState) : Nat :=
  let d := max x.cur target.level - min x.cur target.level
  if target = .cold ∧ x.st = .warm then rampTicks s d else 2 * tStep + rampTicks s d

/-- When the requests that wait would be taken and done, from `free` on: the projected ready times of R398. -/
def projectLoop (s : State) : Nat → Time → Vector Group 16 → List (GroupId × Time)
  | 0, _, _ => []
  | n + 1, free, gs =>
    let now := Vector.map (fun (x : Group) => if x.pllAt ≤ free then { x with pll := true } else x) gs
    match nextRequest now with
    | some (g, target) =>
      let done := free + requestTicks s (gs.get g) target
      let rest := projectLoop s n done (vmod gs g fun x => { x with req := none })
      if target = .active then (g, done) :: rest else rest
    | none =>
      let waits := (allFin 16).filterMap fun g => if (gs.get g).req.isSome then some (gs.get g).pllAt else none
      match waits with
      | [] => []
      | w :: ws => projectLoop s n (ws.foldl min w) gs

/-- The moment at which the step in progress frees the sequencer, and the group it makes ready. -/
def sequencerFree (s : State) : Time × List (GroupId × Time) :=
  match s.power.seq with
  | .idle => (s.now, [])
  | .clock g target =>
    let e := s.power.stepAt + requestTicks s (group s g) target - tStep
    (e, if target = .active then [(g, e)] else [])
  | .ramp g target =>
    let e := s.power.stepAt + (if target = .active ∨ target = .warm then tStep else 0)
    (e, if target = .active then [(g, e)] else [])
  | .hold g target => (s.power.stepAt, if target = .active then [(g, s.power.stepAt)] else [])
  | .uncore _ => (s.power.stepAt, [])

/-- Projected ready times of every group whose wake is requested or under way. -/
def projected (s : State) : List (GroupId × Time) :=
  let (free, first) := sequencerFree s
  first ++ projectLoop s 48 free s.power.groups

/-- The timebase at a moment. -/
def stampAt (s : State) (t : Time) : Stamp := BitVec.ofNat 56 (ceilDiv t tUnit) + s.tbAdj

/-- PGRDY of a group (R398). -/
def pgrdy (s : State) (g : GroupId) : Stamp :=
  if (group s g).st == .active then (group s g).ready
  else match (projected s).find? (·.1 == g) with
    | some (_, t) => stampAt s t
    | none => BitVec.allOnes 56

/-- The state as a wake request for a group now would leave it; a group on its way down is woken from where it comes to rest. -/
def asIfWoken (s : State) (g : GroupId) : State :=
  if (group s g).st == .proofDown then modGroup s g fun x => { x with st := .cold, req := some (.wake, s.now), pllAt := s.now + tPLL }
  else requestWake s g

/-- The latest of the moments at which groups would be ready were their wakes requested together now: the one sequencer takes them in
turn (R189, R392, R393). -/
def readyIfWoken (s : State) (gs : List GroupId) : Time :=
  let ps := projected ((gs.filter fun g => (group s g).st != .active).foldl asIfWoken s)
  gs.foldl (fun m g =>
    if (group s g).st == .active then m
    else match ps.find? (·.1 == g) with
      | some (_, t) => max m t
      | none => m) s.now

/-- PLL_LOCK: a waking group's PLL locks (R392). -/
def execPllLock (t : Time) (g : GroupId) (s : State) : Host.Outcome State Fault Refusal :=
  live t s fun s =>
    let x := group s g
    when_ (x.st == .cold && x.req.any (·.1 == .wake) && !x.pll && decide (x.pllAt ≤ s.now)) s fun s =>
      modGroup s g fun x => { x with pll := true }

/-- SEQUENCER_TAKE: the next request is taken and its clock step starts; a move from Dormant-Warm to Dormant-Cold is a ramp
alone (R390, R392). -/
def execSequencerTake (t : Time) (s : State) : Host.Outcome State Fault Refusal :=
  live t s fun s =>
    if s.power.seq != .idle || s.power.resetting || s.obs.halted then s
    else match nextRequest s.power.groups with
      | none => s
      | some (g, target) =>
        let st := (group s g).st
        let s1 := modGroup s g fun x => { x with req := none, st := if target = .active then .proofUp else .proofDown }
        if target = .cold ∧ st = .warm then beginRamp s1 g .cold else beginClock s1 g target

/-- CLOCK_STEP_DONE: the ramp begins (R392). -/
def execClockStepDone (t : Time) (s : State) : Host.Outcome State Fault Refusal :=
  live t s fun s =>
    match s.power.seq with
    | .clock g target => when_ (decide (s.power.stepAt ≤ s.now)) s fun s => beginRamp s g target
    | _ => s

/-- A group reaches a Dormant state; a wake asked for on the way down becomes a new request (R405). -/
def reachDormant (s : State) (g : GroupId) (target : PState) : State :=
  let again := (group s g).rewake
  let s1 := modGroup { s with power := { s.power with seq := .idle, sleeps := satInc s.power.sleeps } } g fun x =>
    { x with st := target, idle := 0, rewake := false, ready := BitVec.allOnes 56, pll := target == .warm }
  if again then requestWake s1 g else s1

/-- Under the reset input: the lowest-numbered group that still draws current, then the uncore (R403). -/
def resetNext (s : State) : State :=
  match (allFin 16).find? fun g => decide (0 < groupCur s g) with
  | some g => beginRamp (modGroup s g fun x => { x with st := .proofDown }) g .off
  | none => beginUncore s true

/-- RAMP_COMPLETE: a group's ramp ends (R390, R392, R403). -/
def execRampComplete (t : Time) (s : State) : Host.Outcome State Fault Refusal :=
  live t s fun s =>
    match s.power.seq with
    | .ramp g target => when_ (decide (s.power.stepAt ≤ s.now)) s fun s =>
        let s1 := modGroup s g fun x => { x with cur := target.level, pll := x.pll && target != .cold }
        if s.power.resetting then
          resetNext (modGroup { s1 with power := { s1.power with seq := .idle } } g fun x => { x with st := .cold })
        else if target = .halted then
          modGroup { s1 with power := { s1.power with seq := .hold g .halted, stepAt := s.now + tStep } } g fun x => { x with st := .halted }
        else if target = .cold ∧ s.power.rampFrom = 120 then reachDormant s1 g .cold
        else modPower s1 fun p => { p with seq := .hold g target, stepAt := s.now + tStep }
    | _ => s

/-- PROOF_HOLD_DONE: the group becomes Active, its ready time now, or reaches its Dormant state (R390, R393). -/
def execProofHoldDone (t : Time) (s : State) : Host.Outcome State Fault Refusal :=
  live t s fun s =>
    match s.power.seq with
    | .hold g target => when_ (decide (s.power.stepAt ≤ s.now)) s fun s =>
        if target = .active then
          modGroup { s with power := { s.power with seq := .idle, wakes := satInc s.power.wakes } } g fun x =>
            { x with st := .active, ready := stamp s, idle := 0 }
        else if target = .halted then modPower s fun p => { p with seq := .idle }
        else reachDormant s g target
    | _ => s

/-- IDLE_COUNT_EXPIRY: a sleep is requested after TWARM idle windows in Active, TCOLD in Dormant-Warm (R390, R395). -/
def execIdleCountExpiry (t : Time) (g : GroupId) (s : State) : Host.Outcome State Fault Refusal :=
  live t s fun s =>
    let x := group s g
    let due := operating s && !replayRuns s && !keepAwake s g && x.req.isNone && !s.power.windowOpen && !s.power.resetting && groupIdle s g
    if due && x.st == .active && decide (twarm s ≤ x.idle.toNat) then modGroup s g fun x => { x with req := some (.toWarm, s.now) }
    else if due && x.st == .warm && tcold s != 0 && decide (tcold s ≤ x.idle.toNat) then
      modGroup s g fun x => { x with req := some (.toCold, s.now) }
    else s

/-- HALTED_RAMP: after a cut the next group goes down to Halted as for a sleep; one already below its level is Halted at
once (R390, R403). -/
def execHaltedRamp (t : Time) (s : State) : Host.Outcome State Fault Refusal :=
  live t s fun s =>
    if !s.obs.halted || s.power.seq != .idle || s.power.resetting then s
    else match (allFin 16).find? fun g => (group s g).st != .halted && (group s g).st != .off with
      | none => s
      | some g =>
        if (group s g).cur ≤ 120 then modGroup s g fun x => { x with st := .halted, req := none }
        else beginClock (modGroup s g fun x => { x with st := .proofDown, req := none }) g .halted

/-- The sequencer at a cut: requests are withdrawn, and a group on its way up reverses first (R403, R405). -/
def powerStop (s : State) : State :=
  let s1 := modPower s fun p => { p with
    windowOpen := false, named := [], deferred := []
    groups := Vector.map (fun (x : Group) => { x with req := none, rewake := false }) p.groups }
  match s.power.seq with
  | .ramp g .active =>
    if rampNow s ≤ 120 then modGroup { s1 with power := { s1.power with seq := .idle } } g fun x => { x with st := .halted, cur := rampNow s }
    else beginRamp (modGroup s1 g fun x => { x with st := .proofDown }) g .halted
  | .hold g .active => beginRamp (modGroup s1 g fun x => { x with st := .proofDown }) g .halted
  | .clock _ .active => modPower s1 fun p => { p with seq := .idle }
  | _ => s1

end Sys2Proof.Machine
end

