-- ==== Sys2Proof/Machine/Reset.lean ====
section
/-!
DEFINITION. Power-on reset, the reset input and its release, the thermal trip, loss and return of the reference, and the
majority checker (R17, R31, R361, R362, R402 to R405, R458, R466, R468, R469).
-/
namespace Sys2Proof.Machine

/-- CUR set equal to LIFE (R407). -/
def Session.atReset (v : Vector Bool 3) : Session :=
  let c : Cur := if (v[0] && v[1]) || (v[0] && v[2]) || (v[1] && v[2]) then .sealed else .opened
  { Session.reset with sLife := v, cur0 := c, cur1 := c, cur2 := c }

/-- The effect of R361: every volatile state element at its reset value. The fuses as sensed, DEVID, the flash, the part,
what the AON domain keeps (LASTDROP, REFOK) and the pins stay. -/
def resetCommon (s : State) : State :=
  { State.reset with
    now := s.now, tbAdj := 0 - BitVec.ofNat 56 (s.now / tUnit), freeCtr := s.freeCtr, nextId := s.nextId
    testMode := s.testMode, part := s.part, flash := s.flash, fuses := s.fuses, pending := s.pending
    session := Session.atReset s.session.sLife
    sec := { Security.reset with devid := s.sec.devid }
    power := { Power.reset with lastDrop := s.power.lastDrop, groups := Vector.map (fun (_ : Group) => { Group.reset with st := .cold }) s.power.groups }
    timing := { Timing.reset with refsel := s.timing.refsel, refok := s.timing.refok, refLost := s.timing.refLost, lostAt := s.timing.lostAt, lostSince := s.timing.lostSince }
    boot := { Boot.reset with porHeld := false, resetPin := s.boot.resetPin, released := s.boot.released }
    pcie := { Pcie.reset with perst := s.pcie.perst } }

/-- Every group in Off and the uncore at no more than 2 A (R400). -/
def allOff (s : State) : State :=
  modPower s fun p => { p with
    uncore := 160, seq := .idle
    groups := Vector.map (fun (_ : Group) => Group.reset) p.groups }

/-- Release of reset starts the boot controller; without REFCLK the boot PLL never locks (R31, R361, R392). -/
def startBoot (s : State) (refclk bsref : Bool) : State :=
  let s1 := modPower s fun p => { p with
    uncore := 160
    groups := Vector.map (fun (x : Group) => { x with st := .cold, cur := 16 }) p.groups }
  let s2 := modBoot s1 fun b => { b with
    phase := if refclk then .pllWait else .noRefclk, phaseAt := s.now, porHeld := false, released := none, code := 0x01 }
  beginUncore { s2 with timing := { s2.timing with refok := bsref && !s2.timing.lostSince } } false

/-! ### Events of the boot controller's ring -/

/-- MAJFIX for one item: the sticky bit, the count and the event (R362, R382). The items are numbered map, lifecycle,
revocation, lock, CUR (log entry 21). -/
def majfix (s : State) (item : Nat) : State :=
  logEvent (modBoot s fun b => { b with majFix := true, majCnt := satInc b.majCnt }) uBoot 0x02 0 (BitVec.ofNat 32 item)

def agree3 {α : Type} [DecidableEq α] (a b c : α) : Bool := decide (a = b) && decide (b = c)

/-- Which triplicated items disagree. -/
def disagreeing (s : State) : List Nat :=
  let f := s.fuses
  (if agree3 f.sDumap[0] f.sDumap[1] f.sDumap[2] then [] else [0]) ++
  (if agree3 s.session.sLife[0] s.session.sLife[1] s.session.sLife[2] then [] else [1]) ++
  (if agree3 f.sRevoked[0] f.sRevoked[1] f.sRevoked[2] then [] else [2]) ++
  (if agree3 s.boot.lock0 s.boot.lock1 s.boot.lock2 then [] else [3]) ++
  (if agree3 s.session.cur0 s.session.cur1 s.session.cur2 then [] else [4])

/-- One bit of CUR's encoding exchanged in one copy. -/
def flipCur (c : Cur) (b : Fin 2) : BitVec 2 := c.code ^^^ BitVec.ofNat 2 (2 ^ b.val)

/-- MAJORITY_CHECK: an upset strikes one copy, the checker finds it, and rewrites the volatile copies to the majority. -/
def execMajorityCheck (t : Time) (upset : Option TripleUpset) (s : State) : Host.Outcome State Fault Refusal :=
  liveSession t s fun s =>
    let b := s.boot
    let (l0, l1, l2) := match upset with
      | some (.lock i) => (if i.val = 0 then !b.lock0 else b.lock0, if i.val = 1 then !b.lock1 else b.lock1, if i.val = 2 then !b.lock2 else b.lock2)
      | _ => (b.lock0, b.lock1, b.lock2)
    let code := fun (i : Nat) (c : Cur) => match upset with
      | some (.cur j x) => if j.val = i then flipCur c x else c.code
      | _ => c.code
    let c0 := code 0 s.session.cur0
    let c1 := code 1 s.session.cur1
    let c2 := code 2 s.session.cur2
    let lm := (l0 && l1) || (l0 && l2) || (l1 && l2)
    let cm := Cur.ofCode (majority c0 c1 c2)
    let items := (disagreeing s).filter (· < 3) ++ (if agree3 l0 l1 l2 then [] else [3]) ++ (if agree3 c0 c1 c2 then [] else [4])
    let s1 := items.foldl majfix s
    { s1 with
      boot := { s1.boot with lock0 := lm, lock1 := lm, lock2 := lm }
      session := { s1.session with cur0 := cm, cur1 := cm, cur2 := cm } }

/-- MAPFIX for each group whose map copies disagree or whose field is clamped (R17). -/
def mapfix (s : State) : State :=
  (upto 16).foldl (fun s g =>
    let fld := fun (x : BitVec 64) => field x (4 * g + 3) (4 * g)
    let f := s.fuses
    if fld f.sDumap[0] = fld f.sDumap[1] ∧ fld f.sDumap[1] = fld f.sDumap[2] ∧ fld (dumapRaw s) ≤ 8 then s
    else logEvent s uBoot 0x01 0 (BitVec.ofNat 32 (fld (dumap s)))) s

/-- The fuses sensed into the copies every reader votes on (R362). -/
def Fuses.sense (f : Fuses) : Fuses :=
  { f with sRevoked := f.revoked, sDumap := f.dumap, sHash := f.hash }

/-- POWER_ON_RESET: all volatile state cleared, fuses sensed, every group Off, LASTDROP 0 (R17, R361, R362, R400). It ends
manufacturing test as it ends everything else. -/
def execPowerOnReset (t : Time) (refsel : Bool) (s : State) : Host.Outcome State Fault Refusal :=
  let s1 := atTime s t
  let s2 := resetCommon { s1 with
    fuses := s1.fuses.sense, session := { s1.session with sLife := s1.fuses.life }, testMode := false }
  let s3 := { s2 with
    sec := { s2.sec with devid := s2.fuses.devid }
    power := Power.reset
    timing := { Timing.reset with refsel := refsel }
    boot := { s2.boot with porHeld := true, resetPin := true, released := none } }
  let s4 := ((disagreeing s3).filter (· < 3)).foldl majfix (mapfix s3)
  .next { s4 with pending := s.pending }

/-- The reset input is in force: pending power transitions withdrawn, the groups and then the uncore ramped down (R403). A
group in a ramp up reverses first; one in a ramp down ends that ramp first; the uncore waits at its present current. -/
def beginReset (s : State) : State :=
  let s1 := modPower s fun p => { p with
    resetting := true, windowOpen := false, named := [], deferred := []
    groups := Vector.map (fun (x : Group) => { x with req := none, rewake := false }) p.groups }
  match s.power.seq with
  | .ramp g target => if target.level = 760 then beginRamp (modGroup s1 g fun x => { x with st := .proofDown }) g .off else s1
  | .uncore _ => resetNext { s1 with power := { s1.power with seq := .idle, uncore := uncoreCur s } }
  | _ => resetNext { s1 with power := { s1.power with seq := .idle } }

/-- RESET_INPUT: assertion of RESET_N (R403). A device already held stays held; one that a thermal trip latched is released
by it (R402). -/
def execResetInput (t : Time) (s : State) : Host.Outcome State Fault Refusal :=
  liveSession t s fun s =>
    let s1 := modBoot s fun b => { b with resetPin := true, released := none }
    if s.power.resetting then s1
    else if s.boot.phase == .held && !s.power.thermLatch then s1
    else beginReset s1

/-- Bytes a board controller programs into the flash while the device is held (R364). -/
def boardFlash (s : State) (bs : List (Nat × Byte)) : State :=
  { s with flash := bs.foldl (fun m b => cellSet 0xFF m b.1 b.2) s.flash }

/-- RESET_RELEASE: the boot starts, or manufacturing test does (R361, R466, R469). Released during the governed ramp, or
without its reference, the boot waits. -/
def execResetRelease (t : Time) (refclk bsref testMode : Bool) (flash : List (Nat × Byte)) (s : State) :
    Host.Outcome State Fault Refusal :=
  live t s fun s =>
    if !s.boot.resetPin then s
    else
      let s1 := modBoot (boardFlash s flash) fun b => { b with resetPin := false }
      if s.boot.porHeld && testMode then { s1 with testMode := true }
      else if s.power.resetting || s.timing.refLost then modBoot s1 fun b => { b with released := some (refclk, bsref) }
      else if s.power.thermLatch then s1
      else startBoot s1 refclk bsref

/-- UNCORE_RAMP_COMPLETE: at reset release the fabric clock runs at speed; under the reset input R361 takes effect, BOOT_DONE
goes low, and a reset released meanwhile boots (R392, R403, R469). -/
def execUncoreRampComplete (t : Time) (s : State) : Host.Outcome State Fault Refusal :=
  liveSession t s fun s =>
    match s.power.seq with
    | .uncore down => when_ (decide (s.power.stepAt ≤ s.now)) s fun s =>
        if !down then modPower s fun p => { p with uncore := p.rampTo, seq := .idle, fabricFast := true }
        else
          let s1 := resetCommon s
          let s2 := modPower s1 fun p => { p with lastDrop := 1 }
          match s.boot.released, s.timing.refLost with
          | some (refclk, bsref), false => startBoot s2 refclk bsref
          | _, _ => s2
    | _ => s

/-- The highest of the sensor readings. -/
def hottest : List Int → Option Int
  | [] => none
  | x :: xs =>
    match hottest xs with
    | none => some x
    | some y => some (max x y)

/-- The trip point (R402). -/
def tripPoint (s : State) : Int := if s.part = .sw15T then 120 else 115

/-- THERMAL_CHECK: at or above the trip point every load drops and the trip is latched (R400, R402). After a loss of the
reference in the same AT the trip still governs LASTDROP (R405). -/
def execThermalCheck (t : Time) (temps : List Int) (s : State) : Host.Outcome State Fault Refusal :=
  liveSession t s fun s =>
    let hot := match hottest temps with
      | some x => decide (tripPoint s ≤ x)
      | none => false
    let awake := s.boot.phase != .held || (s.timing.refLost && s.timing.lostAt / tAT == s.now / tAT)
    when_ (hot && awake && !s.power.thermLatch) s fun s =>
      modPower (allOff (resetCommon s)) fun p => { p with lastDrop := 2, thermLatch := true, tripAt := s.now }

/-- REFERENCE_LOSS: every PLL stops, every load drops (R400, R404, R458). -/
def execReferenceLoss (t : Time) (s : State) : Host.Outcome State Fault Refusal :=
  liveSession t s fun s =>
    when_ (!s.timing.refLost && !s.boot.porHeld) s fun s =>
      let trip := s.power.thermLatch
      let drop : BitVec 2 := if trip && s.power.tripAt / tAT == s.now / tAT then s.power.lastDrop else 3
      let s1 := allOff (resetCommon s)
      { s1 with
        power := { s1.power with lastDrop := drop, thermLatch := trip, tripAt := s.power.tripAt }
        timing := { s1.timing with refok := false, refLost := true, lostAt := s.now, lostSince := true } }

/-- REFERENCE_RETURN: the reference has been stable for 10 ms; the device resets itself and boots, unless the reset input or
a latched trip holds it (R404). -/
def execReferenceReturn (t : Time) (s : State) : Host.Outcome State Fault Refusal :=
  liveSession t s fun s =>
    when_ (s.timing.refLost && decide (s.timing.lostAt + 10 * tMs ≤ s.now)) s fun s =>
      let s1 := resetCommon s
      let s2 := { s1 with
        timing := { s1.timing with refLost := false, refBackAt := s.now }
        power := { s1.power with thermLatch := s.power.thermLatch, tripAt := s.power.tripAt } }
      if s.boot.resetPin || s.power.thermLatch then s2
      else match s.boot.released with
        | some (refclk, bsref) => startBoot s2 refclk bsref
        | none => startBoot s2 true true

end Sys2Proof.Machine
end

