-- ==== Sys2Proof/Machine/Security.lean ====
section
/-!
DEFINITION. Service tokens, the end of SERVICE, and the public TAP (R407 to R414, R420, R463, R464).
-/
namespace Sys2Proof.Machine

/-- The Hearth runs: after the firmware start, until a halt or a reset. -/
def hearthRuns (s : State) : Bool := operating s

/-- A new challenge from the entropy source: a free value (R412). -/
def renewChal (s : State) : State :=
  { s with sec := { s.sec with chal := Config.entropy s.freeCtr }, freeCtr := s.freeCtr + 1 }

/-- A refusal counts, and the eighth since reset locks tokens out (R412, R421). -/
def refuseToken (s : State) : State :=
  { s with sec := { s.sec with
      tokFail := satInc s.sec.tokFail, tokLock := s.sec.tokLock || decide (8 ≤ (satInc s.sec.tokFail).toNat) } }

/-- A presentation: CHAL is renewed whatever becomes of it. With no Hearth to check it, or TOKLOCK, it is refused at once; in
the XC of an SVCEXIT it is discarded uncounted (R412, R414, R420). -/
def presentToken (s : State) (bytes : List Byte) : State :=
  let s1 := renewChal s
  if s.sec.svcexitAt.any fun e => e / tXC == s.now / tXC then s1
  else if !hearthRuns s || s.sec.tokLock then refuseToken s1
  else { s1 with sec := { s1.sec with checking := s1.sec.checking ++ [(bytes, s.sec.chal, s.now)] } }

/-- The staging session ends and the held header is discarded; a command already BUSY completes (R385, R413). -/
def endSession (s : State) : State :=
  { s with stg := { s.stg with session := false, header := List.replicate 256 0xFF } }

/-- The five steps with which SERVICE ends (R413). -/
def leaveService (s : State) : State :=
  let c : Cur := .sealed
  let s1 := { s with
    session := { s.session with cur0 := c, cur1 := c, cur2 := c, scope := 0, remain := 0 }
    fabric := setMode s.fabric 1
    tap := { s.tap with unlinkNext := true, linkNext := false } }
  let s2 := if stagEn s then s1 else endSession s1
  if trcSeal s then s2 else modFabric s2 fun f => { f with traceQ := [], traceOn := false }

/-- Fields of a token (R410). -/
def tokenField (b : List Byte) (i n : Nat) : Nat := leNat ((b.drop i).take n)

/-- R410's rows in order, then the signature under SVCKEY (R412). -/
def tokenGood (s : State) (b : List Byte) (chal : BitVec 64) : Bool :=
  decide (tokenField b 0 4 = 0x53564354) && byteAt b 4 == 0x01 && decide (tokenField b 8 8 = s.sec.devid.toNat) &&
    decide (tokenField b 0x10 8 = chal.toNat) && ecdsaVerify s.sec.svcKey (sha384 (b.take 0x30)) ((b.drop 0x30).take 48) ((b.drop 0x60).take 48)

/-- DURATION clamped to 1 to MAXDUR, and MAXDUR read as at least 1 (R409, R410). -/
def tokenDuration (s : State) (b : List Byte) : Nat := clampNat 1 (max 1 (field s.sec.secpol 31 16)) (tokenField b 0x1C 2)

/-- Acceptance, in one XC (R408, R412). -/
def acceptToken (s : State) (b : List Byte) : State :=
  let scope := BitVec.ofNat 8 (byteAt b 0x18).toNat &&& BitVec.ofNat 8 (field s.sec.secpol 15 8)
  let s1 := { s with sec := { s.sec with svcn := satInc s.sec.svcn } }
  if scope = 0 then (if curOf s = .service then leaveService s1 else s1)
  else
    let c : Cur := .service
    { s1 with session := { s1.session with
        cur0 := c, cur1 := c, cur2 := c, scope := scope, remain := BitVec.ofNat 16 (tokenDuration s b), remainAt := s.now } }

/-- TOKEN_CHECK_DONE: Hearth core 3 finishes the oldest check (R408 to R412). -/
def execTokenCheckDone (t : Time) (s : State) : Host.Outcome State Fault Refusal :=
  liveSession t s fun s =>
    match s.sec.checking with
    | [] => s
    | (b, chal, _) :: rest =>
      let s1 := { s with sec := { s.sec with checking := rest } }
      if !hearthRuns s then s1
      else if lifeSealed s && curOf s != .opened && svcEn s && !s.sec.tokLock && tokenGood s b chal then acceptToken s1 b
      else refuseToken s1

/-- TOKEN_BLOCK_GO: a write of 1 to the GO word presents the token block (R412, R478). -/
def execTokenBlockGo (t : Time) (s : State) : Host.Outcome State Fault Refusal :=
  live t s fun s => when_ (s.pcie.up && !s.obs.halted && hearthRuns s) s fun s => presentToken s s.sec.tokenBlock

/-- One second of REMAIN: 3 840 000 AT (R413). -/
def tSecond : Nat := 3840000 * tAT

/-- REMAIN_TICK: REMAIN counts down (R413). -/
def execRemainTick (t : Time) (s : State) : Host.Outcome State Fault Refusal :=
  liveSession t s fun s =>
    let n := s.session
    when_ (curOf s == .service && decide (n.remainAt + tSecond ≤ s.now) && n.remain != 0) s fun s =>
      { s with session := { n with remain := n.remain - 1, remainAt := n.remainAt + tSecond } }

/-- SERVICE_EXPIRY: REMAIN has reached 0 (R413). -/
def execServiceExpiry (t : Time) (s : State) : Host.Outcome State Fault Refusal :=
  liveSession t s fun s => when_ (curOf s == .service && s.session.remain == 0) s leaveService

/-! ### The public TAP (R414) -/

/-- The reset input is asserted, or the boot has stopped. -/
def tapHeld (s : State) : Bool := s.boot.resetPin || s.boot.phase == .stopped || s.boot.phase == .held

/-- EXTEST, CLAMP and HIGHZ: held, in every state; after the lock, OPEN only. -/
def tapDriveOk (s : State) : Bool := tapHeld s || (locked s && curOf s == .opened)

/-- Update-IR: a pending link or unlink takes effect; an instruction not allowed is executed as BYPASS. -/
def updateIR (s : State) (i : TapInstr) (ok : Bool) : State :=
  let j := if ok then i else .bypass
  { s with tap := { s.tap with
      ir := j, linked := !s.tap.unlinkNext && (s.tap.linked || s.tap.linkNext), linkNext := false, unlinkNext := false
      dr := [false]
      pinsDriven := j == .extest || j == .clamp, pinsHighZ := j == .highz } }

/-- Bits of a number, least significant first. -/
def bitsOf (n v : Nat) : List Bool := (upto n).map fun i => v.testBit i

def capture (s : State) (bs : List Bool) : State := { s with tap := { s.tap with dr := bs } }

/-- TOKEN: 1 152 bits shifted in, presented at Update-DR. -/
def execToken (t : Time) (bytes : List Byte) (s : State) : Host.Outcome State Fault Refusal :=
  live t s fun s => presentToken (updateIR s .token true) bytes

/-- SVCEXIT, by the TAP or through the token block: in SERVICE it ends it; tokens presented in the same XC are discarded
uncounted (R413, R414, R420). -/
def execSvcexit (t : Time) (viaTap : Bool) (s : State) : Host.Outcome State Fault Refusal :=
  liveSession t s fun s =>
    let inService := curOf s == .service
    let s1 := if viaTap then updateIR s .svcexit inService else s
    if inService then
      leaveService { s1 with sec := { s1.sec with
        svcexitAt := some s.now, checking := s1.sec.checking.filter fun c => c.2.2 / tXC != s.now / tXC } }
    else s1

/-- EXTEST: the boundary register drives the pins. -/
def execExtest (t : Time) (bits : BitVec 141) (s : State) : Host.Outcome State Fault Refusal :=
  live t s fun s =>
    let s1 := updateIR s .extest (tapDriveOk s)
    if tapDriveOk s then { s1 with tap := { s1.tap with boundary := bits } } else s1

/-- SAMPLE/PRELOAD: the pins are captured and the boundary register loaded. -/
def execSamplePreload (t : Time) (pins bits : BitVec 141) (s : State) : Host.Outcome State Fault Refusal :=
  live t s fun s =>
    let s1 := capture (updateIR s .samplePreload true) (bitsOf 141 pins.toNat)
    { s1 with tap := { s1.tap with boundary := bits } }

/-- The IDCODE of the part (R463). -/
def idcodeOf (p : Part) : Word :=
  match p with
  | .sw15 => 0x188015D3
  | .sw11 => 0x188025D3
  | .sw15T => 0x188035D3

/-- IDCODE. -/
def execIdcode (t : Time) (s : State) : Host.Outcome State Fault Refusal :=
  live t s fun s => capture (updateIR s .idcode true) (bitsOf 32 (idcodeOf s.part).toNat)

/-- CLAMP: outputs held from the boundary register. -/
def execClamp (t : Time) (s : State) : Host.Outcome State Fault Refusal :=
  live t s fun s => updateIR s .clamp (tapDriveOk s)

/-- HIGHZ. -/
def execHighz (t : Time) (s : State) : Host.Outcome State Fault Refusal :=
  live t s fun s => updateIR s .highz (tapDriveOk s)

/-- BOOTSTAT captures BOOTSTAT[7:0], in every state (R382). -/
def execBootstat (t : Time) (s : State) : Host.Outcome State Fault Refusal :=
  live t s fun s => capture (updateIR s .bootstat true) (bitsOf 8 s.boot.code.toNat)

/-- CHAL captures DEVID, then CHAL, 128 bits. -/
def execChal (t : Time) (s : State) : Host.Outcome State Fault Refusal :=
  live t s fun s => capture (updateIR s .chal true) (bitsOf 64 s.sec.devid.toNat ++ bitsOf 64 s.sec.chal.toNat)

/-- DBGSEL's column: OPEN, or SERVICE with any of bits 1 to 4 or 7. -/
def dbgselOk (s : State) : Bool :=
  curOf s == .opened || scopeBit s 1 || scopeBit s 2 || scopeBit s 3 || scopeBit s 4 || scopeBit s 7

/-- DBGSEL links the private TAP from the next Update-IR. -/
def execDbgsel (t : Time) (s : State) : Host.Outcome State Fault Refusal :=
  live t s fun s =>
    let s1 := updateIR s .dbgsel (dbgselOk s)
    if dbgselOk s then { s1 with tap := { s1.tap with linkNext := true } } else s1

/-- BYPASS. -/
def execBypass (t : Time) (s : State) : Host.Outcome State Fault Refusal :=
  live t s fun s => updateIR s .bypass true

/-- Test-Logic-Reset unlinks the private TAP and selects IDCODE. -/
def execTestLogicReset (t : Time) (s : State) : Host.Outcome State Fault Refusal :=
  live t s fun s => { s with tap := { s.tap with
    ir := .idcode, dr := bitsOf 32 (idcodeOf s.part).toNat, linked := false, linkNext := false, unlinkNext := false
    pinsDriven := false, pinsHighZ := false } }

end Sys2Proof.Machine
end

