-- ==== Sys2Proof/Machine/Image.lean ====
section
/-!
DEFINITION. The Starter image: header, directory and records, each record's clamps and what its fields load (R364 to R378,
with the record tables of the other chapters).
-/
namespace Sys2Proof.Machine

/-! ### Slots, header and directory (R364 to R366) -/

/-- First flash offset of a slot, and its size (R364). -/
def slotBase : Slot → Nat
  | .a => 0 | .b => 0x8000000
def slotSize : Nat := 0x8000000

/-- Bytes of a flash. -/
def flashBytes (m : List Host.Cell) (a n : Nat) : List Byte := cellRead 0xFF m a n

def hdrField (h : List Byte) (i n : Nat) : Nat := leNat ((h.drop i).take n)
def hdrGen (h : List Byte) : Nat := hdrField h 0x10 8
def hdrBodyLen (h : List Byte) : Nat := hdrField h 0x18 4
def hdrNrec (h : List Byte) : Nat := hdrField h 0x1C 4

/-- "SW880IMG". -/
def imgMagic : List Byte := [0x53, 0x57, 0x38, 0x38, 0x30, 0x49, 0x4D, 0x47]

/-- The bit of PARTS for this part (R365). -/
def partBit : Part → Nat
  | .sw15 => 0 | .sw11 => 1 | .sw15T => 2

/-- The reason a header fails, if it does (R365, R374). -/
def headerReason (p : Part) (h : List Byte) : Option (BitVec 4) :=
  let body := hdrBodyLen h
  let gen := hdrGen h
  if h.take 8 ≠ imgMagic ∨ hdrField h 8 2 ≠ 1 ∨ hdrField h 0xF8 4 ≠ (crc32 (h.take 0xF8)).toNat then some 1
  else if gen = 0 ∨ gen = 2 ^ 64 - 1 ∨ body = 0 ∨ body % 256 ≠ 0 ∨ 0x7FFEF00 < body ∨ hdrNrec h = 0 ∨ 65536 < hdrNrec h then some 2
  else if !(hdrField h 0x0C 4).testBit (partBit p) then some 3
  else none

/-- A directory entry (R366). -/
structure DirEnt where
  typ : Nat
  off : Nat
  len : Nat
  dest : Nat
deriving DecidableEq, Repr

def dirEntry (b : List Byte) : DirEnt :=
  { typ := leNat (b.take 2), off := leNat ((b.drop 4).take 4), len := leNat ((b.drop 8).take 4), dest := leNat ((b.drop 12).take 4) }

/-- The first `n` directory entries of a body. -/
def directory : Nat → List Byte → List DirEnt
  | 0, _ => []
  | n + 1, b => dirEntry b :: directory n (b.drop 16)

/-- Ascending TYPE, ascending OFF, no overlap. -/
def dirAscending : List DirEnt → Bool
  | [] => true
  | [_] => true
  | a :: b :: r => decide (a.typ ≤ b.typ) && decide (a.off < b.off) && decide (a.off + a.len ≤ b.off) && dirAscending (b :: r)

/-- The directory passes R366. -/
def dirGood (nrec body : Nat) (ds : List DirEnt) : Bool :=
  dirAscending ds && ds.all fun d => d.off % 16 == 0 && decide (16 * nrec ≤ d.off) && decide (d.off + d.len ≤ body)

/-- The signed message of R373 and its digest. -/
def imageDigest (h body : List Byte) : List Byte := sha384 (h.take 0xF8 ++ body)

/-- The key is acceptable in a security state (R374). -/
def keyGood (s : State) (cur : Cur) (keyslot : Nat) (key : List Byte) : Bool :=
  match cur with
  | .opened => (sec1Point key).isSome
  | _ => decide (keyslot < 4) && !bit (revoked s) keyslot && vgetD s.fuses.sHash keyslot [] == sha384 key

/-- R374 over a header already held and the rest of the slot in a flash: the reason, 0 when valid. -/
def judgeSlot (s : State) (cur : Cur) (m : List Host.Cell) (sl : Slot) (h : List Byte) : BitVec 4 :=
  match headerReason s.part h with
  | some r => r
  | none =>
    let b0 := slotBase sl + 0x1000
    let body := flashBytes m b0 (hdrBodyLen h)
    let sig := flashBytes m (b0 + hdrBodyLen h) 256
    let key := (sig.drop 4).take 97
    if !dirGood (hdrNrec h) (hdrBodyLen h) (directory (hdrNrec h) body) then 4
    else if !keyGood s cur (byteAt h 0x20).toNat key then 5
    else if leNat (sig.take 4) ≠ 0x53474953 ∨
        !ecdsaVerify key (imageDigest h body) ((sig.drop 0x68).take 48) ((sig.drop 0x98).take 48) then 6
    else 0

/-! ### Clamp notes (R377, R378) -/

/-- Clamps in the order made: the word index of the field and the class. -/
abbrev Clamps := List (Nat × Nat)

def Note.add (n : Note) (c : Nat × Nat) : Note :=
  if n.count = 0 then { count := 1, word := BitVec.ofNat 8 c.1, cls := BitVec.ofNat 4 c.2 } else { n with count := satInc n.count }

def noteOf (s : State) (i : Nat) : Note := ((s.boot.notes.find? (·.1 == i)).map (·.2)).getD Note.none

/-- The note of directory entry `i` as an image word. -/
def Note.word32 (n : Note) : Word := BitVec.ofNat 32 (n.count.toNat + at_ 16 n.word.toNat + at_ 24 n.cls.toNat)

/-- Clamps entered in the note of record `i`; the first makes CLAMPS count the record. -/
def addNotes (s : State) (i : Nat) (cs : Clamps) : State :=
  if cs.isEmpty then s
  else
    let n := noteOf s i
    let m := cs.foldl Note.add n
    modBoot s fun b => { b with
      notes := (i, m) :: b.notes.filter (·.1 != i)
      clamps := if n.count = 0 then satInc b.clamps else b.clamps }

/-- A clamp that belongs to no record (R377, R382). -/
def addDevNote (s : State) (c : Nat × Nat) : State :=
  modBoot s fun b => { b with devNote := b.devNote.add c, clamps := if b.devNote.count = 0 then satInc b.clamps else b.clamps }

/-- A field brought into [lo, hi], with a clamp of a class at its word when it was outside. -/
def clampF (w : Word) (hi lo least most word cls : Nat) : Word × Clamps :=
  let v := field w hi lo
  if v < least then (setField w hi lo least, [(word, cls)])
  else if most < v then (setField w hi lo most, [(word, cls)])
  else (w, [])

/-- One field of a list of words clamped. -/
def clampW (x : List Word × Clamps) (word hi lo least most cls : Nat) : List Word × Clamps :=
  let (w, c) := clampF (wordAt x.1 word) hi lo least most word cls
  (x.1.set word w, x.2 ++ c)

/-- One field of a list of words replaced, with a clamp, when it differs. -/
def forceW (x : List Word × Clamps) (word hi lo v cls : Nat) : List Word × Clamps :=
  if field (wordAt x.1 word) hi lo = v then x
  else (x.1.set word (setField (wordAt x.1 word) hi lo v), x.2 ++ [(word, cls)])

/-- The words of a record of fixed size: missing bytes are zero, extra bytes ignored, either with a clamp (R367). -/
def fixedRecord (size : Nat) (b : List Byte) : List Word × Clamps :=
  (bytesWords (size / 4) b, if b.length = size then [] else [(min b.length size / 4, 9)])

/-- Reserved bits are not stored (R378). -/
def maskWords (ws masks : List Word) : List Word := (ws.zip masks).map fun p => p.1 &&& p.2

/-- Units of 64 B in the image region. -/
def regionUnits : Nat := 0x28000

/-! ### DEVICE, FROND and the data records (R368, R369, R233, R234) -/

/-- XLAT_bound (R278). -/
def xlatBound (f : Fabric) : Nat := 102 + f.live.ageSS.toNat

def loadDevice (s : State) (b : List Byte) : State × Clamps :=
  let (ws, c0) := fixedRecord 64 b
  let x := field (wordAt ws 0) 15 0
  let bound := xlatBound s.fabric
  let base := field (wordAt ws 1) 17 0
  let size := field (wordAt ws 1) 24 18
  let size1 := min size 64
  let base1 := if size1 = 0 then base else min base (regionUnits - 1)
  let size2 := min size1 ((regionUnits - base1) / 256)
  ({ s with
    fabric := { s.fabric with xlat := BitVec.ofNat 16 (if x = 0 then bound else max x bound) }
    stgBase := BitVec.ofNat 18 base1, stgSize := BitVec.ofNat 7 size2 },
   c0 ++ (if x ≠ 0 ∧ x < bound then [(0, 6)] else []) ++ (if size1 ≠ size then [(1, 1)] else []) ++
     (if base1 ≠ base then [(1, 4)] else []) ++ (if size2 ≠ size1 then [(1, 4)] else []))

/-- The 16 KiB power region at a byte offset in a Frond's region is powered (R233). -/
def regionOn (pwr : Word) (off : Nat) : Bool := bit pwr (off / 0x4000)

/-- Zero-fill of a power region, its tags EMPTY (R234). -/
def zeroRegion (s : State) (f : FrondId) (r : Nat) : State :=
  let a := frondBase f + r * 0x4000
  let s1 := { s with mem := cellClear s.mem a 0x4000, ecc := s.ecc.filter fun e => !(decide (a ≤ e.1) && decide (e.1 < a + 0x4000)) }
  modFrond s1 f fun x => { x with full := x.full.filter fun l => decide ((0x40000 + 128 * l) / 0x4000 ≠ r) }

def loadFrond (s : State) (f : FrondId) (b : List Byte) : State × Clamps :=
  let (ws, c0) := fixedRecord 1056 b
  let pwr := wordAt ws 0
  let (scr, c1) := clampF (wordAt ws 1) 3 1 3 6 1 1
  let code := field (wordAt ws 2) 17 0
  let len := field (wordAt ws 3) 18 0
  let len1 := min len (0x40000 - code)
  let s1 := modFrond s f fun x => { x with
    pwrmap := pwr, scrubEn := bit scr 0, gshift := BitVec.ofNat 3 (field scr 3 1)
    code := BitVec.ofNat 18 code, codelen := BitVec.ofNat 19 len1 }
  let s2 := ((upto 32).filter fun r => bit pwr r).foldl (fun s r => zeroRegion s f r) s1
  (s2, c0 ++ c1 ++ (if len1 ≠ len then [(3, 4)] else []))

/-- A CIRC descriptor of a FROND record as loaded: clamps only when EN is 1 (R223, R251). -/
def loadCirc (w0 w1 : Word) (forceOff : Bool) (word : Nat) : Circ × Clamps :=
  let mem := bit w0 1
  let raw : Circ := { Circ.reset with
    en := bit w0 0, mem := mem, ctx := idx 3 (field w0 3 2), prod := BitVec.ofNat 3 (field w0 6 4)
    cons := BitVec.ofNat 3 (field w0 9 7), base := BitVec.ofNat 11 (field w1 10 0), size := BitVec.ofNat 11 (field w1 26 16) }
  if !raw.en then (raw, [])
  else if forceOff then ({ raw with en := false }, [(word, 5)])
  else
    let badP := decide (4 < raw.prod.toNat) || (raw.prod == 4 && !mem)
    let badC := decide (4 < raw.cons.toNat) || (raw.cons == 4 && mem)
    let lines := if mem then 768 else 1280
    let base := min raw.base.toNat (lines - 1)
    let size0 := max 1 raw.size.toNat
    let size := min size0 (lines - base)
    ({ raw with
       prod := if badP then 0 else raw.prod, cons := if badC then 0 else raw.cons
       base := BitVec.ofNat 11 base, size := BitVec.ofNat 11 size },
     (if badP then [(word, 3)] else []) ++ (if badC then [(word, 3)] else []) ++
     (if base ≠ raw.base.toNat then [(word + 1, 4)] else []) ++ (if size ≠ raw.size.toNat then [(word + 1, 4)] else []))

/-- The lines a FULLMAP marks, numbered as `Frond.full` numbers them (R369). -/
def fullmap (b : List Byte) : List Nat := (upto 2048).filter fun l => bit (byteAt b (0x90 + l / 8)) (l % 8)

/-- Context c of Frond f is bound to a program in scoreboard mode (R251, R281). -/
def sbBound (s : State) (f : FrondId) (c : CtxId) : Bool :=
  s.programs.any fun p => progSbmode s p.1 && progCtx s p.1 == c && (progFronds s p.1).contains f

/-- CIRC entries and FULLMAP of a FROND record, after the SCRATCH and PROGRAM records (R369, R251). -/
def finishFrond (s : State) (f : FrondId) (b : List Byte) : State × Clamps :=
  let ws := (fixedRecord 1056 b).1
  let cs := (upto 8).map fun k =>
    let w0 := wordAt ws (4 + 4 * k)
    loadCirc w0 (wordAt ws (5 + 4 * k)) (sbBound s f (idx 3 (field w0 3 2))) (4 + 4 * k)
  (modFrond s f fun x => { x with
     circ := Vector.ofFn fun (k : Fin 8) => (cs.getD k.val (Circ.reset, [])).1
     full := (fullmap b).foldl (fun l n => insertNat n l) x.full },
   cs.flatMap (·.2))

/-- Bytes stored from an address, with sound check bits. -/
def storeBytes (s : State) (a : Nat) (b : List Byte) : State :=
  { s with
    mem := cellWrite 0 s.mem a b
    ecc := s.ecc.filter fun e => !(decide (a ≤ e.1 + 3) && decide (e.1 < a + b.length)) }

/-- FIRMWARE at 0x140_0000, at most 1 MiB (R24, R367). -/
def loadFirmware (s : State) (b : List Byte) : State × Clamps :=
  (storeBytes s (ssBase + 0x1400000) (b.take 0x100000), if 0x100000 < b.length then [(0x40000, 4)] else [])

/-- The end of the scratchpad that holds a byte offset of a Frond's region. -/
def padEnd (off : Nat) : Nat := if off < 0x40000 then 0x40000 else if off < 0x68000 then 0x68000 else 0x80000

/-- The limits of what a field of a kernel descriptor counts (R123, R124, R130, R159, R182). -/
def kernelLimits : Config.KernelSize → Nat × Nat
  | .rhs => (1, 32)
  | .stripRows => (0, 31)
  | .augmented => (0, 32)
  | .order => (0, 256)
  | .sparseOrder => (0, 4096)
  | .supernode => (0, 256)
  | .batchRows => (0, 8192)
  | .updateRows => (0, 248)
  | .noise => (0, 32)
  | .unknowns => (0, 2048)
  | .users => (0, 512)
  | .sites => (0, 256)
  | .measurements => (0, 16384)
  | .horizon => (0, 64)

/-- The kernel descriptors among the words of a SCRATCH record, each field clamped to its limits (R123, R124, R130, R159, R182). Which
words are descriptors the manual does not say: `Config.kernelFields` (log entry 77). -/
def kernelClamp (f : FrondId) (off : Nat) (ws : List Word) : List Word × Clamps :=
  (Config.kernelFields f.val off (wordsBytes ws)).foldl (fun x k =>
    if ws.length ≤ k.word then x else clampW x k.word k.hi k.lo (kernelLimits k.size).1 (kernelLimits k.size).2 1) (ws, [])

/-- SCRATCH: data into W, A or P, forcing an unpowered region on (R234, R367). -/
def loadScratch (s : State) (dest : Nat) (b : List Byte) : State × Clamps :=
  let f : FrondId := idx 127 (dest % 128)
  let off := dest / 256 / 4 * 4
  let n := min b.length (padEnd off - off)
  let pwr := (frond s f).pwrmap
  let need := (upto 32).filter fun r => decide (r * 0x4000 < off + n) && decide (off < (r + 1) * 0x4000) && !bit pwr r
  let s1 := need.foldl (fun s r => zeroRegion (modFrond s f fun x => { x with pwrmap := setBit x.pwrmap r true }) f r) s
  let k := kernelClamp f off (bytesWords (n / 4) b)
  (storeBytes s1 (frondBase f + off) (wordsBytes k.1 ++ (b.take n).drop (4 * (n / 4))),
   (if off ≠ dest / 256 then [(0, 1)] else []) ++ (if n < b.length then [(n / 4, 4)] else []) ++ (need.map fun _ => (0, 4)) ++ k.2)

/-- SSTORE: data into the image region (R24, R367). -/
def loadSstore (s : State) (dest : Nat) (b : List Byte) : State × Clamps :=
  let off := dest / 4 * 4
  let n := min b.length (imageSize - off)
  (storeBytes s (imageBase + off) (b.take n),
   (if off ≠ dest then [(0, 1)] else []) ++ (if n < b.length then [(n / 4, 4)] else []))

/-! ### PARTITION and QUEUES (R370, R371, R487, R38) -/

/-- A window of a partition record, inside the image region. -/
def loadWin (a b : Word) (word : Nat) : Win × Clamps :=
  let base := field a 17 0
  let size := field b 23 0
  if size = 0 then ({ base := BitVec.ofNat 18 base, hostr := bit a 18, hostw := bit a 19, size := 0 }, [])
  else
    let base1 := min base (regionUnits - 1)
    let size1 := min size ((regionUnits - base1) * 16)
    ({ base := BitVec.ofNat 18 base1, hostr := bit a 18, hostw := bit a 19, size := BitVec.ofNat 24 size1 },
     (if base1 ≠ base then [(word, 4)] else []) ++ (if size1 ≠ size then [(word + 1, 4)] else []))

/-- The length left of a range [b, b + n) when it must stop before the ranges of `others`; none where its base lies in one. -/
def fitRange (b n : Nat) (others : List (Nat × Nat)) : Option Nat :=
  if others.any fun o => decide (o.1 ≤ b) && decide (b < o.1 + o.2) then none
  else some (others.foldl (fun n o => if b ≤ o.1 ∧ o.1 < b + n then o.1 - b else n) n)

def loadPartition (s : State) (b : List Byte) : State × Clamps :=
  let (ws, c0) := fixedRecord 160 b
  let p : PartId := idx 7 (field (wordAt ws 0) 2 0)
  let en := bit (wordAt ws 0) 3
  let qb := field (wordAt ws 1) 19 0
  let qc := field (wordAt ws 2) 20 0
  let rf := field (wordAt ws 3) 10 0
  let rc := field (wordAt ws 3) 22 12
  let lower := (allFin 8).filter fun q => decide (q.val < p.val) && (part s q).en
  let qs := lower.map fun q => ((part s q).qbase.toNat, (part s q).qcount.toNat)
  let rs := lower.map fun q => ((part s q).rfirst.toNat, (part s q).rcount.toNat)
  let qc1 := min (max 1 qc) (0x100000 - qb)
  let rc1 := min (max 1 rc) (2048 - rf)
  let wins := (upto 16).map fun i => loadWin (wordAt ws (8 + 2 * i)) (wordAt ws (9 + 2 * i)) (8 + 2 * i)
  let cw := wins.flatMap (·.2)
  let win : Vector Win 16 := Vector.ofFn fun (i : Fin 16) => (wins.getD i.val (Win.reset, [])).1
  let put := fun (x : Partition) => { s with parts := vset s.parts p x }
  let off : Partition := { Partition.reset with en := false }
  match fitRange qb qc1 qs, fitRange rf rc1 rs with
  | none, _ => if en then (put off, c0 ++ [(1, 6)]) else (put off, c0)
  | _, none => if en then (put off, c0 ++ [(3, 6)]) else (put off, c0)
  | some qc2, some rc2 =>
    (put { en := en, qbase := BitVec.ofNat 20 qb, qcount := BitVec.ofNat 21 qc2, rfirst := BitVec.ofNat 11 rf
           rcount := BitVec.ofNat 12 rc2, rcbwin := BitVec.ofNat 4 (field (wordAt ws 4) 3 0)
           rcboff := BitVec.ofNat 24 (field (wordAt ws 4) 27 4), win := win },
     c0 ++ (if qc1 ≠ qc then [(2, 1)] else []) ++ (if qc2 ≠ qc1 then [(2, 6)] else []) ++
       (if rc1 ≠ rc then [(3, 1)] else []) ++ (if rc2 ≠ rc1 then [(3, 6)] else []) ++
       -- each ring whose control block is not wholly inside its window (R65)
       (((upto rc2).filter fun i => decide (winSize (vgetD win (field (wordAt ws 4) 3 0) Win.reset) < field (wordAt ws 4) 27 4 + 8 * i + 8)).map fun _ => (4, 5)) ++ cw)

/-- One descriptor of a QUEUES run, as loaded (R38, R371). -/
def loadDescriptor (s : State) (ws : List Word) (q i : Nat) : List Word × Clamps :=
  let t0 := wordAt ws 2
  let d := min 6 (field t0 6 4)
  let qid : QueueId := BitVec.ofNat 20 q
  let owner := partOfQueue s qid
  let pNo := match owner with | some p => p.val | none => field t0 3 1
  let ring := field t0 31 21
  let ring1 := match owner with
    | some p =>
      let x := part s p
      if x.rfirst.toNat ≤ ring ∧ ring < x.rfirst.toNat + x.rcount.toNat then ring else x.rfirst.toNat
    | none => ring
  let pool := (field (wordAt ws 3) 17 0 + i * 2 ^ d)
  let pool1 := min pool (regionUnits - 2 ^ d)
  let area0 := field (wordAt ws 4) 17 0
  let area := if area0 = 0x3FFFF then area0 else area0 + i * field (wordAt ws 6) 17 0
  let area1 := if area ≤ 0x27FFF then area else 0x3FFFF
  ([BitVec.ofNat 32 (field t0 0 0 + at_ 1 pNo + at_ 4 d + at_ 21 ring1), BitVec.ofNat 32 pool1, BitVec.ofNat 32 area1, 0],
   (if pNo ≠ field t0 3 1 then [(2, 5)] else []) ++ (if d ≠ field t0 6 4 then [(2, 1)] else []) ++
   (if ring1 ≠ ring then [(2, 5)] else []) ++ (if pool1 ≠ pool then [(3, 4)] else []) ++
   (if area1 ≠ area then [(4, 4)] else []))

/-- The first queue and the length of a QUEUES run, and its clamp (R371). -/
def queueRun (ws : List Word) : Nat × Nat × Clamps :=
  let f := field (wordAt ws 0) 19 0
  let n := field (wordAt ws 1) 20 0
  let n1 := min n (0x100000 - f)
  (f, n1, if n1 ≠ n then [(1, 1)] else [])

def loadQueues (s : State) (b : List Byte) : State × Clamps :=
  let (ws, c0) := fixedRecord 32 b
  let (f, n, c1) := queueRun ws
  (upto n).foldl (fun (x : State × Clamps) i =>
    let (d, c) := loadDescriptor s ws (f + i) i
    (wrWords x.1 (descAddr (BitVec.ofNat 20 (f + i))) d, x.2 ++ c)) (s, c0 ++ c1)

/-! ### PROGRAM (R372 and the extensions) -/

/-- Bits each word of a program record stores. -/
def progMasks : List Word :=
  [0x3FFFF, 0x3FFFF, 0x3FFFF, 0xFFFFFF, 0xFFFFFF, 0x3F, 0xFF7FFFFF, 0xFF,
   0xFFFFFFFF, 0xFFFFFFFF, 0xFFFFFFFF, 0xFFFFFFFF, 0xFFF3FFFF, 0xFFFFFFFF, 0xFFFFFFFF, 0xFFFF,
   0xFFFFFFFF, 0x3FFFF, 0xFFFFF, 0xFFFFFFFF, 0xFFFFFF7F, 0x0FFFFFFF, 0x7FFFFFFF, 0xFFFFFF3F,
   0xFFFFFF07, 0, 0xFFFFFF03, 0xFFFFFFFF, 0x3FFF, 0, 0x07FF07FF, 0x03FF03FF] ++ List.replicate 16 0xFFFFFFFF

/-- ER's floor min(floor(log2(1/ε)) + 1, 127) for PIVEPS (R115). ε is EPS_M × 2^(EPS_E − 23). -/
def erFloor (piveps : Word) : Int :=
  let m := max 1 (field piveps 22 0)
  let e := signed 8 (field piveps 31 24) - 23
  -- floor(log2(1/(m 2^e))) is -e - ceil(log2 m)
  let c : Int := Int.ofNat (if 2 ^ m.log2 = m then m.log2 else m.log2 + 1)
  min (-e - c + 1) 127

/-- PIVRCP.ER held at or above its floor; a floor below −128 lets every code stand. -/
def erClamp (piveps : Word) (er : BitVec 8) : BitVec 8 := if er.toInt < erFloor piveps then BitVec.ofInt 8 (erFloor piveps) else er

/-- A two's-complement byte of a word clamped. -/
def clampS (x : List Word × Clamps) (word hi lo : Nat) (least most : Int) (cls : Nat) : List Word × Clamps :=
  let v := signed 8 (field (wordAt x.1 word) hi lo)
  forceW x word hi lo (BitVec.ofInt 8 (clampInt least most v)).toNat (if clampInt least most v = v then 0 else cls)

/-- Most variables and constraint rows of a predictive-control program (R182): FORM 2; FORM 1 on one Frond with a dense K, which the record
does not tell (log entry 77); any other. -/
def controlMost (x : List Word) : Nat × Nat :=
  if field (wordAt x 20) 1 0 = 2 then (128, 256)
  else if field (wordAt x 0) 16 12 = 1 && Config.denseK x then (256, 512)
  else (4096, 8192)

/-- m and n brought under the limits of R182: NROWS first, then the declared output length that gives n (log entry 77). -/
def controlLimits (x : List Word × Clamps) : List Word × Clamps :=
  let (nMost, mMost) := controlMost x.1
  let x := clampW x 22 30 17 0 mMost 1
  clampW x 4 23 0 0 (nMost + (if field (wordAt x.1 20) 3 3 = 1 then field (wordAt x.1 22) 30 17 else 0)) 1

/-- The shift fields and the exports of the control extension brought into range (R161). -/
def controlClamps (x : List Word × Clamps) : List Word × Clamps :=
  let g := fun (x : List Word × Clamps) (w hi lo : Nat) => field (wordAt x.1 w) hi lo
  let x := if g x 20 1 0 = 3 then forceW x 20 1 0 1 3 else x
  let out := max 1 (g x 4 23 0)
  let duals := g x 20 3 3 = 1
  let x := clampW x 22 30 17 1 8192 1
  let x := if duals then clampW x 22 30 17 0 (out - 1) 6 else x
  let m := g x 22 30 17
  let n := if duals then max 1 (out - m) else out
  let x := if g x 20 1 0 = 2 ∧ (128 < n ∨ 1 < g x 0 16 12) then forceW x 20 1 0 1 6 else x
  let x := controlLimits x
  let m := g x 22 30 17
  let out := max 1 (g x 4 23 0)
  let n := if duals then max 1 (out - m) else out
  let x := if g x 20 2 2 = 1 ∧ g x 0 17 17 = 1 then forceW x 20 2 2 0 6 else x
  let x := clampW x 20 15 8 1 255 1
  let x := clampS x 20 23 16 (-24) 24 1
  let x := clampS x 20 31 24 (-40) 0 1
  let x := clampW x 21 6 0 1 64 1
  let x := clampW x 21 15 7 1 256 1
  let x := clampW x 21 23 16 0 (n - 1) 6
  let x := clampW x 21 15 7 0 (n - g x 21 23 16) 6
  let x := clampW x 21 6 0 0 ((n - g x 21 23 16) / g x 21 15 7) 6
  let x := clampW x 22 16 9 0 m 6
  let x := if duals then
      let x := clampW x 22 8 0 0 256 1
      clampW x 22 8 0 0 ((m - g x 22 16 9) / g x 21 6 0) 6
    else x
  -- either target has 16 words: words 0 to 15 of the input block (R314), or the shadow bank (R318)
  let k := g x 23 23 20 + 1
  clampW (clampW x 23 19 8 0 (n - k) 4) 23 31 24 0 (16 - k) 4

/-- An address clamped into a Frond's code region (R486). -/
def clampEntry (fr : Frond) (a : Nat) : Nat :=
  clampNat fr.code.toNat (fr.code.toNat + (fr.codelen.toNat - 4)) a

/-- A program record as loaded; `defined` are the ids the image defines. -/
def loadProgram (s : State) (defined : List Nat) (b : List Byte) : State × Clamps :=
  let (ws, c0) := fixedRecord 192 b
  let g := fun (x : List Word × Clamps) (w hi lo : Nat) => field (wordAt x.1 w) hi lo
  let x : List Word × Clamps := (maskWords ws progMasks, c0)
  let id := g x 0 11 0
  let x := clampW x 0 16 12 1 16 1
  let nf := g x 0 16 12
  let fronds := (upto nf).map fun i => frondNo (g x (8 + i / 4) (8 * (i % 4) + 7) (8 * (i % 4)))
  let entryC := fun (w : Nat) => fronds.filterMap fun f =>
    if clampEntry (frond s f) (g x w 17 0) = g x w 17 0 then none else some (w, 4)
  let x := (x.1, x.2 ++ entryC 1 ++ entryC 2)
  let x := clampW x 6 22 0 1 0x7FFFFF 1
  let x := forceW x 7 7 0 (erClamp (wordAt x.1 6) (BitVec.ofNat 8 (g x 7 7 0))).toNat 6
  let x := (upto nf).foldl (fun x i => clampW x (8 + i / 4) (8 * (i % 4) + 7) (8 * (i % 4)) 0 127 1) x
  let x := if g x 12 15 0 = 0 then x else clampW x 12 15 0 0x63 0x4CCC 1
  let fb := g x 12 31 20
  let x := if g x 12 16 16 = 1 ∧ (fb = 0 ∨ fb = id ∨ !defined.contains fb) then forceW x 12 16 16 0 5 else x
  let x := if 4 < g x 16 2 0 then forceW x 16 2 0 0 3 else x
  let x := if g x 16 3 3 = 1 ∧ g x 16 2 0 ≠ 2 ∧ g x 16 2 0 ≠ 3 then forceW x 16 3 3 0 6 else x
  let x := clampW x 16 7 4 1 8 1
  let x := if g x 16 2 0 = 4 then clampW x 16 15 8 1 255 1 else x
  let x := clampW x 19 11 0 1 0xFFF 1
  let x := clampW x 19 31 12 0 ((regionUnits - g x 17 17 0) / g x 19 11 0) 4
  let x := if g x 20 1 0 = 0 then x else controlClamps x
  let x := if g x 24 31 16 = 0 then x else clampW x 24 31 16 64 0xFFFF 1
  let x := clampW x 27 23 0 1 0xFFFFFF 1
  let x := clampW x 27 31 24 1 255 1
  let x := clampW x 28 6 0 1 127 1
  let x := clampW x 28 13 7 (g x 28 6 0) 127 6
  ({ s with programs := s.programs ++ [(id, x.1)] }, x.2)

/-! ### LOOP, FABRIC, TREE, POWER, SECURITY and OBSERVE -/

/-- The stored bits of the words of a LOOP record (R311, R378). -/
def loopMasks : List Word := [0xFFFFF73F, 0x0FFF0FFF, 0xFFFFFFFF, 0xFFFFFFFF, 0x01FFFFFF] ++ List.replicate 16 0xFFFFFFFF

/-- Configuration word `i` of a channel clamped, given the words before it (R311). -/
def loopClamp (x : List Word × Clamps) (i : Nat) : List Word × Clamps :=
  let g := fun (x : List Word × Clamps) (w hi lo : Nat) => field (wordAt x.1 w) hi lo
  match i with
  | 0 => clampW x 0 15 12 1 15 1
  | 1 => clampW (clampW x 1 11 0 39 3840 1) 1 27 16 8 4095 1
  | 2 =>
    let x := clampW x 2 7 0 1 (min 255 (g x 1 27 16 - 1)) 6
    let x := clampW x 2 19 8 0 (g x 1 27 16 - g x 2 7 0) 6
    clampW x 2 31 20 1 4095 1
  | 3 =>
    let x := clampW x 3 7 0 1 255 1
    clampW x 3 31 8 0 (g x 3 7 0 * 3840) 6
  | 4 => clampW x 4 24 8 0 (imageSize / 128 - 1) 4
  | _ => x

/-- A Loop Engine channel's configuration and both banks (R311, R318). -/
def loadLoop (s : State) (ch : ChanId) (b : List Byte) : State × Clamps :=
  let (ws, c0) := fixedRecord 84 b
  let x := (upto 5).foldl loopClamp (maskWords ws loopMasks, c0)
  (modLe s ch fun c => { c with
     cfg := Vector.ofFn fun (i : Fin 5) => wordAt x.1 i.val
     bank0 := Vector.ofFn fun (i : Fin 16) => wordAt x.1 (5 + i.val)
     bank1 := Vector.ofFn fun (i : Fin 16) => wordAt x.1 (5 + i.val) }, x.2)

/-- Byte r of packed bytes from word `w` on. -/
def packedByte (ws : List Word) (w r : Nat) : Byte := BitVec.ofNat 8 ((wordAt ws (w + r / 4)).toNat >>> (8 * (r % 4)))

/-- The FABRIC record: tickets, AGE and SEED to the shadows, regulator settings at once (R280, R367). -/
def loadFabric (s : State) (b : List Byte) : State × Clamps :=
  let (ws, c0) := fixedRecord 1024 b
  let seed := wordAt ws 2
  let sh : Tickets :=
    { ss := Vector.ofFn fun (r : Fin 32) => if r.val < 26 then packedByte ws 16 r.val else 0
      lk := Vector.ofFn fun (r : Fin 32) => if r.val < 26 then packedByte ws 24 r.val else 0
      pe := Vector.ofFn fun (c : Fin 9) => packedByte ws 32 c.val
      seed := if seed = 0 then 1 else seed
      ageSS := BitVec.ofNat 12 (field (wordAt ws 3) 11 0), ageLK := BitVec.ofNat 12 (field (wordAt ws 3) 27 16)
      agePE := BitVec.ofNat 12 (field (wordAt ws 4) 11 0) }
  let reg := fun (cls p : Nat) =>
    let w := 0x40 + 0x20 * cls + 4 * p
    let a := wordAt ws w
    let r := field a 15 0
    let u := field a 31 16
    (({ Reg273.reset with
        rate := BitVec.ofNat 16 (max 1 r), burst := BitVec.ofNat 16 (max 128 u)
        en := bit (wordAt ws (w + 1)) 0, slack := bit (wordAt ws (w + 1)) 1 } : Reg273),
     (if r = 0 then [(w, 1)] else []) ++ (if u < 128 then [(w, 1)] else []))
  let regs := fun (cls : Nat) => Vector.ofFn fun (p : Fin 8) => (reg cls p.val).1
  ({ s with fabric := { s.fabric with shadow := sh, regSS := regs 0, regPE := regs 1, regLK := regs 2 } },
   c0 ++ (if seed = 0 then [(2, 1)] else []) ++ (upto 3).flatMap fun cls => (upto 8).flatMap fun p => (reg cls p).2)

/-- HBMISS reduced until HBMISS × HBPER is at most 40 µs (R329). -/
def hbmissFit (per : Nat) : Nat → Nat
  | 0 => 0
  | n + 1 => if (n + 1) * per ≤ 40 then n + 1 else hbmissFit per n

/-- The largest EPSPMAX at most `n` whose copy fits in 161 280 XC (R353). -/
def epspFit (wout : Nat) : Nat → Nat
  | 0 => 0
  | n + 1 => if 784 + (n + 1) * 8 * ceilDiv wout 32 ≤ 161280 then n + 1 else epspFit wout n

/-- The TREE record (R329). With ROLE 0 every other field is ignored. The manager is at level 0, position 0 (R330). -/
def loadTree (s : State) (b : List Byte) : State × Clamps :=
  let (ws, c0) := fixedRecord 32 b
  let g := fun (x : List Word × Clamps) (w hi lo : Nat) => field (wordAt x.1 w) hi lo
  let x : List Word × Clamps := (maskWords ws [0x00FFFFFF, 0xFFFFFFFF, 0x007FFFFF, 0x03FFFFFF, 0x00FFFFFF, 0, 0, 0], c0)
  let x :=
    if g x 0 1 0 = 0 then x
    else
      let x := clampW x 0 15 8 1 255 1
      let x := if g x 0 20 16 = 0 then x else clampW x 0 20 16 2 20 1
      let per := if g x 0 20 16 = 0 then 10 else g x 0 20 16
      let x := clampW x 0 23 21 2 4 1
      let x := forceW x 0 23 21 (hbmissFit per (g x 0 23 21)) 6
      let x := clampW x 2 11 0 240 3840 1
      let x := clampW x 2 22 12 0 1024 1
      let wout := (s.programs.map fun p => progOutDecl s p.1).foldl max 0
      let x := forceW x 2 22 12 (epspFit wout (g x 2 22 12)) 6
      let x := clampW x 3 17 0 0 (regionUnits - 512) 4
      let x := clampW x 3 25 18 1 (min 128 ((regionUnits - g x 3 17 0) / 512)) 4
      x
  ({ s with tree := { s.tree with
      rcd := Vector.ofFn fun (i : Fin 8) => wordAt x.1 i.val, role := BitVec.ofNat 2 (g x 0 1 0)
      member := g x 0 1 0 == 2, path := if g x 0 1 0 = 2 then 0x03FFFF else 0xFFFFFF } }, x.2)

/-- The POWER record, copied into PGCFG0 and PGCFG1 (R397). -/
def loadPower (s : State) (b : List Byte) : State × Clamps :=
  let (ws, c0) := fixedRecord 64 b
  let x : List Word × Clamps := (maskWords ws [0xFFFF01FF, 0x0000FFFF], c0)
  let x := if field (wordAt x.1 0) 8 0 = 0 then x else clampW x 0 8 0 4 256 1
  let x := clampW x 0 23 16 1 255 1
  (modPower s fun p => { p with cfg0 := wordAt x.1 0, cfg1 := wordAt x.1 1 }, x.2)

/-- The SECURITY record: word 0 into SECPOL, and SVCKEY (R409). -/
def loadSecurity (s : State) (b : List Byte) : State × Clamps :=
  let (ws, c0) := fixedRecord 256 b
  let key := ((wordsBytes ws).drop 0x10).take 97
  let x : List Word × Clamps := (maskWords (ws.take 1) [0xFFFFFF1F], c0)
  let x := if field (wordAt x.1 0) 0 0 = 1 ∧ (sec1Point key).isNone then forceW x 0 0 0 0 6 else x
  let x := clampW x 0 31 16 1 0xFFFF 1
  ({ s with sec := { s.sec with secpol := wordAt x.1 0, svcKey := key } }, x.2)

/-- The OBSERVE record (R422). -/
def loadObserve (s : State) (b : List Byte) : State × Clamps :=
  let (ws, c0) := fixedRecord 256 b
  let x : List Word × Clamps := (maskWords (ws.take 9) [0x00FFFFFF, 0x0000FFFF, 0x03FFFF7F, 0, 0xFFFFFFFF, 0xFFFFFFFF, 0xFFFFFFFF, 0xFFFFFFFF, 0xFFFFFF7F], c0)
  let x := if field (wordAt x.1 0) 23 0 = 0 then x else clampW x 0 23 0 3840 384000 1
  let x := clampW x 2 23 16 1 255 1
  let p : PartId := idx 7 (field (wordAt x.1 8) 6 4)
  let w := winSize ((part s p).win.get (idx 15 (field (wordAt x.1 8) 3 0)))
  let x := clampW x 8 31 8 0 (w - 8) 4
  (modObs s fun o => { o with rcd := Vector.ofFn fun (i : Fin 9) => wordAt x.1 i.val }, x.2)

/-! ### The load pass (R367, R376) -/

/-- A record to apply: its directory index, entry and bytes. -/
structure Rec where
  i : Nat
  e : DirEnt
  b : List Byte
deriving DecidableEq, Repr

/-- The object a record defines, for the duplicate rule of R367; none for data and queue records. -/
def recKey (r : Rec) : Option (Nat × Nat) :=
  match r.e.typ with
  | 1 => some (1, 0)
  | 2 => some (2, min r.e.dest 127)
  | 6 => some (6, field (bytesWord r.b) 2 0)
  | 8 => some (8, field (bytesWord r.b) 11 0)
  | 9 => some (9, min r.e.dest 15)
  | 0xA => some (0xA, 0)
  | 0xB => some (0xB, 0)
  | 0xC => some (0xC, 0)
  | 0xD => some (0xD, 0)
  | 0xE => some (0xE, 0)
  | _ => none

/-- The queues a QUEUES record names. -/
def recRun (r : Rec) : Nat × Nat :=
  let (f, n, _) := queueRun (fixedRecord 32 r.b).1
  (f, n)

/-- The earlier record that defines the same object. -/
def duplicateOf (kept : List Rec) (r : Rec) : Option Nat :=
  (kept.find? fun k =>
    if r.e.typ = 7 then
      k.e.typ == 7 && (let (a, n) := recRun k
        let (b, m) := recRun r
        decide (a < b + m) && decide (b < a + n))
    else (recKey r).isSome && recKey k == recKey r).map (·.i)

/-- Records without the duplicates, and for each duplicate the record whose note counts it. -/
def dedupe : List Rec → List Rec → List Nat → List Rec × List Nat
  | kept, [], dups => (kept, dups)
  | kept, r :: rs, dups =>
    match duplicateOf kept r with
    | some i => dedupe kept rs (dups ++ [i])
    | none => dedupe (kept ++ [r]) rs dups

/-- TYPEs the table reserves. -/
def reservedType (t : Nat) : Bool := t == 0 || decide (0xE < t)

/-- One record applied. -/
def applyRecord (defined : List Nat) (s : State) (r : Rec) : State :=
  let out : State × Clamps :=
    match r.e.typ with
    | 1 => loadDevice s r.b
    | 2 => loadFrond s (frondNo r.e.dest) r.b
    | 3 => loadFirmware s r.b
    | 4 => loadScratch s r.e.dest r.b
    | 5 => loadSstore s r.e.dest r.b
    | 6 => loadPartition s r.b
    | 7 => loadQueues s r.b
    | 8 => loadProgram s defined r.b
    | 9 => loadLoop s ⟨min r.e.dest 15, by omega⟩ r.b
    | 0xA => loadFabric s r.b
    | 0xB => loadTree s r.b
    | 0xC => loadPower s r.b
    | 0xD => loadSecurity s r.b
    | 0xE => loadObserve s r.b
    | _ => (s, [])
  let destC : Clamps := if (r.e.typ = 2 ∧ 127 < r.e.dest) ∨ (r.e.typ = 9 ∧ 15 < r.e.dest) then [(0, 1)] else []
  addNotes out.1 r.i (destC ++ out.2)

/-- Every record of a directory applied (R367, R369, R376): in ascending TYPE, partitions in ascending number so that each is
fitted to the lower ones, then CIRC and FULLMAP, then the built-in null program if the image defines none (R41). -/
def applyRecords (s : State) (rs : List Rec) : State :=
  let skipped := (rs.filter fun r => reservedType r.e.typ).length
  let (kept, dups) := dedupe [] (rs.filter fun r => !reservedType r.e.typ) []
  let defined := (kept.filter fun r => r.e.typ == 8).map fun r => field (bytesWord r.b) 11 0
  let ty := fun (p : Nat → Bool) => kept.filter fun r => p r.e.typ
  let parts := (upto 8).flatMap fun p => (ty (· == 6)).filter fun r => field (bytesWord r.b) 2 0 == p
  let order := ty (fun t => decide (t < 6)) ++ parts ++ ty (fun t => decide (6 < t))
  let s1 := order.foldl (applyRecord defined) s
  let s2 := (ty (· == 2)).foldl (fun s r =>
    let (s', c) := finishFrond s (frondNo r.e.dest) r.b
    addNotes s' r.i c) s1
  let s3 := dups.foldl (fun s i => addNotes (modBoot s fun b => { b with dupRec := satInc b.dupRec }) i [(0, 10)]) s2
  let s4 := modBoot s3 fun b => { b with dirSkip := satAdd b.dirSkip skipped }
  if progDefined s4 0 then s4 else addDevNote { s4 with programs := s4.programs ++ [(0, nullProgram)] } (0, 5)

/-- The records of a slot's body. -/
def recordsOf (body : List Byte) (nrec : Nat) : List Rec :=
  ((directory nrec body).zip (upto nrec)).map fun (d, i) => { i := i, e := d, b := (body.drop d.off).take d.len }

end Sys2Proof.Machine
end

