-- ==== Sys2Proof/Machine/Boot.lean ====
section
/-!
DEFINITION. The cold start from the boot PLL to READY, and staging (R361 to R364, R374 to R387).
-/
namespace Sys2Proof.Machine

/-- The boot ends with a code: every memory written is zeroed, the device stays inert, and the groups that were woken go
back to Dormant-Cold under the governor (R361, R375, R383). -/
def bootStop (s : State) (code : BitVec 8) : State :=
  let r := resetCommon s
  { r with
    tbAdj := s.tbAdj, sec := s.sec, tap := s.tap, pcie := s.pcie, obs := s.obs, timing := s.timing
    power := { s.power with
      cfg0 := 0x20010020, cfg1 := 0
      groups := Vector.map (fun (x : Group) =>
        if x.st = .cold then { x with req := none } else { x with req := some (.toCold, s.now) }) s.power.groups }
    boot := { r.boot with
      phase := .stopped, code := code, aReason := s.boot.aReason, bReason := s.boot.bReason
      majFix := s.boot.majFix, majCnt := s.boot.majCnt, phaseAt := s.now } }

/-- The boot moves to its next phase. -/
def toPhase (s : State) (p : BootPhase) : State := modBoot s fun b => { b with phase := p, phaseAt := s.now }

/-- BOOT_PLL_LOCK: discovery starts with a software reset of the flash (R363, R387). -/
def execBootPllLock (t : Time) (s : State) : Host.Outcome State Fault Refusal :=
  live t s fun s => when_ (s.boot.phase == .pllWait) s fun s => toPhase s .sfdp

/-- SFDP_READ: after the 1 ms wait, steps 2 and 3 of R363 with the revision of R455. -/
def execSfdpRead (t : Time) (r : Sfdp) (s : State) : Host.Outcome State Fault Refusal :=
  live t s fun s =>
    when_ (s.boot.phase == .sfdp && decide (s.boot.phaseAt + tMs ≤ s.now)) s fun s =>
      if !r.signature || decide (r.minorRev.toNat < 8) then bootStop s 0x10
      else if !(r.basicTable && r.profileTable && r.read8D && r.addr4 && r.erase4K) then bootStop s 0x11
      else if r.bytes < 2 ^ 28 then bootStop s 0x12
      else toPhase (modBoot s fun b => { b with erase64K := r.erase64K }) .octal

/-- OCTAL_MODE_ENTRY: step 4 of R363. -/
def execOctalModeEntry (t : Time) (ok : Bool) (s : State) : Host.Outcome State Fault Refusal :=
  live t s fun s => when_ (s.boot.phase == .octal) s fun s => if ok then toPhase s .calib else bootStop s 0x11

/-- DQS_CALIBRATION: step 5 of R363; every one of the 32 reads has to match. -/
def execDqsCalibration (t : Time) (reads : List Bool) (s : State) : Host.Outcome State Fault Refusal :=
  live t s fun s =>
    when_ (s.boot.phase == .calib) s fun s =>
      if reads.length = 32 ∧ reads.all id = true then toPhase s .headers else bootStop s 0x13

/-- The header of a slot in the flash. -/
def slotHeader (s : State) (sl : Slot) : List Byte := flashBytes s.flash (slotBase sl) 256
def slotBody (s : State) (m : List Host.Cell) (sl : Slot) : List Byte :=
  flashBytes m (slotBase sl + 0x1000) (hdrBodyLen (slotHeader s sl))

/-- R365 and R366 over a slot: the reason it fails, or 7, not examined further. -/
def frontReason (s : State) (sl : Slot) : BitVec 4 :=
  let h := slotHeader s sl
  match headerReason s.part h with
  | some r => r
  | none => if dirGood (hdrNrec h) (hdrBodyLen h) (directory (hdrNrec h) (slotBody s s.flash sl)) then 7 else 4

def setReason (s : State) (sl : Slot) (r : BitVec 4) : State :=
  modBoot s fun b => match sl with
    | .a => { b with aReason := r }
    | .b => { b with bReason := r }

def slotGen (s : State) (sl : Slot) : Nat := hdrGen (slotHeader s sl)

/-- HEADER_READ: both headers and directories, and the candidate list (R374, R375). -/
def execHeaderRead (t : Time) (s : State) : Host.Outcome State Fault Refusal :=
  live t s fun s =>
    when_ (s.boot.phase == .headers) s fun s =>
      let ra := frontReason s .a
      let rb := frontReason s .b
      let s1 := setReason (setReason s .a ra) .b rb
      let ca := if ra = 7 then [Slot.a] else []
      let cb := if rb = 7 then [Slot.b] else []
      let cand := if slotGen s .a < slotGen s .b then cb ++ ca else ca ++ cb
      if cand.isEmpty then bootStop s1 0x20
      else toPhase (modBoot s1 fun b => { b with cand := cand, verified := [] }) .verify

/-- The records a chosen slot's body holds. -/
def slotRecords (s : State) (m : List Host.Cell) (sl : Slot) : List Rec :=
  recordsOf (slotBody s m sl) (hdrNrec (slotHeader s sl))

/-- The load pass begins: before the first FROND record every group is woken (R376). A slot of higher generation whose header
stands and which was rejected makes the boot OK_LOWER (R375). -/
def chooseSlot (s : State) (sl : Slot) : State :=
  let other : Slot := if sl = .a then .b else .a
  let rejected := (headerReason s.part (slotHeader s other)).isNone && decide (slotGen s sl < slotGen s other)
  let s1 := toPhase (modBoot s fun b => { b with chosen := sl, slot := sl, lower := rejected }) .load
  if (slotRecords s s.flash sl).any fun r => r.e.typ == 2 then (allFin 16).foldl requestWake s1 else s1

/-- VERIFY_PASS: the next candidate's pass ends and is judged; R375 then chooses, goes on or stops (R374, R375). -/
def execVerifyPass (t : Time) (s : State) : Host.Outcome State Fault Refusal :=
  live t s fun s =>
    let rest := s.boot.cand.filter fun c => !(s.boot.verified.any fun v => v.slot == c)
    match s.boot.phase == .verify, rest with
    | true, sl :: more =>
      let h := slotHeader s sl
      let r := judgeSlot s (curOf s) s.flash sl h
      let v : Verified := { slot := sl, digest := imageDigest h (slotBody s s.flash sl), valid := decide (r = 0) }
      let s1 := modBoot (setReason s sl r) fun b => { b with verified := b.verified ++ [v] }
      let vs := s1.boot.verified
      let tie := s.boot.cand.length == 2 && slotGen s .a == slotGen s .b
      let noKey := s1.boot.cand.all fun c => (if c = Slot.a then s1.boot.aReason else s1.boot.bReason) == 5
      if tie then
        if !more.isEmpty then s1
        else
          let good := vs.filter (·.valid)
          match good with
          | [] => bootStop s1 0x21
          | [x] => chooseSlot s1 x.slot
          | x :: y :: _ => if x.digest = y.digest then chooseSlot s1 .a else bootStop s1 0x22
      else if v.valid then chooseSlot s1 sl
      else if more.isEmpty then bootStop s1 (if noKey then 0x24 else 0x21)
      else s1
    | _, _ => s

/-- The flash as the load pass reads it: bytes that read differently from before (R375). -/
def reread (s : State) (bs : List (Nat × Byte)) : List Host.Cell := bs.foldl (fun m b => cellSet 0xFF m b.1 b.2) s.flash

/-- The Hearth's instruction and data buffers are filled from the firmware region (R24, R25). -/
def fillHearth (s : State) : State :=
  { s with hearth := Vector.ofFn fun (c : Fin 4) =>
      { ibuf := rdWords s (ssBase + 0x1400000 + Config.fwAt c.val false) 4096, dbuf := rdWords s (ssBase + 0x1400000 + Config.fwAt c.val true) 4096 } }

/-- LOAD_PASS: the load pass ends once the woken groups are Active; an uncorrectable error in a memory, or a digest other than
the verify pass's, stops the boot; else the records stand and the Hearth starts (R367, R375, R376). -/
def execLoadPass (t : Time) (rr : List (Nat × Byte)) (eccError : Bool) (s : State) : Host.Outcome State Fault Refusal :=
  live t s fun s =>
    let sl := s.boot.chosen
    let m := reread s rr
    let h := slotHeader s sl
    let rs := slotRecords s m sl
    let awake := !(rs.any fun r => r.e.typ == 2) || (allFin 16).all fun g => (group s g).st == .active
    when_ (s.boot.phase == .load && awake) s fun s =>
      if eccError then bootStop s 0x30
      else if (s.boot.verified.any fun v => v.slot == sl && v.digest == imageDigest h (slotBody s m sl)) = false then bootStop s 0x26
      else
        let s1 := fillHearth (applyRecords s rs)
        toPhase (modBoot s1 fun b => { b with
          imgGen := BitVec.ofNat 64 (hdrGen h), imgDig := imageDigest h (slotBody s m sl), buildId := (h.drop 0x40).take 16 }) .fwStart

/-- FIRMWARE_READY: the ready word, within 100 ms (R376). -/
def execFirmwareReady (t : Time) (s : State) : Host.Outcome State Fault Refusal :=
  live t s fun s =>
    when_ (s.boot.phase == .fwStart && decide (s.now ≤ s.boot.phaseAt + 100 * tMs)) s fun s => toPhase s .digest

/-- FW_START_TIMEOUT: no ready word within 100 ms (R376). -/
def execFwStartTimeout (t : Time) (s : State) : Host.Outcome State Fault Refusal :=
  live t s fun s =>
    when_ (s.boot.phase == .fwStart && decide (s.boot.phaseAt + 100 * tMs ≤ s.now)) s fun s => bootStop s 0x31

/-- The powered W memory of a Frond, in ascending address (R443). -/
def poweredW (s : State) (f : FrondId) : List Byte :=
  ((upto 16).filter fun r => regionOn (frond s f).pwrmap (r * 0x4000)).flatMap fun r =>
    cellRead 0 s.mem (frondBase f + r * 0x4000) 0x4000

/-- The program records in ascending id, in bytes. -/
def programBytes (s : State) : List Byte :=
  ((upto 4096).filter fun p => progDefined s p).flatMap fun p => wordsBytes (progRec s p)

/-- PROGRAM_SET_DIGEST: the SHA-256 of the program records and weights, and each Frond's W digest (R339, R376, R443). -/
def execProgramSetDigest (t : Time) (s : State) : Host.Outcome State Fault Refusal :=
  live t s fun s =>
    when_ (s.boot.phase == .digest) s fun s =>
      toPhase (modBoot s fun b => { b with
        progDigest := sha256 (programBytes s ++ (allFin 128).flatMap (poweredW s))
        wDigests := (allFin 128).map fun f => sha256 (poweredW s f) }) .lock

/-- LOCK_SEQUENCE: the lock copies, the ticket commit, NORMAL (R379); the Hearth's checkpoints are counted from here (R434). -/
def execLockSequence (t : Time) (s : State) : Host.Outcome State Fault Refusal :=
  live t s fun s =>
    when_ (s.boot.phase == .lock) s fun s =>
      let s1 := modFabric s fun f => setMode (commitTickets (xcNow s) f) 1
      let s2 := modObs s1 fun o => { o with checkAt := Vector.replicate 4 s.now }
      toPhase (modBoot s2 fun b => { b with lock0 := true, lock1 := true, lock2 := true }) .priming

/-- The CACHE 1 programs that run on a Frond (R169). -/
def cachePrograms (s : State) (f : FrondId) : List Nat :=
  (s.programs.map (·.1)).filter fun p => progCache s p && (progFronds s p).contains f

/-- The firmware primes a pair of a CACHE 1 program and a Frond; one that fails leaves its bit clear, and PIVCNT and PIVREC of one that
replaced a pivot go to the event ring. How it ends is free (R169, R171, log entry 23). -/
def primePair (f : FrondId) (s : State) (p : Nat) : State :=
  let n := s.freeCtr
  let s1 := { s with freeCtr := n + 1 }
  if Config.primeFails n f.val p then s1
  else
    let (piv, sat) := Config.primeFlags f.val p
    let s2 := setCopy s1 f p piv sat
    let w := fun (i : Nat) => Config.openWord n [BitVec.ofNat 32 f.val, BitVec.ofNat 32 p, BitVec.ofNat 32 i]
    if piv then logPivots s2 f (progCtx s p) (w 0) (w 1) (w 2) else s2

/-- Every pair is invalidated and primed by the firmware (R169, R447). -/
def primeAll (s : State) : State :=
  (allFin 128).foldl (fun s f => (cachePrograms s f).foldl (primePair f) s)
    { s with fronds := s.fronds.map fun fr => { fr with cacheValid := [], cachePivb := [], cacheSat := [] } }

/-- BOOT_READY: priming has ended and its valid bits stand; READY, BOOT_DONE, and the PCI Express transmitter is enabled
(R169, R379, R383). -/
def execBootReady (t : Time) (s : State) : Host.Outcome State Fault Refusal :=
  live t s fun s =>
    when_ (s.boot.phase == .priming && !s.power.resetting && !s.obs.halted) s fun s =>
      toPhase (modBoot (primeAll s) fun b => { b with ready := true, bootDone := true, code := if b.lower then 0x02 else 0x00 }) .ready

/-! ### Staging (R384 to R386) -/

/-- The slot not loaded. -/
def tslot (s : State) : Slot := if s.boot.slot = .a then .b else .a

/-- First address and size of the staging buffer (R368). -/
def stgBufBase (s : State) : Nat := imageBase + 64 * s.stgBase.toNat
def stgBufSize (s : State) : Nat := 16384 * s.stgSize.toNat

/-- The row of R418, and a buffer to stage from. -/
def stagingOk (s : State) : Bool :=
  s.stgSize != 0 && match curOf s with
    | .opened => true
    | .service => scopeBit s 5 || stagEn s
    | .sealed => stagEn s

/-- The staging aperture is served. -/
def stagingServed (s : State) : Bool := operating s && s.pcie.up

def setResult (s : State) (r : BitVec 4) : State := { s with stg := { s.stg with result := r } }

/-- A command written: discarded and counted while BUSY, else carried out (R385). -/
def stgCommand (s : State) (f : State → State) : State :=
  if !stagingServed s then s
  else if s.stg.busy then { s with stg := { s.stg with rej := satInc s.stg.rej } }
  else if !stagingOk s then setResult s 6
  else f s

/-- The command starts its flash work. -/
def stgStart (s : State) (cmd : BitVec 4) (pend : BitVec 4) : State :=
  { s with stg := { s.stg with cmdReg := cmd, busy := true, pendResult := pend } }

/-- BEGIN: a session that is open ends first (R385). -/
def stgBegin (s : State) : State := stgCommand s fun s => stgStart (endSession s) 1 0

/-- STG_BEGIN. -/
def execStgBegin (t : Time) (s : State) : Host.Outcome State Fault Refusal := live t s stgBegin

/-- FOFF, LEN and BOFF as the command clamps them (R385). -/
def stgOperands (s : State) (align : Nat) (buffer : Bool) (foff len : BitVec 27) (boff : BitVec 24) : Nat × Nat × Nat :=
  let fo := foff.toNat / align * align
  let l0 := min len.toNat (slotSize - fo)
  let l := if buffer then min l0 (stgBufSize s) else l0
  let b0 := boff.toNat / 256 * 256
  let b := if buffer then min b0 (stgBufSize s - l) else b0
  (fo, l, b)

/-- A command over a range: NOSESSION outside a session where it needs one, RANGE when nothing is left. -/
def stgRange (s : State) (cmd : BitVec 4) (align : Nat) (buffer needSession : Bool) (foff len : BitVec 27) (boff : BitVec 24) : State :=
  stgCommand s fun s =>
    let (fo, l, b) := stgOperands s align buffer foff len boff
    let s1 := { s with stg := { s.stg with foff := BitVec.ofNat 27 fo, len := BitVec.ofNat 27 l, boff := BitVec.ofNat 24 b } }
    if needSession && !s.stg.session then setResult s1 5
    else if l = 0 then setResult s1 1
    else stgStart s1 cmd 0

/-- STG_ERASE. -/
def execStgErase (t : Time) (foff len : BitVec 27) (s : State) : Host.Outcome State Fault Refusal :=
  live t s fun s => stgRange s 2 4096 false true foff len s.stg.boff

/-- STG_PROGRAM. -/
def execStgProgram (t : Time) (foff len : BitVec 27) (boff : BitVec 24) (s : State) : Host.Outcome State Fault Refusal :=
  live t s fun s => stgRange s 3 256 true true foff len boff

/-- STG_READBACK needs no session. -/
def execStgReadback (t : Time) (foff len : BitVec 27) (boff : BitVec 24) (s : State) : Host.Outcome State Fault Refusal :=
  live t s fun s => stgRange s 4 256 true false foff len boff

/-- FINALIZE: the verdict is taken with the held header and the rights it begins with (R385, R386, R420). -/
def stgFinalize (s : State) : State :=
  stgCommand s fun s =>
    if !s.stg.session then setResult s 5
    else
      let h := s.stg.header
      let r := judgeSlot s (curOf s) s.flash (tslot s) h
      let verdict : BitVec 4 := if r ≠ 0 then 3 else if hdrGen h ≤ s.boot.imgGen.toNat then 4 else 0
      let s1 := stgStart s 5 verdict
      { s1 with stg := { s1.stg with finalHdr := h } }

/-- STG_FINALIZE. -/
def execStgFinalize (t : Time) (s : State) : Host.Outcome State Fault Refusal := live t s stgFinalize

/-- ABORT ends the session and discards the held header (R385). -/
def stgAbort (s : State) : State :=
  stgCommand s fun s => if !s.stg.session then setResult s 5 else setResult (endSession s) 0

/-- STG_ABORT. -/
def execStgAbort (t : Time) (s : State) : Host.Outcome State Fault Refusal := live t s stgAbort

/-- The bytes of a held header overwritten from slot offset `o` (R385). -/
def overHeader (h : List Byte) (o : Nat) (b : List Byte) : List Byte :=
  ((upto 256).map fun i => if o ≤ i ∧ i < o + b.length then byteAt b (i - o) else byteAt h i)

/-- The flash work of the command in progress. -/
def stgWork (s : State) : State :=
  let base := slotBase (tslot s)
  let g := s.stg
  let buf := stgBufBase s + g.boff.toNat
  match g.cmdReg.toNat with
  | 1 => { s with flash := cellClear s.flash base 4096, stg := { g with session := true, header := List.replicate 256 0xFF } }
  | 2 =>
    let stop := min slotSize (ceilDiv (g.foff.toNat + g.len.toNat) 4096 * 4096)
    { s with flash := cellClear s.flash (base + g.foff.toNat) (stop - g.foff.toNat) }
  | 3 =>
    let data := cellRead 0 s.mem buf g.len.toNat
    let skip := 0x1000 - g.foff.toNat
    { s with
      flash := cellWrite 0xFF s.flash (base + max 0x1000 g.foff.toNat) (data.drop skip)
      stg := { g with header := overHeader g.header g.foff.toNat data } }
  | 4 => storeBytes s buf (flashBytes s.flash (base + g.foff.toNat) g.len.toNat)
  | 5 => if g.pendResult = 0 then { s with flash := cellWrite 0xFF s.flash base g.finalHdr } else s
  | _ => s

/-- STAGING_COMMAND_DONE: the flash work ends, BUSY clears and RESULT is set; a failure leaves the session open and the flash
as it was (R386). -/
def execStagingCommandDone (t : Time) (flashErr : Bool) (s : State) : Host.Outcome State Fault Refusal :=
  live t s fun s =>
    when_ (s.stg.busy && operating s) s fun s =>
      let writes := s.stg.cmdReg != 4 && !(s.stg.cmdReg == 5 && s.stg.pendResult != 0)
      if flashErr && writes then
        { s with stg := { s.stg with busy := false, result := 2, session := s.stg.session || s.stg.cmdReg == 1 } }
      else
        let s1 := stgWork s
        let s2 := if s.stg.cmdReg = 5 then endSession s1 else s1
        { s2 with stg := { s2.stg with busy := false, result := s.stg.pendResult } }

end Sys2Proof.Machine
end

