-- ==== Sys2Proof/Machine/Pads.lean ====
section
/-!
DEFINITION. A Frond's scratchpads as its engines reach them: power, error correction, tags, circular regions and the
scoreboard's ranges (R208 to R255).
-/
namespace Sys2Proof.Machine

/-! ### Addresses and power (R208, R233) -/

/-- Codes of the memories: 0 W, 1 A, 2 P (R227, R238, R255). -/
def memCode : Mem → Nat
  | .w => 0 | .a => 1 | .p => 2

def memOfCode (n : Nat) : Mem := if n = 0 then .w else if n = 1 then .a else .p

/-- The memory and word of an offset of a Frond's region; none in its hole (R21). -/
def padOf (off : Nat) : Option (Mem × Nat) :=
  if off < 0x40000 then some (.w, off / 4)
  else if off < 0x68000 then some (.a, (off - 0x40000) / 4)
  else if off < 0x80000 then some (.p, (off - 0x68000) / 4)
  else none

/-- Word `w` of a scratchpad exists and lies in a powered region (R208, R233, R234). -/
def padOn (fr : Frond) (m : Mem) (w : Nat) : Bool := decide (w < memWordsN m) && regionOn fr.pwrmap (memBase m + 4 * w)

def padsOn (fr : Frond) (m : Mem) (w n : Nat) : Bool := (upto n).all fun i => padOn fr m (w + i)

/-- Banks of a memory (R208). Word `w` lies in bank `w` mod B, row `w` div 32 of that bank, position (`w` mod 32) div B within the row
(R209). -/
def banks : Mem → Nat
  | .p => 8 | _ => 16
def bankOf (m : Mem) (w : Nat) : Nat := w % banks m
def rowOf (w : Nat) : Nat := w / 32
def positionOf (m : Mem) (w : Nat) : Nat := w % 32 / banks m

/-- Distinct rows of one bank that a set of words touches. -/
def rowsIn (m : Mem) (ws : List Nat) (b : Nat) : Nat :=
  (((ws.filter fun w => bankOf m w == b).map rowOf).foldl (fun rs r => if rs.contains r then rs else r :: rs) []).length

/-- Slots of a gather: the largest number of distinct rows that its words touch in any one bank (R216). -/
def gatherSlots (m : Mem) (ws : List Nat) : Nat := (upto (banks m)).foldl (fun n b => max n (rowsIn m ws b)) 0

/-! ### The wheels (R211 to R215) -/

/-- FC counted from the start of time. -/
def fcNow (s : State) : Nat := s.now / tFC s

/-- Slots of a memory per FC (R208). -/
def wheelRate : Mem → Nat
  | .p => 8 | _ => 2

/-- The slot of a memory in which the present moment falls, counted from the start of time, and the moment it began (R211). -/
def slotCount (s : State) (m : Mem) : Nat := wheelRate m * fcNow s + s.now % tFC s * wheelRate m / tFC s
def slotStart (s : State) (m : Mem) : Time := slotCount s m * tFC s / wheelRate m

/-- Its number within its turn of 16. -/
def slotOf (s : State) (m : Mem) : Nat := slotCount s m % 16

/-- The turn count of a memory (R237), from 0 at strobe 0 of the last replay (R447). -/
def turnOf (s : State) (m : Mem) : Nat :=
  let fc := fcNow s - s.obs.replay.wheel0
  match m with | .p => fc / 2 | _ => fc / 8

/-- Owners of slots. -/
inductive SlotOwner where
  | arr | cri | crd | fet | drn | ext
deriving DecidableEq, Repr

/-- The wheel tables (R211). -/
def slotOwner (m : Mem) (k : Nat) : SlotOwner :=
  if k % 2 = 0 then .arr
  else if k = 15 then .ext
  else match m with
    | .w => if k = 1 ∨ k = 9 then .cri else if k = 3 ∨ k = 11 then .crd else if k = 7 then .drn else .fet
    | .a => if k = 7 then .crd else if k = 3 ∨ k = 11 then .drn else .fet
    | .p => if k = 7 then .crd else if k = 3 ∨ k = 11 then .fet else .drn

/-- An owner's slots, by the codes of R211. -/
def ownerSlot : Owner → SlotOwner
  | .fetch => .fet | .drain => .drn | .inbound => .ext | .crumb => .crd | .array => .arr

/-- The place of a memory in a Frond's tables. -/
def memIdx : Mem → Fin 3
  | .w => 0 | .a => 1 | .p => 2

/-- The present slot of a memory has carried no access yet (R214). -/
def slotFree (s : State) (f : FrondId) (m : Mem) : Bool := (frond s f).taken.get (memIdx m) != some (slotCount s m)

/-- It carries one. -/
def takeSlot (s : State) (f : FrondId) (m : Mem) : State :=
  let k := slotCount s m
  modFrond s f fun fr => { fr with taken := vset fr.taken (memIdx m) (some k) }

/-- The present slot of a memory is an owner's, and free. -/
def ownSlot (s : State) (f : FrondId) (m : Mem) (o : SlotOwner) : Bool := slotOwner m (slotOf s m) == o && slotFree s f m

/-- A scrub turn: its EXT slot goes to the scrubber (R237). -/
def scrubTurn (s : State) (fr : Frond) (m : Mem) : Bool :=
  fr.scrubEn && turnOf s m % 2 ^ fr.gshift.toNat == 2 ^ fr.gshift.toNat - 1

/-- The context whose access it is. -/
def Flight.ctx : Flight → Option CtxId
  | .load c _ _ | .engRead c _ _ _ | .engAck c _ _ | .scale c _ | .storeAck c => some c
  | .line _ => none

/-- An access on its way back: 6 FC from the start of its slot (R212). -/
def fly (s : State) (f : FrondId) (m : Mem) (x : Flight) : State :=
  let at_ := slotStart s m + 6 * tFC s
  modFrond s f fun fr => { fr with flight := fr.flight ++ [(at_, x)] }

/-! ### Faults of a context (R88, R89) -/

/-- Precedence of R89, the strongest first. -/
def FaultKind.rank : FaultKind → Nat
  | .ecc => 0 | .window => 1 | .nan => 2 | .nv => 3 | .dz => 4 | .of => 5 | .idz => 6

/-- Status of R10 for a fault (R88, R22). -/
def FaultKind.status : FaultKind → Byte
  | .ecc => 0x10 | .window => 0x12 | .nan => 0x11 | _ => 0x13

/-- A fault falls on a context; of several the stronger stays. -/
def Ctx.raise (x : Ctx) (k : FaultKind) : Ctx :=
  match x.fault with
  | none => { x with fault := some k }
  | some o => if k.rank < o.rank then { x with fault := some k } else x

def raiseFault (s : State) (f : FrondId) (c : CtxId) (k : FaultKind) : State := modCtx s f c fun x => x.raise k

/-! ### Error correction (R236) -/

/-- DATA of the ECC events: word, memory, scrub (R432). -/
def eccData (m : Mem) (w : Nat) (scrub : Bool) : Word := BitVec.ofNat 32 (w + at_ 16 (memCode m) + at_ 18 scrub.toNat)

/-- ECCADDR holds a capture (R238). -/
def captureEcc (fr : Frond) (k : EccCap) : Frond := { fr with eccWord := k.word, eccMem := k.mem, eccScrub := k.scrub, eccValid := true }

/-- A clear of ECCADDR.VALID; a capture of the same FC stays, or takes its place (R238). -/
def clearEcc (fr : Frond) (fc : Nat) : Frond :=
  match fr.eccNew with
  | some k => if k.fc = fc then captureEcc fr k else { fr with eccValid := false }
  | none => { fr with eccValid := false }

/-- The check of one word read from a scratchpad: corrected, or uncorrectable with its capture; a cache whose region holds an
uncorrectable word loses its valid bit (R169, R236). -/
def padCheck (s : State) (f : FrondId) (sub : Nat) (m : Mem) (w : Nat) (scrub : Bool) : State × Bool :=
  let a := padAddr f m w
  match markAt s a with
  | none => (s, false)
  | some (.single _) =>
    let s1 := modFrond s f fun fr => { fr with
      corr := satInc fr.corr, wback := if fr.wback.contains a then fr.wback else fr.wback ++ [a] }
    (logEvent (modFcnt s1 f fun x => { x with eccc := satInc x.eccc }) (uFrond f) 0x03 sub (eccData m w scrub), false)
  | some .uncorrectable =>
    let cap : EccCap := { fc := fcNow s, word := BitVec.ofNat 16 w, mem := BitVec.ofNat 2 (memCode m), scrub := scrub }
    let s1 := modFrond s f fun fr =>
      let fr1 := { fr with
        eccNew := if fr.eccNew.any fun k => k.fc == cap.fc then fr.eccNew else some cap
        uncorr := satInc fr.uncorr
        cacheValid := if m = .w then fr.cacheValid.filter fun p => !Config.cacheWord p f.val w else fr.cacheValid }
      if fr.eccValid then fr1 else captureEcc fr1 cap
    (logEvent (modFcnt s1 f fun x => { x with eccu := satInc x.eccu }) (uFrond f) 0x04 sub (eccData m w scrub), true)

/-- The check of `n` words; whether any is uncorrectable. -/
def padCheckAll (s : State) (f : FrondId) (sub : Nat) (m : Mem) (w n : Nat) : State × Bool :=
  (upto n).foldl (fun r i =>
    let x := padCheck r.1 f sub m (w + i) false
    (x.1, r.2 || x.2)) (s, false)

/-- Words of a scratchpad. -/
def padWords (s : State) (f : FrondId) (m : Mem) (w n : Nat) : List Word := rdWords s (padAddr f m w) n

/-- Words stored in a scratchpad; a write-back that waits for one is skipped (R237). -/
def padStore (s : State) (f : FrondId) (m : Mem) (w : Nat) (ws : List Word) : State :=
  let a := padAddr f m w
  modFrond (wrWords s a ws) f fun fr =>
    { fr with wback := fr.wback.filter fun b => !(decide (a ≤ b) && decide (b < a + 4 * ws.length)) }

/-! ### Tags (R218 to R220, R248, R249) -/

/-- The number of the tagged line that holds a word; W has none. -/
def tagLine (m : Mem) (w : Nat) : Option Nat :=
  match m with
  | .w => none
  | .a => some (w / 32)
  | .p => some (1280 + w / 32)

def Frond.isFull (fr : Frond) (l : Nat) : Bool := fr.full.contains l
def Frond.setTag (fr : Frond) (l : Nat) (b : Bool) : Frond :=
  { fr with full := if b then insertNat l fr.full else removeNat l fr.full }

/-- The kind an access acts under: TAKE and PEEK read, PUT writes; otherwise PLAIN. -/
def readKind : TagKind → TagKind
  | .put => .plain
  | k => k
def writeKind : TagKind → TagKind
  | .put => .put
  | _ => .plain

/-- The tag check of one line in its slot: the Frond afterwards, or none while the line blocks (R219). A line under the
scoreboard executes PLAIN and SBMIX counts it (R248, R249). -/
def tagAccess (fr : Frond) (m : Mem) (w : Nat) (k : TagKind) : Option Frond :=
  match k, tagLine m w with
  | .plain, _ => some fr
  | _, none => some fr
  | k, some l =>
    if fr.touched.contains l then some { fr with sbmix := satInc fr.sbmix }
    else match k with
      | .put => if fr.isFull l then none else some (fr.setTag l true)
      | .take => if fr.isFull l then some (fr.setTag l false) else none
      | _ => if fr.isFull l then some fr else none

/-- TSET and TCLR (R218); on a line under the scoreboard they change nothing (R248). -/
def tagSet (fr : Frond) (m : Mem) (line : Nat) (b : Bool) : Frond :=
  match tagLine m (32 * line) with
  | none => fr
  | some l => if fr.touched.contains l then { fr with sbmix := satInc fr.sbmix } else fr.setTag l b

/-! ### Circular regions (R223 to R226) -/

def ownerCode : Owner → Nat
  | .fetch => 0 | .drain => 1 | .inbound => 2 | .crumb => 3 | .array => 4

def Circ.mem' (r : Circ) : Mem := if r.mem then .p else .a
/-- S: the lines of a region. -/
def Circ.lines (r : Circ) : Nat := max 1 r.size.toNat
def Circ.count (r : Circ) : Nat := (r.tail.toNat + 2 * r.lines - r.head.toNat) % (2 * r.lines)
/-- The word at which line `k` counted from a pointer begins. -/
def Circ.wordAt (r : Circ) (p : Nat) : Nat := 32 * (r.base.toNat + p % r.lines)

/-- Whether an enabled region holds a line (R225). -/
def inRegion (fr : Frond) (m : Mem) (w : Nat) : Bool :=
  fr.circ.toList.any fun r => r.en && r.mem' == m && decide (r.base.toNat ≤ w / 32) && decide (w / 32 < r.base.toNat + r.lines)

/-- A region operation that R225 and R251 let this context and owner perform. On a region whose EN is 0 the rules state no outcome: the
model refuses the operation, as it does one of another owner (DESIGN CHOICE, log entry 92). -/
def circAllowed (fr : Frond) (c : CtxId) (who : Owner) (i : Fin 8) (asProd : Bool) : Bool :=
  let r := fr.circ.get i
  r.en && r.ctx == c && !(fr.ctxs.get c).sbEn &&
    (if asProd then r.prod.toNat == ownerCode who else r.cons.toNat == ownerCode who)

/-- `n` lines of a region from a pointer on lie in powered regions (R234). -/
def circOn (fr : Frond) (i : Fin 8) (p n : Nat) : Bool :=
  let r := fr.circ.get i
  (upto n).all fun k => padOn fr r.mem' (r.wordAt (p + k))

def modCirc (s : State) (f : FrondId) (i : Fin 8) (g : Circ → Circ) : State :=
  modFrond s f fun fr => { fr with circ := vmod fr.circ i g }

/-- The tag of a region's line as its appends and takes leave it; not while the scoreboard governs the line (R251). -/
def regionTag (s : State) (f : FrondId) (m : Mem) (w : Nat) (b : Bool) : State :=
  modFrond s f fun fr =>
    match tagLine m w with
    | some l => if fr.touched.contains l then fr else fr.setTag l b
    | none => fr

/-- TAIL advances over the line just written, whose tag is set FULL (R224). -/
def circPush (s : State) (f : FrondId) (i : Fin 8) : State :=
  let r := (frond s f).circ.get i
  modCirc (regionTag s f r.mem' (r.wordAt r.tail.toNat) true) f i fun x => { x with
    tail := BitVec.ofNat 12 ((x.tail.toNat + 1) % (2 * x.lines)) }

/-- HEAD advances over the line just read, whose tag is set EMPTY (R224). -/
def circPop (s : State) (f : FrondId) (i : Fin 8) : State :=
  let r := (frond s f).circ.get i
  modCirc (regionTag s f r.mem' (r.wordAt r.head.toNat) false) f i fun x => { x with
    head := BitVec.ofNat 12 ((x.head.toNat + 1) % (2 * x.lines)) }

/-- One line appended, or none while the region is full (R224). A piece shorter than a line leaves the rest of the line as it was and counts
as one line, which the rules do not state (DESIGN CHOICE, log entry 92). -/
def circAppend (s : State) (f : FrondId) (i : Fin 8) (ws : List Word) : Option State :=
  let r := (frond s f).circ.get i
  if r.count = r.lines then none
  else some (circPush (padStore s f r.mem' (r.wordAt r.tail.toNat) (ws.take 32)) f i)

/-- One line taken, or none while the region is empty (R224): the words, and whether one is uncorrectable. -/
def circTake (s : State) (f : FrondId) (sub : Nat) (i : Fin 8) : Option (State × List Word × Bool) :=
  let r := (frond s f).circ.get i
  if r.count = 0 then none
  else
    let w := r.wordAt r.head.toNat
    let (s1, bad) := padCheckAll s f sub r.mem' w 32
    some (circPop s1 f i, padWords s1 f r.mem' w 32, bad)

/-- A line at a depth, without advancing HEAD (R224). -/
def circPeek (s : State) (f : FrondId) (sub : Nat) (i : Fin 8) (d : Nat) : Option (State × List Word × Bool) :=
  let r := (frond s f).circ.get i
  let d := min d (r.lines - 1)
  if r.count ≤ d then none
  else
    let w := r.wordAt (r.head.toNat + d)
    let (s1, bad) := padCheckAll s f sub r.mem' w 32
    some (s1, padWords s1 f r.mem' w 32, bad)

/-- Release of `n` lines (R224). -/
def circRelease (s : State) (f : FrondId) (i : Fin 8) (n : Nat) : State :=
  let r := (frond s f).circ.get i
  let k := min n r.count
  let s1 := (upto k).foldl (fun s j => regionTag s f r.mem' (r.wordAt (r.head.toNat + j)) false) s
  modCirc s1 f i fun x => { x with head := BitVec.ofNat 12 ((x.head.toNat + k) % (2 * x.lines)) }

/-- `n` lines of a region from its line `k` on set EMPTY. -/
def circEmpty (s : State) (f : FrondId) (i : Fin 8) (k n : Nat) : State :=
  let r := (frond s f).circ.get i
  (upto n).foldl (fun s j => regionTag s f r.mem' (32 * (r.base.toNat + k + j)) false) s

/-- Pointers 0. -/
def circZero (s : State) (f : FrondId) (i : Fin 8) : State := modCirc s f i fun x => { x with head := 0, tail := 0 }

/-- Reset of a region: every line EMPTY, pointers 0 (R226). -/
def circReset (s : State) (f : FrondId) (i : Fin 8) : State := circZero (circEmpty s f i 0 ((frond s f).circ.get i).lines) f i

def countPstall (s : State) (f : FrondId) (i : Fin 8) : State := modCirc s f i fun x => { x with pstall := satInc x.pstall }
def countCstall (s : State) (f : FrondId) (i : Fin 8) : State := modCirc s f i fun x => { x with cstall := satInc x.cstall }

/-! ### Blocks and their events (R431, R432) -/

/-- DATA of WAIT: kind (0 inbound buffer, 1 tag, 2 region, 3 range), engine, memory, line. -/
def blkData (kind engine mem line : Nat) : Word := BitVec.ofNat 32 (kind + at_ 2 engine + at_ 4 mem + at_ 6 (line % 2048))

/-- DATA of a wait on a circular region, at the line its producer fills next or its consumer takes next. -/
def blkRegion (fr : Frond) (engine : Nat) (i : Fin 8) (prod : Bool) : Word :=
  let r := fr.circ.get i
  blkData 2 engine (memCode r.mem') (r.wordAt (if prod then r.tail.toNat else r.head.toNat) / 32)

/-- A block begins, or goes on. -/
def blkPut (old : Option Blk) (now : Time) (data : Word) : Option Blk :=
  match old with
  | some b => some b
  | none => some { since := now, data := data, logged := false }

/-- WAITEND of a block whose WAIT was written (R432). -/
def logWaitEnd (s : State) (f : FrondId) (c : CtxId) (b : Option Blk) : State :=
  match b with
  | some b => if b.logged then logEvent s (uFrond f) 0x0E c.val b.data else s
  | none => s

/-- FCNT.BUSY gains the FC since the last account in which the Frond's context ran unblocked (R423). -/
def accrueBusy (s : State) (f : FrondId) : State :=
  let fr := frond s f
  let s1 := match fr.cur with
    | some c =>
      let x := fr.ctxs.get c
      if x.st == .running && x.waitk == .none then
        modFcnt s f fun n => { n with busy := n.busy + BitVec.ofNat 32 (fcNow s - fr.busySince / tFC s) }
      else s
    | none => s
  modFrond s1 f fun fr => { fr with busySince := s.now }

/-- The Crumb or the array of a context is blocked (R286, R432). -/
def blockCtx (s : State) (f : FrondId) (c : CtxId) (k : WaitKind) (data : Word) : State :=
  modCtx (accrueBusy s f) f c fun x => { x with waitk := k, blk := blkPut x.blk s.now data }

/-- A tag blocks an access of the Crumb or the array to a line (R219). -/
def blockTag (s : State) (f : FrondId) (c : CtxId) (engine : Nat) (m : Mem) (w : Nat) (k : TagKind) : State :=
  modCtx (blockCtx s f c .tag (blkData 1 engine (memCode m) (w / 32))) f c fun x => { x with waitOn := some (m, w, k) }

/-- FC of a stall added to SBSTAT: to NINTH, or to STALLS (R245, R246). -/
def addLost (x : Ctx) (ninth : Bool) (n : Nat) : Ctx :=
  if ninth then { x with sbNinth := satAdd x.sbNinth n } else { x with sbStalls := satAdd x.sbStalls n }

/-- A stall counted by FC ends: the FC since the last one counted, up to the present one. -/
def Ctx.endLost (x : Ctx) (fc : Nat) : Ctx :=
  match x.lost with
  | some (b, l) => { addLost x b (fc - l - 1) with lost := none }
  | none => x

/-- The present FC is lost to a stall; with it count the FC since the last one counted (R245, R246). -/
def countLost (s : State) (f : FrondId) (c : CtxId) (ninth : Bool) : State :=
  let fc := fcNow s
  modCtx s f c fun x =>
    match x.lost with
    | some (b, l) => if b = ninth then { addLost x b (fc - l) with lost := some (b, fc) } else { addLost (x.endLost fc) ninth 1 with lost := some (ninth, fc) }
    | none => { addLost x ninth 1 with lost := some (ninth, fc) }

/-- It goes on. -/
def unblockCtx (s : State) (f : FrondId) (c : CtxId) : State :=
  let fc := fcNow s
  let s := modCtx s f c fun x => x.endLost fc
  let x := ctx s f c
  if x.waitk == .none && x.blk.isNone then s
  else modCtx (logWaitEnd (accrueBusy s f) f c x.blk) f c fun x => { x with waitk := .none, blk := none }

/-- FC for which the running context has been blocked (R286, R308). -/
def waitFc (s : State) (x : Ctx) : Nat :=
  match x.blk with
  | some b => if x.waitk == .none then 0 else ceilDiv (s.now - b.since) (tFC s)
  | none => 0

/-! ### The scoreboard (R243 to R249) -/

/-- First and last word of a range; LEN 0 is the whole memory (R246). -/
def SbRange.lo (r : SbRange) : Nat := if r.len = 0 then 0 else r.base.toNat
def SbRange.hi (r : SbRange) : Nat := if r.len = 0 then memWordsN r.mem - 1 else r.base.toNat + 64 * r.len.toNat - 1

/-- Rounding outward to 64 words; a span above 4 096 words marks the whole memory (R246). -/
def sbRound (m : Mem) (lo hi : Nat) (wr : Bool) : SbRange :=
  let b := lo / 64 * 64
  let n := hi / 64 + 1 - lo / 64
  if 64 < n then { base := 0, mem := m, wr := wr, len := 0 }
  else { base := BitVec.ofNat 16 b, mem := m, wr := wr, len := BitVec.ofNat 7 n }

/-- Entries of an owner begin here: fetch 0, drain 8, array 16; the Crumb has none (R255). -/
def sbFirst : Owner → Nat
  | .fetch => 0 | .drain => 8 | .array => 16 | _ => 24

/-- One range for each memory that spans (memory, first and last word, whether written) touch; a memory both read and written has one write
range (R243). -/
def sbRanges (ts : List (Mem × Nat × Nat × Bool)) : List SbRange :=
  [Mem.w, Mem.a, Mem.p].filterMap fun m =>
    match ts.filter fun t => t.1 == m with
    | [] => none
    | t :: ts =>
      let lo := ts.foldl (fun l u => min l u.2.1) t.2.1
      let hi := ts.foldl (fun h u => max h u.2.2.1) t.2.2.1
      some (sbRound m lo hi (t.2.2.2 || ts.any (·.2.2.2)))

/-- Conflict of an access with an outstanding range of another owner (R244). -/
def sbConflict (x : Ctx) (who : Owner) (m : Mem) (lo hi : Nat) (wr : Bool) : Bool :=
  x.sbEn && (upto 24).any fun i =>
    i / 8 * 8 != sbFirst who &&
      match vgetD x.sb i none with
      | some r => r.mem == m && decide (lo ≤ r.hi) && decide (r.lo ≤ hi) && (r.wr || wr)
      | none => false

/-- Free entries of an owner. -/
def sbFreeList (x : Ctx) (who : Owner) : List Nat := ((upto 8).map (sbFirst who + ·)).filter fun i => (vgetD x.sb i none).isNone

/-- Lines of A and P that a range covers. -/
def sbLines (r : SbRange) : List Nat :=
  match r.mem with
  | .w => []
  | _ => (upto (r.hi / 32 + 1 - r.lo / 32)).filterMap fun k => tagLine r.mem (32 * (r.lo / 32 + k))

/-- The lines of a range are set FULL and touched (R248). -/
def sbTouch (fr : Frond) (r : SbRange) : Frond :=
  (sbLines r).foldl (fun fr l => { fr with full := insertNat l fr.full, touched := insertNat l fr.touched }) fr

/-- Ranges marked in the owner's free entries: the state and the entries, or none when too few are free (R243, R245). In tag
mode nothing is marked. -/
def sbMark (s : State) (f : FrondId) (c : CtxId) (who : Owner) (rs : List SbRange) : Option (State × List Nat) :=
  let x := ctx s f c
  if !x.sbEn then some (s, [])
  else
    let free := sbFreeList x who
    if free.length < rs.length then none
    else
      let is := free.take rs.length
      let s1 := modCtx s f c fun x => { x with sb := (is.zip rs).foldl (fun sb p => vmodNat sb p.1 fun _ => some p.2) x.sb }
      some (modFrond s1 f fun fr => rs.foldl sbTouch fr, is)

/-- Touched bits of lines no outstanding range covers are cleared at a strobe (R249). -/
def touchedClear (fr : Frond) : Frond :=
  let held := fr.ctxs.toList.flatMap fun x => x.sb.toList.flatMap fun r => (r.map sbLines).getD []
  { fr with touched := fr.touched.filter held.contains }

/-- A slot lost to a conflict (R244). -/
def countStall (s : State) (f : FrondId) (c : CtxId) : State := modCtx s f c fun x => { x with sbStalls := satInc x.sbStalls }

/-! ### Accesses of the firmware (R215, R231) -/

/-- The memory in whose EXT slot a firmware access waits, and the context it is made for. -/
def FwAccess.mem : FwAccess → Mem
  | .write _ m _ _ => m
  | .copy _ _ _ _ => .w
  | .clear _ l => if l < 1280 then .a else .p
def FwAccess.ctx : FwAccess → Option CtxId
  | .write c _ _ _ | .copy c _ _ _ | .clear c _ => c

/-- A firmware access to a scratchpad begins to wait. -/
def fwPush (s : State) (f : FrondId) (x : FwAccess) : State := modFrond s f fun fr => { fr with fwPend := fr.fwPend ++ [x] }

/-- Accesses made for a context that still wait. -/
def fwWaits (fr : Frond) (c : CtxId) : Bool := fr.fwPend.any fun x => x.ctx == some c

/-- The oldest firmware access waits for a slot of this memory (R215). -/
def fwReady (fr : Frond) (m : Mem) : Bool := match fr.fwPend with | x :: _ => x.mem == m | [] => false

/-- DATA of an event of an unpowered region (R234, R432). -/
def padOff (s : State) (f : FrondId) (m : Mem) (w : Nat) : State := logEvent s (uFrond f) 0x06 0 (eccData m w false)

/-- The oldest firmware access is made: it is not checked against windows or regions (R225, R231); a word read that is uncorrectable comes as
it stands, and is logged (R236); a write to an unpowered region is discarded and logged (R234). -/
def fwServe (s : State) (f : FrondId) : State :=
  let pop := fun (s : State) => modFrond s f fun fr => { fr with fwPend := fr.fwPend.drop 1 }
  match (frond s f).fwPend with
  | .write _ m w ws :: _ =>
    if !padOn (frond s f) m w then pop (padOff s f m w)
    else pop ((upto ws.length).foldl (fun s i => match ws[i]? with
      | some (some x) => padStore s f m (w + i) [x]
      | _ => s) s)
  | .copy c src m w :: rest =>
    let s1 := if padOn (frond s f) .w src then (padCheck s f 0 .w src false).1 else padOff s f .w src
    let v := if padOn (frond s f) .w src then wordAt (padWords s1 f .w src 1) 0 else 0
    modFrond s1 f fun fr => { fr with fwPend := .write c m w [some v] :: rest }
  | .clear _ l :: _ => pop (modFrond s f fun fr => if fr.touched.contains l then fr else fr.setTag l false)
  | [] => s

end Sys2Proof.Machine
end

