-- ==== Sys2Proof/Machine/Flags.lean ====
section
/-!
DEFINITION. The flags of a context: ASTAT, the traps, the first-NaN record and the pivot registers (R85 to R91, R114 to R119).
-/
namespace Sys2Proof.Machine

/-! ### ASTAT and traps -/

def aSAT : BitVec 8 := 0x01
def aPIVB : BitVec 8 := 0x02
def aM8SAT : BitVec 8 := 0x04
def aTOF : BitVec 8 := 0x08
def aNV : BitVec 8 := 0x10
def aDZ : BitVec 8 := 0x20
def aOF : BitVec 8 := 0x40
def aIDZ : BitVec 8 := 0x80

/-- A flag where a condition holds. -/
def flagIf (b : Bool) (x : BitVec 8) : BitVec 8 := if b then x else 0

/-- What the hardware has set in this context in an FC. -/
def Ctx.freshAt (x : Ctx) (fc : Nat) : Fresh := if x.fresh.fc = fc then x.fresh else { fc := fc, bits := 0, fnr := none, piv := none }

/-- ASTAT bits are set; nothing here clears one, and a clear of the same FC leaves them (R91). -/
def Ctx.flag (x : Ctx) (fc : Nat) (bits : BitVec 8) : Ctx :=
  { x with astat := x.astat ||| bits, fresh := { x.freshAt fc with bits := (x.freshAt fc).bits ||| bits } }

/-- A write of 1s to ASTAT: the bits clear, but for those set in the same FC (R91). -/
def Ctx.clearAstat (x : Ctx) (fc : Nat) (v : BitVec 8) : Ctx := { x with astat := (x.astat &&& ~~~v) ||| (x.freshAt fc).bits }

/-- The trap an instruction delivers: NAN before NV, DZ, OF and IDZ, each only under its TRAPEN bit (R88, R89). -/
def trapOf (en : BitVec 5) (bits : BitVec 8) (nan : Bool) : Option FaultKind :=
  if nan && bit en 0 then some .nan
  else if bits &&& aNV != 0 && bit en 1 then some .nv
  else if bits &&& aDZ != 0 && bit en 2 then some .dz
  else if bits &&& aOF != 0 && bit en 3 then some .of
  else if bits &&& aIDZ != 0 && bit en 4 then some .idz
  else none

/-! ### The first-NaN record (R86) -/

/-- A NaN event of a tensor-mode instruction. -/
structure NanEv where
  kind : Nat
  row : Nat
  col : Nat
  step : Nat
deriving DecidableEq, Repr

/-- The record of an event (R90). -/
def fnrOf (x : Ctx) (e : NanEv) (opfmt : Nat) (ia : CodeAddr) : Fnr :=
  { valid := true, kind := BitVec.ofNat 2 e.kind, row := BitVec.ofNat 5 e.row, col := BitVec.ofNat 5 e.col
    step := BitVec.ofNat 5 e.step, opfmt := BitVec.ofNat 2 opfmt, layer := BitVec.ofNat 16 x.ctxid.toNat
    operator := BitVec.ofNat 16 (x.ctxid.toNat / 2 ^ 16), iaddr := ia }

/-- The first event of an instruction is captured unless a record is held (R86). -/
def Ctx.capture (x : Ctx) (fc : Nat) (evs : List NanEv) (opfmt : Nat) (ia : CodeAddr) : Ctx :=
  match evs with
  | [] => x
  | e :: _ =>
    let r := fnrOf x e opfmt ia
    { x with
      fnr := if x.fnr.valid then x.fnr else r
      fresh := { x.freshAt fc with fnr := some ((x.freshAt fc).fnr.getD r) } }

/-- A clear of FNR.VALID; a capture of the same FC stays, or takes its place (R86). -/
def Ctx.clearFnr (x : Ctx) (fc : Nat) : Ctx :=
  match (x.freshAt fc).fnr with
  | some r => { x with fnr := r }
  | none => { x with fnr := { x.fnr with valid := false } }

/-- The three words of FNR (R90). -/
def Fnr.word (r : Fnr) (i : Nat) : Word :=
  if i = 0 then BitVec.ofNat 32 (r.valid.toNat + at_ 1 r.kind.toNat + at_ 3 r.row.toNat + at_ 8 r.col.toNat +
    at_ 13 r.step.toNat + at_ 18 r.opfmt.toNat)
  else if i = 1 then BitVec.ofNat 32 (r.layer.toNat + at_ 16 r.operator.toNat)
  else if i = 2 then BitVec.ofNat 32 r.iaddr.toNat
  else 0

/-- A valid first-NaN record enters the Frond's event ring. R432 gives its words 1 and 2 no code: they follow word 0 under the same code (DESIGN
CHOICE, log entry 89). -/
def logFnr (s : State) (f : FrondId) (c : CtxId) (r : Fnr) : State :=
  if r.valid then [r.word 0, r.word 1, r.word 2].foldl (fun s w => logEvent s (uFrond f) 0x07 c.val w) s else s

/-! ### XEXP (R90, R92) -/

/-- A field of XEXP as an exponent. -/
def xfield (x : Ctx) : XField → Int
  | .ea => signed 8 (field x.xexp 7 0)
  | .eb => signed 8 (field x.xexp 15 8)
  | .eacc => signed 8 (field x.xexp 23 16)
  | .eout => signed 8 (field x.xexp 31 24)

/-! ### The pivot rule (R114, R115, R118) -/

/-- ε as mantissa and exponent: EPS_M × 2^(EPS_E − 23). -/
def epsM (x : Ctx) : Int := Int.ofNat (field x.piveps 22 0)
def epsE (x : Ctx) : Int := signed 8 (field x.piveps 31 24) - 23

/-- A 16-bit half of PIVCNT gains 1, up to 0xFFFF. -/
def halfInc (w : Word) (hi lo : Nat) : Word := setField w hi lo (min (field w hi lo + 1) 0xFFFF)

/-- PIVREC word 0 of a replacement. -/
def pivRec0 (zero neg : Bool) (ordinal : Nat) : Word := BitVec.ofNat 32 (1 + at_ 1 zero.toNat + at_ 2 neg.toNat + at_ 16 ordinal)

/-- A replacement enters PIVCNT, and PIVREC unless that holds one (R114). -/
def Ctx.replaced (x : Ctx) (fc : Nat) (a : Int) (ia : CodeAddr) : Ctx :=
  let r : Word × Word := (pivRec0 (a == 0) (decide (a < 0)) (field x.pivcnt 31 16), BitVec.ofNat 32 ia.toNat)
  let held := bit x.pivrec0 0
  { x with
    pivcnt := halfInc x.pivcnt 15 0, pivrec0 := if held then x.pivrec0 else r.1, pivrec1 := if held then x.pivrec1 else r.2
    fresh := { x.freshAt fc with piv := some ((x.freshAt fc).piv.getD r) } }

/-- A clear of PIVREC.VALID; a capture of the same FC stays, or takes its place (R119). -/
def Ctx.clearPiv (x : Ctx) (fc : Nat) : Ctx :=
  match (x.freshAt fc).piv with
  | some r => { x with pivrec0 := r.1, pivrec1 := r.2 }
  | none => { x with pivrec0 := setBit x.pivrec0 0 false }

/-- ±ε at the accumulator's exponent, as the register pair of a replaced pivot holds it: to nearest, ties to even, and saturated, where it is
no multiple of the accumulator's unit or lies outside its range (R113, R114; log entry 28). -/
def epsAcc (x : Ctx) (neg : Bool) : Int :=
  clampInt (-(2 ^ 63)) (2 ^ 63 - 1) (nearestAt (if neg then -(epsM x) else epsM x) (epsE x) (63 - xfield x .eacc))

/-- The pivot rule replaces a pivot of `a` × 2^(EACC − 63) (R114). -/
def pivotSmall (x : Ctx) (a : Int) : Bool := !ltNum (.fin (epsM x) (epsE x)) (absNum (.fin a (xfield x .eacc - 63)))

/-- XRCP: the mantissa at exponent ER and the context's registers (R114). The pivot is `a` × 2^(EACC − 63). -/
def xrcpRun (x : Ctx) (fc : Nat) (a : Int) (ia : CodeAddr) : Word × BitVec 8 × Ctx :=
  let e : Int := xfield x .eacc - 63
  let small := pivotSmall x a
  let d : Int × Int := if small then (if a < 0 then -(epsM x) else epsM x, epsE x) else (a, e)
  let x1 := if small then x.replaced fc a ia else x
  let x2 := { x1 with pivcnt := halfInc x1.pivcnt 31 16 }
  let k : Int := 23 - x.pivrcp.toInt - d.2
  let m : Int := if 0 ≤ k then Int.tdiv (2 ^ k.toNat) d.1 else Int.tdiv 1 (d.1 * 2 ^ (-k).toNat)
  let (m', sat) := satX24 m
  (x24Word m', flagIf small aPIVB ||| flagIf sat aSAT, x2)

end Sys2Proof.Machine
end

