-- ==== Sys2Proof/Machine/Crumb.lean ====
section
/-!
DEFINITION. The Crumb: how an instruction issues, is held or traps (R20, R88, R221, R484), and its scalar units (R100 to R106,
R113).
-/
namespace Sys2Proof.Machine

/-! ### Issue -/

/-- What became of an instruction that was put forward: it took effect; it is held and has not begun; it trapped. -/
inductive Issued where
  | done (s : State)
  | held (s : State)
  | trap (k : FaultKind) (s : State)

/-- The context that executes on a Frond. -/
def runningCtx (s : State) (f : FrondId) : Option CtxId :=
  match (frond s f).cur with
  | some c => if (ctx s f c).st == .running then some c else none
  | none => none

/-- A register does not hold its result yet: a latency runs, or a load, multiply or divide is to write it (R484). -/
def regBusy (s : State) (f : FrondId) (x : Ctx) (r : Reg) : Bool :=
  let fr := frond s f
  fr.regReady.any (fun p => p.1 == r.val && decide (s.now < p.2)) ||
    (match x.load with | some l => l.rd == some r | none => false) ||
    fr.flight.any (fun p => match p.2 with | .load d rd _ => fr.cur == some d && rd == some r | _ => false) ||
    (match fr.mul with | some u => u.outs.any (·.1 == r) | none => false) ||
    (match fr.div with | some u => u.outs.any (·.1 == r) | none => false)

/-- A trap is on its way from a unit: nothing later may have an effect (R88). -/
def trapPending (fr : Frond) : Bool :=
  (match fr.mul with | some u => u.trap.isSome | none => false) || (match fr.div with | some u => u.trap.isSome | none => false)

/-- The boundary before the next instruction is one at which the context is to stop (R288, R289, R297). -/
def stopsHere (x : Ctx) : Bool := x.stopReq || x.preemptNow || ((x.preq || x.areq) && x.atCheap.isSome)

/-- The context may issue its next instruction, the one at `ia` (R193, R484). -/
def mayIssue (s : State) (k : Issue) (c : CtxId) : Bool :=
  let fr := frond s k.f
  let x := fr.ctxs.get c
  operating s && groupActive s k.f && x.fault.isNone && !x.completed && !stopsHere x && !x.divert && !actionPending s k.f c && !trapPending fr && x.pc == k.ia &&
    decide (fr.issueAt ≤ s.now) && x.slotWait.isNone && !(match x.load with | some l => l.amo | none => false)

/-- The fetch of an instruction's first word meets an uncorrectable one (R236). The manual gives no instruction sizes: the model checks the
word at the instruction's address (DESIGN CHOICE, log entry 6). -/
def fetchBad (s : State) (f : FrondId) (ia : CodeAddr) : Bool := markAt s (padAddr f .w (ia.toNat / 4)) == some .uncorrectable

/-- The check of that word of `s`, in the state `s1` that the instruction leaves. -/
def fetchCheck (s : State) (f : FrondId) (c : CtxId) (ia : CodeAddr) (s1 : State) : State :=
  if (markAt s (padAddr f .w (ia.toNat / 4))).isSome then (padCheck s1 f c.val .w (ia.toNat / 4) false).1 else s1

/-- Instruction fetch inside the code region and a powered region (R20, R234). -/
def fetchOk (fr : Frond) (ia : CodeAddr) : Bool :=
  decide (fr.code.toNat ≤ ia.toNat) && decide (ia.toNat < fr.code.toNat + fr.codelen.toNat) && padOn fr .w (ia.toNat / 4)

/-- A result is usable `n` FC after issue (R484). -/
def setReady (s : State) (f : FrondId) (r : Reg) (n : Nat) : State :=
  modFrond s f fun fr => { fr with
    regReady := (r.val, s.now + n * tFC s) :: fr.regReady.filter fun p => p.1 != r.val && decide (s.now < p.2) }

/-- A register written. -/
def setReg (s : State) (f : FrondId) (c : CtxId) (r : Reg) (v : Word) : State := modCtx s f c fun x => { x with g := vset x.g r v }

/-- A register taken by a later instruction of the context: what an earlier one is still to write there is dropped, so that the
values stand in program order (log entry 28). -/
def claim (s : State) (f : FrondId) (c : CtxId) (r : Reg) : State :=
  let free := fun (u : UnitOp) => if u.ctx = c then { u with outs := u.outs.filter (·.1 != r) } else u
  let keep := fun (d : CtxId) (rd : Option Reg) => if d = c ∧ rd = some r then none else rd
  modFrond s f fun fr => { fr with
    mul := fr.mul.map free, div := fr.div.map free
    flight := fr.flight.map fun p => match p.2 with | .load d rd x => (p.1, .load d (keep d rd) x) | _ => p
    ctxs := vmod fr.ctxs c fun x => { x with load := x.load.map fun l => { l with rd := keep c l.rd } } }

/-- A register written by an instruction whose result is usable `n` FC after issue. -/
def setResult' (s : State) (f : FrondId) (c : CtxId) (r : Reg) (v : Word) (n : Nat) : State :=
  setReady (setReg (claim s f c r) f c r v) f r n

/-- One issue slot of an FC is used. -/
def useFc (s : State) (f : FrondId) : State := modFrond s f fun fr => { fr with issueAt := s.now + tFC s }

/-- The program counter goes on; the boundary behind the last instruction of the program is a cheap point with every live bit
set (R289). A context that yielded may be ranked again once another has executed an instruction (R286). -/
def advance (s : State) (k : Issue) (c : CtxId) : State :=
  modFrond s k.f fun fr => { fr with ctxs := Vector.ofFn fun (d : Fin 4) =>
    let x := fr.ctxs.get d
    if d = c then { x with
      pc := k.nx, cresetAt := 0, completed := x.completed || k.last, atCheap := if k.last then some 0x3F else x.atCheap }
    else { x with yielded := false } }

/-- An instruction is put forward: nothing happens unless its turn has come; a fetch outside the code region faults; a word fetched
uncorrectable faults (R236); otherwise the instruction runs, is held, or traps (R20, R88, R484). `regs` are its source registers. -/
def issue (k : Issue) (regs : List Reg) (s : State) (body : CtxId → State → Issued) : State :=
  match runningCtx s k.f with
  | none => s
  | some c =>
    let x := ctx s k.f c
    if !mayIssue s k c || regs.any (regBusy s k.f x) then s
    else if !fetchOk (frond s k.f) k.ia then raiseFault s k.f c .window
    else if fetchBad s k.f k.ia then raiseFault (fetchCheck s k.f c k.ia s) k.f c .ecc
    else
      match body c (modCtx s k.f c fun x => { x with atCheap := none }) with
      | .done s1 => useFc (advance (unblockCtx (fetchCheck s k.f c k.ia s1) k.f c) k c) k.f
      | .held s1 => useFc (modCtx s1 k.f c fun y => { y with atCheap := x.atCheap }) k.f
      | .trap t s1 => useFc (raiseFault (unblockCtx (fetchCheck s k.f c k.ia s1) k.f c) k.f c t) k.f

/-- A Crumb instruction as a command. -/
def crumb (k : Issue) (regs : List Reg) (s : State) (body : CtxId → State → Issued) : Host.Outcome State Fault Refusal :=
  live k.t s fun s => issue k regs s body

/-- An instruction that only changes its own context. -/
def onCtx (k : Issue) (g : Ctx → Ctx) : CtxId → State → Issued := fun c s => .done (modCtx s k.f c g)

def regVal (s : State) (f : FrondId) (c : CtxId) (r : Reg) : Word := (ctx s f c).g.get r

/-! ### Integer operations (R484; the list is the model's, log entry 7) -/

def aluRun (op : AluOp) (a b : Word) : Word :=
  match op with
  | .add => a + b
  | .sub => a - b
  | .and => a &&& b
  | .or => a ||| b
  | .xor => a ^^^ b
  | .shl => a <<< (b.toNat % 32)
  | .shr => a >>> (b.toNat % 32)
  | .sar => a.sshiftRight (b.toNat % 32)
  | .slt => if a.toInt < b.toInt then 1 else 0
  | .sltu => if a.toNat < b.toNat then 1 else 0
  | .mov => a

def srcRegs : Src → List Reg
  | .reg r => [r]
  | .imm _ => []
def srcVal (s : State) (f : FrondId) (c : CtxId) : Src → Word
  | .reg r => regVal s f c r
  | .imm x => x

/-- INTEGER_ALU_OP (R484). -/
def execIntegerAluOp (k : Issue) (op : AluOp) (rd : Reg) (a b : Src) (s : State) : Host.Outcome State Fault Refusal :=
  crumb k (srcRegs a ++ srcRegs b) s fun c s => .done (setResult' s k.f c rd (aluRun op (srcVal s k.f c a) (srcVal s k.f c b)) 1)

/-! ### Scalar floating point (R103) -/

/-- A floating-point operation: its flags are set, and an enabled trap keeps the destination as it was (R88). -/
def fpDone (k : Issue) (rd : Reg) (n : Nat) (v : Word) (bits : BitVec 8) : CtxId → State → Issued := fun c s =>
  let fc := fcNow s
  let s1 := modCtx s k.f c fun x => x.flag fc bits
  match trapOf (ctx s k.f c).trapen bits false with
  | some t => .trap t s1
  | none => .done (setResult' s1 k.f c rd v n)

/-- The result of an exact value in A32, OF on overflow of finite operands (R103). -/
def a32Out (y : Num) : Word × BitVec 8 :=
  let p := encodeNum .a32 false y
  (p.bits, flagIf p.ovf aOF)

def a32In (w : Word) : Num := decodeNum .a32 w

/-- A sum or product: NaN with NV when non-NaN operands give none (R103). -/
def fpResult (u v y : Num) : Word × BitVec 8 :=
  if y.isNan then (0x7FC00000, flagIf (!u.isNan && !v.isNan) aNV) else a32Out y

def faddRun (a b : Word) : Word × BitVec 8 := fpResult (a32In a) (a32In b) (addNum (a32In a) (a32In b))
def fsubRun (a b : Word) : Word × BitVec 8 := fpResult (a32In a) (a32In b) (addNum (a32In a) (negNum (a32In b)))
def fmulRun (a b : Word) : Word × BitVec 8 := fpResult (a32In a) (a32In b) (mulNum (a32In a) (a32In b))

/-- FMIN and FMAX: the canonical NaN for a NaN operand; otherwise an operand (R103). -/
def fminRun (a b : Word) : Word :=
  let u := a32In a
  let v := a32In b
  if u.isNan || v.isNan then 0x7FC00000 else (a32Out (if ltNum v u then v else u)).1
def fmaxRun (a b : Word) : Word :=
  let u := a32In a
  let v := a32In b
  if u.isNan || v.isNan then 0x7FC00000 else (a32Out (if ltNum u v then v else u)).1

/-- FCMP writes 1 where the relation holds, 0 where it does not; with a NaN operand the manual states no result, and the word
is a free one (log entry 8). -/
def fcmpRun (rel : FRel) (a b : Word) (open_ : Word) : Word :=
  let u := a32In a
  let v := a32In b
  if u.isNan || v.isNan then open_
  else
    let r := match rel with
      | .lt => ltNum u v
      | .le => !ltNum v u
      | .eq => !ltNum u v && !ltNum v u
    if r then 1 else 0

/-- FCVT: to int32, rounded to nearest and saturated with NV, NaN to 0 with NV; to A32 (R103). -/
def fcvtRun (d : FcvtDir) (a : Word) : Word × BitVec 8 :=
  match d with
  | .toFloat => a32Out (.fin a.toInt 0)
  | .toInt =>
    match a32In a with
    | .nan => (0, aNV)
    | .inf n => (if n then 0x80000000 else 0x7FFFFFFF, aNV)
    | .fin m e =>
      let v := nearestAt m e 0
      if v < -(2 ^ 31) then (0x80000000, aNV) else if v > 2 ^ 31 - 1 then (0x7FFFFFFF, aNV) else (BitVec.ofInt 32 v, 0)

/-- FADD (R103). -/
def execFadd (k : Issue) (rd ra rb : Reg) (s : State) : Host.Outcome State Fault Refusal :=
  crumb k [ra, rb] s fun c s =>
    let r := faddRun (regVal s k.f c ra) (regVal s k.f c rb)
    fpDone k rd 3 r.1 r.2 c s

/-- FSUB (R103). -/
def execFsub (k : Issue) (rd ra rb : Reg) (s : State) : Host.Outcome State Fault Refusal :=
  crumb k [ra, rb] s fun c s =>
    let r := fsubRun (regVal s k.f c ra) (regVal s k.f c rb)
    fpDone k rd 3 r.1 r.2 c s

/-- FMUL (R103). -/
def execFmul (k : Issue) (rd ra rb : Reg) (s : State) : Host.Outcome State Fault Refusal :=
  crumb k [ra, rb] s fun c s =>
    let r := fmulRun (regVal s k.f c ra) (regVal s k.f c rb)
    fpDone k rd 3 r.1 r.2 c s

/-- FMIN (R103). -/
def execFmin (k : Issue) (rd ra rb : Reg) (s : State) : Host.Outcome State Fault Refusal :=
  crumb k [ra, rb] s fun c s => .done (setResult' s k.f c rd (fminRun (regVal s k.f c ra) (regVal s k.f c rb)) 1)

/-- FMAX (R103). -/
def execFmax (k : Issue) (rd ra rb : Reg) (s : State) : Host.Outcome State Fault Refusal :=
  crumb k [ra, rb] s fun c s => .done (setResult' s k.f c rd (fmaxRun (regVal s k.f c ra) (regVal s k.f c rb)) 1)

/-- FCMP (R103). -/
def execFcmp (k : Issue) (rel : FRel) (rd ra rb : Reg) (s : State) : Host.Outcome State Fault Refusal :=
  crumb k [ra, rb] s fun c s =>
    let a := regVal s k.f c ra
    let b := regVal s k.f c rb
    let (w, s1) := drawWord s [a, b]
    .done (setResult' s1 k.f c rd (fcmpRun rel a b w) 1)

/-- FCVT (R103). -/
def execFcvt (k : Issue) (dir : FcvtDir) (rd ra : Reg) (s : State) : Host.Outcome State Fault Refusal :=
  crumb k [ra] s fun c s =>
    let r := fcvtRun dir (regVal s k.f c ra)
    fpDone k rd 2 r.1 r.2 c s

/-! ### The multiplier (R100 to R102) -/

/-- FC of a multiply by its multiplier: k + 1, where k is the first count at which the rest of the multiplier says nothing
more (R100). -/
def mulFc (signed_ : Bool) (b : Word) : Nat :=
  let ends := fun (k : Nat) =>
    if signed_ then decide (-(2 ^ (8 * k - 1)) ≤ b.toInt) && decide (b.toInt < 2 ^ (8 * k - 1)) else decide (b.toNat < 2 ^ (8 * k))
  if ends 1 then 2 else if ends 2 then 3 else if ends 3 then 4 else 5

def mulRun (a b : Word) : Word := a * b
def mulhRun (a b : Word) : Word := BitVec.ofInt 32 (Int.fdiv (a.toInt * b.toInt) (2 ^ 32))
def mulhuRun (a b : Word) : Word := BitVec.ofNat 32 (a.toNat * b.toNat / 2 ^ 32)

/-- A multiply enters the free unit (R102); MULFIX fixes its time (R101). -/
def mulStart (k : Issue) (rd : Reg) (v : Word) (n : Nat) : CtxId → State → Issued := fun c s =>
  if (frond s k.f).mul.isSome then .held s
  else
    let n := if (ctx s k.f c).mulfix then 5 else n
    .done (modFrond (claim s k.f c rd) k.f fun fr => { fr with
      mul := some { ctx := c, outs := [(rd, v)], astat := 0, trap := none, ready := s.now + n * tFC s } })

/-- MUL (R100). -/
def execMul (k : Issue) (rd ra rb : Reg) (s : State) : Host.Outcome State Fault Refusal :=
  crumb k [ra, rb] s fun c s =>
    let b := regVal s k.f c rb
    mulStart k rd (mulRun (regVal s k.f c ra) b) (mulFc true b) c s

/-- MULH (R100). -/
def execMulh (k : Issue) (rd ra rb : Reg) (s : State) : Host.Outcome State Fault Refusal :=
  crumb k [ra, rb] s fun c s =>
    let b := regVal s k.f c rb
    mulStart k rd (mulhRun (regVal s k.f c ra) b) (mulFc true b) c s

/-- MULHU (R100). -/
def execMulhu (k : Issue) (rd ra rb : Reg) (s : State) : Host.Outcome State Fault Refusal :=
  crumb k [ra, rb] s fun c s =>
    let b := regVal s k.f c rb
    mulStart k rd (mulhuRun (regVal s k.f c ra) b) (mulFc false b) c s

/-- A unit's operation ends: its flags, and its results unless it traps (R88, R104). -/
def unitDone (s : State) (f : FrondId) (u : UnitOp) : State :=
  let fc := fcNow s
  let s1 := modCtx s f u.ctx fun x => x.flag fc u.astat
  match u.trap with
  | some t => raiseFault s1 f u.ctx t
  | none => u.outs.foldl (fun s o => setReg s f u.ctx o.1 o.2) s1

/-- MULTIPLY_COMPLETE (R100). -/
def execMultiplyComplete (t : Time) (f : FrondId) (s : State) : Host.Outcome State Fault Refusal :=
  live t s fun s =>
    match (frond s f).mul with
    | some u => when_ (decide (u.ready ≤ s.now) && operating s) s fun s => modFrond (unitDone s f u) f fun fr => { fr with mul := none }
    | none => s

/-! ### The divider and square-root unit (R104 to R106, R113, R114) -/

/-- An operation enters the divider (R102, R104). Its flags reach ASTAT with its results; the rules do not say when in its FC an XRCP sets
PIVB and SAT: the model sets them at DIVIDER_COMPLETE, though it changes PIVCNT and PIVREC at issue (DESIGN CHOICE, log entry 101). -/
def divStart (k : Issue) (n : Nat) (outs : List (Reg × Word)) (bits : BitVec 8) : CtxId → State → Issued := fun c s =>
  let trap := trapOf (ctx s k.f c).trapen bits false
  let s1 := if trap.isSome then s else outs.foldl (fun s o => claim s k.f c o.1) s
  .done (modFrond s1 k.f fun fr => { fr with
    div := some { ctx := c, outs := outs, astat := bits, trap := trap, ready := s.now + n * tFC s } })

/-- The divider is free, else the instruction waits (R102). -/
def divider (k : Issue) (s : State) (go : State → Issued) : Issued := if (frond s k.f).div.isSome then .held s else go s

/-- FDIV by the table of R105: the sign of an infinite result of a division by zero or of an infinity is the dividend's. -/
def fdivRun (a b : Word) : Word × BitVec 8 :=
  match a32In a, a32In b with
  | .nan, _ => (0x7FC00000, 0)
  | _, .nan => (0x7FC00000, 0)
  | .inf _, .inf _ => (0x7FC00000, aNV)
  | .inf n, .fin _ _ => (BitVec.ofNat 32 (infBits .a32 n), 0)
  | .fin _ _, .inf _ => (0, 0)
  | .fin m e, .fin n d =>
    if n = 0 then (if m = 0 then (0x7FC00000, aNV) else (BitVec.ofNat 32 (infBits .a32 (decide (m < 0))), aDZ))
    else if m = 0 then (0, 0)
    else a32Out (divFin m e n d)

/-- FSQRT by the table of R105. -/
def fsqrtRun (a : Word) : Word × BitVec 8 :=
  match a32In a with
  | .nan => (0x7FC00000, 0)
  | .inf n => if n then (0x7FC00000, aNV) else (0x7F800000, 0)
  | .fin m e => if m < 0 then (0x7FC00000, aNV) else if m = 0 then (0, 0) else a32Out (sqrtFin m e)

/-- Signed division (R106): quotient, remainder, flag. -/
def divRun (a b : Word) : Word × Word × BitVec 8 :=
  if b = 0 then (if a.toInt < 0 then 0x80000000 else 0x7FFFFFFF, a, aIDZ)
  else (BitVec.ofInt 32 (Int.tdiv a.toInt b.toInt), BitVec.ofInt 32 (Int.tmod a.toInt b.toInt), 0)

/-- Unsigned division (R106). -/
def divuRun (a b : Word) : Word × Word × BitVec 8 :=
  if b = 0 then (0xFFFFFFFF, a, aIDZ) else (BitVec.ofNat 32 (a.toNat / b.toNat), BitVec.ofNat 32 (a.toNat % b.toNat), 0)

/-- round(x / √n2 × 2^22), exactly: floor of the square root of x² × 2^44 / n2, then the nearer neighbour, ties to even. -/
def ratioRoot (x : Int) (n2 : Nat) : Int :=
  let y := x.natAbs * x.natAbs * 2 ^ 44
  let q := isqrt (y / n2)
  let up := decide ((2 * q + 1) * (2 * q + 1) * n2 < 4 * y) || (decide ((2 * q + 1) * (2 * q + 1) * n2 = 4 * y) && q % 2 == 1)
  let r := if up then q + 1 else q
  if x < 0 then -(Int.ofNat r) else Int.ofNat r

/-- XGIV (R113): c, s and r, each rounded once from the exact value. -/
def xgivRun (a b : Word) : Word × Word × Word :=
  let x := x24 a
  let y := x24 b
  let n2 := x.natAbs * x.natAbs + y.natAbs * y.natAbs
  if n2 = 0 then (0x400000, 0, 0)
  else
    -- r × 2^(EB + 1 − 23) = √n2 × 2^(EB − 23): r is √n2 / 2, the nearest integer, ties to even.
    let q := isqrt (n2 / 4)
    let up := decide ((2 * q + 1) * (2 * q + 1) < n2) || (decide ((2 * q + 1) * (2 * q + 1) = n2) && q % 2 == 1)
    (x24Word (ratioRoot x n2), x24Word (ratioRoot y n2), x24Word (Int.ofNat (if up then q + 1 else q)))

/-- FDIV (R104, R105). -/
def execFdiv (k : Issue) (rd ra rb : Reg) (s : State) : Host.Outcome State Fault Refusal :=
  crumb k [ra, rb] s fun c s => divider k s fun s =>
    let r := fdivRun (regVal s k.f c ra) (regVal s k.f c rb)
    divStart k 12 [(rd, r.1)] r.2 c s

/-- FSQRT (R104, R105). -/
def execFsqrt (k : Issue) (rd ra : Reg) (s : State) : Host.Outcome State Fault Refusal :=
  crumb k [ra] s fun c s => divider k s fun s =>
    let r := fsqrtRun (regVal s k.f c ra)
    divStart k 14 [(rd, r.1)] r.2 c s

/-- DIV (R104, R106). -/
def execDiv (k : Issue) (rd ra rb : Reg) (s : State) : Host.Outcome State Fault Refusal :=
  crumb k [ra, rb] s fun c s => divider k s fun s =>
    let r := divRun (regVal s k.f c ra) (regVal s k.f c rb)
    divStart k 19 [(rd, r.1)] r.2.2 c s

/-- DIVU (R104, R106). -/
def execDivu (k : Issue) (rd ra rb : Reg) (s : State) : Host.Outcome State Fault Refusal :=
  crumb k [ra, rb] s fun c s => divider k s fun s =>
    let r := divuRun (regVal s k.f c ra) (regVal s k.f c rb)
    divStart k 19 [(rd, r.1)] r.2.2 c s

/-- REM (R104, R106). -/
def execRem (k : Issue) (rd ra rb : Reg) (s : State) : Host.Outcome State Fault Refusal :=
  crumb k [ra, rb] s fun c s => divider k s fun s =>
    let r := divRun (regVal s k.f c ra) (regVal s k.f c rb)
    divStart k 19 [(rd, r.2.1)] r.2.2 c s

/-- REMU (R104, R106). -/
def execRemu (k : Issue) (rd ra rb : Reg) (s : State) : Host.Outcome State Fault Refusal :=
  crumb k [ra, rb] s fun c s => divider k s fun s =>
    let r := divuRun (regVal s k.f c ra) (regVal s k.f c rb)
    divStart k 19 [(rd, r.2.1)] r.2.2 c s

/-- What XRCP writes: a replaced pivot into its register pair, then the reciprocal (R114). -/
def xrcpOuts (x : Ctx) (a : Int) (rd rlo rhi : Reg) (m : Word) : List (Reg × Word) :=
  if pivotSmall x a then
    let d := acc64Words (epsAcc x (decide (a < 0)))
    [(rlo, wordAt d 0), (rhi, wordAt d 1), (rd, m)]
  else [(rd, m)]

/-- XRCP: the pivot stands in a register pair, low word first, which a replaced pivot replaces (R113, R114). -/
def execXrcp (k : Issue) (rd rlo rhi : Reg) (s : State) : Host.Outcome State Fault Refusal :=
  crumb k [rlo, rhi] s fun c s => divider k s fun s =>
    let a := acc64 (regVal s k.f c rlo) (regVal s k.f c rhi)
    let r := xrcpRun (ctx s k.f c) (fcNow s) a k.ia
    divStart k 12 (xrcpOuts (ctx s k.f c) a rd rlo rhi r.1) r.2.1 c (modCtx s k.f c fun _ => r.2.2)

/-- XGIV (R113). -/
def execXgiv (k : Issue) (rc rs rr ra rb : Reg) (s : State) : Host.Outcome State Fault Refusal :=
  crumb k [ra, rb] s fun c s => divider k s fun s =>
    let r := xgivRun (regVal s k.f c ra) (regVal s k.f c rb)
    divStart k 16 [(rc, r.1), (rs, r.2.1), (rr, r.2.2)] 0 c s

/-- DIVIDER_COMPLETE (R104). -/
def execDividerComplete (t : Time) (f : FrondId) (s : State) : Host.Outcome State Fault Refusal :=
  live t s fun s =>
    match (frond s f).div with
    | some u => when_ (decide (u.ready ≤ s.now) && operating s) s fun s => modFrond (unitDone s f u) f fun fr => { fr with div := none }
    | none => s

/-! ### Markers that change only the context (R85, R108, R289) -/

/-- RMAXCLR (R85). -/
def execRmaxclr (k : Issue) (s : State) : Host.Outcome State Fault Refusal :=
  crumb k [] s (onCtx k fun x => { x with rmax := Vector.replicate 32 0 })

/-- A record of a Frond engine whose INFO is an opcode class; the manual assigns no classes, so it is a free byte (R428). -/
def traceOp (s : State) (f : FrondId) (c : CtxId) (engine kind : Nat) : State :=
  let (w, s1) := drawWord s [BitVec.ofNat 32 engine, BitVec.ofNat 32 kind]
  traceFrond s1 f c engine kind (w.toNat % 256)

/-- The END record of an operation of known length that writes when it issues; it carries the stamp of its end (R427, R428). -/
def traceEnd (d : Time) (s : State) (f : FrondId) (c : CtxId) (engine : Nat) : State :=
  { traceOp { s with now := s.now + d } f c engine 2 with now := s.now }

/-- FBEG: one bracket deeper, at most 15 (R108). -/
def execFbeg (k : Issue) (s : State) : Host.Outcome State Fault Refusal :=
  crumb k [] s fun c s =>
    .done (traceOp (modCtx s k.f c fun x => { x with fdepth := BitVec.ofNat 4 (min 15 (x.fdepth.toNat + 1)) }) k.f c 0 1)

/-- CHEAP: the boundary behind it is a cheap point with this live mask (R289). -/
def execCheap (k : Issue) (imm : Word) (s : State) : Host.Outcome State Fault Refusal :=
  crumb k [] s (onCtx k fun x => { x with atCheap := some (BitVec.ofNat 6 imm.toNat) })

end Sys2Proof.Machine
end

