-- ==== Sys2Proof/Machine/Array.lean ====
section
/-!
DEFINITION. The array: tile loads, MMA, CVT and the vector instructions of predictive control, with the marks that end an
iterate or a program (R71 to R99, R163, R172, R194, R217, R221, R224, R243).
-/
namespace Sys2Proof.Machine

/-! ### Vectors in memory -/

/-- Words of one 32-element vector of an operand format; X24 in solver mode (R74, R77). -/
def vecWords (solver : Bool) (fmt : BitVec 2) : Nat := if solver then 32 else if fmt = 0 then 8 else if fmt = 1 then 16 else 32

/-- The packing of an operand format (R77). -/
def packOf (solver : Bool) (fmt : BitVec 2) : Fmt := if solver then .a32 else if fmt = 0 then .m8 else if fmt = 1 then .m16 else .a32

/-- Words of the accumulators of one vector step (R77, R92). -/
def accWords (solver : Bool) : Nat := if solver then 64 else 32

/-- COUNT as executed: 0 is 1, above 32 is 32 (R9, R71). -/
def countOf (c : BitVec 6) : Nat := clampNat 1 32 c.toNat

/-- A span of words an array instruction reads or writes, with its tag kind. -/
structure Span where
  m : Mem
  w : Nat
  n : Nat
  tag : TagKind
deriving DecidableEq, Repr

/-- Lines a span touches. -/
def spanLines (p : Span) : List Nat := if p.n = 0 then [] else (upto ((p.w + p.n - 1) / 32 + 1 - p.w / 32)).map (p.w / 32 + ·)

/-- The lines of a span whose tag blocks its access (R221). -/
def spanBlocked (fr : Frond) (p : Span) : List (Span × Nat) :=
  ((spanLines p).filter fun l => (tagAccess fr p.m (32 * l) p.tag).isNone).map fun l => (p, l)

/-- The tags of a span after its access. -/
def spanTags (fr : Frond) (p : Span) : Frond := (spanLines p).foldl (fun fr l => (tagAccess fr p.m (32 * l) p.tag).getD fr) fr

/-- Two spans share a word. -/
def spansMeet (a b : Span) : Bool := a.m == b.m && decide (a.w < b.w + b.n) && decide (b.w < a.w + a.n)

/-- Where the results of an array instruction in flight will land. -/
def mmaSpan (a : MmaArgs) : Span := ⟨.p, a.dst.toNat, countOf a.count * accWords a.solver, writeKind a.dstTag⟩

/-- Lines taken from, or appended to, a circular region. -/
structure CircUse where
  i : Fin 8
  lines : Nat
deriving DecidableEq, Repr

/-- The moment the array takes an instruction of a mode: when it is free, and 4 FC later where the instruction before it ran
in the other mode (R72). -/
def arrayFrom (s : State) (f : FrondId) (solver : Bool) : Time :=
  (frond s f).arrFree + if (frond s f).arrMode = some (!solver) then 4 * tFC s else 0

/-- The range entries of an instruction that writes when it issues stay until its end, `n` FC later (R243). -/
def holdRanges (s : State) (f : FrondId) (c : CtxId) (mark : List Nat) (n : Nat) : State :=
  if mark.isEmpty then s
  else
    let at_ := s.now + n * tFC s
    modFrond s f fun fr => { fr with arrHold := fr.arrHold.filter (fun h => decide (s.now < h.at_)) ++ [⟨c, mark, at_⟩] }

/-- The array computes for `n` FC in a mode (R71, R72). -/
def arrayBusy (s : State) (f : FrondId) (solver : Bool) (n : Nat) : State :=
  modFrond s f fun fr => { fr with arrFree := s.now + n * tFC s, arrMode := some solver }

/-- Lines that array instructions in flight will append to a region. -/
def willAppend (fr : Frond) (i : Fin 8) : Nat :=
  ((fr.mma.filter fun o => o.args.dstCirc == some i).map fun o => o.out.flatten.length / 32).sum

/-- A span as the scoreboard sees it. -/
def Span.touch (wr : Bool) (p : Span) : Mem × Nat × Nat × Bool := (p.m, p.w, p.w + p.n - 1, wr)

/-- An operand of an instruction that the window check stops is uncorrectable: of its words that exist and are powered, and of the lines it
would take (R89). -/
def operandsBad (s : State) (f : FrondId) (sub : Nat) (reads : List Span) (take : List CircUse) : State × Bool :=
  let fr := frond s f
  let words : List (Mem × Nat) := (reads.flatMap fun p => (upto p.n).map fun i => (p.m, p.w + i)) ++
    take.flatMap fun u => let r := fr.circ.get u.i
      (upto u.lines).flatMap fun k => (upto 32).map fun i => (r.mem', r.wordAt (r.head.toNat + k) + i)
  (words.filter fun p => padOn fr p.1 p.2).foldl (fun r p =>
    let x := padCheck r.1 f sub p.1 p.2 false
    (x.1, r.2 || x.2)) (s, false)

/-- The issue of an array instruction: window faults, the array free, no result in flight that it needs, no scoreboard conflict, tags and region
counts with the lines that instructions in flight will append, free range entries (R89, R221, R224, R225, R234, R244, R245). `go` gets the
entries marked. The lines of the instruction before it have all been read in their slots. -/
def arrayIssue (k : Issue) (c : CtxId) (solver : Bool) (s : State) (reads writes : List Span) (take append : List CircUse)
    (go : State → List Nat → Issued) : Issued :=
  let fr := frond s k.f
  let x := fr.ctxs.get c
  let bad := fun (p : Span) => !padsOn fr p.m p.w p.n
  let wild := fun (p : Span) => (spanLines p).any fun l => inRegion fr p.m (32 * l)
  let meets := fun (p : Span) => fr.mma.any fun o => o.args.dstCirc.isNone && spansMeet p (mmaSpan o.args)
  let clash := fun (wr : Bool) (p : Span) => sbConflict x .array p.m p.w (p.w + p.n - 1) wr
  if reads.any bad || writes.any bad || writes.any wild || take.any (fun u => !circAllowed fr c .array u.i false) ||
      append.any (fun u => !circAllowed fr c .array u.i true) ||
      take.any (fun u => !circOn fr u.i (fr.circ.get u.i).head.toNat u.lines) ||
      append.any (fun u => !circOn fr u.i ((fr.circ.get u.i).tail.toNat + willAppend fr u.i) u.lines) then
    let (s1, bad) := operandsBad s k.f c.val reads take
    if bad then .trap .ecc s1 else .trap .window s
  else if s.now < arrayFrom s k.f solver || (reads ++ writes).any meets || !fr.arrLines.isEmpty then .held s
  else match (reads.filter (clash false) ++ writes.filter (clash true)).head? with
  | some p => .held (countLost (blockCtx s k.f c .range (blkData 3 1 (memCode p.m) (p.w / 32))) k.f c false)
  | none =>
    match ((reads ++ writes).flatMap (spanBlocked fr)).head? with
    | some (p, l) => .held (blockTag s k.f c 1 p.m (32 * l) p.tag)
    | none =>
      match (take.filter fun u => decide ((fr.circ.get u.i).count < u.lines)).head?,
          (append.filter fun u => decide ((fr.circ.get u.i).lines < (fr.circ.get u.i).count + willAppend fr u.i + u.lines)).head? with
      | some u, _ => .held (countCstall (blockCtx s k.f c .region (blkRegion fr 1 u.i false)) k.f u.i)
      | none, some u => .held (countPstall (blockCtx s k.f c .region (blkRegion fr 1 u.i true)) k.f u.i)
      | none, none =>
        match sbMark s k.f c .array (sbRanges (reads.map (Span.touch false) ++ writes.map (Span.touch true))) with
        | none => .held (countLost (blockCtx s k.f c .range (blkData 3 1 0 0)) k.f c true)
        | some (s1, is) => go s1 is

/-- The words of a span, and whether one is uncorrectable. -/
def spanRead (s : State) (f : FrondId) (sub : Nat) (p : Span) : State × List Word × Bool :=
  let (s1, bad) := padCheckAll s f sub p.m p.w p.n
  (s1, padWords s1 f p.m p.w p.n, bad)

/-- Words of the first `n` lines of a region that an array instruction consumes; HEAD advances in its slots (R224). -/
def circLines (s : State) (f : FrondId) (sub : Nat) (i : Fin 8) (n : Nat) : State × List Word × Bool :=
  let r := (frond s f).circ.get i
  (upto n).foldl (fun (a : State × List Word × Bool) k =>
    let w := r.wordAt (r.head.toNat + k)
    let (s1, b) := padCheckAll a.1 f sub r.mem' w 32
    (s1, a.2.1 ++ padWords s1 f r.mem' w 32, a.2.2 || b)) (s, [], false)

/-- The lines that an array instruction reads, in the order of its slots: the tag, or the pointer of the region, changes in the slot of each
(R211, R214, R219, R220). Their data are what they hold when it issues, for it never waits part-way (R73, R221; log entry 93). -/
def readSlots (c : CtxId) (mma : Bool) (reads : List Span) (take : List CircUse) (s : State) (f : FrondId) : State :=
  let spans := reads.flatMap fun p => (spanLines p).map fun l => (⟨c, p.m, 32 * l, p.tag, none, mma⟩ : ArrLine)
  let lines := take.flatMap fun u => let r := (frond s f).circ.get u.i
    (upto u.lines).map fun k => (⟨c, r.mem', r.wordAt (r.head.toNat + k), .take, some u.i, mma⟩ : ArrLine)
  modFrond s f fun fr => { fr with arrLines := fr.arrLines ++ lines ++ spans }

/-- The next row of a tile load: 32 rows in 32 slots of W, or one line of a transposed block in each (R72, R217). -/
def tilePiece (a : TileArgs) : Nat := if a.transposed then 32 else vecWords a.solver a.fmt

/-- The words of a tile load. -/
def tileWordsN (a : TileArgs) : Nat := 32 * vecWords a.solver a.fmt

/-- The tile register of the running context whose load goes on in W's array slots, the first of several (R72, R293). -/
def tileLoading (s : State) (f : FrondId) : Option (CtxId × Fin 2 × TileArgs) :=
  (runningCtx s f).bind fun c => ((allFin 2).findSome? fun i =>
    let t := (ctx s f c).tiles.get i
    match t.pendArgs with
    | some a => if t.loadAt.isNone then some (c, i, a) else none
    | none => none)

/-- A slot of a tile load. Its words are what the row holds in its slot: the model's reading of 'moves 32 rows in 32 FC' (log entry 93). The last
slot fixes the load's end, 6 FC later (R217). -/
def tileSlot (s : State) (f : FrondId) (c : CtxId) (i : Fin 2) (a : TileArgs) : State :=
  let done := ((ctx s f c).tiles.get i).rows.length
  let w := a.waddr.toNat + done
  let n := min (tilePiece a) (tileWordsN a - done)
  let (s1, bad) := padCheckAll s f c.val .w w n
  let at_ := slotStart s .w + 6 * tFC s
  modCtx s1 f c fun x => { x with tiles := vmod x.tiles i fun t => { t with
    rows := t.rows ++ padWords s1 f .w w n, bad := t.bad || bad
    loadAt := if done + n < tileWordsN a then none else some at_ } }

/-- The array's slot in a memory: the next line of an instruction, else of a tile load; none while it has no access ready (R211, R214). -/
def arrSlot (s : State) (f : FrondId) (m : Mem) : Option State :=
  match (frond s f).arrLines.find? (·.m == m) with
  | some l =>
    let s1 := match l.circ with
      | some i => circPop s f i
      | none => modFrond s f fun fr => (tagAccess fr m l.word l.tag).getD fr
    some (modFrond s1 f fun fr => { fr with arrLines := fr.arrLines.erase l })
  | none =>
    if m != .w || s.now < (frond s f).resumeAt then none
    else (tileLoading s f).map fun t => tileSlot s f t.1 t.2.1 t.2.2

/-- Lines appended one by one. -/
def appendLines (s : State) (f : FrondId) (i : Fin 8) (ws : List Word) : Nat → State
  | 0 => s
  | n + 1 =>
    let s1 := appendLines s f i ws n
    (circAppend s1 f i ((ws.drop (32 * n)).take 32)).getD s1

/-- A vector source as spans and region lines. -/
def srcSpans (v : VecSrc) (n : Nat) : List Span × List CircUse :=
  match v with
  | .word a t => ([⟨.a, a.toNat, n, readKind t⟩], [])
  | .circ i => ([], [⟨i, ceilDiv n 32⟩])

/-- A vector source's words. -/
def srcRead (s : State) (f : FrondId) (sub : Nat) (v : VecSrc) (n : Nat) : State × List Word × Bool :=
  match v with
  | .word a t => spanRead s f sub ⟨.a, a.toNat, n, readKind t⟩
  | .circ i => circLines s f sub i (ceilDiv n 32)

/-! ### Tensor mode (R80 to R86) -/

/-- An operand of the array as a value, with the overflow of a binary32 ingest (R74, R80). -/
def operand (fmt : BitVec 2) (rc : Bool) (w : Word) : Num × Bool :=
  if fmt = 3 then
    let p := ingestB32 rc w
    (decodeNum .f19 p.bits, p.ovf)
  else (decodeNum (if fmt = 0 then .m8 else if fmt = 1 then .m16 else .f19) w, false)

/-- Element `i` of packed operand words; words a vector or a tile does not have read as 0. An MMA reads a loaded tile by its own FMT and MODE:
the rules do not say how it reads one that was loaded under others (DESIGN CHOICE, log entry 102). -/
def operandAt (fmt : BitVec 2) (rc : Bool) (ws : List Word) (i : Nat) : Num × Bool :=
  operand fmt rc (element (if fmt = 0 then .m8 else if fmt = 1 then .m16 else .a32) ws i)

/-- What one dot step gives: the A32 word, overflow, and its NaN events as (KIND, COL) in order (R82, R83, R86). -/
structure Dot where
  bits : Word
  ovf : Bool
  evs : List (Nat × Nat)
deriving DecidableEq, Repr

/-- The exact terms truncated at 2^(E − 60), summed, and rounded once (R82). -/
def dotSum (ts : List Num) : Packed :=
  let fs := ts.filterMap fun t => match t with | .fin m e => if m = 0 then none else some (m, e) | _ => none
  match fs with
  | [] => ⟨0, false⟩
  | (m0, e0) :: rest =>
    let top := rest.foldl (fun k p => max k (expOf p.1 p.2)) (expOf m0 e0)
    let total := (fs.map fun p => truncAt p.1 p.2 (60 - top)).sum
    encodeNum .a32 false (.fin total (top - 60))

/-- The dot step of one row (R82, R83). -/
def dotStep (w a : List Num) (acc : Num) : Dot :=
  let ps := w.zip a
  let terms := ps.map (fun p => mulNum p.1 p.2) ++ [acc]
  let evs := ((upto ps.length).filterMap fun i =>
      match ps[i]? with
      | some p => if p.1.isNan || p.2.isNan then some (0, i) else if (mulNum p.1 p.2).isNan then some (2, i) else none
      | none => none) ++ (if acc.isNan then [(1, 0)] else [])
  let pos := terms.contains (.inf false)
  let neg := terms.contains (.inf true)
  if !evs.isEmpty then ⟨0x7FC00000, false, evs⟩
  else if pos && neg then ⟨0x7FC00000, false, [(2, 0)]⟩
  else if pos then ⟨0x7F800000, false, []⟩
  else if neg then ⟨0xFF800000, false, []⟩
  else
    let p := dotSum terms
    ⟨p.bits, p.ovf, []⟩

/-- What an instruction computed: its result words, ASTAT bits and NaN events in order. -/
structure Computed where
  words : List Word
  bits : BitVec 8
  evs : List NanEv
deriving DecidableEq, Repr

def joinComputed (xs : List Computed) : Computed :=
  { words := xs.flatMap (·.words), bits := xs.foldl (fun b x => b ||| x.bits) 0, evs := xs.flatMap (·.evs) }

/-- One tensor-mode vector step: 32 rows (R71, R82). -/
def tensorStep (fmt : BitVec 2) (rc : Bool) (tile vec acc : List Word) (step : Nat) : Computed :=
  let a := (upto 32).map fun c => operandAt fmt rc vec c
  joinComputed ((upto 32).map fun r =>
    let w := (upto 32).map fun c => operandAt fmt rc tile (32 * r + c)
    let d := dotStep (w.map (·.1)) (a.map (·.1)) (decodeNum .a32 (wordAt acc r))
    { words := [d.bits], bits := flagIf (d.ovf || w.any (·.2) || a.any (·.2)) aTOF
      evs := d.evs.map fun e => { kind := e.1, row := r, col := e.2, step := step } })

/-! ### Solver mode (R92, R93) -/

/-- A 64-bit accumulator saturated to its range (R93). -/
def satAcc (a : Int) : Int × Bool := (clampInt (-(2 ^ 63)) (2 ^ 63 - 1) a, decide (a < -(2 ^ 63)) || decide (2 ^ 63 - 1 < a))

/-- One solver-mode vector step (R93). -/
def solverStep (d : Int) (tile vec acc : List Word) : Computed :=
  joinComputed ((upto 32).map fun r =>
    let sum := ((upto 32).map fun c => nearestAt (x24 (wordAt tile (32 * r + c)) * x24 (wordAt vec c)) 0 d).sum
    let (v, sat) := satAcc (sum + acc64 (wordAt acc (2 * r)) (wordAt acc (2 * r + 1)))
    { words := acc64Words v, bits := flagIf sat aSAT, evs := [] })

/-- All vector steps of an MMA. -/
def mmaRun (a : MmaArgs) (d : Int) (tile vecs acc : List Word) : Computed :=
  let vw := vecWords a.solver a.fmt
  let aw := accWords a.solver
  joinComputed ((upto (countOf a.count)).map fun i =>
    let v := (vecs.drop (i * vw)).take vw
    let s := if a.acc then (acc.drop (i * aw)).take aw else []
    if a.solver then solverStep d tile v s else tensorStep a.fmt a.rc tile v s i)

/-! ### MMA and tile loads -/

/-- An array instruction ends with its flags, its first NaN event and, where TRAPEN.NAN is set, its trap (R86, R88). -/
def arrayDone (k : Issue) (c : CtxId) (s : State) (r : Computed) (opfmt : Nat) (write : State → State) : Issued :=
  let fc := fcNow s
  let s1 := modCtx s k.f c fun x => (x.flag fc r.bits).capture fc r.evs opfmt k.ia
  match trapOf (ctx s k.f c).trapen 0 (!r.evs.isEmpty) with
  | some t => .trap t s1
  | none => .done (write s1)

/-- The words of a tile register: zeros while it was never loaded (R72). -/
def tileWords (x : Ctx) (i : Fin 2) : List Word := if (x.tiles.get i).valid then (x.tiles.get i).words else []

/-- MMA: it issues, reads its vectors and accumulators, and computes; its results wait for retirement (R71, R221). -/
def execMma (k : Issue) (a : MmaArgs) (s : State) : Host.Outcome State Fault Refusal :=
  crumb k [] s fun c s =>
    let n := countOf a.count
    let (reads, take) := srcSpans a.src (n * vecWords a.solver a.fmt)
    let accSpan : Span := ⟨.p, a.dst.toNat, n * accWords a.solver, readKind a.accTag⟩
    let reads := if a.acc then reads ++ [accSpan] else reads
    let (writes, append) : List Span × List CircUse :=
      match a.dstCirc with
      | some i => ([], [⟨i, n * accWords a.solver / 32⟩])
      | none => ([mmaSpan a], [])
    if ((ctx s k.f c).tiles.get a.tile).pendArgs.isSome then .held s
    else arrayIssue k c a.solver s reads writes take append fun s is =>
      let (s1, vecs, bad1) := srcRead s k.f c.val a.src (n * vecWords a.solver a.fmt)
      let (s2, acc, bad2) := if a.acc then spanRead s1 k.f c.val accSpan else (s1, [], false)
      if bad1 || bad2 then .trap .ecc s2
      else
        let s3 := readSlots c true reads take s2 k.f
        let x := ctx s3 k.f c
        let d : Int := xfield x .ea + xfield x .eb - xfield x .eacc + 17
        let r := mmaRun a d (tileWords x a.tile) vecs acc
        arrayDone k c s3 r a.fmt.toNat fun s =>
          traceOp (arrayBusy (modFrond s k.f fun fr => { fr with
            mma := fr.mma ++ [{ ctx := c, args := a, out := [r.words], ready := s.now + (n + 3) * tFC s, mark := is }] })
            k.f a.solver n) k.f c 1 1

/-- MMA_RETIRE: the oldest array instruction in flight writes its results to P memory, with their tags (R71, R219), in the present slot, which is
the array's. -/
def mmaRetire (s : State) (f : FrondId) : State :=
  match (frond s f).mma with
  | [] => s
  | o :: rest =>
    let ws := o.out.flatten
    let s1 := match o.args.dstCirc with
      | some i => appendLines s f i ws (ws.length / 32)
      | none => padStore (modFrond s f fun fr => spanTags fr (mmaSpan o.args)) f .p o.args.dst.toNat ws
    traceOp (modFrond s1 f fun fr => { fr with mma := rest }) f o.ctx 1 2

def execMmaRetire (t : Time) (f : FrondId) (s : State) : Host.Outcome State Fault Refusal :=
  live t s fun s =>
    match (frond s f).mma with
    | o :: rest =>
      let read := !rest.isEmpty || (frond s f).arrLines.all (!·.mma)
      when_ (decide (o.ready ≤ s.now) && read && ownSlot s f .p .arr) s fun s => takeSlot (mmaRetire s f) f .p
    | [] => s

/-- 32 × 32 elements exchanged over the diagonal (R217). -/
def transposeWords (f : Fmt) (ws : List Word) : List Word :=
  packVector f ((upto 1024).map fun i => element f ws (i % 32 * 32 + i / 32))

/-- The W words of a tile load. -/
def tileSpan (a : TileArgs) : Span := ⟨.w, a.waddr.toNat, 32 * vecWords a.solver a.fmt, .plain⟩

/-- A tile load begins in a register of a context, with the range entries it marked. -/
def startTile (s : State) (f : FrondId) (c : CtxId) (a : TileArgs) (mark : List Nat) : State :=
  modCtx s f c fun x => { x with tiles := vmod x.tiles a.tile fun t => { t with
    issued := true, loadAt := none, pendArgs := some a, rows := [], bad := false, mark := mark } }

/-- TILE_LOAD: issued when no other load runs and no array instruction uses the register (R72, R484). -/
def execTileLoad (k : Issue) (a : TileArgs) (s : State) : Host.Outcome State Fault Refusal :=
  crumb k [] s fun c s =>
    let fr := frond s k.f
    let x := fr.ctxs.get c
    let p := tileSpan a
    if !padsOn fr p.m p.w p.n then .trap .window s
    else if x.tiles.toList.any (·.pendArgs.isSome) || fr.mma.any (fun o => o.args.tile == a.tile && decide (s.now < fr.arrFree)) then .held s
    else if sbConflict x .array p.m p.w (p.w + p.n - 1) false then
      .held (countLost (blockCtx s k.f c .range (blkData 3 1 0 (p.w / 32))) k.f c false)
    else match sbMark s k.f c .array [sbRound p.m p.w (p.w + p.n - 1) false] with
    | none => .held (countLost (blockCtx s k.f c .range (blkData 3 1 0 0)) k.f c true)
    | some (s1, is) => .done (traceOp (startTile s1 k.f c a is) k.f c 1 1)

/-- A tile load ends: the words that its slots read reach the register and its valid bit is set, or the context faults (R72, R236). -/
def endTile (s : State) (f : FrondId) (c : CtxId) (i : Fin 2) (a : TileArgs) : State :=
  let t := (ctx s f c).tiles.get i
  let ws := if a.transposed then transposeWords (packOf a.solver a.fmt) t.rows else t.rows
  let s1 := modCtx s f c fun x => { x with tiles := vmod x.tiles i fun t =>
    let t1 := { t with loadAt := none, pendArgs := none, rows := [], mark := [] }
    if t.bad then t1 else { t1 with valid := true, solver := a.solver, fmt := a.fmt, waddr := a.waddr, transposed := a.transposed, words := ws } }
  traceOp (if t.bad then raiseFault s1 f c .ecc else s1) f c 1 2

/-- TILE_LOAD_COMPLETE: the words reach the register and its valid bit is set (R72). -/
def execTileLoadComplete (t : Time) (f : FrondId) (tile : Fin 2) (s : State) : Host.Outcome State Fault Refusal :=
  live t s fun s =>
    match runningCtx s f with
    | none => s
    | some c =>
      let r := (ctx s f c).tiles.get tile
      match r.loadAt, r.pendArgs with
      | some at_, some a => when_ (decide (at_ ≤ s.now)) s fun s => endTile s f c tile a
      | _, _ => s

/-! ### CVT (R81, R84, R85, R95 to R99) -/

/-- TGT as executed (R74). -/
def tgtOf (solver : Bool) (tgt : BitVec 3) : Nat :=
  let t := tgt.toNat
  if solver then (if t < 3 then 3 else if t = 4 then 4 else if t = 3 then 3 else 5) else if t < 6 then t else 5

/-- Words a CVT writes for one vector. -/
def cvtWords (solver : Bool) (t : Nat) : Nat :=
  if t = 4 then 64 else if solver then 32 else if t = 0 then 8 else if t = 1 then 16 else 32

/-- What one lane gives: its high or only result, the low one of a pair, flags, events, and the context's new maxima. -/
structure Lane where
  hi : Word
  lo : Word
  bits : BitVec 8
  ev : Option Nat
  rmax : Word
  xmax : Byte
deriving DecidableEq, Repr

/-- RMAX after a value: the larger of it and |y| rounded to A32; NaN counts below every |y| (R85). A zero is +0, whatever a program wrote
(R79). -/
def rmaxNext (old : Word) (y : Num) : Word :=
  if y.isNan then old
  else
    let m := (encodeNum .a32 false (absNum y)).bits
    let o := decodeNum .a32 old
    if o.isNan || ltNum o (decodeNum .a32 m) then m else (encodeNum .a32 false o).bits

/-- An exact value at an X24 exponent, saturated (R84, R95, R96). -/
def toX24 (y : Num) (e : Int) : Int × Bool :=
  match y with
  | .nan => (0, true)
  | .inf n => (if n then -(2 ^ 23) else 2 ^ 23 - 1, true)
  | .fin m d => satX24 (nearestAt m d (23 - e))

/-- The format of a tensor-mode target. -/
def tgtFmt (t : Nat) : Fmt := if t = 0 then .m8 else if t = 1 then .m16 else if t = 3 then .a32 else .f19

/-- A tensor-mode lane: the source value, SCALE, and the target's rounding and ranges. -/
def tensorLane (a : CvtArgs) (t : Nat) (eout : Int) (src : Num) (scale rmax : Word) (xmax : Byte) : Lane :=
  let sc := decodeNum .f19 scale
  let y := if a.scl then mulNum src sc else src
  let made := a.scl && !src.isNan && !sc.isNan && y.isNan
  let ev := if src.isNan then some (if a.fromA then 0 else 1) else if a.scl && sc.isNan then some 0
    else if made || (t == 0 && (y == .inf false || y == .inf true)) then some 3 else none
  if t = 5 then
    let (m, sat) := toX24 y eout
    { hi := x24Word m, lo := 0, bits := flagIf sat aSAT, ev := ev, rmax := rmax, xmax := xmax }
  else if t = 4 then
    let p := encodeNum .f19 false y
    let lo := match decodeNum .f19 p.bits with
      | .fin m e => (encodeNum .f19 false (addNum y (.fin (-m) e))).bits
      | _ => 0
    { hi := p.bits, lo := lo, bits := flagIf p.ovf aTOF, ev := ev, rmax := rmaxNext rmax y, xmax := xmax }
  else
    let f := tgtFmt t
    let p := encodeNum f (t == 2 && a.fromA && !a.rc) y
    { hi := p.bits, lo := 0, bits := flagIf p.ovf (if f = .m8 then aM8SAT else aTOF), ev := ev
      rmax := rmaxNext rmax y, xmax := xmax }

/-- XMAX after an unsaturated result (R97). -/
def xmaxNext (old : Byte) (m : Int) : Byte := BitVec.ofNat 8 (max old.toNat (min (signedLen m) 255))

/-- A solver-mode lane (R95, R97, R98). -/
def solverLane (t : Nat) (eacc eout : Int) (acc : Int) (rmax : Word) (xmax : Byte) : Lane :=
  if t = 5 then
    let m := nearestAt acc 0 (eacc - eout - 40)
    let (v, sat) := satX24 m
    { hi := x24Word v, lo := 0, bits := flagIf sat aSAT, ev := none, rmax := rmax, xmax := xmaxNext xmax m }
  else if t = 4 then
    let n := nearestAt acc 0 (eacc - eout - 16)
    let v := clampInt (-(2 ^ 47)) (2 ^ 47 - 2 ^ 23 - 1) n
    let hi := Int.fdiv (v + 2 ^ 23) (2 ^ 24)
    { hi := x24Word hi, lo := x24Word (v - hi * 2 ^ 24), bits := flagIf (v != n) aSAT, ev := none, rmax := rmax
      xmax := xmaxNext xmax n }
  else
    let p := encodeNum .a32 false (.fin acc (eacc - 63))
    { hi := p.bits, lo := 0, bits := flagIf p.ovf aTOF, ev := none, rmax := rmax, xmax := xmax }

/-- One vector of a CVT: the words written and the context after it. -/
def cvtVector (a : CvtArgs) (x : Ctx) (src : List Word) (step : Nat) : Ctx × Computed :=
  let t := tgtOf a.solver a.tgt
  let lanes := (upto 32).map fun r =>
    let rm := vgetD x.rmax r 0
    let xm := vgetD x.xmax r 0
    if a.solver then solverLane t (xfield x .eacc) (xfield x .eout) (acc64 (wordAt src (2 * r)) (wordAt src (2 * r + 1))) rm xm
    else tensorLane a t (xfield x .eout) (decodeNum .a32 (wordAt src r)) (BitVec.ofNat 32 (vgetD x.scale r 0).toNat) rm xm
  let hi := lanes.map (·.hi)
  let words := if t = 4 then hi ++ lanes.map (·.lo) else packVector (if a.solver then .a32 else if t = 5 then .a32 else tgtFmt t) hi
  ({ x with rmax := Vector.ofFn fun (i : Fin 32) => ((lanes[i.val]?).map (·.rmax)).getD 0
            xmax := Vector.ofFn fun (i : Fin 32) => ((lanes[i.val]?).map (·.xmax)).getD 0 },
   { words := words, bits := lanes.foldl (fun b l => b ||| l.bits) 0
     evs := (upto 32).filterMap fun r => match (lanes[r]?).bind (·.ev) with
       | some e => some { kind := e, row := r, col := 0, step := step }
       | none => none })

/-- All vectors of a CVT, in order. -/
def cvtRun (a : CvtArgs) (x : Ctx) (src : List Word) (sw : Nat) : Nat → Ctx × Computed
  | 0 => (x, { words := [], bits := 0, evs := [] })
  | n + 1 =>
    let (x1, r1) := cvtRun a x src sw n
    let (x2, r2) := cvtVector a x1 ((src.drop (n * sw)).take sw) n
    (x2, joinComputed [r1, r2])

/-- CVT (R74, R81). -/
def execCvt (k : Issue) (a : CvtArgs) (s : State) : Host.Outcome State Fault Refusal :=
  crumb k [] s fun c s =>
    let n := countOf a.count
    let fromA := a.fromA && !a.solver
    let sw := if fromA then 32 else accWords a.solver
    let p : Span := ⟨if fromA then .a else .p, a.src.toNat, n * sw, readKind a.srcTag⟩
    let out := n * cvtWords a.solver (tgtOf a.solver a.tgt)
    let scaling := (frond s k.f).flight.any fun p => match p.2 with | .scale d _ => d == c | _ => false
    let (writes, append) : List Span × List CircUse :=
      match a.dst with
      | .word m w t => ([⟨m, w.toNat, out, writeKind t⟩], [])
      | .circ i => ([], [⟨i, ceilDiv out 32⟩])
    if scaling then .held s
    else arrayIssue k c a.solver s [p] writes [] append fun s is =>
      let (s1, ws, bad) := spanRead s k.f c.val p
      if bad then .trap .ecc s1
      else
        let s2 := readSlots c false [p] [] s1 k.f
        let (x, r) := cvtRun { a with fromA := fromA } (ctx s2 k.f c) ws sw n
        arrayDone k c s2 r (tgtOf a.solver a.tgt % 4) fun s =>
          let s3 := modCtx s k.f c fun y => { y with rmax := x.rmax, xmax := x.xmax }
          let s4 := match a.dst with
            | .word m w _ => padStore (writes.foldl (fun s q => modFrond s k.f fun fr => spanTags fr q) s3) k.f m w.toNat r.words
            | .circ i => appendLines s3 k.f i r.words (ceilDiv r.words.length 32)
          traceEnd ((n + 4) * tFC s) (traceOp (arrayBusy (holdRanges s4 k.f c is (n + 4)) k.f a.solver (n + 4)) k.f c 1 1) k.f c 1

/-! ### Vector instructions of predictive control (R163) -/

/-- Element i of an X24 block as a value. -/
def xElem (x : Ctx) (b : XBlk) (ws : List Word) (i : Nat) : Num := .fin (x24 (wordAt ws i)) (xfield x b.e - 23)

/-- A power of two as a factor. -/
def shiftNum (v : Num) (k : Int) : Num :=
  match v with
  | .fin m e => .fin m (e + k)
  | o => o

def subNum (u v : Num) : Num := addNum u (negNum v)

/-- A field of the control extension of the program that holds a context. In a program with FORM 0 these fields are ignored and the rules give the
vector instructions none: a free value, the same for every instruction (R161; DESIGN CHOICE, log entry 94). -/
def pcField (s : State) (x : Ctx) (w : Nat) (get : State → Nat → Int) : Int :=
  let p := x.holdProg.toNat
  if progForm s p = 0 then signed w (Config.openWord 0 [0x163, BitVec.ofNat 32 w, BitVec.ofNat 32 p]).toNat else get s p

/-- The exponents of σ and of ρ for inequality and for equality rows, and ALPHA (R161, R163). -/
def sigmaExp (s : State) (x : Ctx) : Int := pcField s x 8 fun s p => (progSige s p).toInt
def rhoExp (s : State) (x : Ctx) (eq : Bool) : Int :=
  pcField s x 9 fun s p => (progRhoe s p).toInt + if eq then Int.ofNat (progEqsh s p) else 0
def alphaCode (s : State) (x : Ctx) : Nat := (pcField s x 4 (fun s p => Int.ofNat (progAlpha s p)) % 8).toNat

/-- α u + (1 − α) v with α = 1 + n/8, exactly. -/
def relax (n : Nat) (u v : Num) : Num :=
  shiftNum (subNum (mulNum (.fin (Int.ofNat (8 + n)) 0) u) (mulNum (.fin (Int.ofNat n) 0) v)) (-3)

/-- Rounded once to a block exponent, saturated: the value, the word, SAT. -/
def xRound (x : Ctx) (e : XField) (v : Num) : Num × Word × Bool :=
  let (m, sat) := toX24 v (xfield x e)
  (.fin m (xfield x e - 23), x24Word m, sat)

/-- A block read, and a block written, with the tag kind it names (R218). -/
def xIn (b : XBlk) : Span := ⟨.a, b.word.toNat, 32, readKind b.tag⟩
def xOut (b : XBlk) : Span := ⟨.a, b.word.toNat, 32, writeKind b.tag⟩

/-- Reads blocks in A memory, runs, and writes blocks; cost in FC of the array's time. -/
def xInstr (k : Issue) (c : CtxId) (s : State) (ins outs : List Span) (cost : Nat)
    (run : Ctx → List (List Word) → List (List Word) × BitVec 8) : Issued :=
  arrayIssue k c true s ins outs [] [] fun s is =>
    let (s1, ws, bad) := ins.foldl (fun (r : State × List (List Word) × Bool) p =>
      let (s, w, b) := spanRead r.1 k.f c.val p
      (s, r.2.1 ++ [w], r.2.2 || b)) (s, [], false)
    if bad then .trap .ecc s1
    else
      let (os, bits) := run (ctx s1 k.f c) ws
      let fc := fcNow s
      let s2 := modCtx (readSlots c false ins [] s1 k.f) k.f c fun x => x.flag fc bits
      let s3 := (outs.zip os).foldl (fun s o => padStore (modFrond s k.f fun fr => spanTags fr o.1) k.f o.1.m o.1.w o.2) s2
      .done (traceEnd (cost * tFC s) (traceOp (arrayBusy (holdRanges s3 k.f c is cost) k.f true cost) k.f c 1 1) k.f c 1)

/-- XRHS: acc := σx − q + w_box, rounded once to the accumulator's unit (R163). -/
def xrhsRun (a : XrhsArgs) (sige : Int) (x : Ctx) (ws : List (List Word)) : List (List Word) × BitVec 8 :=
  let rows := (upto 32).map fun i =>
    let v := subNum (shiftNum (xElem x a.x (ws.getD 0 []) i) sige) (xElem x a.q (ws.getD 1 []) i)
    let v := match a.w with
      | some b => addNum v (xElem x b (ws.getD 2 []) i)
      | none => v
    match v with
    | .fin m e => satAcc (nearestAt m e (63 - xfield x .eacc))
    | _ => (0, false)
  ([rows.flatMap fun r => acc64Words r.1], flagIf (rows.any (·.2)) aSAT)

/-- XRHS (R163). -/
def execXrhs (k : Issue) (a : XrhsArgs) (s : State) : Host.Outcome State Fault Refusal :=
  crumb k [] s fun c s =>
    xInstr k c s ([xIn a.x, xIn a.q] ++ (match a.w with | some b => [xIn b] | none => []))
      [⟨.p, a.dst.toNat, 64, writeKind a.dstTag⟩] 8 (xrhsRun a (sigmaExp s (ctx s k.f c)))

/-- XRELAX: x := α x̃ + (1 − α) x (R163). -/
def xrelaxRun (a : XrelaxArgs) (alpha : Nat) (x : Ctx) (ws : List (List Word)) : List (List Word) × BitVec 8 :=
  let rows := (upto 32).map fun i =>
    xRound x a.dst.e (relax alpha (xElem x a.xt (ws.getD 0 []) i) (xElem x a.x (ws.getD 1 []) i))
  ([rows.map (·.2.1)], flagIf (rows.any (·.2.2)) aSAT)

/-- XRELAX (R163). -/
def execXrelax (k : Issue) (a : XrelaxArgs) (s : State) : Host.Outcome State Fault Refusal :=
  crumb k [] s fun c s => xInstr k c s [xIn a.xt, xIn a.x] [xOut a.dst] 6 (xrelaxRun a (alphaCode s (ctx s k.f c)))

/-- One row of XPROJ: z, y and w with their SAT, each step from the values stored before it; the lower bound first (R163). -/
def xprojRow (a : XprojArgs) (alpha : Nat) (x : Ctx) (zh z y l u : Num) (rho : Int) : (Word × Word × Word) × Bool :=
  let v := relax alpha zh z
  let t := addNum v (shiftNum y (-rho))
  let t1 := if ltNum t l then l else t
  let t2 := if ltNum u t1 then u else t1
  let (z1, zw, s1) := xRound x a.dz.e t2
  let (y1, yw, s2) := xRound x a.dy.e (addNum y (shiftNum (subNum v z1) rho))
  let (_, ww, s3) := xRound x a.dw.e (subNum (shiftNum z1 rho) y1)
  ((zw, yw, ww), s1 || s2 || s3)

/-- XPROJ on a block; `rho` gives the exponent of ρ for an equality row and for an inequality row, which the mask tells apart (R161). -/
def xprojRun (a : XprojArgs) (alpha : Nat) (rho : Bool → Int) (x : Ctx) (ws : List (List Word)) : List (List Word) × BitVec 8 :=
  let rows := (upto 32).map fun i =>
    xprojRow a alpha x (xElem x a.zh (ws.getD 0 []) i) (xElem x a.z (ws.getD 1 []) i) (xElem x a.y (ws.getD 2 []) i)
      (xElem x a.l (ws.getD 3 []) i) (xElem x a.u (ws.getD 4 []) i) (rho (bit (wordAt (ws.getD 5 []) 0) i))
  ([rows.map (·.1.1), rows.map (·.1.2.1), rows.map (·.1.2.2)], flagIf (rows.any (·.2)) aSAT)

/-- XPROJ (R163). -/
def execXproj (k : Issue) (a : XprojArgs) (s : State) : Host.Outcome State Fault Refusal :=
  crumb k [] s fun c s =>
    let x := ctx s k.f c
    xInstr k c s [xIn a.zh, xIn a.z, xIn a.y, xIn a.l, xIn a.u, ⟨.w, a.mask.toNat, 1, .plain⟩]
      [xOut a.dz, xOut a.dy, xOut a.dw] 10 (xprojRun a (alphaCode s x) (rhoExp s x))

/-! ### Marks (R108, R169, R171, R172, R194) -/

/-- FEND of a priming that began with the copy not valid: the copy becomes valid and keeps PIVB and SAT (R169 to R171). PIVCNT and PIVREC of
the run reach the event ring when its record is formed (R119). -/
def primeEnd (s : State) (f : FrondId) (c : CtxId) : State :=
  let x := ctx s f c
  let p := x.holdProg.toNat
  match x.job.bind (jobOf s) with
  | some j =>
    if j.primes.contains f && progCache s p then
      setCopy (modJob s j.id fun j => { j with primes := j.primes.filter (· != f) }) f p (x.astat &&& aPIVB != 0) (x.astat &&& aSAT != 0)
    else s
  | none => s

/-- FEND: one bracket less (R108). -/
def execFend (k : Issue) (s : State) : Host.Outcome State Fault Refusal :=
  crumb k [] s fun c s =>
    let s1 := modCtx s k.f c fun x => { x with fdepth := BitVec.ofNat 4 (x.fdepth.toNat - 1) }
    .done (traceOp (if (ctx s k.f c).fdepth = 1 then primeEnd s1 k.f c else s1) k.f c 0 2)

/-- Declared iterations of an iterative program (R194): ITERS of predictive control, STEPS of Gauss–Newton. -/
def itersOf (s : State) (p : Nat) : Option Nat :=
  if progForm s p != 0 then some (progIters s p) else if progKind s p = 4 then some (progSteps s p) else none

/-- ITMARK: the buffers that hold the newest iterate are named, ITCNT gains 1, and the declared count sets FINAL (R172, R194). -/
def execItmark (k : Issue) (bufs : List Word) (s : State) : Host.Outcome State Fault Refusal :=
  crumb k [] s fun c s =>
    let x := ctx s k.f c
    let n := min (x.itcnt.toNat + 1) 0xFF
    let s1 := modCtx s k.f c fun x => { x with
      itcnt := BitVec.ofNat 16 n, mark := bufs, atCheap := some 0x3F
      final := x.final || decide (itersOf s x.holdProg.toNat = some n) }
    .done (traceFrond s1 k.f c 0 3 n)

/-- OUTMARK: the final mark of a program that is not iterative (R194). -/
def execOutmark (k : Issue) (s : State) : Host.Outcome State Fault Refusal :=
  crumb k [] s fun c s =>
    let s1 := modCtx s k.f c fun x => { x with
      atCheap := some 0x3F, final := x.final || (itersOf s x.holdProg.toNat).isNone }
    .done (traceFrond s1 k.f c 0 3 (ctx s k.f c).itcnt.toNat)

end Sys2Proof.Machine
end

