-- ==== Sys2Proof/Machine/Queues.lean ====
section
/-!
DEFINITION. Doorbell and cancel lines, acceptance with its field checks, stage 2, the active-sequence bitmap, the work-list
builder and its list (R37 to R60), and the freeing of buffer entries.
-/
namespace Sys2Proof.Machine

/-! ### Inbound writes of a function (R43, R451) -/

/-- Some partition is enabled (R49). -/
def anyPartition (s : State) : Bool := (allFin 8).any fun p => (part s p).en

/-- The function maps its doorbell aperture: the physical one when any partition is enabled, a virtual one when its own is. -/
def fnServed (s : State) (fn : FnId) : Bool :=
  if fn.val = 0 then anyPartition s else (part s (idx 7 (fn.val - 1))).en

/-- Bytes of a write that fall in line `l` of `size` bytes, as (position, byte). -/
def lineBytes (size l off : Nat) (data : List Byte) : List Host.Cell :=
  ((upto data.length).filter fun i => (off + i) / size == l).map fun i => ((off + i) % size, byteAt data i)

/-- Bytes put into a line's buffer. -/
def putLine (ls : List (Nat × List Host.Cell)) (l : Nat) (bs : List Host.Cell) : List (Nat × List Host.Cell) :=
  let old := ((ls.find? (·.1 == l)).map (·.2)).getD []
  (l, bs.foldl (fun m c => cellSet 0 m c.1 c.2) old) :: ls.filter (·.1 != l)

/-- The lines of `size` bytes a write touches, ascending. -/
def linesOf (size off n : Nat) : List Nat := if n = 0 then [] else (upto ((off + n - 1) / size + 1 - off / size)).map (off / size + ·)

/-- Assembly into doorbell lines; a line whose byte 63 is covered gives up its spore, in ascending line address, and its buffer
is cleared. The first is accepted as the write is taken, each later one 2 XC after the one before (R43, R44, R46). -/
def doorbellBytes (fn : FnId) (off : Nat) (data : List Byte) (s : State) : State :=
  if !deviceReady s || !fnServed s fn then s
  else
    let data := data.take (0x8000 - off)
    (linesOf 64 off data.length).foldl (fun s l =>
      let bs := lineBytes 64 l off data
      let s1 := modFn s fn fun f => { f with lines := putLine f.lines l bs }
      if bs.any (·.1 == 63) then
        let m := (((s1.pcie.fns.get fn).lines.find? (·.1 == l)).map (·.2)).getD []
        let s2 := modFn s1 fn fun f => { f with lines := f.lines.filter (·.1 != l) }
        let due := max s2.now s2.pcie.acceptAt
        modPcie s2 fun p => { p with sporeQ := p.sporeQ ++ [(fn, cellRead 0 m 0 64, due)], acceptAt := due + 2 * tXC }
      else s1) s

/-! ### Checks at acceptance (R49) -/

/-- PART after rows 1 and 2, and whether it was replaced. -/
def checkPart (s : State) (fn : FnId) (p : PartId) : PartId × Bool :=
  if fn.val = 0 then
    if (part s p).en then (p, false)
    else match (allFin 8).find? fun q => (part s q).en with
      | some q => (q, true)
      | none => (p, true)
  else
    let n : PartId := idx 7 (fn.val - 1)
    (n, p != n)

/-- A queue lies in the range of a partition. -/
def inRange (s : State) (p : PartId) (q : QueueId) : Bool :=
  decide ((part s p).qbase.toNat ≤ q.toNat) && decide (q.toNat < (part s p).qbase.toNat + (part s p).qcount.toNat)

/-- A checked spore. -/
structure Checked where
  words : List Word
  part : PartId
  queue : QueueId
  clamp : Bool
  toNull : Bool
  refuse : Bool
deriving DecidableEq, Repr

/-- Rows 5 to 8 for one window: index, offset, length, and whether a row marked "yes" applied. -/
def checkWindow (s : State) (p : PartId) (offw lenw : Word) : Nat × Nat × Nat × Bool :=
  let w0 := field offw 27 24
  let def0 := winSize ((part s p).win.get (idx 15 w0)) != 0
  let w := if def0 then w0 else 0
  let size := winSize ((part s p).win.get (idx 15 w))
  let o0 := field offw 23 0
  let o := if o0 < size then o0 else size - 1
  let l0 := field lenw 23 0
  let l1 := if l0 = 0xFFFFFF then size - o else l0
  let l := if size < o + l1 then size - o else l1
  (w, o, l, !def0 || decide (size ≤ o0) || decide (size < o + l1))

/-- The checks of R49 in order, but for row 12. -/
def checkSpore (s : State) (fn : FnId) (ws : List Word) : Checked :=
  let w0 := wordAt ws 0
  let (p, c1) := checkPart s fn (idx 7 (field w0 22 20))
  let q0 : QueueId := BitVec.ofNat 20 (field w0 19 0)
  let bad := !inRange s p q0 || !qEn s q0
  let q := if bad then sinkOf s p else q0
  let prog0 := field (wordAt ws 1) 11 0
  let noProg := !progDefined s prog0
  let prog := if noProg then 0 else prog0
  let toNull := q == sinkOf s p || prog == 0
  let ran := if toNull then 0 else prog
  let (iw, io, il, c2) := checkWindow s p (wordAt ws 4) (wordAt ws 5)
  let (ow, oo, ol, c3) := checkWindow s p (wordAt ws 6) (wordAt ws 7)
  { words :=
      [BitVec.ofNat 32 (q.toNat + at_ 20 p.val + at_ 24 (field w0 26 24)), BitVec.ofNat 32 prog, wordAt ws 2,
       BitVec.ofNat 32 (field (wordAt ws 3) 23 0), BitVec.ofNat 32 (io + at_ 24 iw), BitVec.ofNat 32 il,
       BitVec.ofNat 32 (oo + at_ 24 ow), BitVec.ofNat 32 ol] ++ (ws.drop 8).take 6 ++ [0, 0]
    part := p, queue := q
    clamp := c1 || bad || noProg || c2 || c3 || decide (il < progInDecl s ran) || decide (ol < progOutDecl s ran) || toNull
    toNull := toNull, refuse := bad && !qEn s q }

/-! ### Fields of a checked spore (R47) -/
def spQueue (w : List Word) : QueueId := BitVec.ofNat 20 (field (wordAt w 0) 19 0)
def spDig (w : List Word) : Bool := bit (wordAt w 0) 24
def spIrq (w : List Word) : Bool := bit (wordAt w 0) 25
def spPriorReset (w : List Word) : Bool := bit (wordAt w 0) 26
def spProg (w : List Word) : Nat := field (wordAt w 1) 11 0
def spDeadline (w : List Word) : Stamp := BitVec.ofNat 56 ((wordAt w 2).toNat + at_ 32 (field (wordAt w 3) 23 0))
def spInWin (w : List Word) : Nat := field (wordAt w 4) 27 24
def spInOff (w : List Word) : Nat := field (wordAt w 4) 23 0
def spInLen (w : List Word) : Nat := field (wordAt w 5) 23 0
def spOutWin (w : List Word) : Nat := field (wordAt w 6) 27 24
def spOutOff (w : List Word) : Nat := field (wordAt w 6) 23 0
def spOutLen (w : List Word) : Nat := field (wordAt w 7) 23 0
def spTag (w : List Word) : BitVec 64 := dword (wordAt w 9) (wordAt w 10)
/-- Byte address of word i of a spore's input or output (R49). -/
def spInAddr (s : State) (p : PartId) (w : List Word) (i : Nat) : Nat :=
  winBase ((part s p).win.get (idx 15 (spInWin w))) + 4 * (spInOff w + i)
def spOutAddr (s : State) (p : PartId) (w : List Word) (i : Nat) : Nat :=
  winBase ((part s p).win.get (idx 15 (spOutWin w))) + 4 * (spOutOff w + i)

/-! ### The buffer (R39, R51) -/

/-- Entries of a queue in acceptance order. -/
def queueEntries (s : State) (q : QueueId) : List Entry :=
  (upto (qCount s q)).filterMap fun k => entryAt s q (idx 63 ((qHead s q + k) % qDepth s q))

/-- Every counted entry of a queue is freed at once (R38, R482); an uncorrectable word 0 is left as it stands (log entry 85). -/
def abandonQueue (s : State) (q : QueueId) : State :=
  if poisoned s (descAddr q) then s
  else setDesc s q 0 (setField (setField (desc s q 0) 14 8 0) 20 15 ((qHead s q + qCount s q) % qDepth s q))

/-- A queue descriptor that holds an uncorrectable word disables its queue until reset: what its buffer holds is abandoned and freed
(R38, R482). -/
def checkDesc (s : State) (q : QueueId) : State :=
  if s.deadQueues.contains q.toNat then s
  else
    let (s, bad) := ssCheckAll s (descAddr q) 4
    if !bad then s
    else abandonQueue { s with
      deadQueues := q.toNat :: s.deadQueues, entries := s.entries.filter (·.queue != q)
      popped := s.popped.filter (·.1 != q), ringQ := s.ringQ.filter fun r => r.queue != q || r.direct.isSome } q

/-- Word `i` of a descriptor read, changed and written back: the read is checked, and an uncorrectable word stays as it is (R482). -/
def updDesc (s : State) (q : QueueId) (i : Nat) (g : Word → Word) : State :=
  let s1 := checkDesc s q
  if poisoned s1 (descAddr q + 4 * i) then s1 else setDesc s1 q i (g (desc s1 q i))

def setPriorValid (s : State) (q : QueueId) (b : Bool) : State := updDesc s q 0 fun w => setBit w 7 b
def setRunning (s : State) (q : QueueId) (b : Bool) : State := updDesc s q 1 fun w => setBit w 18 b

/-- The entry at HEAD freed, and every following entry already freed, leave the count; at most `n` entries. -/
def advanceHead (s : State) (q : QueueId) : Nat → State
  | 0 => s
  | n + 1 =>
    let i : Fin 64 := idx 63 (qHead s q)
    if qCount s q = 0 then s
    else match entryAt s q i with
      | some e =>
        if e.st == .freed then
          let h := (qHead s q + 1) % qDepth s q
          let s1 := updDesc s q 0 fun w => setField (setField w 14 8 (qCount s q - 1)) 20 15 h
          advanceHead { s1 with entries := s1.entries.filter fun x => !(x.queue == q && x.idx == i) } q n
        else s
      | none => s

/-- An entry is freed: its record is written, or it is abandoned (R38, R51). -/
def freeEntry (s : State) (q : QueueId) (i : Fin 64) : State :=
  let s1 := modEntry s q i fun e => { e with st := .freed }
  let s2 := { s1 with popped := s1.popped.filter fun x => !(x.1 == q && x.2 == i) }
  advanceHead s2 q 64

/-! ### The bitmap (R52) -/

/-- The work-list builder's requester id (R259). -/
def builderReq : Fin 32 := 17

def bitmapBase : Nat := ssBase + 0x1500000

/-- The bits set in this XC, with what they were before it (R53). -/
def setNow (s : State) : List (QueueId × Bool) :=
  match s.builder.setXC with
  | some (n, l) => if n = xcNow s then l else []
  | none => []

/-- The queue's active-sequence bit and its summary bits set; an uncorrectable word is used raw (R52, R482). -/
def setActive (s : State) (q : QueueId) : State :=
  let a := bitmapBase + q.toNat / 32 * 4
  let was := bit (rdWord s a) (q.toNat % 32)
  let now := setNow s
  let s1 := rmwWord s 0 a fun x => setBit x (q.toNat % 32) true
  { s1 with builder := { s1.builder with
      l1 := insertNat (q.toNat / 1024) s1.builder.l1
      setXC := some (xcNow s, if now.any (·.1 == q) then now else now ++ [(q, was)]) } }

/-- L2 bit j: any of L1 bits 32j to 32j + 31 (R52). -/
def l2Bit (b : Builder) (j : Nat) : Bool := b.l1.any fun k => k / 32 == j

/-- SPORE_BUFFER_WRITE: stage 2 (R51, R52). -/
def execSporeBufferWrite (t : Time) (q : QueueId) (entry : Fin 64) (s : State) : Host.Outcome State Fault Refusal :=
  live t s fun s =>
    let s := checkDesc s q
    match entryAt s q entry with
    | some e => when_ (e.st == .reserved && operating s) s fun s =>
        let st := e.accept.toNat
        let ws := e.spore.take 14 ++ [BitVec.ofNat 32 st, BitVec.ofNat 32 (st / 2 ^ 32)]
        let s1 := wrWords s (poolEntry s q entry) ws
        setActive (modEntry s1 q entry fun e => { e with st := .buffered }) q
    | none => s

/-! ### The work-list builder (R53 to R57) -/

/-- A build asked for by a strobe: at once, or after the one under way. -/
def wantBuild (s : State) (edge : Stamp) : State :=
  { s with builder := if s.builder.want.isSome then { s.builder with again := some edge } else { s.builder with want := some edge } }

/-- The build is complete: the boundary window ends, and a strobe that came meanwhile starts the next build (R26, R395). -/
def buildDone (s : State) : State :=
  windowEnd { s with builder := { s.builder with
    active := false, scanned := false, toIssue := [], issued := [], lineAt := [], want := s.builder.again, again := none } }

/-- WORKLIST_BUILD: once every spore accepted before the edge has completed stage 2, L2 is scanned (R55). -/
def execWorklistBuild (t : Time) (s : State) : Host.Outcome State Fault Refusal :=
  live t s fun s =>
    match s.builder.want with
    | none => s
    | some edge =>
      let waits := s.entries.any fun e => e.st == .reserved && earlier e.accept edge
      when_ (!s.builder.active && !waits && operating s) s fun s =>
        if s.builder.l1.isEmpty then buildDone s
        else s.builder.l1.foldl (fun s l => (putXfer s builderReq none fun _ => .bitmapLine l).2) { s with builder := { s.builder with
          active := true, scanned := true, toIssue := s.builder.l1, issued := s.builder.l1.map fun l => (l, none), lineAt := [] } }

/-- The 32 words of bitmap line `l` as they were before this XC, and as they stand for the next build: the bits set in this XC alone
(R53). -/
def clearedLine (s : State) (l : Nat) (ws : List Word) : List Word × List Word :=
  let here := (setNow s).filter fun x => x.1.toNat / 1024 == l
  let put := fun (b : Bool) (ws : List Word) (x : QueueId × Bool) =>
    ws.modify (x.1.toNat / 32 % 32) fun w => setBit w (x.1.toNat % 32) (if b then true else x.2)
  (here.foldl (put false) ws, here.foldl (put true) (List.replicate 32 0))

/-- The atomic read-and-clear of a bitmap line at its port, and of its L1 bit; a set that reaches the port in the same XC comes after it
(R53). -/
def readAndClear (s : State) (l : Nat) : State :=
  let a := bitmapBase + 128 * l
  let (s0, raw) := fwRead s 0 a 32
  let (ws, left) := clearedLine s l raw
  let s1 := wrWords s0 a left
  { s1 with builder := { s1.builder with
      l1 := if left.all (· == 0) then removeNat l s1.builder.l1 else s1.builder.l1
      toIssue := s1.builder.toIssue.filter (· != l), lineAt := s1.builder.lineAt ++ [(l, ws)] } }

/-- One entry published, or its mask merged into the unconsumed entry of its word (R56). -/
def publish (born : Nat) (list : List WorkEntry) (w : Nat) (m : BitVec 64) : List WorkEntry :=
  if list.any (·.word == w) then list.map fun e => if e.word = w then { e with mask := e.mask ||| m } else e
  else list ++ [{ word := w, mask := m, born := born }]

/-- The entries of a line in ascending word order. -/
def publishLine (born : Nat) (list : List WorkEntry) (l : Nat) (ws : List Word) : List WorkEntry :=
  (upto 16).foldl (fun list j =>
    let m := dword (wordAt ws (2 * j)) (wordAt ws (2 * j + 1))
    if m = 0 then list else publish born list (16 * l + j) m) list

/-- Lines returned at the front of those issued are published, in order (R55). -/
def publishReady (born : Nat) : List (Nat × Option (List Word)) → List WorkEntry → List (Nat × Option (List Word)) × List WorkEntry
  | [], list => ([], list)
  | (l, none) :: rest, list => ((l, none) :: rest, list)
  | (l, some ws) :: rest, list => publishReady born rest (publishLine born list l ws)

/-- BITMAP_LINE_RETURN: a line returns and is held until every earlier one has (R55). -/
def execBitmapLineReturn (t : Time) (line : Fin 1024) (s : State) : Host.Outcome State Fault Refusal :=
  live t s fun s =>
    match s.builder.issued.any (fun x => x.1 == line.val && x.2.isNone) && operating s,
        (s.builder.lineAt.find? (·.1 == line.val)).map (·.2) with
    | true, some ws =>
      let is := s.builder.issued.map fun x => if x.1 = line.val then (x.1, some ws) else x
      let (left, list) := publishReady s.tree.strobes is s.builder.list
      let s1 := { s with builder := { s.builder with issued := left, list := list, lineAt := s.builder.lineAt.filter (·.1 != line.val) } }
      if left.isEmpty && s1.builder.toIssue.isEmpty then buildDone s1 else s1
    | _, _ => s

/-- Spores a replay holds back until it is done (R447). -/
def replayHolds (s : State) (q : QueueId) (i : Fin 64) : Bool := s.obs.replay.held.any fun x => x.1 == q && x.2 == i

/-- A spore is eligible: its acceptance precedes the slot's strobe (R54), and no replay holds it back. -/
def eligibleSpore (s : State) (e : Entry) : Bool :=
  e.st == .buffered && earlier e.accept s.timing.stbStamp && !replayHolds s e.queue e.idx

/-- The visit to one queue (R54, R58): eligible spores are taken, the others' bit is set again. -/
def visitQueue (s : State) (q : QueueId) : State :=
  let s := checkDesc s q
  let es := (queueEntries s q).filter fun e => e.st == .buffered && !(s.popped.any fun x => x.1 == q && x.2 == e.idx)
  let ok := es.filter (eligibleSpore s)
  let s1 := { s with popped := s.popped ++ ok.map fun e => (q, e.idx) }
  if ok.length = es.length then s1 else setActive s1 q

/-- WORKLIST_POP: Hearth core 0 takes an entry and visits its queues in ascending order (R56, R58). -/
def execWorklistPop (t : Time) (s : State) : Host.Outcome State Fault Refusal :=
  live t s fun s =>
    match operating s, s.builder.list with
    | true, e :: rest =>
      let s1 := { s with builder := { s.builder with list := rest } }
      ((upto 64).filter fun b => bit e.mask b).foldl (fun s b => visitQueue s (BitVec.ofNat 20 (64 * e.word + b))) s1
    | _, _ => s

end Sys2Proof.Machine
end

