-- ==== Sys2Proof/Machine/Wire.lean ====
section
/-!
DEFINITION. Where a context's address leads (R22, R342, R473, R483, R485), frames put on a link's egress (R334 to R337, R343), and
the areas of a queue that a job's output may touch (R140, R187).
-/
namespace Sys2Proof.Machine

/-! ### Addresses -/

/-- What an address names for a context of Frond `f`. -/
inductive Place where
  | pad (m : Mem) (w : Nat)
  | other (g : FrondId) (m : Mem) (w : Nat)
  | shared (a : Nat)
  | cfg (a : Nat)
  | remoteSS (node : Nat) (a : Nat)
  | remotePad (node : Nat) (off : Nat)
  | hole
deriving DecidableEq, Repr

/-- A Frond-region offset, local to this device (R21). -/
def frondPlace (f : FrondId) (off : Nat) : Place :=
  match padOf (off % 0x100000) with
  | some (m, w) => if off / 0x100000 = f.val then .pad m w else .other (frondNo (off / 0x100000)) m w
  | none => .hole

def placeOf (s : State) (f : FrondId) (addr : Nat) : Place :=
  let a := addr / 4 * 4
  if a < 0x1000000000 then .hole
  else if a < 0x1008000000 then frondPlace f (a - 0x1000000000)
  else if a < ssBase then .hole
  else if a < ssBase + 0x2000000 then .shared a
  else if a < 0x3000000000 then .hole
  else if a < 0x3002000000 then .cfg a
  else if a < 0x8000000000 then .hole
  else
    let node := (a - 0x8000000000) / 2 ^ 32
    let off := (a - 0x8000000000) % 2 ^ 32
    let mine := node = s.tree.node.toNat
    if !mine && !(s.tree.members.any fun m => m.node == node && !m.lost && m.joinAt.isNone) then .hole
    else if off < 0x8000000 then (if mine then frondPlace f off else .remotePad node off)
    else if off < 0x10000000 then .hole
    else if off < 0x12000000 then (if mine then .shared (ssBase + (off - 0x10000000)) else .remoteSS node (ssBase + (off - 0x10000000)))
    else .hole

/-- Through a remote window's Frond range, whichever node it names (R342, R485). -/
def viaFrondWindow (addr : Nat) : Bool := decide (0x8000000000 ≤ addr) && decide ((addr - 0x8000000000) % 2 ^ 32 < 0x8000000)

/-- Inside the image region (R24, R483). -/
def inImage (a n : Nat) : Bool := decide (imageBase ≤ a) && decide (a + n ≤ imageBase + imageSize)

/-! ### A job's context and partition -/

def ctxPart (s : State) (f : FrondId) (c : CtxId) : PartId := ((ctxJob s f c).map (·.part)).getD 0
/-- The partition that a context's requests are attributed to: its spore's, or the device class without one (R261). -/
def ctxAtt (s : State) (f : FrondId) (c : CtxId) : Option PartId := (ctxJob s f c).map (·.part)

/-! ### Requester ids (R259) -/

/-- The requester id of a Frond's group bridge. -/
def frondReq (f : FrondId) : Fin 32 := ⟨f.val / 8, by omega⟩
/-- The Hearth. -/
def hearthReq : Fin 32 := 16
/-- A Rhizoid link, inbound and transit. -/
def linkReq (l : LinkId) : Fin 32 := ⟨19 + l.val, by omega⟩

/-! ### Frames (R334 to R337) -/

/-- The seven header bytes of a frame (R334). -/
def frameHeader (ty : Nat) (f : Frame) : List Byte :=
  leBytes 7 (ty + at_ 4 f.part.val + at_ 7 f.snode.val + at_ 14 f.dnode.val + at_ 21 f.sfrond.toNat + at_ 29 f.space.toNat +
    at_ 30 f.line.toNat + at_ 50 f.tag.val)

/-- The payload filled up to 128 B. -/
def framePayload (f : Frame) : List Word := f.payload.take 32 ++ List.replicate (32 - f.payload.length) 0

def frameCrc (ty : Nat) (f : Frame) : BitVec 16 := crc16 (frameHeader ty f ++ wordsBytes (framePayload f))

/-- A frame with its CRC. -/
def mkFrame (ty : Nat) (part : PartId) (snode dnode : Nat) (sfrond : BitVec 8) (space : Bool) (line : BitVec 20) (tag : Nat)
    (payload : List Word) : Frame :=
  let f : Frame := { part := part, snode := idx 127 snode, dnode := idx 127 dnode, sfrond := sfrond, space := space, line := line
                     tag := idx 63 tag, payload := payload, crc := 0, num := 0 }
  { f with crc := frameCrc ty f }

/-- The link towards a member, by the route table (R330, R334). -/
def linkTo (s : State) (node : Nat) : Option LinkId := (s.tree.members.find? fun m => m.node == node && !m.lost).map (·.link)

/-- A packet of a requester waits at the egress of a link (R258, R259, R261). -/
def sendFrom (s : State) (req : Fin 32) (att : Option PartId) (l : LinkId) (p : Packet) : State :=
  let (id, s1) := putXfer s req att fun _ => .frame l
  modLink s1 l fun k => { k with outq := k.outq ++ [(id, p)] }

/-- A packet of the Hearth's firmware at the egress of a link: device class (R261). -/
def sendOn (s : State) (l : LinkId) (p : Packet) : State := sendFrom s hearthReq none l p

/-- A packet of this device to a node. -/
def packetTo (s : State) (part : PartId) (node : Nat) (m : Msg) : Packet :=
  { part := part, snode := idx 127 s.tree.node.toNat, dnode := idx 127 node, msg := m }

/-- A packet of the Hearth's firmware to a node by its route; without one it is lost. -/
def sendTo (s : State) (part : PartId) (node : Nat) (m : Msg) : State :=
  match linkTo s node with
  | some l => sendOn s l (packetTo s part node m)
  | none => s

/-- A packet of a context to a node, of its spore's partition (R261). -/
def sendCtx (s : State) (f : FrondId) (c : CtxId) (node : Nat) (m : Msg) : State :=
  match linkTo s node with
  | some l => sendFrom s (frondReq f) (ctxAtt s f c) l (packetTo s (ctxPart s f c) node m)
  | none => s

/-- The answer to a frame of a node, sent by the link it came in by, for the partition the frame names (R259, R261). -/
def sendAnswer (s : State) (part : PartId) (node : Nat) (m : Msg) : State :=
  match linkTo s node with
  | some l => sendFrom s (linkReq l) (some part) l (packetTo s part node m)
  | none => s

/-- The standby of the tree, once it has joined (R353). -/
def standbyNode (s : State) : Option Nat := (s.tree.members.find? fun m => m.role == 3 && !m.lost && m.joinAt.isNone).map (·.node)

/-- The manager's DONE notice for a record formed (R354). -/
def sendDone (s : State) (p : PartId) (q : QueueId) (tag : BitVec 64) : State :=
  match s.tree.role == 2, standbyNode s with
  | true, some n => sendTo s p n (.done [(tag, q)])
  | _, _ => s

/-- Payload of a WRITEW: the mask of positions, then the words (R335). -/
def maskedPayload (first : Nat) (ws : List Word) : List Word := BitVec.ofNat 32 (((2 ^ ws.length - 1) * 2 ^ first) % 2 ^ 32) :: ws.take 31

/-- Words sent to a line of another device: one WRITE for a whole line, else a WRITEW (R335, R343). -/
def remoteWrite (s : State) (f : FrondId) (c : CtxId) (node : Nat) (space : Bool) (off : Nat) (ws : List Word) : Nat × State :=
  let (id, s1) := freshId s
  let p := ctxPart s f c
  let line := BitVec.ofNat 20 (off / 128)
  let first := off % 128 / 4
  let msg : Msg := if ws.length = 32 then .write (mkFrame 1 p s.tree.node.toNat node (BitVec.ofNat 8 f.val) space line 0 ws)
    else .writew (mkFrame 2 p s.tree.node.toNat node (BitVec.ofNat 8 f.val) space line 0 (maskedPayload first ws))
  let op : RemoteOp := { id := id, f := f, c := c, node := node, read := false, tag := 0, line := off / 128, words := ws.length, job := (ctx s f c).job }
  (id, sendCtx (modTree s1 fun t => { t with tags := t.tags ++ [op] }) f c node msg)

/-- The lowest free read tag; at most 64 reads are outstanding (R343). -/
def freeTag (s : State) : Option Nat := (upto 64).find? fun t => !(s.tree.tags.any fun o => o.read && o.tag == t)

/-- A READ sent under a free tag (R335, R343). -/
def remoteRead (s : State) (f : FrondId) (c : CtxId) (node off n : Nat) : Option (Nat × State) :=
  match freeTag s with
  | none => none
  | some t =>
    let (id, s1) := freshId s
    let p := ctxPart s f c
    let fr := mkFrame 3 p s.tree.node.toNat node (BitVec.ofNat 8 f.val) true (BitVec.ofNat 20 (off / 128)) t
      [BitVec.ofNat 32 (off % 128 / 4 + at_ 5 (n - 1))]
    let op : RemoteOp := { id := id, f := f, c := c, node := node, read := true, tag := t, line := off / 128, words := n, job := (ctx s f c).job }
    some (id, sendCtx (modTree s1 fun t => { t with tags := t.tags ++ [op] }) f c node (.read fr))

/-! ### The areas of a queue (R38, R140, R187) -/

/-- The prior-solution area is writable for a job: KEEP of its requested program, and an area (R187). -/
def areaWritable (s : State) (q : QueueId) (req : Nat) : Bool := progKeep s req && qPriorArea s q != 0x3FFFF
/-- Readable, also called available (R187). -/
def areaReadable (s : State) (q : QueueId) (req : Nat) : Bool := areaWritable s q req && qPriorValid s q
def areaAddr (s : State) (q : QueueId) : Nat := imageBase + 64 * qPriorArea s q
/-- Words of the area: the declared output of the requested program (R38, R161). -/
def areaWords (s : State) (req : Nat) : Nat := if progForm s req != 0 then max 1 (progOutDecl s req) else progOutDecl s req

/-- The fallback chain: the requested program, then FBPROG while FBEN is 1, ending at a program already in it, at most three
steps (R190). -/
def fbChain (s : State) : Nat → List Nat → Nat → List Nat
  | 0, _, p => [p]
  | n + 1, seen, p =>
    if progFbEn s p && !(p :: seen).contains (progFb s p) then p :: fbChain s n (p :: seen) (progFb s p) else [p]

/-- The program that governs a queue's state block (R140). -/
def govProg (s : State) (req : Nat) : Option Nat := (fbChain s 3 [] req).find? fun p => progStateful s p

/-- The state block of a queue under its governing program; none outside SQ0 … SQ0 + SQN − 1 (R140). -/
def stateAddr (s : State) (g : Nat) (q : QueueId) : Option Nat :=
  if progSq0 s g ≤ q.toNat ∧ q.toNat < progSq0 s g + progSqn s g then
    some (imageBase + 64 * progSbase s g + (q.toNat - progSq0 s g) * progSstride s g * 64)
  else none

/-- Whether an address lies in the output window of a job's spore. -/
def inOutput (s : State) (j : Job) (a : Nat) : Bool :=
  let b := spOutAddr s j.part j.spore 0
  decide (b ≤ a) && decide (a < b + 4 * spOutLen j.spore)

/-- A job's write to the Shared Store is noted: the area, the state data or the output has begun (R144, R176). -/
def noteWrite (s : State) (id : Nat) (a : Nat) : State :=
  match jobOf s id with
  | none => s
  | some j =>
    let area := areaWritable s j.queue j.req.toNat && decide (areaAddr s j.queue ≤ a) &&
      decide (a < areaAddr s j.queue + 4 * areaWords s j.req.toNat)
    let st := match (govProg s j.req.toNat).bind fun g => (stateAddr s g j.queue).map fun b => (b, progSstride s g) with
      | some (b, n) => decide (b + 64 ≤ a) && decide (a < b + 64 * n)
      | none => false
    let out := inOutput s j a
    modJob s id fun j => { j with
      areaAt := j.areaAt || area, stateAt := j.stateAt || st, outAt := j.outAt || out
      finish := if out then stamp s else j.finish }

/-- The words from `a`, of `n`, that share one fate, and whether they reach memory: output between the checked and the declared length is
discarded, whichever is the longer (R49, rows 10 and 11). -/
def outPiece (s : State) (j : Job) (a n : Nat) : Nat × Bool :=
  let b := spOutAddr s j.part j.spore 0
  let lo := b + 4 * min (spOutLen j.spore) (progOutDecl s j.hold.toNat)
  let hi := b + 4 * max (spOutLen j.spore) (progOutDecl s j.hold.toNat)
  if a < b then (min n (ceilDiv (b - a) 4), true)
  else if a < lo then (min n (ceilDiv (lo - a) 4), true)
  else if a < hi then (min n (ceilDiv (hi - a) 4), false)
  else (n, true)

def isStretch (j : Job) : Bool := match j.shard with | .stretch _ _ _ _ _ => true | _ => false

/-- A holder's output goes to the manager through node 0's window (R347). -/
def stretchOut (j : Job) (node : Nat) : Bool := node == 0 && isStretch j

/-- A write into an output window counts for the sharded spore it belongs to (R35, R347). -/
def noteShards (s : State) (a : Nat) : State :=
  s.jobs.foldl (fun s j => match j.shard with | .sharded _ _ _ => if inOutput s j a then noteWrite s j.id a else s | _ => s) s

/-! ### The input as a program sees it (R49, R148, R159) -/

/-- A measurement record of a positioning program names a user or a site that the image does not define, by its word 0; SITE2 counts for
TDOA alone (R148, R149). -/
def badMeasurement (p : Nat) (w : Word) : Bool :=
  decide (Config.usersOf p ≤ field w 10 2) || !Config.siteDefined p (field w 18 11) ||
    (field w 1 0 == 2 && !Config.siteDefined p (field w 26 19))

/-- Measurements that a positioning program takes of a spore (R159). -/
def mostMeasurements : Nat := 16384

/-- Declared input words beyond IN_LEN read as zero (R49, row 9); a positioning program ignores measurements beyond its limit and reads SW
of one that names an undefined user or site as 0 (R148, R159). -/
def inSeen (s : State) (j : Job) (a : Nat) (ws : List Word) : List Word :=
  let b := spInAddr s j.part j.spore 0
  let p := j.hold.toNat
  (upto ws.length).map fun i =>
    let x := a + 4 * i
    if x < b || b + 4 * progInDecl s p ≤ x then wordAt ws i
    else if b + 4 * spInLen j.spore ≤ x then 0
    else if progKind s p != 4 then wordAt ws i
    else
      let k := (x - b) / 16
      if mostMeasurements ≤ k then 0
      else if (x - b) / 4 % 4 = 2 && badMeasurement p (rdWord s (b + 16 * k)) then 0
      else wordAt ws i

/-- The input makes a program set CLAMP, by the words it read of its declared input (R148, R159): of a positioning program by its measurements,
of another estimation program free. -/
def inputClamps (s : State) (p inLen : Nat) (ws : List Word) : Bool :=
  if progKind s p = 0 then false
  else if progKind s p = 4 then
    decide (4 * mostMeasurements < min inLen (progInDecl s p)) ||
      (upto (min mostMeasurements (progInDecl s p / 4))).any fun k => badMeasurement p (wordAt ws (4 * k))
  else Config.inputBeyond p (wordsBytes (ws.take (progInDecl s p)))

/-! ### Headers of state blocks (R140, R141) -/

/-- The word at `a` lies in the header of a state block of some program of the image (R140, R141). -/
def inHeader (s : State) (a : Nat) : Bool :=
  s.programs.any fun p =>
    let b := imageBase + 64 * progSbase s p.1
    let n := 64 * progSstride s p.1
    progStateful s p.1 && decide (b ≤ a) && decide (a < b + n * progSqn s p.1) && decide ((a - b) % n < 64)

/-- Words written by a port; write-backs that wait for them are skipped. -/
def ssStore (s : State) (a : Nat) (ws : List Word) : State :=
  modPort (wrWords s a ws) (idx 20 (portOf a)) fun x =>
    { x with wback := x.wback.filter fun b => !(decide (a ≤ b) && decide (b < a + 4 * ws.length)) }

/-- Words that a program stores: one for a header is discarded, since only the firmware writes headers (R7, R141). -/
def progStore (s : State) (a : Nat) (ws : List Word) : State :=
  (upto ws.length).foldl (fun s i => if inHeader s (a + 4 * i) then s else ssStore s (a + 4 * i) [wordAt ws i]) s

end Sys2Proof.Machine
end

