-- ==== Sys2Proof/Machine/Engines.lean ====
section
/-!
DEFINITION. What moves data on a Frond and at the Shared Store's ports: loads, stores, tags, regions, windows, fences, atomics, the
fetch and drain engines, the slot wheels, inbound lines and scrub (R208 to R240, R243, R301 to R305, R482 to R485).
-/
namespace Sys2Proof.Machine

/-! ### The store buffer (R301, R302) -/

def modStore (s : State) (f : FrondId) (c : CtxId) (g : List StoreEnt → List StoreEnt) : State :=
  modCtx s f c fun x => { x with store := g x.store }

/-- The oldest store leaves for a home outside the Frond (R302, R343). -/
def kickStores (s : State) (f : FrondId) (c : CtxId) : State :=
  match (ctx s f c).store with
  | [] => s
  | e :: _ =>
    if e.sent then s
    else match e.home with
    | .shared =>
      let (id, s1) := putXfer s (frondReq f) (ctxAtt s f c) fun id => .store f c id e.addr e.data
      modStore s1 f c fun l => l.modify 0 fun e => { e with sent := true, id := id }
    | .remote n =>
      let (id, s1) := remoteWrite s f c n true (e.addr - ssBase) [e.data]
      modStore s1 f c fun l => l.modify 0 fun e => { e with sent := true, id := id }
    | _ => s

/-- The value of a word this context has stored and that is not yet visible (R302). -/
def forwarded (x : Ctx) (home : Home) (addr : Nat) : Option Word :=
  (x.store.reverse.find? fun e => e.home == home && e.addr == addr).map (·.data)

/-- A store enters the buffer: at most 8 entries, and one to another home than the store before it waits (R302). -/
def bufferStore (k : Issue) (c : CtxId) (s : State) (home : Home) (addr : Nat) (v : Word) : Issued :=
  let x := ctx s k.f c
  let other := match x.store.getLast? with | some e => e.home != home | none => false
  if 8 ≤ x.store.length || other || x.load.isSome then .held s
  else .done (kickStores (modStore s k.f c fun l => l ++ [{ home := home, addr := addr, data := v, sent := false, done := false, id := 0 }]) k.f c)

/-! ### Loads and stores (R302, R342, R473, R483 to R485) -/

/-- A load outside the Frond: forwarded, or sent and awaited (R302). -/
def startLoad (k : Issue) (c : CtxId) (s : State) (home : Home) (addr : Nat) (rd : Reg) (send : State → Option (Nat × State)) : Issued :=
  let x := ctx s k.f c
  if x.load.isSome then .held s
  else match forwarded x home addr with
  | some v => .done (setResult' s k.f c rd v 1)
  | none =>
    match send s with
    | none => .held s
    | some (id, s1) => .done (modCtx (claim s1 k.f c rd) k.f c fun x => { x with load := some { home := home, addr := addr, rd := some rd, id := id, amo := false } })

/-- The read of a Shared Store word before its port. -/
def sendLoad (f : FrondId) (c : CtxId) (addr : Nat) (s : State) : Option (Nat × State) :=
  some (putXfer s (frondReq f) (ctxAtt s f c) fun id => .load f c id addr)

/-- First word and number of the words a scratchpad load reads: one, or the line that SCALE is loaded from (R85). -/
def loadWords (dst : LoadDst) (w : Nat) : Nat × Nat :=
  match dst with
  | .reg _ => (w, 1)
  | .scale => (w / 32 * 32, 32)

/-- A Crumb load, wherever its address leads. A scratchpad load is held until its CRD slot (R484); no load passes one that has left the Frond
(R302). A TAKE or PEEK by address of a line of an enabled region is performed as of any other line, and leaves the pointers: the rules name
PLAIN reads alone (R225; DESIGN CHOICE, log entry 92). SCALE is loaded from a scratchpad (R85). -/
def loadAny (k : Issue) (dst : LoadDst) (addr : Addr) (tag : TagKind) (alias_ : Reg → CtxId → State → Issued) : CtxId → State → Issued :=
  fun c s =>
  let x := ctx s k.f c
  if viaFrondWindow addr.toNat then .trap .window s
  else match placeOf s k.f addr.toNat, dst with
  | .pad m w, _ =>
    if !padsOn (frond s k.f) m (loadWords dst w).1 (loadWords dst w).2 then .trap .window s
    else if x.load.isSome then .held s
    else .held (modCtx s k.f c fun x => { x with
      slotWait := some { m := m, word := (loadWords dst w).1, tag := readKind tag, rd := dst, put := none, issue := k } })
  | .shared a, .reg rd => if inImage a 4 then startLoad k c s .shared a rd (sendLoad k.f c a) else .trap .window s
  | .remoteSS n a, .reg rd => startLoad k c s (.remote n) a rd fun s => remoteRead s k.f c n (a - ssBase) 1
  | .cfg _, .reg rd => alias_ rd c s
  | _, _ => .trap .window s

/-- A Crumb store, wherever its address leads. A PUT is held until its CRD slot, behind every earlier store (R221, R302). -/
def storeAny (k : Issue) (rs : Reg) (addr : Addr) (tag : TagKind) : CtxId → State → Issued := fun c s =>
  let x := ctx s k.f c
  let fr := frond s k.f
  let v := regVal s k.f c rs
  if viaFrondWindow addr.toNat then .trap .window s
  else match placeOf s k.f addr.toNat with
  | .pad m w =>
    if !padOn fr m w || inRegion fr m w then .trap .window s
    else match writeKind tag, tagLine m w with
      | .put, some _ =>
        if x.load.isSome then .held s
        else .held (modCtx s k.f c fun x => { x with slotWait := some { m := m, word := w, tag := .put, rd := .reg rs, put := some v, issue := k } })
      | _, _ => bufferStore k c s .scratch (padAddr k.f m w) v
  | .shared a => if inImage a 4 then bufferStore k c s .shared a v else .trap .window s
  | .remoteSS n a => bufferStore k c s (.remote n) a v
  | .cfg a => if 0x3000F00000 ≤ a && a < 0x3000F01000 then bufferStore k c s .config a v else .trap .window s
  | _ => .trap .window s

/-- SCRATCHPAD_STORE (R484). -/
def execScratchpadStore (k : Issue) (rs : Reg) (addr : Addr) (tag : TagKind) (s : State) : Host.Outcome State Fault Refusal :=
  crumb k [rs] s (storeAny k rs addr tag)

/-- SHARED_STORE_STORE (R483). -/
def execSharedStoreStore (k : Issue) (rs : Reg) (addr : Addr) (s : State) : Host.Outcome State Fault Refusal :=
  crumb k [rs] s (storeAny k rs addr .plain)

/-- REMOTE_STORE (R342, R343). -/
def execRemoteStore (k : Issue) (rs : Reg) (addr : Addr) (s : State) : Host.Outcome State Fault Refusal :=
  crumb k [rs] s (storeAny k rs addr .plain)

/-- CONFIG_ALIAS_STORE: into the store buffer (R475, R484). -/
def execConfigAliasStore (k : Issue) (rs : Reg) (addr : Addr) (s : State) : Host.Outcome State Fault Refusal :=
  crumb k [rs] s (storeAny k rs addr .plain)

/-! ### Fences and atomics (R304, R305) -/

/-- Every earlier store of the context is visible. -/
def storesVisible (x : Ctx) : Bool := x.store.isEmpty

/-- Every earlier engine command of the context has retired (R243, R304). -/
def enginesRetired (x : Ctx) : Bool :=
  x.fetchQ.isEmpty && x.drainQ.isEmpty && (upto 16).all fun i => (vgetD x.sb i none).isNone

/-- A fence: its condition, else it is held (R304). -/
def fence (k : Issue) (ok : Ctx → Bool) (s : State) : Host.Outcome State Fault Refusal :=
  crumb k [] s fun c s => if ok (ctx s k.f c) then .done s else .held s

/-- FENCE.SL (R304). -/
def execFenceSl (k : Issue) (s : State) : Host.Outcome State Fault Refusal := fence k storesVisible s
/-- FENCE.E (R304). -/
def execFenceE (k : Issue) (s : State) : Host.Outcome State Fault Refusal := fence k enginesRetired s
/-- FENCE.ALL (R304). -/
def execFenceAll (k : Issue) (s : State) : Host.Outcome State Fault Refusal := fence k (fun x => storesVisible x && enginesRetired x) s

/-- An atomic on a word of the image region of the local Shared Store; anything else is a window fault (R305, R343, R483). -/
def amo (k : Issue) (op : AmoOp) (rd : Reg) (addr : Addr) (x y : Reg) : CtxId → State → Issued := fun c s =>
  match placeOf s k.f addr.toNat with
  | .shared a =>
    if !inImage a 4 || decide (0x8000000000 ≤ addr.toNat) then .trap .window s
    else if !storesVisible (ctx s k.f c) || (ctx s k.f c).load.isSome then .held s
    else
      let (id, s1) := putXfer s (frondReq k.f) (ctxAtt s k.f c) fun id => .amo k.f c id a op (regVal s k.f c x) (regVal s k.f c y)
      .done (modCtx (claim s1 k.f c rd) k.f c fun x => { x with load := some { home := .shared, addr := a, rd := some rd, id := id, amo := true } })
  | _ => .trap .window s

/-- AMOSWAP (R305). -/
def execAmoswap (k : Issue) (rd : Reg) (addr : Addr) (rs : Reg) (s : State) : Host.Outcome State Fault Refusal :=
  crumb k [rs] s (amo k .swap rd addr rs rs)
/-- AMOADD (R305). -/
def execAmoadd (k : Issue) (rd : Reg) (addr : Addr) (rs : Reg) (s : State) : Host.Outcome State Fault Refusal :=
  crumb k [rs] s (amo k .add rd addr rs rs)
/-- AMOCAS (R305). -/
def execAmocas (k : Issue) (rd : Reg) (addr : Addr) (rcmp rnew : Reg) (s : State) : Host.Outcome State Fault Refusal :=
  crumb k [rcmp, rnew] s (amo k .cas rd addr rcmp rnew)

/-- The word an atomic writes: the new one, the sum, or the new one where the old one equals the first operand. -/
def amoWord (op : AmoOp) (old x y : Word) : Word :=
  match op with
  | .swap => x
  | .add => old + x
  | .cas => if old = x then y else old

/-! ### Tags, regions and windows from the Crumb (R218, R226, R230, R251) -/

/-- TSET and TCLR take the memory's CRD slot, behind every earlier store of the context (R214, R218, R302, R484). On a line of an enabled
region they change the tag and leave the pointers: the rules do not say (R225; DESIGN CHOICE, log entry 92). -/
def tagInstr (k : Issue) (m : Mem) (line : BitVec 11) (b : Bool) : CtxId → State → Issued := fun c s =>
  match tagLine m (32 * line.toNat) with
  | none => .done s
  | some _ =>
    if !padOn (frond s k.f) m (32 * line.toNat) then .trap .window s
    else if !ownSlot s k.f m .crd || !storesVisible (ctx s k.f c) then .held s
    else .done (takeSlot (modFrond s k.f fun fr => tagSet fr m line.toNat b) k.f m)

/-- TSET (R218). -/
def execTset (k : Issue) (m : Mem) (line : BitVec 11) (s : State) : Host.Outcome State Fault Refusal := crumb k [] s (tagInstr k m line true)
/-- TCLR (R218). -/
def execTclr (k : Issue) (m : Mem) (line : BitVec 11) (s : State) : Host.Outcome State Fault Refusal := crumb k [] s (tagInstr k m line false)

/-- A CRD slot of CRESET: the next 32 lines of the region become EMPTY; with the last of them the pointers become 0 (R226). -/
def cresetSlot (k : Issue) (i : Fin 8) (c : CtxId) (s : State) : Issued :=
  let r := (frond s k.f).circ.get i
  let n := (ctx s k.f c).cresetAt
  let s1 := takeSlot (circEmpty s k.f i n (min 32 (r.lines - n))) k.f r.mem'
  if n + 32 < r.lines then .held (modCtx s1 k.f c fun x => { x with cresetAt := n + 32 }) else .done (circZero s1 k.f i)

/-- CRESET by the owning context, in the CRD slots of the region's memory (R226); another context, or one in scoreboard mode, faults (R225,
R251). So does one of a region whose EN is 0, for which the rules state no outcome (DESIGN CHOICE, log entry 92). -/
def execCreset (k : Issue) (i : Fin 8) (s : State) : Host.Outcome State Fault Refusal :=
  crumb k [] s fun c s =>
    let r := (frond s k.f).circ.get i
    if !r.en || r.ctx != c || (ctx s k.f c).sbEn then .trap .window s
    else if !ownSlot s k.f r.mem' .crd || !storesVisible (ctx s k.f c) then .held s
    else cresetSlot k i c s

/-- A window as WOPEN's words give it, with the clamps of R227; ACC and REF count from the opening. -/
def windowOf (w0 w1 w2 : Word) : FWin :=
  let last := if field w0 2 1 = 3 then 0xFFFF else memWordsN (memOfCode (field w0 2 1)) - 1
  let base := min (field w1 15 0) last
  { opened := true, mem := BitVec.ofNat 2 (field w0 2 1), mode := BitVec.ofNat 2 (if field w0 4 3 = 3 then 0 else field w0 4 3)
    ctx := idx 3 (field w0 6 5), circ := idx 7 (field w0 9 7), xdev := bit w0 10, base := BitVec.ofNat 16 base
    limit := BitVec.ofNat 16 (clampNat base last (field w1 31 16)), srcf := BitVec.ofNat 8 (field w2 7 0)
    srcdev := BitVec.ofNat 24 (field w2 31 8), acc := 0, ref := 0 }

/-- WOPEN: a window open under another context, or MODE 2 in scoreboard mode, faults (R230, R251). -/
def execWopen (k : Issue) (i : Fin 16) (w0 w1 w2 : Word) (s : State) : Host.Outcome State Fault Refusal :=
  crumb k [] s fun c s =>
    let w := (frond s k.f).fwin.get i
    if (w.opened && w.ctx != c) || ((ctx s k.f c).sbEn && field w0 4 3 == 2) then .trap .window s
    else .done (modFrond s k.f fun fr => { fr with fwin := vset fr.fwin i (windowOf w0 w1 w2) })

/-- WCLOSE: a window of another context is left alone (R227, R230). -/
def execWclose (k : Issue) (i : Fin 16) (s : State) : Host.Outcome State Fault Refusal :=
  crumb k [] s fun c s =>
    .done (modFrond s k.f fun fr => { fr with fwin := vmod fr.fwin i fun w => if w.opened && w.ctx == c then { w with opened := false } else w })

/-! ### The transfer engines (R19, R216, R217, R221, R229, R243, R303) -/

def engQ (x : Ctx) (e : Engine) : List EngCmd := match e with | .fetch => x.fetchQ | .drain => x.drainQ
def setEngQ (x : Ctx) (e : Engine) (q : List EngCmd) : Ctx := match e with | .fetch => { x with fetchQ := q } | .drain => { x with drainQ := q }
def engOwner (e : Engine) : Owner := match e with | .fetch => .fetch | .drain => .drain
/-- ENGINE codes of trace and wait records (R428). -/
def engCode (e : Engine) : Nat := match e with | .fetch => 2 | .drain => 3

def modEng (s : State) (f : FrondId) (c : CtxId) (e : Engine) (g : EngCmd → EngCmd) : State :=
  modCtx s f c fun x => setEngQ x e ((engQ x e).modify 0 g)

/-- The engine's command waits: its block begins or goes on (R432). -/
def blockEng (s : State) (f : FrondId) (c : CtxId) (e : Engine) (data : Word) : State :=
  modEng s f c e fun q => { q with blk := blkPut q.blk s.now data }

/-- It goes on. -/
def unblockEng (s : State) (f : FrondId) (c : CtxId) (e : Engine) : State :=
  match engQ (ctx s f c) e with
  | q :: _ => modEng (logWaitEnd s f c q.blk) f c e fun q => { q with blk := none }
  | [] => s

/-- Words of a command: a strided read gathers 1 to 32; a transposed read moves its block (R216, R217). -/
def engWords (a : EngArgs) : Nat :=
  match a.src with
  | .strided _ _ _ _ => clampNat 1 32 a.n.toNat
  | .transposed _ _ fmt _ => 32 * vecWords false fmt
  | _ => a.n.toNat

/-- The memories an engine has a path to: the fetch engine reads W and writes A and P, the drain engine reads P and writes W and A (R211). -/
def hasPath (e : Engine) (m : Mem) (write : Bool) : Bool :=
  match e, m with
  | .fetch, .w => !write
  | .fetch, _ => write
  | .drain, .p => !write
  | .drain, _ => write

/-- The same for a place by address; other places are checked where they are named. -/
def pathTo (s : State) (f : FrondId) (e : Engine) (a : Nat) (write : Bool) : Bool :=
  match placeOf s f a with
  | .pad m _ => hasPath e m write
  | _ => true

/-- A run of words from an address lies where an engine may go; reads name no other Frond and no remote scratchpad (R483, R485). -/
def spanOk (s : State) (f : FrondId) (a n : Nat) (write : Bool) : Bool :=
  if n = 0 then true
  else match placeOf s f a, placeOf s f (a + 4 * (n - 1)) with
  | .pad m w, .pad m2 _ => m == m2 && padsOn (frond s f) m w n && !(write && (upto n).any fun i => inRegion (frond s f) m (w + i)) &&
      !(viaFrondWindow a && !write)
  | .other g _ _, .other g2 _ _ => write && g == g2
  | .shared x, .shared _ => inImage x (4 * n)
  | .remoteSS _ _, .remoteSS _ _ => true
  | .remotePad _ _, .remotePad _ _ => write
  | _, _ => false

/-- The words a strided read names (R216). -/
def stridedWords (a0 st : BitVec 16) (n : Nat) : List Int := (upto n).map fun k => Int.ofNat a0.toNat + Int.ofNat k * st.toInt

/-- The source of a command: inside memory and power, where the engine has a path, in a region that is its own. The rules state no outcome for a
memory that the engine's paths do not name: the model raises the window fault of a forbidden region (R211, R22; DESIGN CHOICE, log entry 96). -/
def srcOk (s : State) (f : FrondId) (c : CtxId) (e : Engine) (a : EngArgs) : Bool :=
  let fr := frond s f
  match a.src with
  | .addr x _ => spanOk s f x.toNat (engWords a) false && pathTo s f e x.toNat false
  | .strided m a0 st _ => hasPath e m false && (stridedWords a0 st (engWords a)).all fun w => decide (0 ≤ w) && padOn fr m w.toNat
  | .transposed m a0 _ _ => hasPath e m false && padsOn fr m (a0.toNat / 32 * 32) (engWords a)
  | .circ i => circAllowed fr c (engOwner e) i false

/-- The destination of a command, in the same way; another Frond is a destination of the drain engine alone (R485). -/
def dstOk (s : State) (f : FrondId) (c : CtxId) (e : Engine) (a : EngArgs) : Bool :=
  match a.dst with
  | .addr x _ => (e == .drain || (match placeOf s f x.toNat with | .other _ _ _ => false | .remotePad _ _ => false | _ => true)) &&
      spanOk s f x.toNat (engWords a) true && pathTo s f e x.toNat true
  | .circ i => circAllowed (frond s f) c (engOwner e) i true

/-- The scratchpad words a command touches, each with its memory (R243, R247). -/
def engTouches (s : State) (f : FrondId) (a : EngArgs) : List (Mem × Nat × Nat × Bool) :=
  let n := engWords a
  let src : List (Mem × Nat × Nat × Bool) := match a.src with
    | .addr x _ => (match placeOf s f x.toNat with | .pad m w => [(m, w, w + n - 1, false)] | _ => [])
    | .strided m a0 st _ =>
      let ws := stridedWords a0 st n
      let lo := ws.foldl (fun l w => if w < l then w else l) (Int.ofNat a0.toNat)
      let hi := ws.foldl (fun h w => if h < w then w else h) (Int.ofNat a0.toNat)
      [(m, lo.toNat, hi.toNat, false)]
    | .transposed m a0 _ _ => [(m, a0.toNat / 32 * 32, a0.toNat / 32 * 32 + n - 1, false)]
    | .circ _ => []
  let dst : List (Mem × Nat × Nat × Bool) := match a.dst with
    | .addr x _ => (match placeOf s f x.toNat with | .pad m w => [(m, w, w + n - 1, true)] | _ => [])
    | .circ _ => []
  src ++ dst

/-- One range for each memory a command touches (R243). -/
def engRanges (s : State) (f : FrondId) (a : EngArgs) : List SbRange := sbRanges (engTouches s f a)

/-- Where a command stands: words already moved, words held, an access awaited. -/
def engRead (s : State) (f : FrondId) (c : CtxId) (e : Engine) (q : EngCmd) : State :=
  match q.args.src with
  | .addr x _ =>
    let a := x.toNat / 4 * 4 + 4 * q.done
    let n := min (engWords q.args - q.done) ((128 - a % 128) / 4)
    match placeOf s f a with
    | .shared p =>
      let (id, s1) := putXfer s (frondReq f) (ctxAtt s f c) fun _ => .engRead f c e p n
      modEng s1 f c e fun q => { q with busy := some id }
    | .remoteSS node p =>
      match remoteRead s f c node (p - ssBase) n with
      | some (id, s1) => modEng s1 f c e fun q => { q with busy := some id }
      | none => s
    | _ => s
  | _ => s

/-- The output of a spore that is being aborted is discarded (R297); of one that is dropped, everything. -/
def discards (s : State) (f : FrondId) (c : CtxId) (a : Nat) : Bool :=
  (ctx s f c).noOutput && (match ctxJob s f c with | some j => inOutput s j a | none => true)

/-- Words have arrived at their destination: the command goes on, or ends with its trace record. -/
def engMoved (s : State) (f : FrondId) (c : CtxId) (e : Engine) (n : Nat) : State :=
  match engQ (ctx s f c) e with
  | [] => s
  | q :: _ =>
    let left := (q.buf.getD []).drop n
    if engWords q.args ≤ q.done + n then
      traceOp (modCtx (logWaitEnd s f c q.blk) f c fun x => setEngQ x e ((engQ x e).drop 1)) f c (engCode e) 2
    else modEng s f c e fun q => { q with
      done := q.done + n, buf := if left.isEmpty then none else some left, busy := none, slots := 0, part := [] }

/-- Two lines come from one sender: one engine of a Frond, on this device or another. -/
def sameSender (a b : LineFrom) : Bool := a.unit == b.unit && a.path == b.path && a.node == b.node

/-- A line meets a full buffer, or a line of its sender that is still held back (R229). -/
def mustHold (fr : Frond) (l : InLine) : Bool := decide (16 ≤ fr.inbound.length) || fr.held.any fun h => sameSender h.1.sender l.sender

/-- Lines for another Frond of this device reach its inbound buffer, or are refused there (R229). -/
def pushInbound (s : State) (g : FrondId) (l : InLine) : State :=
  modFrond s g fun fr =>
    if mustHold fr l then { fr with held := fr.held ++ [(l, s.now + 64 * tXC)] } else { fr with inbound := fr.inbound ++ [l] }

/-- The 32 words of a line with `ws` at a position. -/
def lineOf (first : Nat) (ws : List Word) : List (Option Word) :=
  (upto 32).map fun i => if first ≤ i then ws[i - first]? else none

/-- A command's held words leave for a destination outside the Frond's own scratchpads. -/
def engWrite (s : State) (f : FrondId) (c : CtxId) (e : Engine) (q : EngCmd) (ws : List Word) : State :=
  match q.args.dst with
  | .addr x _ =>
    let a := x.toNat / 4 * 4 + 4 * q.done
    let n := min ws.length ((128 - a % 128) / 4)
    match placeOf s f a with
    | .shared p =>
      let (n, keep) := match ctxJob s f c with | some j => outPiece s j p n | none => (n, true)
      if !keep || discards s f c p then engMoved s f c e n
      else
        let (id, s1) := putXfer s (frondReq f) (ctxAtt s f c) fun _ => .engWrite f c e p (ws.take n) true (ctx s f c).job
        modEng s1 f c e fun q => { q with busy := some id }
    | .other g m w =>
      let (id, s1) := freshId s
      let line : InLine := { sender := { part := ctxPart s f c, unit := BitVec.ofNat 8 f.val, path := none, node := 0, ctx := c, id := id, job := (ctx s f c).job }
                             mem := m, word := w / 32 * 32, data := lineOf (w % 32) (ws.take n) }
      let s2 := modEng s1 f c e fun q => { q with busy := some id }
      if mustHold (frond s2 g) line then pushInbound (blockEng s2 f c e (blkData 0 (engCode e) 0 g.val)) g line
      else pushInbound s2 g line
    | .remoteSS node p =>
      let (n, keep) := match ctxJob s f c with
        | some j => if stretchOut j node then outPiece s j p n else (n, true)
        | none => (n, true)
      let out := match ctxJob s f c with | some j => stretchOut j node && discards s f c p | none => false
      if !keep || out then engMoved s f c e n
      else
        let (id, s1) := remoteWrite s f c node true (p - ssBase) (ws.take n)
        modEng s1 f c e fun q => { q with busy := some id }
    | .remotePad node off =>
      let (id, s1) := remoteWrite s f c node false off (ws.take n)
      modEng s1 f c e fun q => { q with busy := some id }
    | _ => s
  | _ => s

/-- An engine of a context that is to stop begins no further piece; one whose words it holds is still written (R288). -/
def engStops (x : Ctx) (q : EngCmd) : Bool := stopsHere x && q.buf.isNone

/-- The engine of the running context goes on with its first command where that leaves the Frond. -/
def engKick (s : State) (f : FrondId) (c : CtxId) (e : Engine) : State :=
  if runningCtx s f != some c then s
  else match engQ (ctx s f c) e with
  | [] => s
  | q :: _ =>
    if q.busy.isSome || q.poison || engStops (ctx s f c) q then s
    else match q.buf with
    | none => if q.done < engWords q.args then engRead s f c e q else engMoved s f c e 0
    | some ws => engWrite s f c e q ws

/-- At most as many pieces as a command has words follow one another at once (discarded output, empty commands). -/
def engKicks (s : State) (f : FrondId) (c : CtxId) (e : Engine) : Nat → State
  | 0 => s
  | n + 1 => engKicks (engKick s f c e) f c e n

/-- FETCH_COMMAND and DRAIN_COMMAND: issued once every earlier store is visible, a queue entry and range entries are free
(R245, R303, R484); an address the engine may not name faults at issue (R483, R485). -/
def engCommand (k : Issue) (e : Engine) (a : EngArgs) : CtxId → State → Issued := fun c s =>
  let x := ctx s k.f c
  if !srcOk s k.f c e a || !dstOk s k.f c e a then .trap .window s
  else if !storesVisible x || 8 ≤ (engQ x e).length then .held s
  else match sbMark s k.f c (engOwner e) (engRanges s k.f a) with
  | none => .held (countLost (blockCtx s k.f c .range (blkData 3 (engCode e) 0 0)) k.f c true)
  | some (s1, is) =>
    let s2 := modCtx s1 k.f c fun x => setEngQ x e (engQ x e ++
      [{ args := a, done := 0, buf := none, busy := none, poison := false, slots := 0, part := [], mark := is, blk := none }])
    .done (engKicks (traceOp s2 k.f c (engCode e) 1) k.f c e 34)

/-- FETCH_COMMAND (R303). -/
def execFetchCommand (k : Issue) (a : EngArgs) (s : State) : Host.Outcome State Fault Refusal := crumb k [] s (engCommand k .fetch a)
/-- DRAIN_COMMAND (R303). -/
def execDrainCommand (k : Issue) (a : EngArgs) (s : State) : Host.Outcome State Fault Refusal := crumb k [] s (engCommand k .drain a)

/-- A command's words are read; an uncorrectable one stops it and faults the context (R236). -/
def engGot (s : State) (f : FrondId) (c : CtxId) (e : Engine) (ws : List Word) (bad : Bool) : State :=
  if bad then raiseFault (modEng s f c e fun q => { q with busy := none, poison := true }) f c .ecc
  else engKick (modEng s f c e fun q => { q with busy := none, buf := some ws }) f c e

/-- The first command of an engine of the running context, when it waits for nothing; a resumed context's waits for W phase 0 (R213). -/
def engReady (s : State) (f : FrondId) (e : Engine) : Option (CtxId × EngCmd) :=
  match runningCtx s f with
  | none => none
  | some c => if s.now < (frond s f).resumeAt then none else match engQ (ctx s f c) e with
    | q :: _ => if q.busy.isSome || q.poison || engStops (ctx s f c) q then none else some (c, q)
    | [] => none

/-- Words on their way back to an engine, 6 FC from the start of the slot in a memory that read them (R212). -/
def flyWords (s : State) (f : FrondId) (m : Mem) (c : CtxId) (e : Engine) (ws : List Word) (bad : Bool) : State :=
  fly (modEng (unblockEng s f c e) f c e fun q => { q with busy := some 0 }) f m (.engRead c e ws bad)

/-- A write on its way to acknowledgement, 6 FC from the start of its slot (R212). -/
def flyAck (s : State) (f : FrondId) (m : Mem) (c : CtxId) (e : Engine) (n : Nat) : State :=
  fly (modEng (unblockEng s f c e) f c e fun q => { q with busy := some 0 }) f m (.engAck c e n)

/-- An engine's access is blocked in its slot by a range (R244), or by a tag (R219). -/
def engStall (s : State) (f : FrondId) (c : CtxId) (e : Engine) (m : Mem) (w : Nat) : State :=
  countStall (blockEng s f c e (blkData 3 (engCode e) (memCode m) (w / 32))) f c
def engBlocked (s : State) (f : FrondId) (c : CtxId) (e : Engine) (m : Mem) (w : Nat) : State :=
  blockEng s f c e (blkData 1 (engCode e) (memCode m) (w / 32))

/-- The first of some lines whose tag blocks an access of a kind. -/
def tagBlocks (fr : Frond) (m : Mem) (k : TagKind) (lines : List Nat) : Option Nat :=
  lines.find? fun l => (tagAccess fr m (32 * l) k).isNone

/-- Lines of a list of words, each once. -/
def linesOfWords (ws : List Nat) : List Nat := (ws.map (· / 32)).foldl (fun ls l => if ls.contains l then ls else ls ++ [l]) []

/-- An owned slot of a strided read: it takes as many as its words touch rows of one bank; the last one checks the tags of its lines and reads its
words, which the engine has 6 FC later (R216, R219). A range that shares a word with it blocks it in its slot (R244). The rules do not say which
slot reads which word (DESIGN CHOICE, log entry 97). -/
def stridedSlot (s : State) (f : FrondId) (c : CtxId) (e : Engine) (q : EngCmd) (m : Mem) (a0 st : BitVec 16) (tag : TagKind) : State :=
  let ws := (stridedWords a0 st (engWords q.args)).map (·.toNat)
  let lines := linesOfWords ws
  match ws.find? fun w => sbConflict (ctx s f c) (engOwner e) m w w false with
  | some w => engStall s f c e m w
  | none =>
    if q.slots + 1 < gatherSlots m ws then modEng (unblockEng s f c e) f c e fun q => { q with slots := q.slots + 1 }
    else match tagBlocks (frond s f) m (readKind tag) lines with
    | some l => engBlocked s f c e m (32 * l)
    | none =>
      let (s1, bad) := ws.foldl (fun (r : State × Bool) w =>
        let (s, b) := padCheck r.1 f c.val m w false
        (s, r.2 || b)) (s, false)
      let s2 := lines.foldl (fun s l => modFrond s f fun fr => (tagAccess fr m (32 * l) (readKind tag)).getD fr) s1
      flyWords s2 f m c e (ws.map fun w => rdWord s1 (padAddr f m w)) bad

/-- An owned slot of a transposed read: its next line, with its tag; behind the last one the block is on its way, column by column (R217, R219). -/
def transposedSlot (s : State) (f : FrondId) (c : CtxId) (e : Engine) (q : EngCmd) (m : Mem) (a0 : BitVec 16) (fmt : BitVec 2) (tag : TagKind) : State :=
  let w := a0.toNat / 32 * 32 + q.part.length
  if sbConflict (ctx s f c) (engOwner e) m w (w + 31) false then engStall s f c e m w
  else match tagAccess (frond s f) m w (readKind tag) with
  | none => engBlocked s f c e m w
  | some fr =>
    let (s1, bad) := padCheckAll s f c.val m w 32
    let s2 := modFrond s1 f fun g => { g with full := fr.full, sbmix := fr.sbmix }
    let ws := q.part ++ padWords s2 f m w 32
    if bad then flyWords s2 f m c e [] true
    else if ws.length < engWords q.args then modEng (unblockEng s2 f c e) f c e fun q => { q with slots := q.slots + 1, part := ws }
    else flyWords s2 f m c e (transposeWords (packOf false fmt) ws) false

/-- An owned slot of a gathering read of an engine of a context (R216, R217). -/
def gatherRead (t : Time) (f : FrondId) (c : CtxId) (e : Engine) (s : State) (run : EngCmd → State → Option (Mem × State)) :
    Host.Outcome State Fault Refusal :=
  live t s fun s =>
    match engReady s f e with
    | some (d, q) =>
      if d == c && q.buf.isNone && operating s && groupActive s f then
        match run q s with
        | some (m, s1) => if ownSlot s f m (ownerSlot (engOwner e)) then takeSlot s1 f m else s
        | none => s
      else s
    | none => s

/-- STRIDED_READ: the gather in the slot its engine owns; its words are delivered 6 FC after its last slot (R216). -/
def execStridedRead (t : Time) (f : FrondId) (c : CtxId) (e : Engine) (s : State) : Host.Outcome State Fault Refusal :=
  gatherRead t f c e s fun q s =>
    match q.args.src with
    | .strided m a0 st tag => some (m, stridedSlot s f c e q m a0 st tag)
    | _ => none

/-- TRANSPOSED_READ: the next line of the block in the slot its engine owns; its columns are delivered 6 FC after its last slot (R217). -/
def execTransposedRead (t : Time) (f : FrondId) (c : CtxId) (e : Engine) (s : State) : Host.Outcome State Fault Refusal :=
  gatherRead t f c e s fun q s =>
    match q.args.src with
    | .transposed m a0 fmt tag => some (m, transposedSlot s f c e q m a0 fmt tag)
    | _ => none

/-! ### Region operations as events (R224, R225) -/

/-- An owner's operation on a region, in a slot of its own of the region's memory: refused operations, and lines without power from `first` on,
fault the context; a blocked one is counted and waits (R214, R219, R224, R225, R234). -/
def circEvent (t : Time) (f : FrondId) (c : CtxId) (who : Owner) (i : Fin 8) (asProd : Bool) (first : Circ → Nat) (n : Nat) (s : State)
    (run : State → State) : Host.Outcome State Fault Refusal :=
  live t s fun s =>
    let r := (frond s f).circ.get i
    if runningCtx s f != some c || !operating s || !groupActive s f then s
    else if !circAllowed (frond s f) c who i asProd || !circOn (frond s f) i (first r) n then raiseFault s f c .window
    else if ownSlot s f r.mem' (ownerSlot who) then takeSlot (run s) f r.mem'
    else s

/-- An engine's append of at most one line in its slot (R224). -/
def engAppendSlot (s : State) (f : FrondId) (c : CtxId) (e : Engine) (ws : List Word) (i : Fin 8) : State :=
  match circAppend s f i ws with
  | some s1 => flyAck s1 f ((frond s f).circ.get i).mem' c e (min 32 ws.length)
  | none => countPstall (blockEng s f c e (blkRegion (frond s f) (engCode e) i true)) f i

/-- CIRC_APPEND (R224): an engine appends what its first command holds, any other producer the words given. -/
def execCircAppend (t : Time) (f : FrondId) (c : CtxId) (who : Owner) (i : Fin 8) (data : List Word) (s : State) :
    Host.Outcome State Fault Refusal :=
  circEvent t f c who i true (·.tail.toNat) 1 s fun s =>
    let eng := fun (e : Engine) =>
      match engReady s f e with
      | some (_, q) =>
        match q.buf, q.args.dst with
        | some ws, .circ j =>
          if j != i then s else engAppendSlot s f c e ws i
        | _, _ => s
      | none => s
    match who with
    | .fetch => eng .fetch
    | .drain => eng .drain
    | _ => match circAppend s f i data with
      | some s1 => if who == .crumb then unblockCtx s1 f c else s1
      | none => countPstall (if who == .crumb then blockCtx s f c .region (blkRegion (frond s f) 0 i true) else s) f i

/-- A taken or peeked line reaches its owner 6 FC later (R212, R224). -/
def circGive (s : State) (f : FrondId) (c : CtxId) (who : Owner) (i : Fin 8) (r : Option (State × List Word × Bool)) : State :=
  let eng := fun (e : Engine) =>
    match engReady s f e with
    | some (_, q) =>
      match q.buf, q.args.src with
      | none, .circ j =>
        if j != i then s
        else match r with
          | some (s1, ws, bad) => flyWords s1 f ((frond s f).circ.get i).mem' c e (ws.take (engWords q.args - q.done)) bad
          | none => countCstall (blockEng s f c e (blkRegion (frond s f) (engCode e) i false)) f i
      | _, _ => s
    | none => s
  match who with
  | .fetch => eng .fetch
  | .drain => eng .drain
  | _ => match r with
    | some (s1, ws, bad) =>
      if bad then raiseFault s1 f c .ecc
      else fly (unblockCtx s1 f c) f ((frond s f).circ.get i).mem' (.line ws)
    | none => countCstall (if who == .crumb then blockCtx s f c .region (blkRegion (frond s f) 0 i false) else s) f i

/-- CIRC_TAKE (R224). -/
def execCircTake (t : Time) (f : FrondId) (c : CtxId) (who : Owner) (i : Fin 8) (s : State) : Host.Outcome State Fault Refusal :=
  circEvent t f c who i false (·.head.toNat) 1 s fun s => circGive s f c who i (circTake s f c.val i)

/-- CIRC_PEEK (R224). -/
def execCircPeek (t : Time) (f : FrondId) (c : CtxId) (who : Owner) (i : Fin 8) (d : BitVec 11) (s : State) : Host.Outcome State Fault Refusal :=
  circEvent t f c who i false (fun r => r.head.toNat + min d.toNat (r.lines - 1)) 1 s fun s => circGive s f c who i (circPeek s f c.val i d.toNat)

/-- CIRC_RELEASE (R224). -/
def execCircRelease (t : Time) (f : FrondId) (c : CtxId) (who : Owner) (i : Fin 8) (r : BitVec 11) (s : State) : Host.Outcome State Fault Refusal :=
  circEvent t f c who i false (·.head.toNat) 0 s fun s => circRelease s f i r.toNat

/-! ### Slot accesses (R211 to R221, R244) -/

/-- An engine's piece meets a region's line without power: the command stops and its context faults (R234). -/
def engFault (s : State) (f : FrondId) (c : CtxId) (e : Engine) : State :=
  raiseFault (modEng s f c e fun q => { q with poison := true }) f c .window

/-- An engine's read of at most one line in its slot, with its tag (R219, R244). -/
def engReadSlot (s : State) (f : FrondId) (c : CtxId) (e : Engine) (q : EngCmd) (m : Mem) (w : Nat) (tag : TagKind) : State :=
  let n := min (engWords q.args - q.done) (32 - w % 32)
  if sbConflict (ctx s f c) (engOwner e) m w (w + n - 1) false then engStall s f c e m w
  else match tagAccess (frond s f) m w (readKind tag) with
  | none => engBlocked s f c e m w
  | some fr =>
    let (s1, bad) := padCheckAll s f c.val m w n
    let s2 := modFrond s1 f fun g => { g with full := fr.full, sbmix := fr.sbmix }
    flyWords s2 f m c e (padWords s2 f m w n) bad

/-- An engine's write of at most one line in its slot, with its tag. -/
def engWriteSlot (s : State) (f : FrondId) (c : CtxId) (e : Engine) (ws : List Word) (m : Mem) (w : Nat) (tag : TagKind) : State :=
  let n := min ws.length (32 - w % 32)
  if sbConflict (ctx s f c) (engOwner e) m w (w + n - 1) true then engStall s f c e m w
  else match tagAccess (frond s f) m w (writeKind tag) with
  | none => engBlocked s f c e m w
  | some fr => flyAck (padStore (modFrond s f fun _ => fr) f m w (ws.take n)) f m c e n

/-- The word of a scratchpad that a command's next piece by address reads or writes; none outside the Frond. -/
def engPlace (s : State) (f : FrondId) (q : EngCmd) (a : Addr) : Option (Mem × Nat) :=
  match placeOf s f (a.toNat / 4 * 4 + 4 * q.done) with
  | .pad m w => some (m, w)
  | _ => none

/-- An engine's slot in a memory: its read or its write of at most one line; none where its command has no access to this memory ready
(R211, R214). -/
def engSlot (s : State) (f : FrondId) (e : Engine) (m : Mem) : Option State :=
  (engReady s f e).bind fun (c, q) =>
    let fr := frond s f
    match q.buf with
    | none =>
      match q.args.src with
      | .addr a tag => (engPlace s f q a).bind fun p => if p.1 == m then some (engReadSlot s f c e q m p.2 tag) else none
      | .circ i =>
        if (fr.circ.get i).mem' != m then none
        else if !circOn fr i (fr.circ.get i).head.toNat 1 then some (engFault s f c e)
        else some (circGive s f c (engOwner e) i (circTake s f c.val i))
      | .strided m' a0 st tag => if m' == m then some (stridedSlot s f c e q m a0 st tag) else none
      | .transposed m' a0 fmt tag => if m' == m then some (transposedSlot s f c e q m a0 fmt tag) else none
    | some ws =>
      match q.args.dst with
      | .addr a tag => (engPlace s f q a).bind fun p => if p.1 == m then some (engWriteSlot s f c e ws m p.2 tag) else none
      | .circ i =>
        if (fr.circ.get i).mem' != m then none
        else if !circOn fr i (fr.circ.get i).tail.toNat 1 then some (engFault s f c e)
        else some (engAppendSlot s f c e ws i)

/-- A buffered store is performed in its slot, or blocked there by a range (R244, R302); it leaves the buffer when its acknowledgement has come
(R212; log entry 98). -/
def storeSlot (s : State) (f : FrondId) (c : CtxId) (m : Mem) (w : Nat) (v : Word) : State :=
  if sbConflict (ctx s f c) .crumb m w w true then countStall s f c
  else
    let s1 := modStore (padStore s f m w [v]) f c fun l => l.modify (l.findIdx fun e => !e.sent) fun e => { e with sent := true }
    fly s1 f m (.storeAck c)

/-- The instruction that waited for its CRD slot has issued there. -/
def slotIssued (s0 : State) (f : FrondId) (c : CtxId) (q : SlotWait) (s : State) : State :=
  advance (modCtx (unblockCtx (fetchCheck s0 f c q.issue.ia s) f c) f c fun x => { x with slotWait := none, atCheap := none }) q.issue c

/-- A load's data: a word stored and not yet visible, or what the memory holds, checked; and whether that is uncorrectable (R236, R302). -/
def loadData (s : State) (f : FrondId) (c : CtxId) (q : SlotWait) (n : Nat) : State × List Word × Bool :=
  match q.tag, n, forwarded (ctx s f c) .scratch (padAddr f q.m q.word) with
  | .plain, 1, some v => (s, [v], false)
  | _, _, _ =>
    let (s1, bad) := padCheckAll s f c.val q.m q.word n
    (s1, padWords s1 f q.m q.word n, bad)

/-- The instruction held for a CRD slot takes it: a range or a tag blocks it; a PUT writes; a load's data are on their way (R85, R212, R219,
R221, R244). -/
def waitSlot (s : State) (f : FrondId) (c : CtxId) (q : SlotWait) : State :=
  let n := (loadWords q.rd q.word).2
  if sbConflict (ctx s f c) .crumb q.m q.word (q.word + (if q.put.isSome then 1 else n) - 1) q.put.isSome then
    countStall (blockCtx s f c .range (blkData 3 0 (memCode q.m) (q.word / 32))) f c
  else match tagAccess (frond s f) q.m q.word q.tag with
  | none => blockTag s f c 0 q.m q.word q.tag
  | some fr =>
    let tagged := fun (s : State) => modFrond s f fun g => { g with full := fr.full, sbmix := fr.sbmix }
    match q.put with
    | some v =>
      let s1 := modStore (padStore (tagged s) f q.m q.word [v]) f c fun l =>
        l ++ [{ home := .scratch, addr := padAddr f q.m q.word, data := v, sent := true, done := false, id := 0 }]
      slotIssued s f c q (fly s1 f q.m (.storeAck c))
    | none =>
      let (s1, ws, bad) := loadData s f c q n
      let s2 := tagged s1
      if bad then raiseFault (modCtx s2 f c fun x => { x with slotWait := none }) f c .ecc
      else match q.rd with
      | .reg rd => slotIssued s f c q (fly (claim s2 f c rd) f q.m (.load c (some rd) (wordAt ws 0)))
      | .scale => slotIssued s f c q (fly s2 f q.m (.scale c ws))

/-- The scratchpad word of a memory that the context's next buffered store writes, once every earlier one has left. -/
def storeReady (x : Ctx) (f : FrondId) (m : Mem) : Option (Nat × Word) :=
  (x.store.find? fun e => !e.sent).bind fun e =>
    if e.home != .scratch then none
    else (padOf (e.addr - frondBase f)).bind fun p => if p.1 == m then some (p.2, e.data) else none

/-- The held instruction's access is ready: behind every earlier store where it is a PUT, or a tagged load of a word still to be stored; behind a
load that has left the Frond (R221, R302). -/
def waitReady (x : Ctx) (f : FrondId) (q : SlotWait) : Bool :=
  x.load.isNone && (if q.put.isSome then x.store.isEmpty else
    q.tag == .plain && q.rd != .scale || !x.store.any fun e => e.home == .scratch && !e.sent && e.addr / 128 == padAddr f q.m q.word / 128)

/-- The Crumb's slot: its next buffered store to this memory, else the instruction held for the slot; none while it has no access ready (R214,
R221, R484). -/
def crdSlot (s : State) (f : FrondId) (m : Mem) : Option State :=
  (runningCtx s f).bind fun c =>
    let x := ctx s f c
    if s.now < (frond s f).resumeAt then none
    else match storeReady x f m, x.slotWait with
    | some (w, v), _ => some (storeSlot s f c m w v)
    | none, some q => if q.m == m && waitReady x f q then some (waitSlot s f c q) else none
    | none, none => none

/-- What the owner of the present slot of a memory does there; none while it has no access ready. The manual does not say which CRI slots carry
a fetch: a context that runs is taken to use every one (DESIGN CHOICE, log entry 6). -/
def slotWork (s : State) (f : FrondId) (m : Mem) : Option State :=
  match slotOwner m (slotOf s m) with
  | .arr => arrSlot s f m
  | .cri => if (runningCtx s f).isSome then some s else none
  | .crd => crdSlot s f m
  | .fet => engSlot s f .fetch m
  | .drn => engSlot s f .drain m
  | .ext => if fwReady (frond s f) m && !scrubTurn s (frond s f) m then some (fwServe s f) else none

/-- The oldest inbound line is for a memory. -/
def inboundReady (fr : Frond) (m : Mem) : Bool := match fr.inbound with | l :: _ => l.mem == m | [] => false

/-- The present slot of a memory goes to scrub: it is idle and no other one of its FC did, or it is the EXT slot of a scrub turn (R214, R215,
R237). -/
def scrubSlot (s : State) (f : FrondId) (m : Mem) : Bool :=
  let fr := frond s f
  let ext := slotOwner m (slotOf s m) == .ext
  slotFree s f m && ((ext && scrubTurn s fr m) ||
    (fr.scrubFc.get (memIdx m) != some (fcNow s) && (slotWork s f m).isNone && !(ext && inboundReady fr m)))

/-- Scrub takes the present slot. -/
def takeScrub (s : State) (f : FrondId) (m : Mem) : State :=
  let fc := fcNow s
  modFrond (takeSlot s f m) f fun fr => { fr with scrubFc := vset fr.scrubFc (memIdx m) (some fc) }

/-- An engine whose next piece leaves the Frond, and could not be sent before, sends it at its slot, which that does not use. -/
def engLeaves (s : State) (f : FrondId) (o : SlotOwner) : State :=
  let go := fun (e : Engine) => match engReady s f e with
    | some (c, _) => engKicks s f c e 34
    | none => s
  match o with
  | .fet => go .fetch
  | .drn => go .drain
  | _ => s

/-- SCRATCHPAD_SLOT_ACCESS: the owner of the slot that begins takes it; bit flips strike first (R211, R212, R214, R236). -/
def execScratchpadSlotAccess (t : Time) (f : FrondId) (m : Mem) (upsets : List Upset) (s : State) : Host.Outcome State Fault Refusal :=
  live t s fun s =>
    let s := strikeAll s upsets
    if !operating s || !groupActive s f || !slotFree s f m then s
    else match slotWork s f m with
      | some s1 => takeSlot s1 f m
      | none => engLeaves s f (slotOwner m (slotOf s m))

/-- One access that has come back (R212). -/
def flightDone (f : FrondId) (s : State) (x : Flight) : State :=
  match x with
  | .load c (some rd) v => setReg s f c rd v
  | .load _ none _ => s
  | .engRead c e ws bad => engGot s f c e ws bad
  | .engAck c e n => engKicks (engMoved s f c e n) f c e 34
  | .line ws => modFrond s f fun fr => { fr with line := ws }
  | .scale c ws => modCtx s f c fun x => { x with scale := Vector.ofFn fun (i : Fin 32) => BitVec.ofNat 19 (wordAt ws i.val).toNat }
  | .storeAck c => modStore s f c fun l =>
      l.modify (l.findIdx fun e => e.home == .scratch && e.sent && !e.done) fun e => { e with done := true }

/-- SCRATCHPAD_ACCESS_DONE (R212): what has come back by now reaches its requester. -/
def execScratchpadAccessDone (t : Time) (f : FrondId) (s : State) : Host.Outcome State Fault Refusal :=
  live t s fun s =>
    let due := (frond s f).flight.filter fun p => decide (p.1 ≤ s.now)
    let s1 := modFrond s f fun fr => { fr with flight := fr.flight.filter fun p => decide (s.now < p.1) }
    due.foldl (fun s p => flightDone f s p.2) s1

/-! ### Inbound lines (R227 to R230) -/

/-- The memory a window names; none for the reserved code. -/
def FWin.mem' (w : FWin) : Option Mem := if w.mem = 3 then none else some (memOfCode w.mem.toNat)

/-- A window accepts a line (R228). -/
def windowFits (s : State) (fr : Frond) (w : FWin) (l : InLine) : Bool :=
  w.opened && w.mem' == some l.mem && decide (w.base.toNat ≤ l.word) && decide (l.word + 31 ≤ w.limit.toNat) &&
    (decide (0x80 ≤ w.srcf.toNat) || w.srcf == l.sender.unit) &&
    (match l.sender.path with
     | none => w.srcdev == 0xFFFFFF || w.srcdev == s.tree.path
     | some p => w.xdev && (w.srcdev == 0xFFFFFF || w.srcdev == p)) && padOn fr l.mem l.word

/-- The words of a line that are present, stored at a word. -/
def storeLine (s : State) (f : FrondId) (m : Mem) (w : Nat) (l : List (Option Word)) : State :=
  (upto 32).foldl (fun s i => match l[i]? with
    | some (some x) => padStore s f m (w + i) [x]
    | _ => s) s

/-- The home's answer to a line of another device, sent at once: one line written, or refused with its LINE and SFROND (R335, R343). -/
def sendWack (s : State) (p : PartId) (node : Nat) (refused : Option (BitVec 20 × BitVec 8)) : State :=
  let ws := match refused with
    | none => [1, 0]
    | some (l, u) => [0, 1, l.setWidth 32, u.setWidth 32]
  sendAnswer s p node (.wack (mkFrame 5 p s.tree.node.toNat node 0x80 false 0 0 ws))

/-- The LINE field of a scratchpad line (R334). -/
def lineField (f : FrondId) (m : Mem) (w : Nat) : Nat := (f.val * 0x100000 + memBase m + 4 * w) / 128

/-- The sender learns that its line was written. -/
def lineTaken (s : State) (l : InLine) : State :=
  match l.sender.path with
  | some _ => sendWack s l.sender.part l.sender.node none
  | none =>
    let f := frondNo l.sender.unit.toNat
    match engQ (ctx s f l.sender.ctx) .drain with
    | q :: _ =>
      if q.busy = some l.sender.id then
        engKicks (engMoved s f l.sender.ctx .drain (l.data.filter (·.isSome)).length) f l.sender.ctx .drain 34
      else s
    | [] => s

/-- The line is refused: REF of every open window of the memory, and the refusal returns (R228). -/
def lineRefused (s : State) (f : FrondId) (l : InLine) : State :=
  let mark := fun (w : FWin) => if w.opened && w.mem' == some l.mem then { w with ref := satInc w.ref } else w
  let s1 := modFrond s f fun fr => { fr with fwin := fr.fwin.map mark }
  match l.sender.path with
  | some _ => sendWack s1 l.sender.part l.sender.node (some (BitVec.ofNat 20 (lineField f l.mem l.word), l.sender.unit))
  | none => modFrond s1 (frondNo l.sender.unit.toNat) fun fr =>
      { fr with refusals := fr.refusals ++ [(l.sender.ctx, l.sender.job, BitVec.ofNat 32 (lineField f l.mem l.word))] }

/-- INBOUND_LINE: the oldest buffered line in an EXT slot that neither scrub nor the firmware takes (R215, R228, R237). A MODE 2 line is appended to
its region in this slot, whichever memory the region lies in; a MODE 0 or MODE 1 line on lines of an enabled region is written with no check of
the region: the rules state neither (R225, R228; DESIGN CHOICE, log entry 92). -/
def execInboundLine (t : Time) (f : FrondId) (s : State) : Host.Outcome State Fault Refusal :=
  live t s fun s =>
    let fr := frond s f
    match fr.inbound with
    | [] => s
    | l :: rest =>
      if !operating s || !groupActive s f || !ownSlot s f l.mem .ext || scrubTurn s fr l.mem || fwReady fr l.mem then s
      else
        let s := takeSlot s f l.mem
        let pop := fun (s : State) => modFrond s f fun fr => { fr with inbound := rest }
        match (allFin 16).find? fun i => windowFits s fr (fr.fwin.get i) l with
        | none => pop (lineRefused s f l)
        | some i =>
          let w := fr.fwin.get i
          let count := fun (s : State) => modFrond s f fun fr => { fr with fwin := vmod fr.fwin i fun w => { w with acc := satInc w.acc } }
          if w.mode = 2 then
            if !circAllowed fr w.ctx .inbound w.circ true || !circOn fr w.circ (fr.circ.get w.circ).tail.toNat 1 then raiseFault (pop (lineRefused s f l)) f w.ctx .window
            else
              let r := fr.circ.get w.circ
              if r.count = r.lines then countPstall s f w.circ
              else
                pop (lineTaken (count (circPush (storeLine s f r.mem' (r.wordAt r.tail.toNat) l.data) f w.circ)) l)
          else
            match tagAccess fr l.mem l.word (if w.mode = 1 then .put else .plain) with
            | none => s
            | some fr' => pop (lineTaken (count (storeLine (modFrond s f fun _ => fr') f l.mem l.word l.data)) l)

/-- The lines held back, with for each whether it is the first of its sender. -/
def firstOfSender : List (InLine × Time) → List (InLine × Time) → List ((InLine × Time) × Bool)
  | _, [] => []
  | seen, h :: hs => (h, !seen.any fun g => sameSender g.1.sender h.1.sender) :: firstOfSender (seen ++ [h]) hs

/-- INBOUND_RETRY: a line held back is offered again, 64 XC after it was refused, the first of its sender before its later ones (R229). -/
def execInboundRetry (t : Time) (f : FrondId) (s : State) : Host.Outcome State Fault Refusal :=
  live t s fun s =>
    match (firstOfSender [] (frond s f).held).find? fun h => h.2 && decide (h.1.2 ≤ s.now) with
    | some ((l, at_), _) =>
      if !operating s then s
      else if 16 ≤ (frond s f).inbound.length then
        modFrond s f fun fr => { fr with held := fr.held.map fun h => if h == (l, at_) then (l, s.now + 64 * tXC) else h }
      else
        let s1 := modFrond s f fun fr => { fr with held := fr.held.erase (l, at_), inbound := fr.inbound ++ [l] }
        if l.sender.path.isNone then unblockEng s1 (frondNo l.sender.unit.toNat) l.sender.ctx .drain else s1
    | none => s

/-- REFUSAL_AT_SENDER: the context that sent the line faults if it still runs that spore; else the refusal is logged (R228). -/
def execRefusalAtSender (t : Time) (f : FrondId) (c : CtxId) (s : State) : Host.Outcome State Fault Refusal :=
  live t s fun s =>
    match (frond s f).refusals.find? (·.1 == c) with
    | none => s
    | some r =>
      let s1 := modFrond s f fun fr => { fr with refusals := fr.refusals.erase r }
      let x := ctx s f c
      if r.2.1.isSome && x.job == r.2.1 && x.st != .teardown && x.st != .idle then raiseFault s1 f c .window
      else logEvent s1 (uFrond f) 0x0B c.val r.2.2

/-! ### Scrub (R236 to R238) -/

def scrubPtr (fr : Frond) : Mem → Nat
  | .w => fr.scrubW | .a => fr.scrubA | .p => fr.scrubP
def setScrubPtr (fr : Frond) (m : Mem) (n : Nat) : Frond :=
  match m with | .w => { fr with scrubW := n } | .a => { fr with scrubA := n } | .p => { fr with scrubP := n }

/-- The next line of a powered region from `l` on, wrapping. -/
def nextPowered (fr : Frond) (m : Mem) (l : Nat) : Nat → Nat
  | 0 => l
  | n + 1 => if padOn fr m (32 * l) then l else nextPowered fr m ((l + 1) % (memWordsN m / 32)) n

/-- The memory of a Frond in which an address lies. -/
def memAt (f : FrondId) (a : Nat) : Mem := if a - frondBase f < 0x40000 then .w else if a - frondBase f < 0x68000 then .a else .p

/-- The oldest corrected word of a memory that waits to be written back. -/
def writebackOf (fr : Frond) (f : FrondId) (m : Mem) : Option Nat := fr.wback.find? fun a => memAt f a == m

/-- SCRATCHPAD_SCRUB: the scrubber reads the next line of its memory in a slot that goes to it; bit flips strike first (R237). -/
def execScratchpadScrub (t : Time) (f : FrondId) (m : Mem) (upsets : List Upset) (s : State) : Host.Outcome State Fault Refusal :=
  live t s fun s =>
    let s := strikeAll s upsets
    let fr := frond s f
    if !fr.scrubEn || !groupActive s f || !operating s || !scrubSlot s f m || !(writebackOf fr f m).isNone then s
    else
      let lines := memWordsN m / 32
      let l := nextPowered fr m (scrubPtr fr m) lines
      if !padOn fr m (32 * l) then s
      else
        let s1 := (upto 32).foldl (fun s i => (padCheck s f 0 m (32 * l + i) true).1) s
        takeScrub (modFrond s1 f fun fr => setScrubPtr fr m ((l + 1) % lines)) f m

/-- SCRUB_WRITEBACK: the oldest corrected word of a memory is written back in the next slot that goes to scrub (R237); nothing is written back
while scrub is off. One in a slot with other work perturbs a replay (R446). -/
def execScrubWriteback (t : Time) (f : FrondId) (s : State) : Host.Outcome State Fault Refusal :=
  live t s fun s =>
    match [Mem.w, Mem.a, Mem.p].findSome? fun m => if scrubSlot s f m then (writebackOf (frond s f) f m).map fun a => (m, a) else none with
    | some (m, a) =>
      when_ ((frond s f).scrubEn && groupActive s f && operating s) s fun s =>
        let s0 := if slotOwner m (slotOf s m) == .ext && inboundReady (frond s f) m then setPerturb s else s
        let s1 := takeScrub (modFrond s0 f fun fr => { fr with wback := fr.wback.erase a }) f m
        if poisoned s1 a then s1 else setMark s1 a none
    | none => s

/-! ### Ranges retire (R243) -/

/-- A command or instruction still holds a range: engine write ranges until its last write, read ranges until its last read. -/
def rangeHeld (fr : Frond) (c : CtxId) (i : Nat) : Bool :=
  let x := fr.ctxs.get c
  let wr := match vgetD x.sb i none with | some r => r.wr | none => false
  let eng := fun (q : EngCmd) => q.mark.contains i && (wr || decide (q.done + (q.buf.getD []).length < engWords q.args))
  x.fetchQ.any eng || x.drainQ.any eng || fr.mma.any (fun o => o.ctx == c && o.mark.contains i) ||
    x.tiles.toList.any (fun t => t.pendArgs.isSome && t.mark.contains i) || fr.arrHold.any fun h => h.ctx == c && h.mark.contains i

/-- RANGE_RETIRE (R243). -/
def execRangeRetire (t : Time) (f : FrondId) (c : CtxId) (i : Fin 24) (s : State) : Host.Outcome State Fault Refusal :=
  live t s fun s =>
    let s := modFrond s f fun fr => { fr with arrHold := fr.arrHold.filter fun h => decide (s.now < h.at_) }
    when_ (!rangeHeld (frond s f) c i.val) s fun s => modCtx s f c fun x => { x with sb := vset x.sb i none }

/-! ### The Shared Store at its ports (R23, R236, R305, R482) -/

/-- A load's data returns to its context, if that still waits for it (R265). -/
def loadBack (s : State) (f : FrondId) (c : CtxId) (id : Nat) (v : Word) (bad : Bool) : State :=
  match (ctx s f c).load with
  | some l =>
    if l.id != id then s
    else
      let s1 := modCtx s f c fun x => { x with load := none }
      if bad then raiseFault s1 f c .ecc else match l.rd with | some rd => setReg s1 f c rd v | none => s1
  | none => s

/-- A store's home has written it. -/
def storeDone (s : State) (f : FrondId) (c : CtxId) (id : Nat) : State :=
  modStore s f c fun l => l.map fun e => if e.sent && e.id == id then { e with done := true } else e

/-- Whether the first command of an engine awaits an access. -/
def engAwaits (s : State) (f : FrondId) (c : CtxId) (e : Engine) (id : Nat) : Bool :=
  match engQ (ctx s f c) e with
  | q :: _ => q.busy == some id
  | [] => false

end Sys2Proof.Machine
end

