-- ==== Sys2Proof/Machine/CtxRegs.lean ====
section
/-!
DEFINITION. The register blocks of a context as words: arithmetic (R90), pivot (R118), deadline (R188), scoreboard (R255) and
state (R308) blocks, read, written by the Crumb or the firmware, and loaded back by a restore (R291).
-/
namespace Sys2Proof.Machine

/-! ### The arithmetic block (R90) -/

def xmaxWord (x : Ctx) (i : Nat) : Word := BitVec.ofNat 32 (((upto 4).map fun j => (vgetD x.xmax (4 * i + j) 0).toNat <<< (8 * j)).sum)

def arithRead (x : Ctx) (off : Nat) : Word :=
  if off = 0 then BitVec.ofNat 32 x.astat.toNat
  else if off = 4 then BitVec.ofNat 32 x.trapen.toNat
  else if off = 8 then x.xexp
  else if off = 0xC then BitVec.ofNat 32 x.mulfix.toNat
  else if 0x10 ≤ off ∧ off < 0x1C then x.fnr.word (off / 4 - 4)
  else if off = 0x20 then x.ctxid
  else if 0x80 ≤ off ∧ off < 0x100 then BitVec.ofNat 32 (vgetD x.scale (off / 4 - 32) 0).toNat
  else if 0x100 ≤ off ∧ off < 0x180 then vgetD x.rmax (off / 4 - 64) 0
  else if 0x180 ≤ off ∧ off < 0x1A0 then xmaxWord x (off / 4 - 96)
  else 0

def setXmax (x : Ctx) (i : Nat) (v : Word) : Ctx :=
  { x with xmax := (upto 4).foldl (fun t j => vmodNat t (4 * i + j) fun _ => BitVec.ofNat 8 (v.toNat >>> (8 * j))) x.xmax }

/-- A write of one word in an FC: W1C of ASTAT and FNR.VALID, RW of the others (R7, R86, R90, R91). -/
def arithWrite (x : Ctx) (fc : Nat) (off : Nat) (v : Word) : Ctx :=
  if off = 0 then x.clearAstat fc (BitVec.ofNat 8 v.toNat)
  else if off = 4 then { x with trapen := BitVec.ofNat 5 v.toNat }
  else if off = 8 then { x with xexp := v }
  else if off = 0xC then { x with mulfix := bit v 0 }
  else if off = 0x10 then (if bit v 0 then x.clearFnr fc else x)
  else if off = 0x20 then { x with ctxid := v }
  else if 0x80 ≤ off ∧ off < 0x100 then { x with scale := vmodNat x.scale (off / 4 - 32) fun _ => BitVec.ofNat 19 v.toNat }
  else if 0x100 ≤ off ∧ off < 0x180 then { x with rmax := vmodNat x.rmax (off / 4 - 64) fun _ => v }
  else if 0x180 ≤ off ∧ off < 0x1A0 then setXmax x (off / 4 - 96) v
  else x

/-- FNR from its three words. -/
def fnrLoad (w0 w1 w2 : Word) : Fnr :=
  { valid := bit w0 0, kind := BitVec.ofNat 2 (field w0 2 1), row := BitVec.ofNat 5 (field w0 7 3), col := BitVec.ofNat 5 (field w0 12 8)
    step := BitVec.ofNat 5 (field w0 17 13), opfmt := BitVec.ofNat 2 (field w0 19 18), layer := BitVec.ofNat 16 (field w1 15 0)
    operator := BitVec.ofNat 16 (field w1 31 16), iaddr := BitVec.ofNat 18 w2.toNat }

/-- ASTAT to CTXID as line 4 of a save area held them (R291). -/
def arithLoad (x : Ctx) (w : Nat → Word) : Ctx :=
  { x with
    astat := BitVec.ofNat 8 (w 0).toNat, trapen := BitVec.ofNat 5 (w 1).toNat, xexp := w 2, mulfix := bit (w 3) 0
    fnr := fnrLoad (w 4) (w 5) (w 6), ctxid := w 8 }

/-! ### The pivot block (R115, R118) -/

def pivRead (x : Ctx) (off : Nat) : Word :=
  if off = 0 then x.piveps
  else if off = 4 then BitVec.ofNat 32 x.pivrcp.toNat
  else if off = 8 then x.pivcnt
  else if off = 0xC then x.pivrec0
  else if off = 0x10 then x.pivrec1
  else if off = 0x14 then BitVec.ofNat 32 x.fdepth.toNat
  else 0

/-- PIVEPS as written: bit 23 ignored, a mantissa of 0 is 1 (R118). -/
def pivepsOf (v : Word) : Word := setField (setField v 23 23 0) 22 0 (max 1 (field v 22 0))

def pivWrite (x : Ctx) (fc : Nat) (off : Nat) (v : Word) : Ctx :=
  if off = 0 then
    let e := pivepsOf v
    { x with piveps := e, pivrcp := erClamp e x.pivrcp }
  else if off = 4 then { x with pivrcp := erClamp x.piveps (BitVec.ofNat 8 v.toNat) }
  else if off = 0xC then (if bit v 0 then x.clearPiv fc else x)
  else x

def pivLoad (x : Ctx) (w : Nat → Word) : Ctx :=
  { x with
    piveps := w 0, pivrcp := BitVec.ofNat 8 (w 1).toNat, pivcnt := w 2, pivrec0 := w 3, pivrec1 := w 4
    fdepth := BitVec.ofNat 4 (w 5).toNat }

/-! ### The deadline block (R188) -/

def dlRead (x : Ctx) (off : Nat) : Word :=
  if off = 0 then BitVec.ofNat 32 x.tact.toNat
  else if off = 4 then BitVec.ofNat 32 (x.tact.toNat / 2 ^ 32)
  else if off = 8 then BitVec.ofNat 32 (x.armed.toNat + at_ 1 x.fired.toNat + at_ 2 x.final.toNat + at_ 8 (x.itcnt.toNat % 256))
  else if off = 0xC then BitVec.ofNat 32 (x.holdProg.toNat + at_ 12 x.holdDemoted.toNat)
  else 0

def dlLoad (x : Ctx) (w : Nat → Word) : Ctx :=
  { x with
    tact := BitVec.ofNat 56 ((w 0).toNat + at_ 32 (field (w 1) 23 0)), armed := bit (w 2) 0, fired := bit (w 2) 1
    final := bit (w 2) 2, itcnt := BitVec.ofNat 16 (field (w 2) 15 8), holdProg := BitVec.ofNat 12 (field (w 3) 11 0)
    holdDemoted := bit (w 3) 12 }

/-! ### The scoreboard block (R255) -/

def sbWord0 (r : Option SbRange) : Word :=
  match r with
  | none => 0
  | some r => BitVec.ofNat 32 (r.base.toNat + at_ 16 (memCode r.mem) + at_ 18 r.wr.toNat + at_ 19 1)
def sbWord1 (r : Option SbRange) : Word :=
  match r with
  | none => 0
  | some r => BitVec.ofNat 32 r.len.toNat

def sbCount (x : Ctx) (first : Nat) : Nat := ((upto 8).filter fun i => (vgetD x.sb (first + i) none).isSome).length

def sbStat (x : Ctx) : Word := BitVec.ofNat 32 (x.sbStalls.toNat + at_ 16 x.sbNinth.toNat)

def sbRead (fr : Frond) (x : Ctx) (off : Nat) : Word :=
  if off = 0 then BitVec.ofNat 32 (x.sbEn.toNat + at_ 4 (sbCount x 0) + at_ 8 (sbCount x 8) + at_ 12 (sbCount x 16))
  else if off = 4 then sbStat x
  else if off = 8 then BitVec.ofNat 32 fr.sbmix.toNat
  else if 0x100 ≤ off ∧ off < 0x1C0 then
    let r := vgetD x.sb ((off - 0x100) / 8) none
    if off % 8 = 0 then sbWord0 r else sbWord1 r
  else 0

/-- An entry of a saved range table (R252). -/
def sbLoad (w0 w1 : Word) : Option SbRange :=
  if bit w0 19 then
    some { base := BitVec.ofNat 16 (field w0 15 0), mem := memOfCode (field w0 17 16), wr := bit w0 18, len := BitVec.ofNat 7 (field w1 6 0) }
  else none

/-! ### The context state block (R283, R308) -/

def CtxState.code : CtxState → Nat
  | .idle => 0 | .staging => 1 | .ready => 2 | .running => 3 | .saving => 4 | .saved => 5 | .restoring => 6 | .teardown => 7

def WaitKind.code : WaitKind → Nat
  | .none => 0 | .tag => 1 | .region => 2 | .range => 3

def stRead (s : State) (x : Ctx) (off : Nat) : Word :=
  if off = 0 then BitVec.ofNat 32 (x.st.code + at_ 3 x.preq.toNat + at_ 4 x.areq.toNat + at_ 5 x.kind.toNat + at_ 6 x.waitk.code +
    at_ 8 (if x.st == .idle then 0 else x.prog.toNat))
  else if off = 4 then BitVec.ofNat 32 (min (waitFc s x) 0xFFFF + at_ 16 x.waitq.toNat)
  else if off = 8 then BitVec.ofNat 32 x.cmd.toNat
  else 0

/-! ### A context's 4 KiB (R475) -/

def ctxRead (s : State) (f : FrondId) (c : CtxId) (off : Nat) : Word :=
  let fr := frond s f
  let x := fr.ctxs.get c
  if off < 0x200 then arithRead x off
  else if off < 0x240 then pivRead x (off - 0x200)
  else if 0x280 ≤ off ∧ off < 0x2A0 then dlRead x (off - 0x280)
  else if 0x400 ≤ off ∧ off < 0x600 then sbRead fr x (off - 0x400)
  else if 0x600 ≤ off ∧ off < 0x620 then stRead s x (off - 0x600)
  else 0

/-- What a Crumb may write in its own blocks: the arithmetic and the pivot block (R90, R118). -/
def ctxWrite (s : State) (f : FrondId) (c : CtxId) (off : Nat) (v : Word) : State :=
  let fc := fcNow s
  if off < 0x200 then modCtx s f c fun x => arithWrite x fc off v
  else if off < 0x240 then modCtx s f c fun x => pivWrite x fc (off - 0x200) v
  else s

end Sys2Proof.Machine
end

