-- ==== Sys2Proof/Machine/Rings.lean ====
section
/-!
DEFINITION. Completion and digest records, the rings in host memory with their control blocks, and the MSI-X messages
(R39, R50, R62 to R68, R443, R451, R452, R488).
-/
namespace Sys2Proof.Machine

/-! ### The control block (R65, R452) -/

/-- The control block of a ring; none where it does not lie inside its window (R65). -/
def ringBlock (s : State) (r : RingId) : Option Nat :=
  (partOfRing s r.val).bind fun p =>
    let x := part s p
    let w := x.win.get (idx 15 x.rcbwin.toNat)
    let word := x.rcboff.toNat + 8 * (r.val - x.rfirst.toNat)
    if winSize w = 0 ∨ winSize w < word + 8 then none else some (winBase w + 4 * word)

/-- The function that owns a ring (R452). -/
def ringOwner (s : State) (r : RingId) : FnId :=
  match partOfRing s r.val with
  | some p => let n : FnId := ⟨p.val + 1, by omega⟩; if (s.pcie.fns.get n).enabled then n else 0
  | none => 0

/-- Slots of a ring as latched (R65, R66). -/
def Ring.slots (x : Ring) : Nat := 2 ^ clampNat 4 16 x.size.toNat

/-- Free slots when HEAD is `head`: those outside HEAD up to the write index, less the slot before HEAD (R67). -/
def Ring.free (x : Ring) (head : Nat) : Nat := x.slots - 1 - (x.wr.toNat + x.slots - head % x.slots) % x.slots

/-- HEAD as the block holds it. -/
def blockHead (s : State) (b : Nat) : Nat := field (rdWord s (b + 16)) 15 0

/-- The device's view of HEAD for `need` slots: read from the block when the view shows too little space (R67). -/
def headView (s : State) (r : RingId) (b need : Nat) : Nat :=
  let x := s.rings.get r
  if x.free x.head.toNat < need then blockHead s b % x.slots else x.head.toNat

/-- The view as it then stands. -/
def lookHead (s : State) (r : RingId) (b need : Nat) : State :=
  let x := s.rings.get r
  let s1 := if x.free x.head.toNat < need then (fwRead s 2 (b + 16) 1).1 else s
  modRing s1 r fun x => { x with head := BitVec.ofNat 16 (headView s r b need) }

/-- A record of `need` slots fits (R67). -/
def ringFits (s : State) (r : RingId) (b need : Nat) : Bool := decide (need ≤ (s.rings.get r).free (headView s r b need))

/-- ENABLE 0 → 1: BASE and SIZE are latched, index and pass reset, HEAD read (R65; log entry 37). -/
def ringLatch (s : State) (r : RingId) (b : Nat) : State :=
  modRing s r fun x => { x with
    enabled := true, base := dword (setField (rdWord s b) 5 0 0) (rdWord s (b + 4))
    size := BitVec.ofNat 5 (clampNat 4 16 (field (rdWord s (b + 8)) 4 0)), wr := 0, oddPass := true, head := BitVec.ofNat 16 (blockHead s b % 2 ^ clampNat 4 16 (field (rdWord s (b + 8)) 4 0))
    out := x.out.map fun q => { q with tail := 0 } }

/-- MSI-X tables: 1 024 entries on the physical function, 128 on a virtual one (R451). -/
def vectorsOf (fn : FnId) : Nat := if fn.val = 0 then 1024 else 128

/-- Slots by which HEAD is reduced: those of SIZE as latched, or of the block's before the first enable (R65). -/
def headSlots (s : State) (r : RingId) : Nat :=
  match (s.rings.get r).size == 0, ringBlock s r with
  | true, some b => 2 ^ clampNat 4 16 (field (rdWord s (b + 8)) 4 0)
  | _, _ => (s.rings.get r).slots

/-- Word `i` of a control block as it stands after a host write: each field at its nearest legal value, reserved bits 0
(R9, R65, R378). -/
def ringClamp (s : State) (r : RingId) (i : Nat) (x : Word) : Word :=
  match i with
  | 0 => setField x 5 0 0
  | 2 => setField (x &&& 0x31F) 4 0 (clampNat 4 16 (field x 4 0))
  | 3 => BitVec.ofNat 32 (min (field x 10 0) (vectorsOf (ringOwner s r) - 1))
  | 4 => BitVec.ofNat 32 (field x 15 0 % headSlots s r)
  | _ => x

/-- The device follows the ENABLE bit of a block (R65, R66). -/
def syncRing (s : State) (r : RingId) : State :=
  match ringBlock s r with
  | none => s
  | some b =>
    let en := bit (rdWord s (b + 8)) 8
    if en && !(s.rings.get r).enabled then ringLatch (fwRead s 2 b 5).1 r b
    else if !en && (s.rings.get r).enabled then modRing s r fun x => { x with enabled := false }
    else s

/-- ENABLE written in a block. -/
def setEnable (s : State) (r : RingId) (b : Nat) (on : Bool) : State := syncRing (rmwWord s 2 (b + 8) fun w => setBit w 8 on) r

/-! ### Records (R62 to R64) -/

/-- A completion record before it has its place in a ring. -/
structure CompRecord where
  queue : QueueId
  idx : Fin 64
  part : PartId
  tag : BitVec 64
  status : Byte
  iter : Nat
  pivb : Bool
  sat : Bool
  clamp : Bool
  demoted : Bool
  nanrec : Bool
  preempt : Nat
  finish : Stamp
  progRan : Nat
  wait : Nat
  outWords : Nat
  digest : Option (List Word)
  deadline : Stamp
  irq : Bool
deriving DecidableEq, Repr

/-- The eight words, PHASE 0 (R62). -/
def CompRecord.words (r : CompRecord) : List Word :=
  [loWord r.tag, hiWord r.tag,
   BitVec.ofNat 32 (r.status.toNat + at_ 8 (r.iter % 256) + at_ 16 r.pivb.toNat + at_ 17 r.sat.toNat + at_ 18 r.clamp.toNat +
     at_ 19 r.demoted.toNat + at_ 20 (decide (0 < r.preempt)).toNat + at_ 21 r.digest.isSome.toNat + at_ 22 r.nanrec.toNat),
   BitVec.ofNat 32 r.finish.toNat, BitVec.ofNat 32 (r.finish.toNat / 2 ^ 32 + at_ 24 (min r.preempt 255)),
   BitVec.ofNat 32 (r.queue.toNat + at_ 20 (r.progRan % 4096)), BitVec.ofNat 32 (min r.wait 0xFFFFFFFF),
   BitVec.ofNat 32 (r.outWords % 2 ^ 24)]

def isFault (st : Byte) : Bool := st == 0x10 || st == 0x11 || st == 0x12 || st == 0x13

/-- The counters of a record formed (R70, R207, R423). -/
def countRecord (s : State) (r : CompRecord) : State :=
  let is := fun (v : Byte) => r.status == v
  let inc := fun {w : Nat} (b : Bool) (x : BitVec w) => if b then satInc x else x
  let s1 := modPcnt s r.part fun p => { p with
    late := inc (earlier r.deadline (stamp s)) p.late, waitSum := satAdd p.waitSum (r.wait / 256), preSum := satAdd p.preSum r.preempt
    trunc := inc (is 0x01) p.trunc, fbModel := inc (is 0x02) p.fbModel, fbShift := inc (is 0x03) p.fbShift
    fbNopr := inc (is 0x04) p.fbNopr, peerLost := inc (is 0x21) p.peerLost, done := p.done + 1 }
  if r.progRan = 0 then s1
  else modFcnt s1 (progFirst s r.progRan) fun n => { n with
    done := n.done + 1, fallbk := inc (is 0x02 || is 0x03 || is 0x04) n.fallbk, faults := inc (isFault r.status) n.faults
    trunc := inc (is 0x01) n.trunc }

/-- RECORD_FORM: a record formed while a replay runs waits until it is done (R447); the standby is told; the record goes to its spore buffer entry and waits for its ring; one whose entry was abandoned is lost (R39,
R62, R482). -/
def formRecord (s : State) (r : CompRecord) : State :=
  let s := checkDesc s r.queue
  let s1 := sendDone (traceHearth (countRecord s r) 2 9 r.progRan r.status.toNat r.part) r.part r.queue r.tag
  match entryAt s1 r.queue r.idx with
  | none => s1
  | some _ =>
    let s2 := wrWords s1 (poolEntry s1 r.queue r.idx) (r.words ++ r.digest.getD [])
    let s3 := modEntry s2 r.queue r.idx fun e => { e with st := .waiting }
    { s3 with
      popped := s3.popped.filter fun x => !(x.1 == r.queue && x.2 == r.idx)
      ringQ := s3.ringQ ++ [{
        ring := qRing s3 r.queue, queue := r.queue, idx := r.idx, part := r.part, irq := r.irq
        slots := if r.digest.isSome then 3 else 1, replay := replayRuns s3, direct := none, waited := false, tail := 0 }] }

/-! ### Writing to the host (R66 to R68) -/

/-- The traffic class at the PCI Express egress: a partition's own, 8 for device traffic (R260). -/
def egressClass : Option PartId → Fin 32
  | some p => ⟨p.val, by omega⟩
  | none => 8

/-- One 32 B slot for the host at the PCI Express egress, in the class of the ring's partition; its bytes are empty until they have been
read from the Shared Store (R260, R261). -/
def sendSlot (s : State) (r : RingId) (slot : Nat) (ws : List Word) : Nat × State :=
  let a := ((s.rings.get r).base.toNat + 32 * slot) % 2 ^ 64
  putXfer s (egressClass (partOfRing s r.val)) (partOfRing s r.val) fun _ => .tlp (ringOwner s r) a (wordsBytes ws) (some r.val)

/-- The PCI Express port's requester id: inbound writes, and reads of what it sends out (R259). -/
def pcieReq : Fin 32 := 18

/-- The digest record from the parts its entry holds (R39, R64). -/
def digestRecord (s : State) (rec sha : List Word) : List Word :=
  rec.take 2 ++ [BitVec.ofNat 32 (field (wordAt rec 5) 31 20), BitVec.ofNat 32 s.boot.imgGen.toNat, 0, 0, 0, 0] ++ sha

/-- The PHASE of a record as the ring's pass gives it (R62). -/
def phased (odd : Bool) (rec : List Word) : List Word := rec.set 2 (setBit (wordAt rec 2) 31 odd)

/-- The slots that a record's entry gives, in the order they leave: the digest's two, the record last (R39, R64, R68). -/
def recordSlots (s : State) (odd digest : Bool) (held : List Word) : List (List Word) :=
  let rec0 := held.take 8
  let d := digestRecord s rec0 (held.drop 8)
  if digest then [d.take 8, d.drop 8, phased odd rec0] else [phased odd rec0]

/-- The slots of a record take their places in the ring and at the egress: digest slots first, the record last. What the entry holds is
read from the Shared Store by the port; a refused spore's record is in the port (R68, R261). -/
def writeRecord (s : State) (r : RingId) (q : RingRec) : State :=
  let x := s.rings.get r
  let n := x.slots
  let w := x.wr.toNat
  let places := if q.slots = 3 then [(w + 1) % n, (w + 2) % n, w] else [w]
  let ws := match q.direct with
    | some ws => phased x.oddPass ws
    | none => []
  let (ids, s1) := places.foldl (fun (p : List Nat × State) k =>
    let (id, s2) := sendSlot p.2 r k ws
    (p.1 ++ [id], s2)) ([], s)
  let s2 := match q.direct with
    | some _ => s1
    | none => (putXfer s1 pcieReq (partOfRing s r.val) fun _ => .recordRead ids (poolEntry s q.queue q.idx) (if q.slots = 3 then 16 else 8) x.oddPass).2
  let next := (w + q.slots) % n
  modRing s2 r fun x => { x with
    wr := BitVec.ofNat 16 next, oddPass := if next < w then !x.oddPass else x.oddPass, out := x.out ++ [{ q with tail := next }] }

/-- The port has read a record: the TLPs that waited for it get their bytes (R68, R261). -/
def recordReturned (s : State) (ids : List Nat) (slots : List (List Word)) : State :=
  let fill := fun (e : Sent) =>
    match (ids.zip slots).find? fun p => p.1 == e.id, e.x with
    | some p, .tlp fn a _ ring => { e with x := .tlp fn a (wordsBytes p.2) ring }
    | _, _ => e
  modFabric s fun f => { f with xfers := f.xfers.map fill }

/-- The first waiting record of a ring, and the others. -/
def takeFirst (r : Nat) : List RingRec → Option (RingRec × List RingRec)
  | [] => none
  | q :: qs => if q.ring = r then some (q, qs) else (takeFirst r qs).map fun p => (p.1, q :: p.2)

/-- The records of a ring that ENABLE and space allow are written, oldest first; at most `n`. -/
def writeDue (s : State) (r : RingId) (b : Nat) : Nat → State
  | 0 => s
  | n + 1 =>
    match takeFirst r.val s.ringQ with
    | some (q, rest) =>
      if !(s.rings.get r).enabled || q.replay || s.obs.halted || !ringFits s r b q.slots then s
      else writeDue (writeRecord { lookHead s r b q.slots with ringQ := rest } r q) r b n
    | none => s

/-- The ring a descriptor names, clamped into its partition's range (R38, R41). -/
def ringIn (s : State) (p : PartId) (q : QueueId) : RingId :=
  let x := part s p
  idx 2047 (if x.rfirst.toNat ≤ qRing s q ∧ qRing s q < x.rfirst.toNat + x.rcount.toNat then qRing s q else x.rfirst.toNat)

/-- SPORE_REFUSE: the records formed before it are written where ENABLE and space allow; the record of a refused spore is then written to
an enabled ring with a free slot and nothing waiting, or dropped and counted in DROPCNT: it is never held (R50, R68). -/
def refuseSpore (s : State) (c : Checked) : State :=
  let s1 := updDesc s c.queue 3 fun w => setField w 15 0 (min (field w 15 0 + 1) 0xFFFF)
  let s2 := modPcnt s1 c.part fun p => { p with refuse := satInc p.refuse }
  let r : CompRecord := {
    queue := c.queue, idx := 0, part := c.part, tag := spTag c.words, status := 0x08, iter := 0, pivb := false,
    sat := false, clamp := true, demoted := false, nanrec := false, preempt := 0, finish := stamp s2,
    progRan := spProg c.words, wait := 0, outWords := 0, digest := none, deadline := spDeadline c.words,
    irq := spIrq c.words }
  let s3 := traceHearth (countRecord s2 r) 2 9 r.progRan 0x08 r.part
  let ring := ringIn s3 c.part c.queue
  match ringBlock s3 ring with
  | none => s3
  | some b =>
    let s4 := writeDue s3 ring b s3.ringQ.length
    if (s4.rings.get ring).enabled && !(s4.ringQ.any (·.ring == ring.val)) && ringFits s4 ring b 1 && !replayRuns s4 && !s4.obs.halted then
      writeRecord (lookHead s4 ring b 1) ring {
        ring := ring.val, queue := c.queue, idx := 0, part := c.part, irq := r.irq, slots := 1, replay := false
        direct := some r.words, waited := false, tail := 0 }
    else rmwWord s4 2 (b + 28) fun w => setField w 31 16 (min (field w 31 16 + 1) 0xFFFF)

/-- RING_RECORD_WRITE: the oldest record of the ring is written when ENABLE and space allow; one that must wait counts once in
FULLCNT (R66, R67). -/
def execRingRecordWrite (t : Time) (r : RingId) (s : State) : Host.Outcome State Fault Refusal :=
  live t s fun s =>
    match takeFirst r.val s.ringQ, ringBlock s r with
    | some (q, rest), some b =>
      if !(s.rings.get r).enabled || q.replay || s.obs.halted then s
      else if !ringFits s r b q.slots then
        let s := lookHead s r b q.slots
        if q.waited then s
        else
          let s1 := { s with ringQ := s.ringQ.map fun x => if x = q then { x with waited := true } else x }
          rmwWord s1 2 (b + 28) fun w => setField w 15 0 (min (field w 15 0 + 1) 0xFFFF)
      else writeRecord { lookHead s r b q.slots with ringQ := rest } r q
    | _, _ => s

/-- MSIX_MESSAGE: a message for the ring's vector contends at the egress in the class of the ring's partition, or the vector is set
pending while masked (R68, R260, R261, R452). -/
def raiseVector (s : State) (r : RingId) (b : Nat) : State :=
  let fn := ringOwner s r
  let v := min (field (rdWord s (b + 12)) 10 0) (vectorsOf fn - 1)
  if (s.pcie.fns.get fn).masked.contains v then modFn s fn fun f => { f with pendingVec := insertNat v f.pendingVec }
  else (putXfer s (egressClass (partOfRing s r.val)) (partOfRing s r.val) fun _ => .message fn v).2

/-- The records written so far are signalled (R68). -/
def signal (s : State) (r : RingId) (b : Nat) : State := raiseVector (modRing s r fun x => { x with unsig := 0 }) r b

/-- COAL_T has passed since the first record not yet signalled (R68). -/
def coalDue (s : State) (r : RingId) (b : Nat) : Bool :=
  let x := s.rings.get r
  let ct := field (rdWord s (b + 24)) 31 8
  decide (0 < x.unsig) && ct != 0 && decide (x.unsigAt + ct * tAT ≤ s.now)

/-- Writes of a ring still on their way to the link. -/
def ringWrites (s : State) (r : Nat) : Nat :=
  (s.fabric.xfers.filter fun x => match x.x with | .tlp _ _ _ (some k) => k == r | _ => false).length

/-- TAIL_MIRROR_UPDATE: a record whose writes have all left counts as written: the mirror follows, its entry is freed, and a
message is sent if due (R68, R488). -/
def execTailMirrorUpdate (t : Time) (r : RingId) (s : State) : Host.Outcome State Fault Refusal :=
  live t s fun s =>
    let x := s.rings.get r
    match x.out, ringBlock s r with
    | q :: rest, some b =>
      if (rest.map (·.slots)).sum < ringWrites s r.val || s.obs.halted then s
      else
        let s1 := rmwWord (fwRead (fwRead s 2 (b + 8) 2).1 2 (b + 24) 1).1 2 (b + 20) fun w => setField w 15 0 q.tail
        let s2 := modRing s1 r fun x => { x with out := rest, unsigAt := if x.unsig = 0 then s.now else x.unsigAt, unsig := x.unsig + 1 }
        let s3 := if q.direct.isSome then s2 else freeEntry s2 q.queue q.idx
        let n := max 1 (field (rdWord s3 (b + 24)) 7 0)
        if bit (rdWord s3 (b + 8)) 9 && (q.irq || decide (n ≤ (s3.rings.get r).unsig) || coalDue s3 r b) then signal s3 r b else s3
    | _, _ => s

/-- COALESCE_TIMEOUT (R68). -/
def execCoalesceTimeout (t : Time) (r : RingId) (s : State) : Host.Outcome State Fault Refusal :=
  live t s fun s =>
    match ringBlock s r with
    | some b => when_ (bit (rdWord s (b + 8)) 9 && coalDue s r b && operating s) s fun s => signal s r b
    | none => s

end Sys2Proof.Machine
end

