-- ==== Sys2Proof/Machine/Settle.lean ====
section
/-!
DEFINITION. How a spore ends: the areas of its queue are settled, exports written, and its record, digest or stretch outcome
formed (R140 to R145, R174 to R179, R187, R198 to R200, R346 to R349, R443, R444).
-/
namespace Sys2Proof.Machine

/-! ### The prior-solution area (R174, R187, R198) -/

/-- shift(v, prefix, stage, h) of R174. -/
def shiftVec (pre stage h : Nat) (v : List Word) : List Word :=
  (upto v.length).map fun i => if pre ≤ i ∧ i < pre + stage * (h - 1) then wordAt v (i + stage) else wordAt v i

/-- shift_prior of an area's words, in the shape of program `p` (R174). -/
def shiftPrior (s : State) (p : Nat) (area : List Word) : List Word :=
  let n := progN s p
  let x := shiftVec (progPrefix s p) (progStage s p) (progH s p) (area.take n)
  let y := area.drop n
  x ++ (if progDuals s p then shiftVec (progCprefix s p) (progCstage s p) (progH s p) y else y)

/-- Words of an area as the class of the requested program reads them (R198). -/
def asShifted (s : State) (req : Nat) (ws : List Word) : List Word := if progForm s req != 0 then shiftPrior s req ws else ws

/-- The shifted previous solution (R198). -/
def shiftedArea (s : State) (q : QueueId) (req : Nat) : List Word := asShifted s req (rdWords s (areaAddr s q) (areaWords s req))

/-- A teardown between the area's first word and the output left a half-written area (R176, R199). -/
def halfArea (j : Job) : Bool := j.areaAt && !j.outAt

/-- Words of a job's output: the checked length, limited to the declared output of the holding program (R49, R198). -/
def outLen (s : State) (j : Job) : Nat := min (spOutLen j.spore) (progOutDecl s j.hold.toNat)

/-- Two programs lay the area out alike (R176). -/
def sameShape (s : State) (p q : Nat) : Bool :=
  progN s p == progN s q && progH s p == progH s q && progStage s p == progStage s q && progPrefix s p == progPrefix s q &&
    progDuals s p == progDuals s q && progCstage s p == progCstage s q && progCprefix s p == progCprefix s q

/-- Two programs share the data of a state block: the same LAYOUT, and LAYOUT 0 is shared with no other program (R131, R143). -/
def sharesState (s : State) (p g : Nat) : Bool := progLayout s p == progLayout s g && (progLayout s g != 0 || p == g)

/-- The holding program writes the state block back (R143). -/
def writesBack (s : State) (j : Job) : Bool :=
  match govProg s j.req.toNat with
  | some g => progStateful s j.hold.toNat && sharesState s j.hold.toNat g
  | none => false

/-- The area holds the iterate that the job delivers: its program wrote it there, in the area's own shape (R176). -/
def areaHolds (s : State) (j : Job) (st : Byte) : Bool :=
  j.areaAt && areaWritable s j.queue j.req.toNat && (st != 0x02 || sameShape s j.req.toNat j.hold.toNat)

/-- An ended substitute or run of another program leaves the area advanced by a stage (R176). -/
def advancesArea (s : State) (j : Job) (st : Byte) : Bool :=
  progForm s j.req.toNat != 0 && areaReadable s j.queue j.req.toNat &&
    (st == 0x03 || (st == 0x02 && !(progForm s j.hold.toNat != 0 && sameShape s j.req.toNat j.hold.toNat)))

/-- PRIOR_AREA_SETTLE (R176, R199, R145). The area's words of a completed run were written by its own drain commands, and an advanced area
before the output (`beginOutput`); a spore that ends without an answer leaves the area as it was (R61, R176). -/
def settleArea (s : State) (j : Job) (st : Byte) : State :=
  let req := j.req.toNat
  if !areaWritable s j.queue req || st == 0x20 then s
  else
    let valid := fun (b : Bool) => setPriorValid s j.queue b
    let back := match j.areaWas with | some ws => wrWords s (areaAddr s j.queue) ws | none => s
    let half := if halfArea j then setPriorValid back j.queue false else back
    if progForm s req != 0 then
      if st == 0x00 || st == 0x01 || st == 0x03 then valid true
      else if st == 0x04 then valid false
      else if st == 0x02 then (if progForm s j.hold.toNat != 0 && sameShape s req j.hold.toNat then valid true else s)
      else half
    else if progKind s req = 2 ∨ progKind s req = 3 then
      if st == 0x00 || (st == 0x02 && writesBack s j) then valid true else half
    else if st == 0x00 || st == 0x01 || (st == 0x02 && progOutDecl s j.hold.toNat == progOutDecl s req) then valid true
    else half

/-! ### The state block (R140 to R144) -/

/-- The header of the queue's state block, if its queue has one. -/
def headerAddr (s : State) (j : Job) : Option Nat := (govProg s j.req.toNat).bind fun g => stateAddr s g j.queue

/-- A spore of a queue outside its governing program's range completes with CLAMP (R140). -/
def stateClamp (s : State) (j : Job) : Bool := (govProg s j.req.toNat).isSome && (headerAddr s j).isNone

/-- A completion with this status writes the header as a write-back does (R143). -/
def backWritten (s : State) (j : Job) (st : Byte) : Bool := (st == 0x00 || st == 0x02) && writesBack s j

/-- The header of a write-back, after the state data and before the output window: MISSED, INIT, LAYOUT and UPDCNT (R143, R144). LASTUPD
follows when FINISH is known (`settleState`, log entry 90). -/
def writeHeader (s : State) (j : Job) (st : Byte) : State × Bool :=
  match headerAddr s j with
  | none => (s, false)
  | some a =>
    if !backWritten s j st then (s, false)
    else
      let (s1, hd) := fwRead s 1 a 4
      let v0 := BitVec.ofNat 32 (at_ 8 1 + at_ 16 (progLayout s j.hold.toNat))
      let n := (field (wordAt hd 3) 15 0 + 1) % 2 ^ 16
      (wrWords s1 a ([v0, wordAt hd 1, wordAt hd 2, BitVec.ofNat 32 n] ++ List.replicate 12 0), true)

/-- STATE_SETTLE (R143, R144): LASTUPD of a write-back; else MISSED gains 1, and INIT falls after a write-back that stopped before its
header, or that a fault follows. -/
def settleState (s : State) (j : Job) (st : Byte) (finish : Stamp) : State :=
  match headerAddr s j with
  | none => s
  | some a =>
    if st == 0x20 then s
    else if backWritten s j st then
      wrWords s (a + 4) [BitVec.ofNat 32 finish.toNat, BitVec.ofNat 32 (finish.toNat / 2 ^ 32)]
    else
      let (s, hd) := fwRead s 1 a 1
      let w0 := wordAt hd 0
      let v0 := setField w0 7 0 (min (field w0 7 0 + 1) 0xFF)
      wrWord s a (if j.stateAt && (isFault st || !j.hdrAt) then setBit v0 8 false else v0)

/-! ### The export to the Loop Engine (R178 to R180) -/

/-- The address of word `i` of the x that a job's program marked last. Where the buffers of its iterates lie the manual does not say:
`Config.iterateAt` (R172, R178, log entry 91). -/
def iterateAddr (s : State) (j : Job) (i : Nat) : Nat :=
  let mark := (ctx s (progFirst s j.hold.toNat) (jobCtx s j)).mark
  let (k, off) := Config.iterateAt j.hold.toNat mark i
  frondBase ((jobFronds s j).getD (k % (jobFronds s j).length) 0) + off % 0x80000 / 4 * 4

/-- The X24 words that an export takes: of the shifted area for a shifted substitute, else of the delivered iterate, in the area where its
program has written it there, else in its buffer (R178, R179). -/
def exportWords (s : State) (j : Job) (st : Byte) (p : Nat) : State × List Word :=
  let o := progExpoff s p
  if st == 0x03 || areaHolds s j st then fwRead s 1 (areaAddr s j.queue + 4 * o) (progExpn s p)
  else (s, (upto (progExpn s p)).map fun i => rdWord s (iterateAddr s j (o + i)))

/-- LE_EXPORT: the exported words of `p`, unconverted, each with its sign extended, to the input block or to the shadow bank with its commit
(R178 to R180). -/
def export_ (s : State) (j : Job) (st : Byte) : State :=
  let p := if st == 0x02 then j.hold.toNat else j.req.toNat
  let out := st == 0x00 || st == 0x01 || st == 0x02 || st == 0x03
  if !out || progForm s p = 0 || !progExpen s p then s
  else
    let (s, xs) := exportWords s j st p
    let words := xs.map fun w => x24Word (x24 w)
    if progExpbank s p then
      leBank s (progExpch s p) (((upto words.length).map fun i => some (idx 15 (progExpboff s p + i), wordAt words i)) ++ [none])
    else wrWords s ((s.le.get (progExpch s p)).iblk + 4 * progExpboff s p) words

/-! ### What comes before the output window (R144, R176) -/

/-- The status that a run's output announces (R191, R195). -/
def runStatus (j : Job) : Byte := if j.demoted then 0x02 else if j.st == .delivering then 0x01 else 0x00

/-- The area advanced by a stage before the output: read, shifted and written. An uncorrectable word stops a substitute, and clears PRIOR_VALID;
for another program's output its raw word is used (R176, R198, R482). -/
def advanceArea (s : State) (j : Job) (st : Byte) : State × Job × Bool :=
  let a := areaAddr s j.queue
  let n := areaWords s j.req.toNat
  let was := rdWords s a n
  let (s1, bad) := if st == 0x03 then ssCheckAll s a n else ((fwRead s 1 a n).1, false)
  if bad then (setPriorValid s1 j.queue false, j, true)
  else (wrWords s1 a (asShifted s j.req.toNat was), { j with areaWas := some was }, false)

/-- Before the first word of a job's output: the area advanced where it is to be, the export, and the header of a write-back, once; the job as it
then stands, and whether an uncorrectable word stops a substitute. -/
def beginOutput (s : State) (j : Job) (st : Byte) : State × Job × Bool :=
  if j.begun then (s, j, false)
  else
    let (s1, j1, bad) := if advancesArea s j st then advanceArea s j st else (s, j, false)
    if bad then (s1, j1, true)
    else
      let (s2, hdr) := writeHeader (export_ s1 j1 st) j1 st
      let j2 := { j1 with begun := true, hdrAt := j1.hdrAt || hdr }
      (modJob s2 j.id fun _ => j2, j2, false)

/-- A drained word is about to reach the output window of its job (R144, R176); a stretch leaves all this to the manager (R349). -/
def outputBegins (s : State) (job : Option Nat) (a : Nat) : State :=
  match job.bind (jobOf s) with
  | some j => if isStretch j || !inOutput s j a then s else (beginOutput s j (runStatus j)).1
  | none => s

/-! ### Digests (R443, R444) -/

/-- The words of a checked spore that the digest covers: TAG, DEADLINE and words 14 and 15 are zero. -/
def digestSpore (w : List Word) : List Word :=
  (upto 16).map fun i => if i = 2 ∨ i = 9 ∨ i = 10 ∨ i = 14 ∨ i = 15 then 0 else if i = 3 then setField (wordAt w 3) 23 0 0 else wordAt w i

/-- Items 1 to 6 in order. -/
def digestBytes (s : State) (j : Job) : List Byte :=
  let p := j.hold.toNat
  [0x53, 0x57, 0x44, 0x31] ++ leBytes 2 p ++ [0, 0] ++ leBytes 8 s.boot.imgGen.toNat ++ wordsBytes (progRec s p) ++
    ((progFronds s p).flatMap fun f => s.boot.wDigests.getD f.val []) ++ wordsBytes (digestSpore j.spore) ++ j.digestItems.getD []

/-- The digest as eight words, first byte in byte 0 of the first. -/
def digestOf (s : State) (j : Job) : List Word := bytesWords 8 (sha256 (digestBytes s j))

/-! ### Forming the record -/

/-- A job whose record, or whose part in another device's record, is about to be formed. -/
def jobRecord (s : State) (j : Job) (st : Byte) : CompRecord :=
  let h := j.hold.toNat
  let short := decide (spInLen j.spore < progInDecl s h) || decide (spOutLen j.spore < progOutDecl s h)
  let halo := match j.shard with | .sharded _ _ b => b | _ => false
  let beyond := match j.digestItems with | some bs => inputClamps s h (spInLen j.spore) (bytesWords (progInDecl s h) bs) | none => false
  let w := if st.toNat < 5 then outLen s j else 0
  { queue := j.queue, idx := j.idx, part := j.part, tag := spTag j.spore, status := st
    iter := if st == 0x00 || st == 0x01 || st == 0x02 then j.iter.toNat else 0
    pivb := j.pivb, sat := j.sat, clamp := j.clamp || stateClamp s j || halo || (j.demoted && h != j.req.toNat && short) || beyond, demoted := j.demoted
    nanrec := j.nanrec, preempt := j.preempt.toNat, finish := if st.toNat < 5 && j.outAt && w != 0 then j.finish else stamp s
    progRan := if st == 0x20 then 0 else h
    wait := (match j.started with | some t => if st == 0x08 || st == 0x09 then stamp s - j.accept else t - j.accept | none => stamp s - j.accept).toNat
    outWords := w, digest := if spDig j.spore && decide (st.toNat < 5) then some (digestOf s j) else none
    deadline := spDeadline j.spore, irq := spIrq j.spore }

/-- FLAGS of R62 [22:16], as a PDONE carries them. -/
def recordFlags (r : CompRecord) : BitVec 7 := BitVec.ofNat 7 (field (wordAt r.words 2) 22 16)

/-- The job leaves the table, and its queue may run the next spore (R38, R58). -/
def dropJob (s : State) (j : Job) : State := { s with jobs := s.jobs.filter (·.id != j.id) }

/-- Settlement and record, in that order (R299, step 6). -/
def settleAndForm (s : State) (j : Job) (st : Byte) : State :=
  let (s1, j, _) := if st.toNat < 5 then beginOutput s j st else (s, j, false)
  let r := jobRecord s1 j st
  let s2 := settleState (settleArea s1 j st) j st r.finish
  dropJob (setRunning (formRecord s2 r) j.queue false) j

/-- Rank of a stretch status, the highest first (R349). -/
def statusRank (st : Byte) : Nat :=
  if isFault st then 1 else if st == 0x21 then 2 else if st == 0x09 || st == 0x08 then 3 else if st == 0x04 then 4
  else if st == 0x03 then 5 else if st == 0x02 then 6 else if st == 0x01 then 7 else 8

/-- A substitute begins: the area half-written by the stopped run is never read (R176, R198). One that the action time calls for fell due
then (R201). -/
def startCopy (s : State) (j : Job) : State :=
  let s1 := if areaWritable s j.queue j.req.toNat && halfArea j then setPriorValid s j.queue false else s
  modJob s1 j.id fun j => { j with
    st := .substitute, line := 0, dueAt := if j.fired then j.dueAt else s.now, areaAt := false, outAt := false, begun := false }

/-- Remote output writes of a job not yet acknowledged (R347). -/
def writesOwed (s : State) (id : Nat) : Bool := s.tree.tags.any fun o => o.job == some id && !o.read

/-- The manager combines the stretch outcomes into one record, or one substitute (R349). -/
def combine (s : State) (j : Job) (outs : List (Nat × Byte × Byte × BitVec 7 × Byte)) : State :=
  let best := outs.foldl (fun b o => if statusRank o.2.1 < statusRank b then o.2.1 else b) 0x00
  let best := if best == 0x08 then 0x09 else best
  let it := outs.foldl (fun m o => min m o.2.2.1.toNat) 255
  let fl := outs.foldl (fun (m : BitVec 7) o => m ||| o.2.2.2.1) 0
  let pr := outs.foldl (fun m o => max m o.2.2.2.2.toNat) 0
  let j1 := { j with
    iter := BitVec.ofNat 8 it, pivb := j.pivb || bit fl 0, sat := j.sat || bit fl 1, clamp := j.clamp || bit fl 2
    demoted := j.demoted || bit fl 3, nanrec := j.nanrec || bit fl 6, preempt := BitVec.ofNat 8 pr, status := best }
  let s1 := modJob s j.id fun _ => j1
  if j.peerLost then
    (if areaReadable s1 j.queue j.req.toNat then startCopy s1 { j1 with iter := 0 } else settleAndForm s1 { j1 with iter := 0 } 0x21)
  else if best == 0x03 || best == 0x04 then startCopy s1 j1
  else if spDig j.spore && !j.digestDone && decide (best.toNat < 5) then modJob s1 j.id fun j => { j with st := .finishing }
  else settleAndForm s1 j1 best

/-- A stretch outcome reaches the manager (R347, step 6). -/
def stretchDone (s : State) (q : QueueId) (tag : BitVec 64) (o : Nat × Byte × Byte × BitVec 7 × Byte) : State :=
  match s.jobs.find? fun j => j.queue == q && spTag j.spore == tag && (match j.shard with | .sharded _ _ _ => true | _ => false) with
  | none => s
  | some j =>
    match j.shard with
    | .sharded hs outs halo =>
      if outs.any (·.1 == o.1) || hs.length ≤ o.1 then s
      else
        let outs1 := outs ++ [o]
        let j1 := { j with shard := .sharded hs outs1 halo }
        let s1 := modJob s j.id fun _ => j1
        if outs1.length = hs.length then combine s1 j1 outs1 else s1
    | _ => s

/-- A holder's part ends: PDONE to the manager, or its outcome at once on the manager itself (R347, step 5). -/
def endStretch (s : State) (j : Job) (st : Byte) (k manager : Nat) : State :=
  let r := jobRecord s j st
  let s1 := dropJob s j
  if manager = s.tree.node.toNat then
    stretchDone s1 j.queue (spTag j.spore) (k, st, BitVec.ofNat 8 r.iter, recordFlags r, BitVec.ofNat 8 r.preempt)
  else sendTo s1 j.part manager (.pdone {
    queue := j.queue, tag := spTag j.spore, k := k, status := st, iter := BitVec.ofNat 8 r.iter, flags := recordFlags r
    preempt := BitVec.ofNat 8 r.preempt })

/-- A job ends with a status: its record is formed when output and digest are complete (R444), a stretch's outcome sent once its
writes are acknowledged (R347). -/
def endJob (s : State) (j : Job) (st : Byte) : State :=
  match j.shard with
  | .stretch _ _ _ k m =>
    if writesOwed s j.id then modJob s j.id fun _ => { j with st := .finishing, status := st } else endStretch s j st k m
  | _ =>
    if spDig j.spore && !j.digestDone && decide (st.toNat < 5) then modJob s j.id fun _ => { j with st := .finishing, status := st }
    else settleAndForm s j st

/-- Jobs that only waited for a digest or for acknowledgements. -/
def finishWaiting (s : State) : State :=
  s.jobs.foldl (fun s j => if j.st == .finishing then endJob s j j.status else s) s

/-- A substitute is to be delivered (R198); a holder leaves it to the manager (R349). -/
def beginSubstitute (s : State) (j : Job) : State :=
  match j.shard with
  | .stretch _ _ _ k m =>
    endStretch s j (if areaReadable s j.queue j.req.toNat && !halfArea j then 0x03 else 0x04) k m
  | _ => startCopy s j

/-! ### SUBSTITUTE_COPY (R195, R198, R201) -/

/-- The substitute that fell due first. -/
def nextCopy (s : State) : Option Job :=
  (s.jobs.filter (·.st == .substitute)).foldl (fun b j => match b with
    | none => some j
    | some o => if j.dueAt < o.dueAt then some j else some o) none

/-- The status of a substitute (R195). -/
def substituteStatus (s : State) (j : Job) : Byte := if areaReadable s j.queue j.req.toNat then 0x03 else 0x04

/-- The words of the output window that substitute line `l` covers: address and number. -/
def copySpan (s : State) (j : Job) (l : Nat) : Nat × Nat × Nat :=
  let a := spOutAddr s j.part j.spore 0
  let lo := if l = 0 then 0 else (128 * (a / 128 + l) - a) / 4
  let hi := min (outLen s j) ((128 * (a / 128 + l + 1) - a) / 4)
  (lo, hi, a + 4 * lo)

/-- SUBSTITUTE_COPY: the next 128 B line of the substitute that fell due first; its record follows the last. Before the first line the area is
advanced and the export written, so that the lines are copied from the advanced area (R176). A cancel stops it at its next line (R203); an
uncorrectable word of the area stops it with FAULT_ECC (R482). -/
def execSubstituteCopy (t : Time) (s : State) : Host.Outcome State Fault Refusal :=
  live t s fun s =>
    match operating s, nextCopy s with
    | true, some j =>
      if j.cancelled then endJob s j j.cancelStatus
      else
        let (lo, hi, a) := copySpan s j j.line
        let st := substituteStatus s j
        let n := hi - lo
        let (s, j, bad0) := beginOutput s j st
        let w := areaWords s j.req.toNat
        let (s, bad) := if st == 0x03 && !bad0 then ssCheckAll s (areaAddr s j.queue + 4 * lo) (min hi w - lo) else (s, bad0)
        if bad then endJob (setPriorValid s j.queue false) { j with outAt := false } 0x10
        else
          let word := fun (i : Nat) => if st == 0x04 then (0 : Word)
            else if i < w then rdWord s (areaAddr s j.queue + 4 * i) else Config.openWord s.freeCtr [BitVec.ofNat 32 i]
          let s1 := ssStore { s with freeCtr := s.freeCtr + 1 } a ((upto n).map fun i => word (lo + i))
          let j1 := { j with line := j.line + 1, outAt := true, finish := stamp s }
          if outLen s j ≤ hi then endJob (modJob s1 j.id fun _ => j1) j1 st else modJob s1 j.id fun _ => j1
    | _, _ => s

/-- DIGEST_COMPLETE: the engine has hashed what the run read, or, where no program read anything, items 1 to 4 (R443, R444). -/
def execDigestComplete (t : Time) (q : QueueId) (entry : Fin 64) (s : State) : Host.Outcome State Fault Refusal :=
  live t s fun s =>
    match operating s, jobAt s q entry with
    | true, some j =>
      when_ (spDig j.spore && (j.digestItems.isSome || j.st == .substitute || j.st == .finishing)) s fun s =>
        finishWaiting (modJob s j.id fun j => { j with digestDone := true })
    | _, _ => s

end Sys2Proof.Machine
end

