-- ==== Sys2Proof/Machine/Contexts.lean ====
section
/-!
DEFINITION. Contexts under Hearth cores 0 and 2: ranking, the commands of CTXCMD, boundaries, save and restore, teardown (R281 to
R300).
-/
namespace Sys2Proof.Machine

/-! ### Ranking (R284 to R286) -/

/-- Key order of R284 within a Frond: a delivery first, then deadline, acceptance, context number. -/
def outranks (s : State) (f : FrondId) (a b : CtxId) : Bool :=
  let x := ctx s f a
  let y := ctx s f b
  match ctxJob s f a, ctxJob s f b with
  | some j, some k =>
    if x.delivering != y.delivering then x.delivering
    else if spDeadline j.spore != spDeadline k.spore then earlier (spDeadline j.spore) (spDeadline k.spore)
    else if j.accept != k.accept then earlier j.accept k.accept
    else decide (a.val < b.val)
  | some _, none => true
  | none, some _ => false
  | none, none => decide (a.val < b.val)

/-- Contexts that take part in a re-ranking; one that yielded is passed over while another could run (R286). -/
def ranked (s : State) (f : FrondId) : List CtxId :=
  let cs := (allFin 4).filter fun c =>
    let x := ctx s f c
    x.st == .ready || x.st == .running || x.st == .saved
  let others := fun (c : CtxId) => cs.any fun d => d != c && ((ctx s f d).st == .ready || (ctx s f d).st == .saved)
  cs.filter fun c => !((ctx s f c).yielded && others c)

def bestOf (s : State) (f : FrondId) (cs : List CtxId) : Option CtxId :=
  cs.foldl (fun b c => match b with
    | none => some c
    | some d => if outranks s f c d then some c else some d) none

/-- RERANK: the best context gets RUN when the Frond is free, and the running one PREEMPT when it is outranked (R285). -/
def rerank (s : State) (f : FrondId) : State :=
  match bestOf s f (ranked s f), (frond s f).cur with
  | some b, none => modCtx s f b fun x => { x with cmd := 1 }
  | some b, some c =>
    if b != c && (ctx s f c).st == .running then modCtx s f c fun x => { x with cmd := 2 } else s
  | none, _ => s

/-! ### Stopping a context (R297) -/

/-- A command its state does not list is discarded and logged; DATA is the command and the state (R297, R432). -/
def discardCmd (s : State) (f : FrondId) (c : CtxId) (cmd : Nat) : State :=
  logEvent (modCtx s f c fun x => { x with cmd := 0 }) (uFrond f) 0x0A c.val (BitVec.ofNat 32 (cmd + at_ 8 (ctx s f c).st.code))

/-- The FC a context has run up to now are added up (R189). -/
def stopRun (s : State) (f : FrondId) (c : CtxId) : State :=
  modCtx (accrueBusy s f) f c fun x => { x with
    fcRun := x.fcRun + (match x.lastRun with | some t => (s.now - t) / tFC s | none => 0), lastRun := none }

def enterTeardown (s : State) (f : FrondId) (c : CtxId) : State :=
  let s1 := stopRun s f c
  modCtx (logWaitEnd s1 f c (ctx s1 f c).blk) f c fun x => { x with
    st := .teardown, tearAt := s.now, torn := false, cmd := 0, slotWait := none, blk := none, waitk := .none, preq := false
    preemptNow := false }

/-- STOP taken in a state (R297). -/
def stopCtx (s : State) (f : FrondId) (c : CtxId) : State :=
  match (ctx s f c).st with
  | .staging | .ready | .saved => enterTeardown s f c
  | .running | .saving | .restoring => modCtx s f c fun x => { x with stopReq := true, cmd := 0 }
  | .idle | .teardown => discardCmd s f c 4

/-- ABORT taken in a state: output is discarded from now on (R297). It ends the deferral of a pre-emption and governs a running context in its
place (R289, R298). A delivery stops at its next boundary (R203). -/
def abortCtx (s : State) (f : FrondId) (c : CtxId) : State :=
  match (ctx s f c).st with
  | .staging | .ready | .saved => enterTeardown s f c
  | .running | .saving | .restoring => modCtx s f c fun x => { x with
      areq := true, noOutput := true, cmd := 0, stopReq := x.stopReq || x.delivering, preq := false
      preemptNow := x.preemptNow && x.st != .running }
  | .idle | .teardown => discardCmd s f c 3

/-! ### The lines of a save area (R290 to R293) -/

def saveArea (f : FrondId) (c : CtxId) : Nat := ssBase + 0x1000000 + (4 * f.val + c.val) * 0x2000

/-- LIVE of a save: the mask of the CHEAP at a cheap point, else all ones (R290, R292). -/
def liveMask (x : Ctx) : BitVec 6 := if x.kind then x.atCheap.getD 0x3F else 0x3F

/-- The header (R292). -/
def saveHeader (f : FrondId) (c : CtxId) (x : Ctx) (q : QueueId) : List Word :=
  [BitVec.ofNat 32 (1 + at_ 8 x.kind.toNat + at_ 9 x.sbEn.toNat + at_ 10 (liveMask x).toNat), BitVec.ofNat 32 x.pc.toNat,
   BitVec.ofNat 32 (x.holdProg.toNat + at_ 12 f.val + at_ 19 c.val), BitVec.ofNat 32 q.toNat,
   BitVec.ofNat 32 x.stamp.toNat, BitVec.ofNat 32 (x.stamp.toNat / 2 ^ 32 + at_ 24 x.npre.toNat),
   BitVec.ofNat 32 x.waitk.code] ++ List.replicate 25 0

/-- Words whose layout the manual does not give: Crumb control, array state and engine queues. The state keeps what they stand
for; the words themselves are free. -/
def openWords (s : State) (k n : Nat) : List Word := (upto n).map fun i => Config.openWord s.freeCtr [BitVec.ofNat 32 (k + i)]

/-- The lines a save writes: offset and words (R290, R291). -/
def saveLines (s : State) (f : FrondId) (c : CtxId) : List (Nat × List Word) :=
  let x := ctx s f c
  let q := ((ctxJob s f c).map (·.queue)).getD 0
  let live := fun (i : Nat) => bit (liveMask x) i
  let pick := fun (b : Bool) (o : Nat) (ws : List Word) => if b then [(o, ws)] else []
  let ar := fun (o n : Nat) => (upto n).map fun i => arithRead x (o + 4 * i)
  let sb := (upto 64).map fun i => let r := vgetD x.sb (i / 2) none; if i % 2 = 0 then sbWord0 r else sbWord1 r
  pick true 0 (saveHeader f c x q) ++ pick (live 0) 0x80 x.g.toList ++
    pick true 0x100 (openWords s 0x100 16 ++ (upto 16).map fun i => pivRead x (4 * i)) ++
    pick true 0x180 ((upto 8).map (fun i => dlRead x (4 * i)) ++ List.replicate 24 0) ++
    pick true 0x200 (ar 0 32) ++ pick (live 1) 0x280 (ar 0x80 32) ++ pick (live 2) 0x300 (ar 0x100 32) ++
    pick (live 3) 0x380 (ar 0x180 32) ++ pick (live 4 || !x.fetchQ.isEmpty) 0x400 (openWords s 0x400 64) ++
    pick (live 5 || !x.drainQ.isEmpty) 0x500 (openWords s 0x500 64) ++ pick x.sbEn 0x1F00 sb

/-- Lines of 128 B of a save: offset and words. -/
def splitLines (ls : List (Nat × List Word)) : List (Nat × List Word) :=
  ls.flatMap fun l => (upto (l.2.length / 32)).map fun i => (l.1 + 128 * i, (l.2.drop (32 * i)).take 32)

/-- The save begins: its lines leave for the Shared Store through the group bridge, device class (R261, R291, R293). -/
def startSave (s : State) (f : FrondId) (c : CtxId) : State :=
  (splitLines (saveLines s f c)).foldl (fun s l => (putXfer s (frondReq f) none fun _ => .saveLine f c (saveArea f c + l.1) l.2).2)
    { s with freeCtr := s.freeCtr + 1 }

/-- The restore begins: its lines are read (R261, R291, R293). -/
def startRestore (s : State) (f : FrondId) (c : CtxId) : State :=
  (splitLines (saveLines s f c)).foldl (fun s l => (putXfer s (frondReq f) none fun _ => .restoreLine f c (saveArea f c + l.1) 32).2) s

/-- Lines of a save or a restore of the context still under way. -/
def linesUnderWay (s : State) (f : FrondId) (c : CtxId) : Bool :=
  s.fabric.xfers.any fun e => match e.x with
    | .saveLine g d _ _ => g == f && d == c
    | .restoreLine g d _ _ => g == f && d == c
    | _ => false

/-! ### The commands (R297) -/

/-- The Frond waits for W phase 0, then `n` more FC (R213, R293). -/
def phaseWait (s : State) (f : FrondId) (n : Nat) : State :=
  let turn := 8 * tFC s
  modFrond s f fun fr => { fr with resumeAt := ceilDiv s.now turn * turn, issueAt := ceilDiv s.now turn * turn + n * tFC s }

/-- A context goes on the Frond. -/
def goRunning (s : State) (f : FrondId) (c : CtxId) : State :=
  modFrond (modCtx s f c fun x => { x with st := .running, cmd := 0, lastRun := some s.now }) f fun fr =>
    { fr with cur := some c, busySince := s.now }

/-- The job's first instruction is about to start (R62, WAIT). -/
def markStarted (s : State) (f : FrondId) (c : CtxId) : State :=
  match (ctx s f c).job with
  | some id => modJob s id fun j => { j with started := some (j.started.getD (stamp s)) }
  | none => s

/-- RUN taken in a state (R297): one context of a Frond at a time. -/
def runCmd (s : State) (f : FrondId) (c : CtxId) : State :=
  if !operating s || !groupActive s f then s
  else match (ctx s f c).st with
  | .ready => if (frond s f).cur.isSome then s
      else traceOp (phaseWait (markStarted (goRunning s f c) f c) f 0) f c 0 1
  | .saved => if (frond s f).cur.isSome then s
      else startRestore (modFrond (modCtx s f c fun x => { x with st := .restoring, cmd := 0 }) f fun fr => { fr with cur := some c }) f c
  | _ => discardCmd s f c 1

/-- CTX_RUN (R297). -/
def execCtxRun (t : Time) (f : FrondId) (c : CtxId) (s : State) : Host.Outcome State Fault Refusal := live t s fun s => runCmd s f c

/-- PREEMPT of a running context: deferred under PWAIT to reach a cheap point (R288, R289). -/
def preemptCtx (s : State) (f : FrondId) (c : CtxId) : State :=
  let p := progPwait s (ctx s f c).prog.toNat
  modCtx s f c fun x =>
    if p = 0 then { x with preemptNow := true, cmd := 0 } else { x with preq := true, pwaitAt := s.now + p * tFC s, cmd := 0 }

/-- PREEMPT taken in a state (R297). -/
def preemptCmd (s : State) (f : FrondId) (c : CtxId) : State :=
  if !operating s then s
  else match (ctx s f c).st with
  | .running => preemptCtx s f c
  | .restoring => modCtx s f c fun x => { x with preemptNow := true, cmd := 0 }
  | _ => discardCmd s f c 2

/-- CTX_PREEMPT (R297). -/
def execCtxPreempt (t : Time) (f : FrondId) (c : CtxId) (s : State) : Host.Outcome State Fault Refusal :=
  live t s fun s => preemptCmd s f c

/-- The status that a cancel gives a job now: CANCELLED where no program has started and no deadline delivery is under way; a cancel in the XC
of the action time comes before that delivery (R60, R203). -/
def cancelStatusOf (s : State) (j : Job) : Byte :=
  let delivery := j.st == .stopping || j.st == .delivering || j.st == .substitute
  if j.started.isSome || j.st == .finishing || (delivery && !(j.line == 0 && reachedNow s j.tact)) then 0x09 else 0x08

/-- A job with a cancel noted; the first one counts. -/
def markCancel (s : State) (j : Job) : Job :=
  if j.cancelled then j else { j with cancelled := true, cancelStatus := cancelStatusOf s j }

/-- ABORT carries out a cancel (R60, R297). -/
def abortCmd (s : State) (f : FrondId) (c : CtxId) : State :=
  let s1 := match (ctx s f c).job with
    | some id => modJob s id (markCancel s)
    | none => s
  abortCtx s1 f c

/-- CTX_ABORT (R60, R297). -/
def execCtxAbort (t : Time) (f : FrondId) (c : CtxId) (s : State) : Host.Outcome State Fault Refusal :=
  live t s fun s => when_ (operating s) s fun s => abortCmd s f c

/-- CTX_STOP (R297). -/
def execCtxStop (t : Time) (f : FrondId) (c : CtxId) (s : State) : Host.Outcome State Fault Refusal :=
  live t s fun s => when_ (operating s) s fun s => stopCtx s f c

/-- PWAIT_EXPIRY: the deferral ends (R289). -/
def execPwaitExpiry (t : Time) (f : FrondId) (c : CtxId) (s : State) : Host.Outcome State Fault Refusal :=
  live t s fun s =>
    let x := ctx s f c
    when_ (x.preq && x.st == .running && decide (x.pwaitAt ≤ s.now) && operating s) s fun s =>
      modCtx s f c fun x => { x with preq := false, preemptNow := true }

/-- WAIT_YIELD: a context blocked for WAITQ FC gives way while another of its Frond could run (R286); one whose tag lets its access pass by now
does not (R298). -/
def execWaitYield (t : Time) (f : FrondId) (c : CtxId) (s : State) : Host.Outcome State Fault Refusal :=
  live t s fun s =>
    let x := ctx s f c
    let other := (allFin 4).any fun d => d != c && ((ctx s f d).st == .ready || (ctx s f d).st == .saved)
    let comes := x.waitk == .tag && (match x.waitOn with | some (m, w, k) => (tagAccess (frond s f) m w k).isSome | none => false)
    when_ (operating s && runningCtx s f == some c && x.waitq != 0 && decide (x.waitq.toNat ≤ waitFc s x) && other && !comes) s fun s =>
      rerank (modCtx s f c fun x => { x with yielded := true, preemptNow := true }) f

/-! ### Boundaries (R288, R289, R298) -/

/-- Nothing of the context's instructions is still to complete: array, multiplier, divider, stores (R288). -/
def atBoundary (s : State) (f : FrondId) (c : CtxId) : Bool :=
  let fr := frond s f
  let x := fr.ctxs.get c
  x.store.isEmpty && fr.mma.all (fun o => o.ctx != c) && (match fr.mul with | some u => u.ctx != c | none => true) &&
    (match fr.div with | some u => u.ctx != c | none => true) && x.tiles.toList.all (·.pendArgs.isNone) && fr.arrLines.all (fun l => l.ctx != c)

/-- And nothing of it is under way to or from a memory; what an engine holds has been written, or is blocked at its line (R288, R295). -/
def settled (s : State) (f : FrondId) (c : CtxId) : Bool :=
  let fr := frond s f
  let x := fr.ctxs.get c
  let idle := fun (q : List EngCmd) => match q with | e :: _ => e.busy.isNone && (e.buf.isNone || e.blk.isSome) | [] => true
  x.load.isNone && idle x.fetchQ && idle x.drainQ &&
    fr.flight.all fun p => p.2.ctx != some c

/-- Every engine command that the context issued has completed, or has stopped at a fault of its own (R88). -/
def enginesDone (x : Ctx) : Bool :=
  let done := fun (q : List EngCmd) => match q with | e :: _ => e.poison | [] => true
  done x.fetchQ && done x.drainQ

/-- A trap under a TRAPEN bit, which leaves every earlier instruction to complete (R88). -/
def FaultKind.trap : FaultKind → Bool
  | .ecc | .window => false
  | _ => true

/-- A fault is delivered now: a trap once the engine commands before it have completed (R88). -/
def faultNow (x : Ctx) : Bool := match x.fault with | some k => !k.trap || enginesDone x | none => false

/-- CONTEXT_BOUNDARY: fault, abort, stop, completion, then pre-emption, in the precedence of R298. -/
def execContextBoundary (t : Time) (f : FrondId) (c : CtxId) (s : State) : Host.Outcome State Fault Refusal :=
  live t s fun s =>
    let x := ctx s f c
    if x.fault.isSome && operating s && (x.st == .staging || x.st == .ready || x.st == .saved) then enterTeardown s f c
    else if runningCtx s f != some c || !operating s || !atBoundary s f c then s
    else if x.fault.isSome then when_ (faultNow x) s fun s => enterTeardown s f c
    else if (x.areq && (x.atCheap.isSome || x.completed)) || x.stopReq then enterTeardown s f c
    else if x.completed then enterTeardown (if x.preq || x.preemptNow then discardCmd s f c 2 else s) f c
    else if (x.preemptNow || (x.preq && x.atCheap.isSome)) && settled s f c && !actionPending s f c then
      let s1 := logWaitEnd (stopRun s f c) f c x.blk
      startSave (modCtx s1 f c fun x => { x with
        st := .saving, kind := x.atCheap.isSome, npre := satInc x.npre, stamp := stamp s, slotWait := none, blk := none
        preq := false, preemptNow := false }) f c
    else s

/-! ### Save and restore (R290 to R294) -/

/-- The state of a context that a save leaves to its save area, with the array's current MODE: tile contents are gone, range entries free (R252, R291). -/
def leftSaved (mode : Option Bool) (x : Ctx) : Ctx :=
  { x with
    st := .saved, mode := mode, sb := Vector.replicate 24 none, lost := none, cresetAt := 0
    tiles := x.tiles.map fun t => if x.kind then Tile.reset else { t with words := [], issued := false } }

/-- SAVE_COMPLETE: the last line has been written (R293, R297). -/
def execSaveComplete (t : Time) (f : FrondId) (c : CtxId) (s : State) : Host.Outcome State Fault Refusal :=
  live t s fun s =>
    if (ctx s f c).st != .saving || linesUnderWay s f c || !operating s then s
    else
      let s2 := traceFrond s f c 0 6 0
      let s3 := modFcnt (modFrond (modCtx s2 f c (leftSaved (frond s2 f).arrMode)) f fun fr => { fr with cur := none }) f fun n =>
        { n with preempt := satInc n.preempt }
      let x := ctx s3 f c
      if x.areq || x.stopReq || x.fault.isSome then rerank (enterTeardown s3 f c) f else rerank s3 f

/-- A context as its save area gives it back: registers of lines not written read as zero (R290, R291). `w o` is the word at
offset `o` of the area. -/
def restored (x : Ctx) (w : Nat → Word) : Ctx :=
  let kind := bit (w 0) 8
  let live := fun (i : Nat) => bit (BitVec.ofNat 6 (field (w 0) 15 10)) i
  let x1 := pivLoad (arithLoad x fun i => w (0x200 + 4 * i)) fun i => w (0x140 + 4 * i)
  let x2 := dlLoad x1 fun i => w (0x180 + 4 * i)
  { x2 with
    kind := kind, pc := BitVec.ofNat 18 (w 4).toNat
    g := Vector.ofFn fun (i : Fin 32) => if live 0 then w (0x80 + 4 * i.val) else 0
    scale := Vector.ofFn fun (i : Fin 32) => if live 1 then BitVec.ofNat 19 (w (0x280 + 4 * i.val)).toNat else 0
    rmax := Vector.ofFn fun (i : Fin 32) => if live 2 then w (0x300 + 4 * i.val) else 0
    xmax := Vector.ofFn fun (i : Fin 32) => if live 3 then BitVec.ofNat 8 ((w (0x380 + 4 * (i.val / 4))).toNat >>> (8 * (i.val % 4))) else 0
    sb := Vector.ofFn fun (i : Fin 24) => if bit (w 0) 9 then sbLoad (w (0x1F00 + 8 * i.val)) (w (0x1F04 + 8 * i.val)) else none
    waitk := .none, blk := none, waitOn := none
    atCheap := if kind then some (BitVec.ofNat 6 (field (w 0) 15 10)) else none }

/-- Every valid tile register is loaded again from its W address, in the array's slots from W phase 0 on (R213, R291, R293). -/
def reloadTiles (s : State) (f : FrondId) (c : CtxId) : State :=
  (allFin 2).foldl (fun s i =>
    let r := (ctx s f c).tiles.get i
    if !r.valid then s
    else startTile s f c { tile := i, waddr := r.waddr, solver := r.solver, fmt := r.fmt, transposed := r.transposed } []) s

/-- Discarded engine work and freed ranges (R299, steps 2 and 3). -/
def dropWork (s : State) (f : FrondId) (c : CtxId) : State :=
  let s1 := (logWaitEnd (logWaitEnd s f c (((ctx s f c).fetchQ.head?).bind (·.blk))) f c (((ctx s f c).drainQ.head?).bind (·.blk)))
  modFrond (modCtx s1 f c fun x => { x with
      fetchQ := [], drainQ := [], load := none, slotWait := none, sb := Vector.replicate 24 none, lost := none, cresetAt := 0 }) f fun fr =>
    { fr with flight := fr.flight.filter (fun p => p.2.ctx != some c), arrHold := fr.arrHold.filter fun h => h.ctx != c }

/-- The context starts at its delivery entry in place of its own remaining work (R197). -/
def divertCtx (s : State) (f : FrondId) (c : CtxId) : State :=
  modCtx (dropWork s f c) f c fun x => { x with
    pc := BitVec.ofNat 18 (progDeliv s x.holdProg.toNat), divert := false, delivering := true, atCheap := none, preq := false
    preemptNow := false }

/-- DLST of a restored context: the timer list has watched TACT while it was saved (R188). -/
def timerSeen (j : Option Job) (x : Ctx) : Ctx :=
  if j.any (·.fired) then { x with armed := false, fired := x.fired || x.armed } else x

/-- RESTORE_COMPLETE: the last line has been read; an uncorrectable word of one ends the spore (R290 to R294, R297). -/
def execRestoreComplete (t : Time) (f : FrondId) (c : CtxId) (s : State) : Host.Outcome State Fault Refusal :=
  live t s fun s =>
    if (ctx s f c).st != .restoring || linesUnderWay s f c || !operating s then s
    else
      let a := saveArea f c
      if (ctx s f c).fault == some .ecc then enterTeardown s f c
      else
        let s2 := modCtx s f c fun x => timerSeen (ctxJob s f c) (restored x fun o => rdWord s (a + o))
        let rs := (ctx s2 f c).sb.toList.filterMap id
        let s3 := modFrond s2 f fun fr => { rs.foldl sbTouch fr with arrMode := (ctx s2 f c).mode }
        let s4 := traceFrond s3 f c 0 7 0
        let x := ctx s4 f c
        if x.areq || x.stopReq || x.fault.isSome then enterTeardown s4 f c
        else
          let s5 := reloadTiles (goRunning s4 f c) f c
          let s6 := phaseWait s5 f (32 * (x.tiles.toList.filter (·.valid)).length)
          if x.divert then divertCtx s6 f c else s6

/-! ### Teardown (R299) -/

/-- The flags and counts of an ending context enter its job (R87, R171, R299). -/
def collectCtx (s : State) (f : FrondId) (c : CtxId) (j : Job) : Job :=
  let x := ctx s f c
  let fr := frond s f
  let p := x.holdProg.toNat
  let cached := progCache s p && fr.cacheValid.contains p
  { j with
    pivb := j.pivb || x.astat &&& aPIVB != 0 || (cached && fr.cachePivb.contains p)
    sat := j.sat || x.astat &&& aSAT != 0 || (cached && fr.cacheSat.contains p)
    nanrec := j.nanrec || x.fnr.valid, preempt := BitVec.ofNat 8 (max j.preempt.toNat x.npre.toNat)
    fault := match j.fault with | some k => some k | none => x.fault }

/-- Step 4: what the context leaves in the Frond's event ring: its status, ASTAT, FNR, PIVCNT with PIVREC, SBSTAT and, for an ECC fault, ECCADDR.
R432 gives ASTAT no code: one that is not 0 follows the status under its code (DESIGN CHOICE, log entry 89). -/
def logTeardown (s : State) (f : FrondId) (c : CtxId) (status : Byte) : State :=
  let x := ctx s f c
  let u := uFrond f
  let s1 := logEvent s u 0x0C c.val (BitVec.ofNat 32 status.toNat)
  let s2 := if x.astat != 0 then logEvent s1 u 0x0C c.val (BitVec.ofNat 32 x.astat.toNat) else s1
  let s3 := logPivots (logFnr s2 f c x.fnr) f c x.pivcnt x.pivrec0 x.pivrec1
  let s4 := logEvent s3 u 0x09 c.val (sbStat x)
  let fr := frond s f
  if x.fault = some .ecc && fr.eccValid then
    logEvent s4 u 0x04 c.val (BitVec.ofNat 32 (fr.eccWord.toNat + at_ 16 fr.eccMem.toNat + at_ 18 fr.eccScrub.toNat))
  else s4

/-- The running context is done with step 6: its Frond is free, and ranked anew (R285). -/
def freeFrond (s : State) (f : FrondId) (c : CtxId) : State :=
  if (frond s f).cur = some c then rerank (modFrond s f fun fr => { fr with cur := none }) f else s

/-- The job leaves its contexts, which go on to steps 7 to 9. -/
def releaseCtxs (s : State) (j : Job) : State :=
  (ctxsOf s j).foldl (fun s p => modCtx s p.1 p.2 fun x => { x with job := none }) s

/-- Iterations marked by every context of a job (R172). -/
def markedIter (s : State) (j : Job) : Nat := (ctxsOf s j).foldl (fun m p => min m (ctx s p.1 p.2).itcnt.toNat) 255

/-- Step 6, once every context of the job is torn down: the status by R89, R195 and R297. -/
def endRun (s : State) (j : Job) : State :=
  let done := (ctxsOf s j).all fun p => (ctx s p.1 p.2).completed
  let s1 := releaseCtxs s j
  let full := (itersOf s j.hold.toNat).isSome
  if j.fault.isSome then endJob s1 j ((j.fault.map FaultKind.status).getD 0)
  else if j.cancelled then endJob s1 j j.cancelStatus
  else if j.peerLost then (if areaReadable s j.queue j.req.toNat then beginSubstitute s1 j else endJob s1 j 0x21)
  else if j.st == .stopping || !done then beginSubstitute s1 j
  else if j.st == .delivering then endJob s1 j (if j.demoted then 0x02 else 0x01)
  else endJob s1 { j with iter := if full then BitVec.ofNat 8 (markedIter s j) else 0 } (if j.demoted then 0x02 else 0x00)

/-- The status a context's end points to, for its teardown event. -/
def endStatus (s : State) (j : Job) (x : Ctx) : Byte :=
  match j.fault, x.fault with
  | some k, _ => k.status
  | none, some k => k.status
  | none, none =>
    if j.cancelled then j.cancelStatus
    else if j.peerLost then 0x21
    else if j.st == .stopping || !x.completed then substituteStatus s j
    else if j.demoted then 0x02 else if j.st == .delivering then 0x01 else 0x00

/-- CONTEXT_TEARDOWN: steps 1 to 6 (R299). -/
def execContextTeardown (t : Time) (f : FrondId) (c : CtxId) (s : State) : Host.Outcome State Fault Refusal :=
  live t s fun s =>
    let x := ctx s f c
    if x.st != .teardown || x.torn || !operating s then s
    else
      let s0 := traceOp (dropWork s f c) f c 0 2
      let st := match ctxJob s f c with | some j => endStatus s j x | none => 0
      let s1 := logTeardown s0 f c st
      let s2 := modFrond (modCtx s1 f c fun x => { x with
          torn := true, sbEn := false, armed := false, tiles := Vector.replicate 2 Tile.reset }) f fun fr =>
        { fr with line := if fr.cur = some c then [] else fr.line }
      match ctxJob s2 f c with
      | none => freeFrond s2 f c
      | some j0 =>
        let s3 := modJob s2 j0.id fun j => collectCtx s f c j
        let others := (ctxsOf s3 j0).filter fun p => p != (f, c)
        let stopped := x.fault.isSome || !x.completed
        let s4 := if stopped then others.foldl (fun s p =>
            if (ctx s p.1 p.2).st == .teardown then s else stopCtx s p.1 p.2) s3 else s3
        match jobOf s4 j0.id with
        | some j =>
          let cs := ctxsOf s4 j
          if cs.all fun p => (ctx s4 p.1 p.2).torn && (ctx s4 p.1 p.2).st == .teardown then
            cs.foldl (fun s p => freeFrond s p.1 p.2) (endRun s4 j)
          else s4
        | none => s4

/-- Steps 7 and 8, and the accesses of step 9, one EXT slot for each listed line (R226, R230, R232, R299). -/
def sweepCtx (s : State) (f : FrondId) (c : CtxId) : State :=
  let s1 := modFrond s f fun fr => { fr with fwin := fr.fwin.map fun w => if w.opened && w.ctx == c then { w with opened := false } else w }
  let s2 := (allFin 8).foldl (fun s i =>
    let r := (frond s f).circ.get i
    if r.en && r.ctx == c then circReset s f i else s) s1
  let s3 := (progTagLines s2 (ctx s2 f c).holdProg.toNat).foldl (fun s l => fwPush s f (.clear (some c) l)) s2
  modCtx s3 f c fun x => { x with swept := true }

/-- TEARDOWN_COMPLETE: steps 7 to 9, then IDLE, once the EXT slots have cleared every listed tag (R226, R230, R232, R285, R299). -/
def execTeardownComplete (t : Time) (f : FrondId) (c : CtxId) (s : State) : Host.Outcome State Fault Refusal :=
  live t s fun s =>
    let x := ctx s f c
    if x.st != .teardown || !x.torn || x.job.isSome || !operating s then s
    else
      let s1 := if x.swept then s else sweepCtx s f c
      if fwWaits (frond s1 f) c then s1
      else rerank (modCtx s1 f c fun x => { x with
        swept := false, st := .idle, prog := 0, waitq := 0, stopReq := false, areq := false, torn := false, delivering := false, divert := false
        noOutput := false, fault := none, completed := false, yielded := false, atCheap := none }) f

end Sys2Proof.Machine
end

