-- ==== Sys2Proof/Machine/Jobs.lean ====
section
/-!
DEFINITION. A spore's way in: acceptance and refusal, cancels, admission with its prediction and fallback chain, placement and
staging, and the deadline comparator's actions (R42, R44, R48 to R51, R59 to R61, R142, R175, R183 to R197, R282 to R284, R346 to R348).
-/
namespace Sys2Proof.Machine

/-! ### Acceptance (R44, R49 to R51) -/

/-- An accepted spore takes its buffer entry: COUNT and SEQ gain 1 (R51); a running replay holds back one that came through a
doorbell (R447). -/
def reserveAt (s : State) (c : Checked) (accept : Stamp) (at_ : Time) (held : Bool) : State :=
  let q := c.queue
  let i : Fin 64 := idx 63 ((qHead s q + qCount s q) % qDepth s q)
  let s1 := updDesc s q 0 fun w => setField w 14 8 (qCount s q + 1)
  let s2 := updDesc s1 q 3 fun w => setField w 31 16 (field w 31 16 + 1)
  let e : Entry := {
    queue := q, idx := i, st := .reserved, part := c.part, accept := accept, acceptAt := at_, clamp := c.clamp
    toNull := c.toNull, spore := c.words }
  let s3 := modPcnt { s2 with entries := s2.entries ++ [e] } c.part fun p => { p with accept := satInc p.accept }
  if held then modObs s3 fun o => { o with replay := { o.replay with held := o.replay.held ++ [(q, i)] } } else s3

def reserveEntry (s : State) (c : Checked) (at_ : Time) : State := reserveAt s c (stampOf s at_) at_ (replayRuns s)

/-- A checked spore is refused or takes its entry (R49 row 12, R50, R51); a manager that has yielded refuses every one (R357). -/
def takeSpore (s : State) (c : Checked) (at_ : Time) : State :=
  if c.refuse || (s.tree.yielded && s.tree.role == 3) || decide (qDepth s c.queue ≤ qCount s c.queue) then refuseSpore s c else reserveEntry s c at_

/-- The oldest spore that waits is accepted, with the acceptance time that its doorbell write gave it (R44). -/
def acceptSpore (s : State) : State :=
  match s.pcie.sporeQ with
  | (fn, bytes, at_) :: rest =>
    let s1 := modPcie s fun p => { p with sporeQ := rest }
    if !anyPartition s1 then s1
    else
      let ws := bytesWords 16 bytes
      let s2 := checkDesc s1 (BitVec.ofNat 20 (field (wordAt ws 0) 19 0))
      let s3 := checkDesc s2 (checkSpore s2 fn ws).queue
      takeSpore s3 (checkSpore s3 fn ws) at_
  | [] => s

/-- SPORE_ACCEPT: the oldest spore that waits, in the XC that is its own (R44, R46). -/
def execSporeAccept (t : Time) (s : State) : Host.Outcome State Fault Refusal :=
  live t s fun s => when_ ((s.pcie.sporeQ.head?.any fun x => decide (x.2.2 ≤ s.now)) && operating s) s acceptSpore

/-! ### Writes taken from the PCI Express core (R43, R44, R437) -/

/-- All spores that wait are accepted; the moment is that of the last acceptance, or later. -/
def acceptAll : List (FnId × List Byte × Time) → State → State
  | [], s => s
  | x :: xs, s => acceptAll xs (acceptSpore (atTime s x.2.2))

/-- An inbound host write is discarded and counted after a cut (R437); it is taken once the last spore of every earlier write has been
accepted (R44). -/
def hostWrite (s : State) (f : State → State) : State :=
  if s.obs.halted then modObs s fun o => { o with hostDisc := satInc o.hostDisc }
  else if !s.pcie.up then s
  else f (setPerturb (if operating s then acceptAll s.pcie.sporeQ s else s))

/-- DOORBELL_WRITE (R43, R44). -/
def execDoorbellWrite (t : Time) (fn : FnId) (off : Nat) (data : List Byte) (s : State) : Host.Outcome State Fault Refusal :=
  live t s fun s => hostWrite s (doorbellBytes fn off data)

/-- The host may write the control block of a ring: the window that holds it is open to writes (R65, R478). -/
def blockOpen (s : State) (r : RingId) : Bool :=
  match partOfRing s r.val with
  | some p => let x := part s p; (x.win.get (idx 15 x.rcbwin.toNat)).hostw
  | none => false

/-- A host write to the control block of a ring, where the device uses it and the host may write it. -/
def blockWrite (s : State) (r : RingId) (f : Nat → State → State) : State :=
  hostWrite s fun s =>
    match ringBlock s r with
    | some b => when_ (operating s && blockOpen s r) s (f b)
    | none => s

/-- RING_ENABLE (R66). -/
def execRingEnable (t : Time) (r : RingId) (s : State) : Host.Outcome State Fault Refusal :=
  live t s fun s => blockWrite s r fun b s => setEnable s r b true

/-- RING_DISABLE (R66). -/
def execRingDisable (t : Time) (r : RingId) (s : State) : Host.Outcome State Fault Refusal :=
  live t s fun s => blockWrite s r fun b s => setEnable s r b false

/-- RING_HEAD_WRITE (R67). -/
def execRingHeadWrite (t : Time) (r : RingId) (head : BitVec 16) (s : State) : Host.Outcome State Fault Refusal :=
  live t s fun s => blockWrite s r fun b s => rmwWord s 2 (b + 16) fun w => ringClamp s r 4 (setField w 15 0 head.toNat)

/-! ### Cancels (R59 to R61) -/

/-- Assembly into cancel lines; a write that covers byte 15 sends the cancel, or counts it as unmatched where its
queue is out of range or disabled (R43, R59). The line's buffer is then cleared, as a doorbell line's is: the model's choice, for the rules
state it of doorbell lines alone (DESIGN CHOICE, log entry 86). -/
def cancelBytes (fn : FnId) (off : Nat) (data : List Byte) (s : State) : State :=
  if !deviceReady s || !fnServed s fn || off < 0x8000 then s
  else
    let o := off - 0x8000
    let data := data.take (0x1000 - o)
    (linesOf 16 o data.length).foldl (fun s l =>
      let bs := lineBytes 16 l o data
      let s1 := modFn s fn fun f => { f with cancels := putLine f.cancels l bs }
      if bs.any (·.1 == 15) then
        let m := (((s1.pcie.fns.get fn).cancels.find? (·.1 == l)).map (·.2)).getD []
        let s2 := modFn s1 fn fun f => { f with cancels := f.cancels.filter (·.1 != l) }
        let ws := bytesWords 4 (cellRead 0 m 0 16)
        let (p, _) := checkPart s2 fn (idx 7 (field (wordAt ws 0) 22 20))
        let q : QueueId := BitVec.ofNat 20 (field (wordAt ws 0) 19 0)
        let s3 := checkDesc s2 q
        if !anyPartition s3 then s3
        else if !inRange s3 p q || !qEn s3 q then modPcnt s3 p fun n => { n with unmatch := satInc n.unmatch }
        else modPcie s3 fun x => { x with cancelQ := x.cancelQ ++ [(p, q, dword (wordAt ws 2) (wordAt ws 3))] }
      else s1) s

/-- CANCEL_LINE_WRITE (R43, R59). -/
def execCancelLineWrite (t : Time) (fn : FnId) (off : Nat) (data : List Byte) (s : State) : Host.Outcome State Fault Refusal :=
  live t s fun s => hostWrite s (cancelBytes fn off data)

/-- A job as an entry's spore makes it, held by program `hold`. -/
def newJob (s : State) (e : Entry) (ws : List Word) (hold : Nat) (demoted : Bool) : Job :=
  { id := s.nextId, queue := e.queue, idx := e.idx, part := e.part, spore := ws, accept := e.accept, clamp := e.clamp
    req := if e.toNull then 0 else BitVec.ofNat 12 (spProg ws), hold := BitVec.ofNat 12 hold, demoted := demoted, st := .admitted
    tact := spDeadline ws - BitVec.ofNat 56 (progMargin s hold), fired := false, started := none, fault := none, status := 0, iter := 0
    pivb := false, sat := false, nanrec := false, preempt := 0, finish := 0, line := 0, dueAt := s.now, cancelled := false, cancelStatus := 0x08
    primes := [], stateK := 1, digestItems := none, digestDone := false, shard := .none, peerLost := false, areaAt := false
    stateAt := false, outAt := false, begun := false, hdrAt := false, areaWas := none }

/-- A spore that no program holds ends with a status (R42, R60). -/
def endUnplaced (s : State) (e : Entry) (ws : List Word) (st : Byte) : State :=
  let j := newJob s e ws (if e.toNull then 0 else spProg ws) false
  let s1 := { s with nextId := s.nextId + 1 }
  let r := jobRecord s1 j st
  formRecord (settleState (settleArea s1 j st) j st r.finish) r

/-- A cancel reaches a job: not placed, it ends at once; placed, its contexts get ABORT; a delivery stops at its next line; a sharded
spore's holders get STOP; one in the XC of the action time wins over it (R60, R203, R349). -/
def cancelJob (s : State) (j : Job) : State :=
  let j1 := markCancel s j
  let s1 := modJob s j.id fun _ => j1
  match j.shard, j.st with
  | .sharded hs _ _, .admitted =>
    hs.foldl (fun s n => if n = s.tree.node.toNat then s
      else sendTo s j.part n (.stop [{ queue := j.queue, tag := spTag j.spore, abort := true }])) s1
  | .stretch _ _ _ _ _, .admitted => endJob s1 j1 0x09
  | _, .admitted => endJob s1 j1 j1.cancelStatus
  | _, .substitute => if j1.cancelStatus == 0x08 then endJob s1 j1 0x08 else s1
  | _, .finishing => endJob s1 j1 0x09
  | _, _ => (ctxsOf s1 j1).foldl (fun s p => if (ctx s p.1 p.2).st == .teardown then s else abortCtx s p.1 p.2) s1

/-- CANCEL: the cancel that reached Hearth core 1 acts on every matching spore (R59 to R61). -/
def execCancel (t : Time) (s : State) : Host.Outcome State Fault Refusal :=
  live t s fun s =>
    match operating s, s.pcie.cancelQ with
    | true, (p, q, tag) :: rest =>
      let s1 := modPcie s fun x => { x with cancelQ := rest }
      let es := (queueEntries s1 q).filter fun e => (e.st == .buffered || e.st == .reserved) && spTag e.spore == tag
      let js := s1.jobs.filter fun j => j.queue == q && spTag j.spore == tag
      if es.isEmpty && js.isEmpty then modPcnt s1 p fun n => { n with unmatch := satInc n.unmatch }
      else
        let s2 := es.foldl (fun s e => endUnplaced s e e.spore 0x08) s1
        js.foldl cancelJob s2
    | _, _ => s

/-! ### Prediction (R189, R348) -/

/-- FC as XC, rounded up (R2, R189). -/
def fcXc (s : State) (n : Nat) : Nat := if s.part = .sw11 then n else ceilDiv (3 * n) 4

/-- Remaining FC of the contexts of a Frond that hold earlier deadlines, and their number (R189). -/
def earlierWork (s : State) (f : FrondId) (d : Stamp) : Nat × Nat :=
  (allFin 4).foldl (fun r c =>
    match ctxJob s f c with
    | some j =>
      if earlier (spDeadline j.spore) d then
        let x := ctx s f c
        let ran := x.fcRun + (match x.lastRun with | some t => (s.now - t) / tFC s | none => 0)
        (r.1 + (progCfs s j.hold.toNat - ran), r.2 + 1)
      else r
    | none => r) (0, 0)

/-- The Frond with most earlier work counts, the first named of several. -/
def worstWork (s : State) (p : Nat) (d : Stamp) : Nat × Nat :=
  match (progFronds s p).map fun f => earlierWork s f d with
  | [] => (0, 0)
  | w :: ws => ws.foldl (fun b w => if b.1 < w.1 then w else b) w

/-- One of a program's copies of its factor is not valid (R170). -/
def mustPrime (s : State) (p : Nat) : Bool := progCache s p && (progFronds s p).any fun f => !(frond s f).cacheValid.contains p

/-- LLAT in 1/200 ns (R348). -/
def llat200 (s : State) : Nat := s.tree.rttMax.toNat * 100 + (s.fabric.live.ageLK.toNat + 20) * 984

/-- Holders used, elements of a stretch, halo (R346). -/
def shardW (s : State) (p : Nat) : Nat := min s.tree.holders.length (progWmax s p)
def shardHalo (s : State) (p : Nat) : Nat := min (progHalo s p) (progSpan s p / max 1 (shardW s p))
def stretchLo (s : State) (p k : Nat) : Nat := k * progSpan s p / max 1 (shardW s p)

/-- The device may run a SHARD program: it manages, and enough holders are listed (R346). -/
def shardOk (s : State) (p : Nat) : Bool := s.tree.role == 2 && decide (progWmin s p ≤ s.tree.holders.length)

/-- Input words of stretch `k` with its halo: first and number, inside the span and the checked input (R347). -/
def stretchInput (s : State) (p k inLen : Nat) : Nat × Nat :=
  let h := shardHalo s p
  let lo := (stretchLo s p k - h) * progElemw s p
  let hi := min (progSpan s p) (stretchLo s p (k + 1) + h) * progElemw s p
  (lo, min hi inLen - lo)

/-- What R348 adds for a SHARD program, in XC. -/
def shardXc (s : State) (p inLen : Nat) : Nat :=
  let lines := (upto (shardW s p)).foldl (fun m k => max m (ceilDiv (stretchInput s p k inLen).2 32)) 0
  ceilDiv (progLxcrit s p * llat200 s * 1152) 200000 + ceilDiv (lines * 492 * 1152) 100000

/-- FINISH_PREDICTION: P(p) as a moment (R189). -/
def predict (s : State) (p : Nat) (d : Stamp) (inLen : Nat) : Time :=
  let wake := tXC * ceilDiv (readyIfWoken s ((progFronds s p).map groupOf) - s.now) tXC
  let (r, n) := worstWork s p d
  let own := progCfs s p + (if mustPrime s p then progCprime s p else 0) + r
  s.now + wake + tXC * (461 + s.fabric.xlat.toNat + ceilDiv inLen 32 + fcXc s own + 830 * n + progXcrit s p * s.fabric.xlat.toNat +
    (if progShard s p then shardXc s p inLen else 0))

/-- Program `p` can meet the deadline (R190, R192, R346). -/
def passes (s : State) (d : Stamp) (inLen p : Nat) : Bool :=
  !earlier d (stamp s) && (!progShard s p || shardOk s p) &&
    notLater (stampAt s (predict s p d inLen)) (d - BitVec.ofNat 56 (progMargin s p))

/-! ### Admission (R48, R190 to R192) -/

/-- PRIOR_RESET (R48, R142). -/
def priorReset (s : State) (j : Job) : State :=
  let s1 := setPriorValid s j.queue false
  match headerAddr s1 j with
  | some a =>
    let (s2, hd) := fwRead s1 1 a 1
    wrWord s2 a (setBit (wordAt hd 0) 8 false)
  | none => s1

/-- A line of words sent to another member's Shared Store by the Hearth (R347). -/
def hearthPush (s : State) (p : PartId) (node : Nat) (a : Nat) (ws : List Word) (job : Nat) : State :=
  let (id, s1) := freshId s
  let line := BitVec.ofNat 20 ((a - ssBase) / 128)
  let msg : Msg := if ws.length = 32 then .write (mkFrame 1 p s.tree.node.toNat node 0x80 true line 0 ws)
    else .writew (mkFrame 2 p s.tree.node.toNat node 0x80 true line 0 (maskedPayload (a % 128 / 4) ws))
  let op : RemoteOp := { id := id, f := 0, c := 0, node := node, read := false, tag := 0, line := (a - ssBase) / 128, words := ws.length, job := some job }
  sendTo (modTree s1 fun t => { t with tags := t.tags ++ [op] }) p node msg

/-- `n` words from `a`, line by line; the words of each come from this device's memory at the same place. -/
def pushWords (s : State) (p : PartId) (node job : Nat) : Nat → Nat → Nat → State
  | 0, _, _ => s
  | fuel + 1, a, n =>
    if n = 0 then s
    else
      let k := min n ((128 - a % 128) / 4)
      let (s1, ws) := fwRead s 1 a k
      pushWords (hearthPush s1 p node a ws job) p node job fuel (a + 4 * k) (n - k)

/-- SHARD_DISPATCH: inputs pushed and SPORE sent to every holder; this device's own stretch becomes a job of its own (R346, R347). -/
def dispatchShard (s : State) (j : Job) : State :=
  let p := j.hold.toNat
  let w := shardW s p
  let hs := s.tree.holders.take w
  let halo := decide (progSpan s p / max 1 w < progHalo s p)
  let inLen := spInLen j.spore
  let j1 := { j with
    shard := .sharded hs [] halo
    digestItems := some (wordsBytes (inSeen s j (spInAddr s j.part j.spore 0) (rdWords s (spInAddr s j.part j.spore 0) (progInDecl s p)))) }
  let s1 := modJob s j.id fun _ => j1
  (upto w).foldl (fun s k =>
    let node := hs.getD k 0
    let lo := stretchLo s p k
    let hi := stretchLo s p (k + 1)
    let lines := ceilDiv ((hi - lo) * progElemw s p) 32
    let ret := ceilDiv ((llat200 s + 984 * lines) * 98304) 20000000
    let act := j.tact - BitVec.ofNat 56 ret
    if node = s.tree.node.toNat then
      let (id, s2) := freshId s
      let st : Job := { j with id := id, tact := act, shard := .stretch lo hi w k node }
      { s2 with jobs := st :: s2.jobs }
    else
      let (i0, n) := stretchInput s p k inLen
      let s2 := pushWords s j.part node j.id (n + 1) (spInAddr s j.part j.spore i0) n
      sendTo s2 j.part node (.spore { spore := j.spore, lo := lo, hi := hi, w := w, k := k, action := act })) s1

/-- An admitted program's groups are woken, and its sharded parts sent off (R347, R395). -/
def admitJob (s : State) (j : Job) : State :=
  let s1 := { s with jobs := s.jobs ++ [j] }
  if progShard s1 j.hold.toNat then dispatchShard s1 j
  else (progFronds s1 j.hold.toNat).foldl (fun s f => wakeFor s (groupOf f)) s1

/-- A demotion is counted (R207, R423). -/
def countDemotion (s : State) (p : PartId) (req : Nat) : State :=
  modFcnt (modPcnt s p fun n => { n with demote := satInc n.demote }) (progFirst s req) fun n => { n with demote := satInc n.demote }

/-- ADMISSION: the queue's oldest spore taken from the work list, once its predecessor's record is formed (R58, R190 to R192). -/
def execAdmission (t : Time) (q : QueueId) (s : State) : Host.Outcome State Fault Refusal :=
  live t s fun s =>
    let s := checkDesc s q
    match (s.popped.find? (·.1 == q)).bind fun x => entryAt s q x.2 with
    | none => s
    | some e =>
      if !operating s || e.st != .buffered || qRunning s q || (s.jobs.any (·.queue == q)) then s
      else
        let (s0, raw) := fwRead s 1 (poolEntry s q e.idx) 16
        let ws := raw.take 14 ++ [0, 0]
        let j0 := newJob s0 e ws 0 false
        let s1 := { s0 with popped := s0.popped.filter fun x => !(x.1 == q && x.2 == e.idx) }
        let s2 := if spPriorReset ws then priorReset s1 j0 else s1
        if e.toNull then endUnplaced (modEntry s2 q e.idx fun e => { e with st := .taken }) e ws 0x20
        else
          let req := spProg ws
          let d := spDeadline ws
          let s3 := setRunning (modEntry { s2 with nextId := s2.nextId + 1 } q e.idx fun e => { e with st := .taken }) q true
          match (fbChain s3 3 [] req).find? fun p => !reachedNow s3 (newJob s3 e ws req false).tact && passes s3 d (spInLen ws) p with
          | some p =>
            let j := { newJob s3 e ws p (p != req) with id := s2.nextId }
            let s4 := if p = req then s3 else countDemotion s3 e.part req
            admitJob (traceHearth s4 1 8 p (p != req).toNat e.part) j
          | none =>
            let j := { newJob s3 e ws req true with id := s2.nextId }
            let s4 := traceHearth (countDemotion s3 e.part req) 1 8 req 1 e.part
            beginSubstitute { s4 with jobs := s4.jobs ++ [j] } j

/-! ### Placement and staging (R87, R118, R142, R175, R188, R282) -/

/-- What staging reads for a spore: the words to stage (none: from the template), the words read in their order, k, and the span
of the Shared Store that was read. -/
structure Staged where
  words : List (Option Word)
  read : List Word
  k : Nat
  addr : Nat
  len : Nat

/-- WARM_START_STAGING (R153, R175, R187). Where the program that holds the spore is a fallback whose n or m differs from the area's, the rules do
not say how it is staged: the model takes its first n words as x and the rest as y, and a y shorter than m is followed by zeros (DESIGN CHOICE,
log entry 99). -/
def stageArea (s : State) (j : Job) : Staged :=
  let h := j.hold.toNat
  let iter := progForm s h != 0 || progKind s h == 4
  if !iter then ⟨[], [], 1, 0, 0⟩
  else
    let n := if progForm s h != 0 then progN s h else progOutDecl s h
    let m := if progForm s h != 0 then progM s h else 0
    if progKeep s h && areaReadable s j.queue j.req.toNat then
      let ws := shiftedArea s j.queue j.req.toNat
      let y := if progDuals s h then (ws.drop n).take m else []
      ⟨(ws.take n ++ y ++ List.replicate (m - y.length) 0).map some, ws, 1,
        areaAddr s j.queue, areaWords s j.req.toNat⟩
    else ⟨List.replicate n none ++ List.replicate m (some 0), [], 1, 0, 0⟩

/-- STATE_BLOCK_STAGING: the state data or the template, then the word that passes k to the program (R135, R140, R142); a LAYOUT of 0 is shared
with no other program (R131). -/
def stageState (s : State) (j : Job) : Staged :=
  let h := j.hold.toNat
  if !progStateful s h then ⟨[], [], 1, 0, 0⟩
  else
    let g := (govProg s j.req.toNat).getD h
    let n := 16 * progSstride s g - 16
    match headerAddr s j with
    | none => ⟨List.replicate n none ++ [some 1], [], 1, 0, 0⟩
    | some a =>
      let w0 := rdWord s a
      if !bit w0 8 || field w0 31 16 != progLayout s g || (progLayout s g == 0 && h != g) || spPriorReset j.spore ||
          decide (progKmax s g ≤ field w0 7 0) then
        ⟨List.replicate n none ++ [some 1], [], 1, a, 16⟩
      else
        let ws := rdWords s (a + 64) n
        let k := field w0 7 0 + 1
        ⟨(ws ++ [BitVec.ofNat 32 k]).map some, ws, k, a, n + 16⟩

/-- Words staged into a Frond's memories in its EXT slots, at places the manual does not give (R215, R231). -/
def stageWords (s : State) (p : Nat) (f : FrondId) (c : CtxId) (ws : List (Option Word)) : State :=
  (upto ws.length).foldl (fun s i =>
    match padOf (Config.stageAt p f.val i % 0x100000) with
    | none => s
    | some (m, w) => fwPush s f (match ws[i]? with
      | some (some x) => .write (some c) m w [some x]
      | _ => .copy (some c) (Config.templateAt p f.val i % memWordsN .w) m w)) s

/-- A context takes a spore: STAGING (R87, R90, R118, R188, R241, R283). A valid first-NaN record goes to the event ring first. -/
def takeContext (s : State) (j : Job) (f : FrondId) (c : CtxId) : State :=
  let x := ctx s f c
  let p := j.hold.toNat
  let s1 := logFnr s f c x.fnr
  let e := pivepsOf (progPiveps s p)
  modCtx s1 f c fun x => { x with
    st := .staging, preq := false, areq := false, stopReq := false, preemptNow := false, waitk := .none, blk := none, waitOn := none
    fresh := { fc := 0, bits := 0, fnr := none, piv := none }, lost := none, cresetAt := 0, swept := false
    prog := j.hold, waitq := BitVec.ofNat 16 (progWaitq s p), cmd := 0, job := some j.id
    g := vset (vset (vset x.g 29 (wordAt j.spore 11)) 30 (wordAt j.spore 12)) 31 (wordAt j.spore 13)
    pc := BitVec.ofNat 18 (progEntry s p), store := [], load := none, slotWait := none, astat := 0, trapen := progTrapen s p
    mulfix := progMulfix s p, fnr := { x.fnr with valid := false }, ctxid := wordAt j.spore 8
    piveps := e, pivrcp := erClamp e (progPivrcp s p), pivcnt := 0, pivrec0 := 0, pivrec1 := 0, fdepth := 0
    tact := j.tact, armed := true, fired := false, final := false, itcnt := 0, holdProg := j.hold, holdDemoted := j.demoted
    mark := [], mode := none, tiles := Vector.replicate 2 Tile.reset, fetchQ := [], drainQ := [], sbEn := progSbmode s p
    sb := Vector.replicate 24 none, sbStalls := 0, sbNinth := 0, npre := 0, yielded := false, delivering := false
    noOutput := false, atCheap := none, fault := none, completed := false, torn := false, divert := false, fcRun := 0
    lastRun := none }

/-- `a` is placed before `b` on a context both wait for (R284). -/
def placedFirst (a b : Job) : Bool :=
  if spDeadline a.spore != spDeadline b.spore then earlier (spDeadline a.spore) (spDeadline b.spore) else earlier a.accept b.accept

/-- A job may wait for contexts of its own. -/
def placeable (j : Job) : Bool := j.st == .admitted && (match j.shard with | .sharded _ _ _ => false | _ => true)

/-- Fronds on which a job's program is to build its factor: its copy there is not valid (R168, R170). -/
def primesOn (s : State) (j : Job) : List FrondId :=
  if progCache s j.hold.toNat then (jobFronds s j).filter fun f => !(frond s f).cacheValid.contains j.hold.toNat else []

/-- Another spore primes the same program on a Frond on which this job would have to (R170). -/
def primingElsewhere (s : State) (j : Job) : Bool :=
  (primesOn s j).any fun f => s.jobs.any fun k => k.id != j.id && k.hold == j.hold && k.primes.contains f

/-- PLACEMENT: every context of the holding program is IDLE, its groups are Active, no spore that waits for one of them comes
first, and no other spore is still priming its program there (R170, R282, R284). -/
def execPlacement (t : Time) (q : QueueId) (s : State) : Host.Outcome State Fault Refusal :=
  live t s fun s =>
    match s.jobs.find? fun j => j.queue == q && placeable j with
    | none => s
    | some j =>
      let fs := jobFronds s j
      let c := jobCtx s j
      let free := fs.all fun f => groupActive s f && (ctx s f c).st == .idle
      let rival := s.jobs.any fun k => k.id != j.id && placeable k && jobCtx s k == c &&
        (jobFronds s k).any (fun f => fs.contains f) && placedFirst k j
      if !operating s || !free || rival || primingElsewhere s j || j.fired then s
      else
        let a := stageArea s j
        let b := stageState s j
        let inA := spInAddr s j.part j.spore 0
        let inN := min (spInLen j.spore) (progInDecl s j.hold.toNat)
        let (s1, badIn) := ssCheckAll s inA inN
        let (s2, badArea) := ssCheckAll s1 a.addr a.len
        let s2 := if badArea then setPriorValid s2 j.queue false else s2
        let (s3, badState) := ssCheckAll s2 b.addr b.len
        let s3 := if badState then wrWord s3 b.addr (setBit (rdWord s3 b.addr) 8 false) else s3
        let items := (upto (progInDecl s j.hold.toNat)).map fun i => if i < inN then rdWord s3 (inA + 4 * i) else 0
        let s4 := modJob s3 j.id fun j => { j with
          st := .placed, stateK := b.k, primes := primesOn s j, digestItems := some (wordsBytes (items ++ a.read ++ b.read)) }
        let s5 := fs.foldl (fun s f => stageWords (takeContext s j f c) j.hold.toNat f c (a.words ++ b.words)) s4
        let s6 := if badArea || badState || badIn then fs.foldl (fun s f => raiseFault s f c .ecc) s5 else s5
        fs.foldl rerank s6

/-- CONTEXT_STAGED: STAGING → READY once its staged words stand in the Frond's memories (R175, R231, R283); the Frond is ranked anew, which is
the re-ranking of its placement (R285). -/
def execContextStaged (t : Time) (f : FrondId) (c : CtxId) (s : State) : Host.Outcome State Fault Refusal :=
  live t s fun s =>
    let x := ctx s f c
    when_ (x.st == .staging && x.fault.isNone && operating s && !fwWaits (frond s f) c) s fun s => rerank (modCtx s f c fun x => { x with st := .ready }) f

/-! ### The action time (R193 to R197) -/

/-- The comparator has something to watch: a spore admitted or placed, and not yet fired. -/
def armedJob (j : Job) : Bool := placeable j || j.st == .placed

/-- DEADLINE_COMPARATOR_FIRE (R193). -/
def execDeadlineComparatorFire (t : Time) (q : QueueId) (entry : Fin 64) (s : State) : Host.Outcome State Fault Refusal :=
  live t s fun s =>
    match operating s, jobAt s q entry with
    | true, some j =>
      when_ (armedJob j && !j.fired && notLater j.tact (stamp s)) s fun s =>
        let s1 := modJob s j.id fun j => { j with fired := true, dueAt := (reachedAt s j.tact).getD s.now }
        (ctxsOf s1 j).foldl (fun s p => modCtx s p.1 p.2 fun x => { x with fired := x.fired || x.armed, armed := false }) s1
    | _, _ => s

/-- The spore is abandoned: every context is stopped, and a substitute follows (R195, R197). -/
def abandon (s : State) (j : Job) : State :=
  let s1 := modJob s j.id fun j => { j with st := .stopping, iter := 0 }
  (ctxsOf s1 j).foldl (fun s p => if (ctx s p.1 p.2).st == .teardown then s else enterTeardown s p.1 p.2) s1

/-- The last marked iterate is delivered: each context that still runs is diverted to its delivery entry (R195, R197). -/
def deliver (s : State) (j : Job) (k : Nat) : State :=
  let s1 := modJob s j.id fun j => { j with st := .delivering, iter := BitVec.ofNat 8 k }
  (ctxsOf s1 j).foldl (fun s p =>
    if (ctx s p.1 p.2).st == .teardown then s
    else rerank (modCtx s p.1 p.2 fun x => { x with divert := true, delivering := true, preq := false, preemptNow := false }) p.1) s1

/-- Before the first strobe no spore is admitted: at its action time the oldest of a queue gets its substitute, DEMOTED, or the null
program's record (R434). -/
def unslotted (s : State) (q : QueueId) (entry : Fin 64) : State :=
  match entryAt s q entry with
  | none => s
  | some e =>
    let ws := e.spore.take 14 ++ [0, 0]
    let j0 := newJob s e ws (if e.toNull then 0 else spProg ws) (!e.toNull)
    let first := (queueEntries s q).find? fun x => x.st == .buffered || x.st == .reserved
    if s.timing.stbSinceLock || e.st != .buffered || qRunning s q || (first.map (·.idx)) != some e.idx ||
        !notLater j0.tact (stamp s) then s
    else
      let s1 := if spPriorReset ws then priorReset s j0 else s
      let s2 := modEntry s1 q entry fun e => { e with st := .taken }
      if e.toNull then endUnplaced s2 e ws 0x20
      else
        let s3 := countDemotion (setRunning { s2 with nextId := s2.nextId + 1 } q true) e.part (spProg ws)
        let j := { j0 with fired := true, dueAt := (reachedAt s j0.tact).getD s.now }
        beginSubstitute { s3 with jobs := s3.jobs ++ [j] } j

/-- DEADLINE_ACTION: the outcome by the position of the holding program, judged once for all its contexts at their boundaries (R195,
R196, R203); before the first strobe, the outcome of a waiting spore (R434). -/
def execDeadlineAction (t : Time) (q : QueueId) (entry : Fin 64) (s : State) : Host.Outcome State Fault Refusal :=
  live t s fun s =>
    match operating s, jobAt s q entry with
    | true, some j =>
      if !j.fired || !armedJob j || j.cancelled then s
      else if j.st == .admitted then beginSubstitute s j
      else
        let cs := ctxsOf s j
        let any := fun (g : Ctx → Bool) => cs.any fun p => g (ctx s p.1 p.2)
        let busy := cs.any fun p => (ctx s p.1 p.2).st == .running && !atBoundary s p.1 p.2
        if any (fun x => x.fault.isSome || x.areq || x.stopReq) || cs.all (fun p => pastFinal (ctx s p.1 p.2)) then s
        else if any (fun x => x.st == .saving || x.st == .restoring) || busy then s
        else if j.started.isNone || any (fun x => x.fdepth != 0) || markedIter s j = 0 then abandon s j
        else deliver s j (markedIter s j)
    | true, none => unslotted s q entry
    | false, _ => s

/-- ITERATE_DELIVERY: a running context starts at its delivery entry; a saved one is ranked first, to be restored (R197). -/
def execIterateDelivery (t : Time) (f : FrondId) (c : CtxId) (s : State) : Host.Outcome State Fault Refusal :=
  live t s fun s =>
    let x := ctx s f c
    if !x.divert || !operating s then s
    else if x.st == .running then (if atBoundary s f c then divertCtx s f c else s)
    else if x.st == .saved then rerank s f
    else s

end Sys2Proof.Machine
end

