-- ==== Sys2Proof/Machine/Links.lean ====
section
/-!
DEFINITION. The Rhizoid links: training and offset measurement, numbering, acknowledgement and resending of frames, and the frames
that reach memory or a stretch (R333 to R343, R347, R349, R359, R360, R438).
-/
namespace Sys2Proof.Machine

/-! ### The tree record (R329) -/

def treeW (s : State) (i : Nat) : Word := vgetD s.tree.rcd i 0
def rcdRole (s : State) : Nat := field (treeW s 0) 1 0
def linkEn (s : State) (l : LinkId) : Bool := bit (treeW s 0) (2 + l.val)
def treeRing (s : State) : Bool := bit (treeW s 0) 6
def mgrSh (s : State) : Bool := bit (treeW s 0) 7
def hbPer (s : State) : Nat := if field (treeW s 0) 20 16 = 0 then 10 * tUs else field (treeW s 0) 20 16 * tUs
def hbMiss (s : State) : Nat := field (treeW s 0) 23 21
def epspMax (s : State) : Nat := field (treeW s 2) 22 12
def epSize (s : State) : Nat := field (treeW s 3) 25 18
def rwOff (s : State) : Nat := field (treeW s 4) 23 0

def myNode (s : State) : Nat := s.tree.node.toNat

/-- The member with a node number. -/
def memberOf (s : State) (n : Nat) : Option Member := s.tree.members.find? fun m => m.node == n && !m.lost

/-! ### Training (R339, R340, R360) -/

/-- Training begins from its first step; frames are numbered anew. -/
def startTraining (s : State) (l : LinkId) : State :=
  modLink s l fun k => { k with
    st := .training, trainAt := s.now, frameLocked := false, joined := false, mismatch := false, samples := [], refusedBy344 := false
    admitAt := none, txCount := 0, rxCount := 0, rxWait := false, nakRun := 0, nakGot := 0, sinceCtrl := 0, echo := none, retry := [] }

/-- LINK_TRAINING: from the lock sequence, or once the link is down (R339, R360). -/
def execLinkTraining (t : Time) (l : LinkId) (s : State) : Host.Outcome State Fault Refusal :=
  live t s fun s =>
    let k := s.links.get l
    when_ (operating s && linkEn s l && rcdRole s != 0 && (k.st == .off || k.st == .down)) s fun s => startTraining s l

/-- The bound of the present step of training, in µs from its start (R339). -/
def trainBound (k : Link) : Nat := if !k.frameLocked then 1210 else if !k.joined then 1250 else 1290

/-- TRAINING_TIMEOUT: a step missed its bound (R339). -/
def execTrainingTimeout (t : Time) (l : LinkId) (s : State) : Host.Outcome State Fault Refusal :=
  live t s fun s =>
    let k := s.links.get l
    when_ (operating s && k.st == .training && decide (k.trainAt + trainBound k * tUs < s.now)) s fun s =>
      startTraining (traceLink (modLink s l fun k => { k with retrain := satInc k.retrain }) l 1) l

/-- The identity this device gives in the JOIN exchange (R339). -/
def identity (s : State) : JoinMsg :=
  .identity (treeW s 1) s.boot.imgGen (BitVec.ofNat 64 (leNat (s.boot.progDigest.take 8))) (idx 3 s.tree.role.toNat)
    (if s.tree.member then some (idx 127 (myNode s), s.tree.path) else none)

/-- A frame of the JOIN exchange, on the link itself. -/
def sendJoin (s : State) (l : LinkId) (m : JoinMsg) : State :=
  modLink s l fun k => k.put (ctrlPacket s l none) { part := 0, snode := idx 127 (myNode s), dnode := 0, msg := .join m }

/-- FRAME_LOCK: lanes are equalised, deskewed and in frame lock; the JOIN exchange opens (R339). -/
def execFrameLock (t : Time) (l : LinkId) (s : State) : Host.Outcome State Fault Refusal :=
  live t s fun s =>
    let k := s.links.get l
    when_ (operating s && k.st == .training && !k.frameLocked) s fun s =>
      sendJoin (modLink s l fun k => { k with frameLocked := true }) l (identity s)

/-- OFFSET_EXCHANGE: one of the 64 exchanges of R340, kept as round trip and offset. -/
def execOffsetExchange (t : Time) (l : LinkId) (t1 t2 t3 t4 : Stamp) (s : State) : Host.Outcome State Fault Refusal :=
  live t s fun s =>
    let k := s.links.get l
    when_ (operating s && k.st == .training && k.joined && decide (k.samples.length < 64)) s fun s =>
      let rtt := (t4 - t1).toInt - (t3 - t2).toInt
      let off := Int.fdiv ((t2 - t1).toInt - (t4 - t3).toInt) 2
      modLink s l fun k => { k with samples := k.samples ++ [(rtt, off)] }

/-- The first sample with the smallest round trip (R340). -/
def bestSample : List (Int × Int) → Option (Int × Int)
  | [] => none
  | x :: xs =>
    match bestSample xs with
    | none => some x
    | some y => if x.1 ≤ y.1 then some x else some y

/-! ### Receiving (R336 to R338, R360, R438) -/

/-- A NAK leaves in a control frame (R336, R337). -/
def sendNak (s : State) (l : LinkId) : State :=
  modLink s l fun k => Link.ctrl { k with naks := satInc k.naks } (ctrlPacket s l (some k.rxCount))

/-- CRC_DISCARD: a bad frame is discarded and its number NAKed; while it is awaited, others are only discarded (R337). -/
def badFrame (s : State) (l : LinkId) (num : BitVec 16) : State :=
  let k := s.links.get l
  let s1 := modLink s l fun k => { k with crcErr := satInc k.crcErr }
  if k.rxWait && num != k.nakNum then s1
  else sendNak (modLink s1 l fun k => { k with
    rxWait := true, nakNum := k.rxCount, nakRun := if k.rxWait then k.nakRun + 1 else 1 }) l

/-- After its cut a receiver keeps up to 96 frames of the next 2 µs (R438). -/
def captureFrame (s : State) (l : LinkId) (p : Packet) : State :=
  let k := s.links.get l
  let inTime := match s.obs.cut with | some c => notLater (stamp s) (c + 1966) | none => false
  if inTime && !k.captureEnd && decide (k.captured.length < 96) then
    modLink s l fun k => { k with captured := k.captured ++ [(stamp s, p)] }
  else modObs s fun o => { o with lnkDisc := satInc o.lnkDisc }

/-- A data frame arrives: `join` for the one type that a link in UP or REFUSED, or in the JOIN exchange, carries (R337, R360). -/
def receive (s : State) (l : LinkId) (good join : Bool) (num : BitVec 16) (p : Packet) (body : State → State) : State :=
  let k := s.links.get l
  if s.obs.halted then (if k.st == .off then s else captureFrame s l p)
  else if !operating s || k.st == .off || k.st == .down || (k.st == .training && !k.frameLocked) then s
  else if !good then badFrame s l num
  else if num != k.rxCount then modLink s l fun k => { k with lastGood := s.now }
  else
    let s1 := modLink s l fun k => { k with rxCount := k.rxCount + 1, rxfr := k.rxfr + 1, rxWait := false, nakRun := 0, lastGood := s.now }
    if join || k.st == .inService then body s1
    else modLink s1 l fun k => { k with badType := satInc k.badType }

/-- A frame for another node goes on by the route table, as transit of the link it came in by (R259, R261, R334). -/
def atNode (s : State) (l : LinkId) (p : Packet) (body : State → State) : State :=
  if p.dnode.val = myNode s then body s
  else match linkTo s p.dnode.val with
  | some x => sendFrom s (linkReq l) (some p.part) x p
  | none => s

/-- A sending unit that is never sent (R334). -/
def neverSent (u : BitVec 8) : Bool := decide (0x82 ≤ u.toNat)

/-- The home refuses a frame: the sender hears of it in a WACK (R228, R334, R335). -/
def refuseUnit (s : State) (part : PartId) (node : Nat) (line : BitVec 20) (unit : BitVec 8) : State :=
  sendWack s part node (some (line, unit))

/-- A data frame of a type that only IN_SERVICE links carry, acted on at its destination; one of a unit that is never sent is refused
(R334). -/
def onFrame (t : Time) (l : LinkId) (f : Frame) (ty : Nat) (m : Msg) (s : State) (body : State → State) : Host.Outcome State Fault Refusal :=
  live t s fun s =>
    let p : Packet := { part := f.part, snode := f.snode, dnode := f.dnode, msg := m }
    receive s l (f.crc == frameCrc ty f) false f.num p fun s => atNode s l p fun s =>
      if neverSent f.sfrond then refuseUnit s f.part f.snode.val f.line f.sfrond else body s

/-- The same for a frame with structured content, which uses no LINE. -/
def onMessage (t : Time) (l : LinkId) (h : Hdr) (m : Msg) (s : State) (body : State → State) : Host.Outcome State Fault Refusal :=
  live t s fun s =>
    let p : Packet := { part := h.part, snode := h.snode, dnode := h.dnode, msg := m }
    receive s l h.good false h.num p fun s => atNode s l p fun s =>
      if neverSent h.sfrond then refuseUnit s h.part h.snode.val 0 h.sfrond else body s

/-! ### Control frames (R336, R337) -/

/-- Frames not yet acknowledged by a cumulative count. -/
def unacked (ack : BitVec 16) (retry : List (BitVec 16 × Packet)) : List (BitVec 16 × Packet) :=
  retry.filter fun r => !(decide (0 < (ack - r.1).toNat) && decide ((ack - r.1).toNat ≤ 256))

/-- Go-back-N: every kept frame from the lost number on leaves again (R337). -/
def goBack (k : Link) (c : Packet) (n : BitVec 16) : Link :=
  let again := k.retry.filter fun r => decide ((r.1 - n).toNat < 256)
  again.foldl (fun k r => Link.data { k with txfr := k.txfr + 1 } c r.2) k

/-- NAKs received in a row of one frame that is still kept (R338). -/
def nakSeen (k : Link) (nak : Option (BitVec 16)) : BitVec 16 × Nat :=
  match nak with
  | some n => (n, if n = k.nakFor then k.nakGot + 1 else 1)
  | none => (k.nakFor, if k.retry.any (·.1 == k.nakFor) then k.nakGot else 0)

/-- What a good control frame does: acknowledgements, receive credits of at most 32 frames per virtual channel, its stamps kept to be
echoed, and a NAK counted and answered (R336 to R338, R340). -/
def ctrlSeen (k : Link) (i : CtrlInfo) (now : Time) (at_ : Stamp) : Link :=
  let k1 := { k with
    lastGood := now, retry := unacked i.ack k.retry, echo := some (i.stamp, at_)
    credits := Vector.ofFn fun (v : Fin 3) => min 32 (if v.val = 0 then i.credit0 else if v.val = 1 then i.credit1 else i.credit2) }
  { k1 with nakFor := (nakSeen k1 i.nak).1, nakGot := (nakSeen k1 i.nak).2 }

/-- CTRL_FRAME. While the transmitter has no data frame ready it sends control frames: one here stands for that stream (R336; DESIGN CHOICE,
log entry 100). -/
def execCtrlFrame (t : Time) (l : LinkId) (i : CtrlInfo) (good : Bool) (s : State) : Host.Outcome State Fault Refusal :=
  live t s fun s =>
    let k := s.links.get l
    if k.st == .off || k.st == .down || !operating s then s
    else if !good then modLink s l fun k => { k with crcErr := satInc k.crcErr }
    else
      let s1 := modLink s l fun k => ctrlSeen k i s.now (stamp s)
      let c := ctrlPacket s1 l none
      match i.nak with
      | some n => modLink s1 l fun k => goBack k c n
      | none => if k.outq.isEmpty then modLink s1 l fun k => k.ctrl c else s1

/-- RESERVED_FRAME: checked, acknowledged, discarded, counted (R335). -/
def execReservedFrame (t : Time) (l : LinkId) (f : Frame) (odd : Bool) (s : State) : Host.Outcome State Fault Refusal :=
  live t s fun s =>
    receive s l (f.crc == frameCrc (if odd then 15 else 14) f) true f.num { part := f.part, snode := f.snode, dnode := f.dnode, msg := .write f }
      fun s => modLink s l fun k => { k with badType := satInc k.badType }

/-! ### Lines for this device (R227, R335, R342, R343) -/

/-- The home refuses a line, and says so in a WACK. -/
def refuseLine (s : State) (f : Frame) : State := refuseUnit s f.part f.snode.val f.line f.sfrond

/-- The words of a line that are present, written at the Shared Store; those of a Frond's program (SFROND below 0x80) as a program's. -/
def storeShared (s : State) (prog : Bool) (a : Nat) (ws : List (Option Word)) : State :=
  (upto 32).foldl (fun s i => match ws[i]? with
    | some (some x) => noteShards (if prog then progStore s (a + 4 * i) [x] else ssStore s (a + 4 * i) [x]) (a + 4 * i)
    | _ => s) s

/-- A line from another device: to the image region of the Shared Store, through the port that owns it, or to a Frond's inbound buffer
(R227, R261). -/
def lineIn (s : State) (l : LinkId) (f : Frame) (ws : List (Option Word)) : State :=
  if f.space then
    let a := ssBase + 128 * f.line.toNat
    if inImage a 128 then (putXfer s (linkReq l) (some f.part) fun _ => .linkLine l f ws).2 else refuseLine s f
  else
    let off := 128 * f.line.toNat
    match padOf (off % 0x100000) with
    | none => refuseLine s f
    | some (m, w) =>
      let path := ((memberOf s f.snode.val).map (·.path)).getD 0xFFFFFF
      pushInbound s (frondNo (off / 0x100000)) {
        sender := { part := f.part, unit := f.sfrond, path := some path, node := f.snode.val, ctx := 0, id := 0, job := none }
        mem := m, word := w, data := ws }

/-- The words of a WRITEW by position: the mask's first 31 set bits in ascending order (R335). -/
def spreadWords (mask : Word) (ws : List Word) : List (Option Word) :=
  (upto 32).map fun i => if bit mask i then ws[((upto i).filter fun j => bit mask j).length]? else none

/-- WRITE_FRAME (R335). -/
def execWriteFrame (t : Time) (l : LinkId) (f : Frame) (s : State) : Host.Outcome State Fault Refusal :=
  onFrame t l f 1 (.write f) s fun s => lineIn s l f ((framePayload f).map some)

/-- WRITEW_FRAME (R335). -/
def execWritewFrame (t : Time) (l : LinkId) (f : Frame) (s : State) : Host.Outcome State Fault Refusal :=
  onFrame t l f 2 (.writew f) s fun s => lineIn s l f (spreadWords (wordAt (framePayload f) 0) ((framePayload f).drop 1))

/-- READ_FRAME: words of the image region, read at the port that owns them (R261, R335, R342). -/
def execReadFrame (t : Time) (l : LinkId) (f : Frame) (s : State) : Host.Outcome State Fault Refusal :=
  onFrame t l f 3 (.read f) s fun s =>
    let w := wordAt (framePayload f) 0
    let first := field w 4 0
    let n := min (field w 9 5 + 1) (32 - first)
    let a := ssBase + 128 * f.line.toNat + 4 * first
    if !f.space || !inImage a (4 * n) then refuseLine s f
    else (putXfer s (linkReq l) (some f.part) fun _ => .linkRead l f a n).2

/-- The words of a READ, returned in order from payload word 0 by the unit that stands for the device; fields the type does not use are 0
(R334, R335). -/
def readReturned (s : State) (f : Frame) (ws : List Word) : State :=
  sendAnswer s f.part f.snode.val (.rdata (mkFrame 4 f.part (myNode s) f.snode.val 0x80 false 0 f.tag.val ws))

/-! ### Answers to this device (R343) -/

def dropOp (s : State) (o : RemoteOp) : State := modTree s fun t => { t with tags := t.tags.erase o }

/-- RDATA_FRAME: the data of a tag reaches its load or engine command (R335, R343). -/
def execRdataFrame (t : Time) (l : LinkId) (f : Frame) (s : State) : Host.Outcome State Fault Refusal :=
  onFrame t l f 4 (.rdata f) s fun s =>
    match s.tree.tags.find? fun o => o.read && o.tag == f.tag.val with
    | none => s
    | some o =>
      let s1 := dropOp s o
      let ws := (framePayload f).take o.words
      if engAwaits s1 o.f o.c .fetch o.id then engGot s1 o.f o.c .fetch ws false
      else if engAwaits s1 o.f o.c .drain o.id then engGot s1 o.f o.c .drain ws false
      else loadBack s1 o.f o.c o.id (wordAt ws 0) false

/-- A remote write has been performed by its home. -/
def opWritten (s : State) (o : RemoteOp) : State :=
  let s1 := storeDone (dropOp s o) o.f o.c o.id
  if engAwaits s1 o.f o.c .drain o.id then engKicks (engMoved s1 o.f o.c .drain o.words) o.f o.c .drain 34
  else if engAwaits s1 o.f o.c .fetch o.id then engKicks (engMoved s1 o.f o.c .fetch o.words) o.f o.c .fetch 34
  else s1

/-- A remote access has been refused: a store leaves its buffer, the sending context is to end with FAULT_WINDOW, and a stretch whose input was refused with it
(R228, R343, R347). -/
def opRefused (s : State) (o : RemoteOp) : State :=
  let s1 := storeDone (dropOp s o) o.f o.c o.id
  match o.job.bind (jobOf s) with
  | some j =>
    match j.shard with
    | .sharded hs _ _ =>
      match (upto hs.length).find? fun k => hs.getD k 128 == o.node with
      | some k => stretchDone s1 j.queue (spTag j.spore) (k, 0x12, 0, 0, 0)
      | none => s1
    | _ => modFrond s1 o.f fun fr => { fr with refusals := fr.refusals ++ [(o.c, o.job, BitVec.ofNat 32 o.line)] }
  | none => modFrond s1 o.f fun fr => { fr with refusals := fr.refusals ++ [(o.c, o.job, BitVec.ofNat 32 o.line)] }

/-- The oldest `n` writes outstanding at a node. -/
def oldestWrites (s : State) (node n : Nat) : List RemoteOp := (s.tree.tags.filter fun o => !o.read && o.node == node).take n

/-- The access a refusal names: its line and its sending unit (R335). -/
def refusedOp (s : State) (node : Nat) (line unit : Word) : Option RemoteOp :=
  s.tree.tags.find? fun o => o.node == node && o.line == line.toNat % 2 ^ 20 && (o.f.val == unit.toNat || decide (0x80 ≤ unit.toNat))

/-- WACK_FRAME: refusals first, then the writes performed, oldest first (R335, R343). -/
def execWackFrame (t : Time) (l : LinkId) (f : Frame) (s : State) : Host.Outcome State Fault Refusal :=
  onFrame t l f 5 (.wack f) s fun s =>
    let p := framePayload f
    let node := f.snode.val
    let refused := (wordAt p 1).toNat
    let s1 := modLink s l fun k => { k with wref := satAdd k.wref refused }
    let s2 := (upto (min 15 refused)).foldl (fun s i =>
      match refusedOp s node (wordAt p (2 + 2 * i)) (wordAt p (3 + 2 * i)) with
      | some o => opRefused s o
      | none => s) s1
    finishWaiting ((oldestWrites s2 node (wordAt p 0).toNat).foldl opWritten s2)

/-! ### Stretches (R347, R349, R352) -/

/-- SPORE_FRAME: the holder takes the stretch, with the action time it was given, and wakes its groups (R347). -/
def execSporeFrame (t : Time) (l : LinkId) (h : Hdr) (m : SporeMsg) (s : State) : Host.Outcome State Fault Refusal :=
  onMessage t l h (.spore m) s fun s =>
    let (id, s1) := freshId s
    let p : BitVec 12 := BitVec.ofNat 12 (spProg m.spore)
    let j : Job := {
      id := id, queue := spQueue m.spore, idx := 0, part := h.part, spore := m.spore, accept := stamp s1, clamp := false, req := p, hold := p
      demoted := false, st := .admitted, tact := m.action, fired := false, started := none, fault := none, status := 0, iter := 0
      pivb := false, sat := false, nanrec := false, preempt := 0, finish := 0, line := 0, dueAt := s1.now, cancelled := false, cancelStatus := 0x08
      primes := [], stateK := 1, digestItems := none, digestDone := false
      shard := .stretch m.lo m.hi m.w m.k h.snode.val, peerLost := false, areaAt := false, stateAt := false, outAt := false
      begun := false, hdrAt := false, areaWas := none }
    (progFronds s1 p.toNat).foldl (fun s f => wakeFor s (groupOf f)) { s1 with jobs := j :: s1.jobs }

/-- PDONE_FRAME (R347, R349). -/
def execPdoneFrame (t : Time) (l : LinkId) (h : Hdr) (m : PdoneMsg) (s : State) : Host.Outcome State Fault Refusal :=
  onMessage t l h (.pdone m) s fun s => stretchDone s m.queue m.tag (m.k, m.status, m.iter, m.flags, m.preempt)

/-- A stretch is stopped, as ABORT or as STOP (R297, R349, R352). -/
def stopStretch (s : State) (j : Job) (abort : Bool) : State :=
  if abort then cancelJob s j
  else if j.st == .admitted then beginSubstitute s j
  else (ctxsOf s j).foldl (fun s p => if (ctx s p.1 p.2).st == .teardown then s else stopCtx s p.1 p.2) s

/-- STOP_FRAME (R335, R352). -/
def execStopFrame (t : Time) (l : LinkId) (h : Hdr) (xs : List StopItem) (s : State) : Host.Outcome State Fault Refusal :=
  onMessage t l h (.stop xs) s fun s =>
    xs.foldl (fun s x => match s.jobs.find? fun j => isStretch j && j.queue == x.queue && spTag j.spore == x.tag with
      | some j => stopStretch s j x.abort
      | none => s) s

end Sys2Proof.Machine
end

