-- ==== Sys2Proof/Machine/Tree.lean ====
section
/-!
DEFINITION. Solver trees: paths and routes, joining, heartbeats, lost members and managers, epochs and takeover (R330, R331, R338 to
R341, R344, R346, R350 to R357, R360).
-/
namespace Sys2Proof.Machine

/-! ### Paths and routes (R330) -/

/-- The position of a path at a level. -/
def pathPos (p : BitVec 24) (l : Nat) : Nat := field p (23 - 6 * l) (18 - 6 * l)
/-- The level of a device: the last whose field is in use. -/
def pathLevel (p : BitVec 24) : Nat :=
  if pathPos p 1 = 0x3F then 0 else if pathPos p 2 = 0x3F then 1 else if pathPos p 3 = 0x3F then 2 else 3
def pathSet (p : BitVec 24) (l v : Nat) : BitVec 24 := setField p (23 - 6 * l) (18 - 6 * l) v

/-- A path cut to a level: the fields below are 0x3F. -/
def pathCut (p : BitVec 24) (l : Nat) : BitVec 24 := setField p (17 - 6 * l) 0 (2 ^ 18 - 1)

/-- The two paths agree above a level. -/
def sameAbove (p q : BitVec 24) (l : Nat) : Bool := (upto l).all fun i => pathPos p i == pathPos q i

/-- The path of the device reached through a link of a member; none for link 0, which leads back (R330). -/
def childPath (p : BitVec 24) (l : LinkId) : Option (BitVec 24) :=
  let n := pathLevel p
  let i := pathPos p n
  if l.val = 1 then (if i = 62 ∨ (0 < n ∧ i = 31) then none else some (pathSet p n (i + 1)))
  else if l.val = 2 then (if n < 3 then some (pathSet p (n + 1) 0) else none)
  else if l.val = 3 then (if n < 3 then some (pathSet p (n + 1) 32) else none)
  else none

/-- The link by which a device at `p` sends towards `q` along the segments (R330). -/
def nextHop (p q : BitVec 24) : LinkId :=
  let n := pathLevel p
  if sameAbove p q (n + 1) && decide (n < pathLevel q) then (if pathPos q (n + 1) < 32 then 2 else 3)
  else if sameAbove p q n && decide (n ≤ pathLevel q) then
    (if pathPos p n < pathPos q n ∧ (n = 0 ∨ (pathPos p n < 32 ↔ pathPos q n < 32)) then 1 else 0)
  else 0

/-- Links reported down, each by the path of the device at its end. -/
def downEnds (s : State) : List (BitVec 24 × Nat) :=
  s.tree.downLinks.map fun d => (if d.1 = myNode s then s.tree.path else ((memberOf s d.1).map (·.path)).getD 0xFFFFFF, d.2)

/-- The link between positions `i` and `i + 1` of the segment of `p` at a level is down. -/
def hopDown (s : State) (p : BitVec 24) (l i : Nat) : Bool :=
  let q := pathCut p l
  (downEnds s).any fun d => d == (pathSet q l i, 1) || d == (pathSet q l (i + 1), 0)

/-- Some link below level 0 on the way to `p` is down. -/
def deepDown (s : State) (p : BitVec 24) : Bool :=
  (upto (pathLevel p)).any fun k =>
    let l := k + 1
    let i := pathPos p l
    let first := if i < 32 then 0 else 32
    let entry := (downEnds s).any fun d => d == (pathCut p k, if i < 32 then 2 else 3) || d == (pathSet (pathCut p l) l first, 0)
    entry || (upto (i - first)).any fun j => hopDown s p l (first + j)

/-- The last position at level 0. -/
def lastPos (s : State) : Nat := s.tree.members.foldl (fun n m => max n (pathPos m.path 0)) (pathPos s.tree.path 0)

/-- At level 0, the way along the chain to `p`; and in a ring the way round (R330, R352). -/
def innerDown (s : State) (p : BitVec 24) : Bool :=
  let a := pathPos s.tree.path 0
  let b := pathPos p 0
  (upto (max a b - min a b)).any fun k => hopDown s p 0 (min a b + k)
def outerDown (s : State) (p : BitVec 24) : Bool :=
  let a := pathPos s.tree.path 0
  let b := pathPos p 0
  let n := lastPos s
  let closing := (downEnds s).any fun d => d == (pathSet 0x03FFFF 0 n, 1) || d == (0x03FFFF, 0)
  !treeRing s || a == b || closing || (upto n).any fun i => (decide (i < min a b) || decide (max a b ≤ i)) && hopDown s p 0 i

def innerLink (s : State) (p : BitVec 24) : LinkId := nextHop s.tree.path p
def outerLink (s : State) (p : BitVec 24) : LinkId := if innerLink s p = 1 then 0 else 1

/-- No route to `p` is left. -/
def routeLost (s : State) (p : BitVec 24) : Bool := deepDown s p || (innerDown s p && outerDown s p)

/-- The route in use to a member is down. -/
def routeDown (s : State) (m : Member) : Bool :=
  deepDown s m.path || (if m.link = innerLink s m.path ∨ 2 ≤ m.link.val then innerDown s m.path else outerDown s m.path)

/-! ### The round trip (R344) -/

/-- ns of a latency in timebase units (1/256 AT is 3125/3072 ns), rounded up, with 60 ns for each transit device. -/
def oneNs (oneWay nLinks : Nat) : Nat := ceilDiv (oneWay * 3125) 3072 + (nLinks - 1) * 60

/-- ONE of the way round a ring, from the manager's closing link and the last member's way (R330, R344). -/
def outerOne (s : State) (m : Member) : Option Nat :=
  let anc := s.tree.members.find? fun x => x.path == pathCut m.path 0
  let last := s.tree.members.find? fun x => x.path == pathSet 0x03FFFF 0 (lastPos s)
  match anc, last with
  | some a, some z =>
    if !treeRing s || pathPos s.tree.path 0 != 0 || (s.links.get 0).st != .inService || outerDown s m.path || pathPos m.path 0 == 0 then none
    else
      let total := z.oneWay + (s.links.get 0).lat
      some (oneNs (total - a.oneWay + (m.oneWay - a.oneWay)) (lastPos s + 1 - pathPos m.path 0 + (m.nLinks - a.nLinks)))
  | _, _ => none

/-- ONE of a member by its best route, and the link of that route. -/
def bestRoute (s : State) (m : Member) : LinkId × Nat :=
  let inner := oneNs m.oneWay m.nLinks
  match outerOne s m with
  | some o => if o < inner ∨ innerDown s m.path then (outerLink s m.path, o) else (innerLink s m.path, inner)
  | none => (if innerDown s m.path && !outerDown s m.path then outerLink s m.path else innerLink s m.path, inner)

def holderRole (m : Member) : Bool := (m.role == 1 || m.role == 3) && !m.lost

/-- RTT_max in ns over a list of members. -/
def rttOf (s : State) (ms : List Member) : Nat := 2 * (ms.filter holderRole).foldl (fun n m => max n (bestRoute s m).2) 0

/-- The bound of R344, with the manual's 260.42 ns. -/
def rttFits (s : State) (rtt : Nat) : Bool :=
  decide (rtt * 25600 ≤ field (treeW s 0) 15 8 * field (treeW s 2) 11 0 * 26042) && decide (rtt ≤ 10000)

def setRtt (s : State) : State := modTree s fun t => { t with rttMax := BitVec.ofNat 16 (min 0xFFFF (rttOf s t.members)) }

/-! ### Admission (R331, R344, R350) -/

/-- The lowest free node number (R331). -/
def freeNode (s : State) : Option Nat :=
  (upto 128).find? fun n => n != 0 && n != myNode s && !(s.tree.members.any (·.node == n)) && !(s.tree.freeing.any (·.1 == n))

/-- The moment from which a strobe is the first at least 2 µs later, in units (R350). -/
def nameStrobe (s : State) : Stamp := stamp s + 1967

/-- The route table of a newcomer at `p`, this device first. -/
def routesFor (s : State) (p : BitVec 24) : List (Fin 128 × BitVec 24 × Fin 4 × LinkId) :=
  (idx 127 (myNode s), s.tree.path, idx 3 s.tree.role.toNat, nextHop p s.tree.path) ::
    (s.tree.members.filter fun m => !m.lost && m.joinAt.isNone).map fun m => (idx 127 m.node, m.path, m.role, nextHop p m.path)

/-- A JOIN by the way of a path: on the neighbour's link itself while that is not in service. -/
def joinToward (s : State) (l : LinkId) (node : Nat) (m : JoinMsg) : State :=
  if (s.links.get l).st == .inService then sendOn s l { part := 0, snode := idx 127 (myNode s), dnode := idx 127 node, msg := .join m }
  else modLink s l fun k => k.put (ctrlPacket s l none) { part := 0, snode := idx 127 (myNode s), dnode := idx 127 node, msg := .join m }

/-- The link to a newcomer is to enter service at the named strobe (R360). -/
def admitLink (s : State) (l : LinkId) (strobe : Stamp) : State :=
  modLink s l fun k => if k.st == .up || (k.st == .refused && k.refusedBy344) then { k with admitAt := some strobe } else k

/-- A candidate becomes a member from the named strobe, and every member learns of it. -/
def admitMember (s : State) (m0 : Member) : State :=
  match freeNode s with
  | none => s
  | some n =>
    let strobe := nameStrobe s
    let m := { m0 with node := n, joinAt := some strobe, answeredAt := s.now, lost := false }
    let msg := JoinMsg.admission (idx 127 n) m.path m.role m.offSum m.nLinks m.oneWay strobe
    let s1 := joinToward s m.link n (msg (routesFor s m.path))
    let s2 := (s.tree.members.filter fun x => !x.lost && x.joinAt.isNone).foldl (fun s x => joinToward s x.link x.node (msg [])) s1
    setRtt (admitLink (modTree s2 fun t => { t with
      members := t.members ++ [m], refused := t.refused.filter (·.path != m.path) }) m.link strobe)

/-- The manager applies R344 to a candidate reached through `link` of member `reporter`. -/
def tryAdmit (s : State) (m : Member) (reporter : Nat) (link : LinkId) : State :=
  if (s.tree.members.any fun x => x.path == m.path && !x.lost) then s
  else if rttFits s (rttOf s (m :: s.tree.members)) && (freeNode s).isSome then admitMember s m
  else
    let (w, s1) := drawWord s []
    let s2 := logEvent s1 (uLink m.link) 0x10 m.link.val w
    let s3 := modTree s2 fun t => { t with refused := m :: t.refused.filter (·.path != m.path) }
    if reporter = myNode s then
      joinToward (modLink s3 link fun k => if k.st == .up then { k with st := .refused, refusedBy344 := true } else k) link 0 (.refuse link)
    else sendTo s3 0 reporter (.join (.refuse link))

/-- The manager learns that a neighbour of a member has reached UP (R338, R350). The sum is of OFF as the newcomer's end of each link has it,
peer minus own, so that adding it ends on the manager's timebase; the near end has it with the other sign (R340; DEDUCED, log entry 103). -/
def neighbourUp (s : State) (reporter : Nat) (link : LinkId) (role : Fin 4) (held : Option (Fin 128)) (lat : Nat) (off : Int) : State :=
  let s := modTree s fun t => { t with downLinks := t.downLinks.filter fun d => d != (reporter, link.val) }
  let me := reporter = myNode s
  let via := memberOf s reporter
  let known := match held with | some n => n.val == myNode s || (memberOf s n.val).isSome | none => false
  if !me && via.isNone then s
  else if known then
    let strobe := nameStrobe s
    if me then admitLink s link strobe else sendTo s 0 reporter (.join (.readmit link strobe))
  else
    let p := if me then s.tree.path else (via.map (·.path)).getD 0xFFFFFF
    match childPath p link with
    | none => s
    | some q =>
      tryAdmit s {
        node := 0, path := q, role := role, link := if me then link else (via.map (·.link)).getD 0
        nLinks := (via.map (·.nLinks)).getD 0 + 1, oneWay := (via.map (·.oneWay)).getD 0 + lat
        offSum := (via.map (·.offSum)).getD 0 - off, answeredAt := s.now, lost := false, joinAt := none } reporter link

/-- LINK_UP: 64 exchanges are measured; an identity that differs leaves the link REFUSED; the manager is told (R339, R340, R350, R360). -/
def execLinkUp (t : Time) (l : LinkId) (s : State) : Host.Outcome State Fault Refusal :=
  live t s fun s =>
    let k := s.links.get l
    match operating s && k.st == .training && k.joined && k.samples.length == 64, bestSample k.samples with
    | true, some (rtt, off) =>
      let lat := (rtt / 2).toNat
      let s1 := modLink s l fun k => { k with
        st := if k.mismatch then .refused else .up, lat := lat, off := off, lastGood := s.now }
      if k.mismatch then s1
      else if s.tree.role == 2 then neighbourUp s1 (myNode s) l k.peerRole k.peerHeld lat off
      else if s.tree.member then
        sendTo s1 0 0 (.hbeat (.linkUp (idx 127 (myNode s)) l k.peerRole k.peerHeld lat off))
      else s1
    | _, _ => s

/-! ### Lost routes and members (R338, R351, R352) -/

/-- Every spore with a stretch on one of these members is ended: STOP to its holders, and the lost parts count as PEER_LOST (R352). -/
def losePeers (s : State) (nodes : List Nat) : State :=
  s.jobs.foldl (fun s j =>
    match j.shard with
    | .sharded hs _ _ =>
      if !(hs.any fun n => nodes.contains n) then s
      else
        let tag := spTag j.spore
        let s1 := modJob s j.id fun j => { j with peerLost := true }
        let s2 := hs.foldl (fun s n =>
          if nodes.contains n then s
          else if n = myNode s then (match s.jobs.find? fun x => isStretch x && x.queue == j.queue && spTag x.spore == tag with
            | some x => stopStretch s x false
            | none => s)
          else sendTo s j.part n (.stop [{ queue := j.queue, tag := tag, abort := false }])) s1
        (upto hs.length).foldl (fun s k =>
          if nodes.contains (hs.getD k 128) then stretchDone s j.queue tag (k, 0x21, 0, 0, 0) else s) s2
    | _ => s) s

/-- The manager learns that a link is down (R338, R352). -/
def linkLost (s : State) (node : Nat) (l : LinkId) : State :=
  let s1 := modTree s fun t => { t with downLinks := (node, l.val) :: t.downLinks.filter (· != (node, l.val)) }
  losePeers s1 ((s1.tree.members.filter fun m => !m.lost && routeDown s1 m).map (·.node))

/-- The code of a cause in the event ring (R432). -/
def downCode : DownCause → Nat
  | .laneLock => 0 | .naks => 1 | .silence => 2

/-- The cause holds: NAKs of one frame are counted at both ends (R338). -/
def downHolds (s : State) (k : Link) : DownCause → Bool
  | .laneLock => true
  | .naks => decide (8 ≤ k.nakRun) || decide (8 ≤ k.nakGot)
  | .silence => decide (k.lastGood + tUs ≤ s.now)

/-- LINK_DOWN: retry buffer and credits are discarded, the manager is told over another link, and training starts again (R338). -/
def execLinkDown (t : Time) (l : LinkId) (cause : DownCause) (s : State) : Host.Outcome State Fault Refusal :=
  live t s fun s =>
    let k := s.links.get l
    if !operating s || !(k.st == .up || k.st == .refused || k.st == .inService) || !downHolds s k cause then s
    else
      let s1 := logEvent (traceLink s l 2) (uLink l) 0x0F l.val (BitVec.ofNat 32 (downCode cause))
      let s2 := modLink s1 l fun k => { k with
        st := .down, downs := satInc k.downs, retry := [], credits := Vector.replicate 3 0, rxWait := false, nakRun := 0, nakGot := 0, admitAt := none }
      let s3 := if s.tree.role == 2 then linkLost s2 (myNode s) l
        else match (allFin 4).find? fun x => x != l && (s2.links.get x).st == .inService with
          | some x => sendOn s2 x {
              part := 0, snode := idx 127 (myNode s), dnode := 0, msg := .hbeat (.linkDown (idx 127 (myNode s)) l) }
          | none => s2
      startTraining (traceLink s3 l 1) l

/-- MEMBER_LOST: no answer for HBMISS periods, or no route left (R331, R351, R352). -/
def execMemberLost (t : Time) (node : Fin 128) (s : State) : Host.Outcome State Fault Refusal :=
  live t s fun s =>
    match s.tree.role == 2 && operating s, memberOf s node.val with
    | true, some m =>
      when_ (decide (m.answeredAt + hbMiss s * hbPer s ≤ s.now) || routeLost s m.path) s fun s =>
        let s1 := modTree s fun t => { t with
          members := t.members.map fun x => if x.node = node.val then { x with lost := true } else x
          freeing := t.freeing ++ [(node.val, 2)] }
        setRtt (losePeers s1 [node.val])
    | _, _ => s

/-- HEARTBEAT_SEND (R341, R351). -/
def execHeartbeatSend (t : Time) (s : State) : Host.Outcome State Fault Refusal :=
  live t s fun s =>
    when_ (s.tree.role == 2 && operating s && decide (s.tree.beatSent + hbPer s ≤ s.now)) s fun s =>
      let s1 := modTree s fun t => { t with beatSent := s.now }
      (s.tree.members.filter fun m => !m.lost && m.joinAt.isNone).foldl (fun s m =>
        sendTo s 0 m.node (.hbeat (.beat (stamp s) s.tree.epoch s.tree.wasActive s.tree.path))) s1

/-! ### Dropped work (R351, R355, R357) -/

/-- A job ends without a record; its contexts are stopped and write nothing further. -/
def dropRun (s : State) (j : Job) : State :=
  let cs := ctxsOf s j
  let s1 := dropJob s j
  cs.foldl (fun s p =>
    let s2 := modCtx s p.1 p.2 fun x => { x with job := none, noOutput := true }
    if (ctx s2 p.1 p.2).st == .teardown then s2 else stopCtx s2 p.1 p.2) s1

def dropStretches (s : State) : State := (s.jobs.filter isStretch).foldl dropRun s

/-- Every spore this device holds is discarded, with the records not yet written (R357). -/
def discardSpores (s : State) : State :=
  let s1 := s.jobs.foldl dropRun s
  let s2 := s1.entries.foldl (fun s e => setRunning (updDesc s e.queue 0 fun w => setField w 14 8 0) e.queue false) s1
  { s2 with entries := [], popped := [], ringQ := [], builder := { s2.builder with list := [] } }

/-- WORKER_ORPHAN (R351). -/
def execWorkerOrphan (t : Time) (s : State) : Host.Outcome State Fault Refusal :=
  live t s fun s =>
    when_ (s.tree.role == 1 && s.tree.member && operating s && decide (s.tree.beatAt + 2 * hbMiss s * hbPer s ≤ s.now)) s fun s =>
      modTree (dropStretches s) fun t => { t with member := false }

/-! ### JOIN (R339, R350, R357, R360) -/

/-- The identity of the neighbour: TREEID, image generation and program-set digest are compared (R339). -/
def joinIdentity (s : State) (l : LinkId) (treeId : Word) (gen digest8 : BitVec 64) (role : Fin 4) (held : Option (Fin 128)) : State :=
  let same := treeId == treeW s 1 && gen == s.boot.imgGen && digest8 == BitVec.ofNat 64 (leNat (s.boot.progDigest.take 8))
  let (w, s1) := drawWord s []
  let s2 := if same then s else logEvent s1 (uLink l) 0x10 l.val w
  modLink s2 l fun k => { k with
    joined := true, mismatch := !same, peerRole := role, peerHeld := held, st := if !same && k.st == .up then .refused else k.st }

/-- A node is known from now on: reached by the next hop of its path. -/
def learn (s : State) (node : Nat) (path : BitVec 24) (role : Fin 4) (strobe : Option Stamp) : State :=
  let m : Member := {
    node := node, path := path, role := role, link := nextHop s.tree.path path, nLinks := 0, oneWay := 0, offSum := 0
    answeredAt := s.now, lost := false, joinAt := strobe }
  modTree s fun t => { t with members := t.members.filter (fun x => x.node != node && x.path != path) ++ [m] }

/-- An admission: this device's own, one that passes on its way, or news of another's. -/
def joinAdmit (s : State) (l : LinkId) (p : Packet) (node : Fin 128) (path : BitVec 24) (role : Fin 4) (offSum : Int)
    (nLinks oneWay : Nat) (strobe : Stamp) (routes : List (Fin 128 × BitVec 24 × Fin 4 × LinkId)) : State :=
  if !s.tree.member then
    let ms := routes.map fun r => ({
      node := r.1.val, path := r.2.1, role := r.2.2.1, link := r.2.2.2, nLinks := if r.1 = 0 then nLinks else 0
      oneWay := if r.1 = 0 then oneWay else 0, offSum := 0, answeredAt := s.now, lost := false, joinAt := none } : Member)
    let own := strobe - BitVec.ofInt 56 offSum
    admitLink (modTree s fun t => { t with
      node := BitVec.ofNat 7 node.val, path := path, members := ms, pendStep := some (offSum, own), beatAt := s.now
      offErr := BitVec.ofNat 16 (min 0xFFFF (3 * nLinks)) }) l own
  else if s.tree.role == 2 then s
  else
    let hop := nextHop s.tree.path path
    let s1 := admitLink (learn s node.val path role (some strobe)) hop strobe
    if p.dnode.val = myNode s then s1
    else if p.dnode = node then joinToward s1 hop node.val (.admission node path role offSum nLinks oneWay strobe routes)
    else atNode s1 l p id

/-- A refusal under R344 reaches the device whose link leads to the refused one, and that one itself. -/
def joinRefuse (s : State) (l : LinkId) (p : Packet) (link : LinkId) : State :=
  let mark := fun (s : State) (x : LinkId) =>
    modLink s x fun k => if k.st == .up then { k with st := .refused, refusedBy344 := true } else k
  if !s.tree.member then mark s l
  else atNode s l p fun s => joinToward (mark s link) link 0 (.refuse link)

/-- JOIN_FRAME (R335, R339, R350, R360). -/
def execJoinFrame (t : Time) (l : LinkId) (h : Hdr) (m : JoinMsg) (s : State) : Host.Outcome State Fault Refusal :=
  live t s fun s =>
    let p : Packet := { part := h.part, snode := h.snode, dnode := h.dnode, msg := .join m }
    receive s l h.good true h.num p fun s =>
      match m with
      | .identity treeId gen digest8 role held => joinIdentity s l treeId gen digest8 role (held.map (·.1))
      | .admission node path role offSum nLinks oneWay strobe routes => joinAdmit s l p node path role offSum nLinks oneWay strobe routes
      | .readmit link strobe => atNode s l p fun s => admitLink s link strobe
      | .refuse link => joinRefuse s l p link

/-! ### Heartbeats (R341, R351, R355, R357) -/

/-- DRIFT (R341). -/
def checkDrift (s : State) (l : LinkId) (sent : Stamp) (from_ : Nat) : State :=
  let route := ((memberOf s from_).map (·.oneWay)).getD 0
  let d := (stamp s - sent).toInt - Int.ofNat route
  if s.tree.offErr.toNat + 16 < d.natAbs then
    modTree (logEvent s (uLink l) 0x11 l.val (BitVec.ofInt 32 d)) fun t => { t with drift := satInc t.drift }
  else s

/-- The loser of a conflict becomes standby, waits for its new node number, and refuses doorbells (R357). -/
def yieldTree (s : State) : State :=
  modTree (discardSpores s) fun t => { t with
    role := 3, member := false, node := 0x7F, members := [], holders := [], refused := [], downLinks := [], yielded := true
    noticeDue := true, installed := false, managerLost := false, complete := none, partialE := none }

/-- MANAGER_CONFLICT: higher epoch, then the one that was active when it was formed, then the lower path (R357). -/
def managerConflict (s : State) (l : LinkId) (epoch : Word) (active : Bool) (path : BitVec 24) : State :=
  let t := s.tree
  let win := if t.epoch != epoch then decide (epoch.toNat < t.epoch.toNat) else if t.wasActive != active then t.wasActive
    else decide (t.path.toNat < path.toNat)
  if !win then yieldTree s
  else if s.tree.members.any fun m => m.path == path && !m.lost then s
  else admitMember s {
    node := 0, path := path, role := 3, link := l, nLinks := 1, oneWay := (s.links.get l).lat, offSum := 0, answeredAt := s.now, lost := false
    joinAt := none }

/-- Node 0 is bound to the path of a claim (R355). -/
def bindManager (s : State) (epoch : Word) (path : BitVec 24) : State :=
  let old := s.tree.members.find? fun m => m.path == path
  let m : Member := {
    node := 0, path := path, role := 2, link := (old.map (·.link)).getD (nextHop s.tree.path path), nLinks := (old.map (·.nLinks)).getD 0
    oneWay := (old.map (·.oneWay)).getD 0, offSum := 0, answeredAt := s.now, lost := false, joinAt := none }
  modTree s fun t => { t with
    claimed := epoch, claimPath := path, beatAt := s.now
    members := m :: t.members.filter fun x => x.node != 0 && x.path != path }

/-- HBEAT_FRAME (R338, R341, R350, R351, R355, R357). -/
def execHbeatFrame (t : Time) (l : LinkId) (h : Hdr) (m : HbeatMsg) (s : State) : Host.Outcome State Fault Refusal :=
  onMessage t l h (.hbeat m) s fun s =>
    let answer := fun (s : State) (n : Nat) => sendTo s 0 n (.hbeat .answer)
    match m with
    | .beat sent epoch active path =>
      if s.tree.role == 2 then managerConflict s l epoch active path
      else if !s.tree.member then s
      else answer (checkDrift (modTree s fun t => { t with beatAt := s.now }) l sent h.snode.val) h.snode.val
    | .answer =>
      when_ (s.tree.role == 2) s fun s => modTree s fun t => { t with
        members := t.members.map fun x => if x.node = h.snode.val then { x with answeredAt := s.now } else x }
    | .claim epoch path =>
      if s.tree.role == 2 then managerConflict s l epoch false path
      else if !s.tree.member || decide (epoch.toNat < s.tree.claimed.toNat) then s
      else answer (bindManager s epoch path) 0
    | .linkDown node link => when_ (s.tree.role == 2) s fun s => linkLost s node.val link
    | .linkUp node link role held lat off => when_ (s.tree.role == 2) s fun s => neighbourUp s node.val link role held lat off

/-! ### Epochs (R353, R354) -/

/-- Pieces of at most 32 words, one EPOCH frame each. -/
def pieces : Nat → List Word → List (List Word)
  | 0, _ => []
  | n + 1, ws => if ws.isEmpty then [] else ws.take 32 :: pieces n (ws.drop 32)

/-- Spores without a record that were accepted before the strobe edge, in ascending queue order. -/
def epochSpores (s : State) : List Entry :=
  let es := s.entries.filter fun e => (e.st == .buffered || e.st == .taken) && earlier e.accept s.timing.stbStamp
  es.foldl (fun l e => (l.takeWhile fun x => decide (x.queue.toNat ≤ e.queue.toNat)) ++
    e :: (l.dropWhile fun x => decide (x.queue.toNat ≤ e.queue.toNat))) []

/-- The holding program of a queue's spore; the requested one where none holds it yet (R185, R353; DEDUCED, log entry 103). -/
def queueHold (s : State) (q : QueueId) (req : Nat) : Nat :=
  match s.jobs.find? fun j => !isStretch j && j.queue == q with
  | some j => j.hold.toNat
  | none => req

/-- What an epoch carries of a queue: its area and its state block, where the holding program has MIRROR 1. -/
def mirrorItems (s : State) (q : QueueId) (req : Nat) : List EpochItem :=
  if !progMirror s (queueHold s q req) then []
  else
    let area := if areaWritable s q req then
        (pieces (areaWords s req) (rdWords s (areaAddr s q) (areaWords s req))).map fun ws => EpochItem.prior q ws
      else []
    let block := match (govProg s req).bind fun g => (stateAddr s g q).map fun a => (a, 16 * progSstride s g) with
      | some (a, n) => (pieces n (rdWords s a n)).map fun ws => EpochItem.block q ws
      | none => []
    area ++ block

/-- The epoch, frame by frame (R353). -/
def epochItems (s : State) : List EpochItem :=
  let es := (epochSpores s).take (epspMax s)
  let qs := (es.map (·.queue)).eraseDups
  let req := fun (q : QueueId) => match es.find? (·.queue == q) with | some e => spProg e.spore | none => 0
  (s.tree.members.filter fun m => !m.lost).map (fun m => EpochItem.member (idx 127 m.node) m.path m.role) ++
    es.map (fun e => EpochItem.spore e.queue e.idx e.clamp (rdWords s (poolEntry s e.queue e.idx) 16) (rdWords s (descAddr e.queue) 4)) ++
    qs.flatMap (fun q => mirrorItems s q (req q)) ++
    ((allFin 2048).filter fun r => (s.rings.get r).enabled).map fun r => EpochItem.ring r (s.rings.get r).wr (s.rings.get r).oddPass

/-- What an epoch reads of the Shared Store, checked (R482). -/
def epochCheck (s : State) : State :=
  ((epochSpores s).take (epspMax s)).foldl (fun s e =>
    let req := spProg e.spore
    let s1 := checkDesc (fwRead s 3 (poolEntry s e.queue e.idx) 16).1 e.queue
    let mirror := progMirror s (queueHold s e.queue req)
    let s2 := if mirror && areaWritable s e.queue req then (fwRead s1 3 (areaAddr s e.queue) (areaWords s req)).1 else s1
    match (govProg s req).bind fun g => (stateAddr s g e.queue).map fun a => (a, 16 * progSstride s g) with
    | some (a, n) => if mirror then (fwRead s2 3 a n).1 else s2
    | none => s2) s

/-- EPOCH_COPY: once for each strobe, after its work list is built (R353). -/
def execEpochCopy (t : Time) (s : State) : Host.Outcome State Fault Refusal :=
  live t s fun s =>
    match s.tree.role == 2 && operating s && s.tree.epCount != s.tree.strobes && s.builder.want.isNone, standbyNode s with
    | true, some n =>
      let s := epochCheck s
      let e := s.tree.epoch + 1
      let items := epochItems s
      let ovf := decide (epspMax s < (epochSpores s).length)
      let s1 := modTree s fun t => { t with
        epoch := e, epCount := t.strobes, wasActive := true, epOver := if ovf then satInc t.epOver else t.epOver }
      let s2 := items.foldl (fun s i => sendTo s 0 n (.epoch e s.timing.stbStamp i)) s1
      sendTo s2 0 n (.epend e items.length)
    | _, _ => s

/-- EPOCH_FRAME: into the buffer that does not hold the last complete epoch; a partial copy that a newer epoch overtakes is discarded and
counted (R353, R354). -/
def execEpochFrame (t : Time) (l : LinkId) (h : Hdr) (n : Word) (cut : Stamp) (m : EpochItem) (s : State) : Host.Outcome State Fault Refusal :=
  onMessage t l h (.epoch n cut m) s fun s =>
    when_ (s.tree.role == 3) s fun s => modTree s fun t =>
      let fresh : Epoch := { num := n, cut := cut, items := [m], marked := [] }
      let t1 := match t.partialE with
        | some e => if e.num = n then { t with partialE := some { e with items := e.items ++ [m] } }
          else { t with partialE := some fresh, epSkip := satInc t.epSkip }
        | none => { t with partialE := some fresh }
      { t1 with highEpoch := if t.highEpoch.toNat < n.toNat then n else t.highEpoch }

/-- EPEND_FRAME: a complete copy that fits EPSIZE is committed (R354). -/
def execEpendFrame (t : Time) (l : LinkId) (h : Hdr) (n : Word) (count : Nat) (s : State) : Host.Outcome State Fault Refusal :=
  onMessage t l h (.epend n count) s fun s =>
    match s.tree.role == 3, s.tree.partialE with
    | true, some e =>
      when_ (e.num == n && e.items.length == count && decide (128 * count ≤ 16384 * epSize s)) s fun s =>
        modTree s fun t => { t with complete := some e, partialE := none, epoch := n }
    | _, _ => s

/-- The epoch holds a spore. -/
def Epoch.holds (e : Epoch) (x : BitVec 64 × QueueId) : Bool :=
  e.items.any fun i => match i with | .spore q _ _ ws _ => q == x.2 && spTag ws == x.1 | _ => false

/-- DONE_FRAME (R354). -/
def execDoneFrame (t : Time) (l : LinkId) (h : Hdr) (xs : List (BitVec 64 × QueueId)) (s : State) : Host.Outcome State Fault Refusal :=
  onMessage t l h (.done xs) s fun s => modTree s fun t =>
    { t with complete := t.complete.map fun e => { e with marked := e.marked ++ (xs.take 15).filter e.holds } }

/-! ### Takeover (R331, R355, R356) -/

/-- MANAGER_LOST: the standby declares the manager lost and claims (R351, R355). A standby sits at level 0, and holds of the routes only
its own links 0 and 1: with neither in service no route is left (DEDUCED, log entry 103). -/
def execManagerLost (t : Time) (s : State) : Host.Outcome State Fault Refusal :=
  live t s fun s =>
    let silent := decide (s.tree.beatAt + hbMiss s * hbPer s ≤ s.now)
    let cut := (memberOf s 0).isSome && (s.links.get 0).st != .inService && (s.links.get 1).st != .inService
    when_ (s.tree.role == 3 && s.tree.member && !s.tree.managerLost && operating s && (silent || cut)) s fun s =>
      let e := s.tree.highEpoch + 1
      let s1 := modTree s fun t => { t with managerLost := true, claimed := e, claimPath := t.path, partialE := none }
      (s.tree.members.filter fun m => m.node != 0 && !m.lost).foldl (fun s m => sendTo s 0 m.node (.hbeat (.claim e s.tree.path))) s1

/-- One piece of the epoch installed; `off` counts the words of the queue's area or block installed so far. -/
def installItem (e : Epoch) (s : State) (i : EpochItem) : State :=
  match i with
  | .member node path role =>
    if node = 0 ∨ path = s.tree.path then s
    else if s.tree.members.any fun m => m.path == path then modTree s fun t => { t with
      members := t.members.map fun m => if m.path = path then { m with node := node.val, role := role } else m }
    else learn s node.val path role none
  | .spore q k clamp ws d =>
    let s1 := wrWords s (descAddr q) d
    let s2 := wrWords s1 (poolEntry s1 q k) ws
    let part : PartId := idx 7 (field (wordAt ws 0) 22 20)
    let x : Entry := {
      queue := q, idx := k, st := if e.marked.contains (spTag ws, q) then .freed else .taken, part := part
      accept := BitVec.ofNat 56 ((wordAt ws 14).toNat + 2 ^ 32 * field (wordAt ws 15) 23 0), acceptAt := s.now, clamp := clamp
      toNull := q == sinkOf s part || spProg ws == 0, spore := ws.take 14 ++ [0, 0] }
    { s2 with entries := s2.entries.filter (fun y => !(y.queue == q && y.idx == k)) ++ [x] }
  | .ring r wr odd => modRing s r fun x => { x with wr := wr, oddPass := odd }
  | _ => s

/-- The words of a queue's area or state block in the epoch, in order. -/
def epochArea (e : Epoch) (q : QueueId) : List Word := e.items.flatMap fun i => match i with | .prior p ws => if p = q then ws else [] | _ => []
def epochBlock (e : Epoch) (q : QueueId) : List Word := e.items.flatMap fun i => match i with | .block p ws => if p = q then ws else [] | _ => []

/-- A queue as the epoch leaves it: area, state block, and the entries the epoch holds. -/
def installQueue (e : Epoch) (s : State) (q : QueueId) : State :=
  match s.entries.filter (·.queue == q) with
  | [] => s
  | x :: xs =>
    let s1 := if (epochArea e q).isEmpty then s else wrWords s (areaAddr s q) (epochArea e q)
    let s2 := match (govProg s (spProg x.spore)).bind fun g => stateAddr s g q with
      | some a => if (epochBlock e q).isEmpty then s1 else wrWords s1 a (epochBlock e q)
      | none => s1
    advanceHead (setRunning (updDesc s2 q 0 fun w => setField (setField w 14 8 (xs.length + 1)) 20 15 x.idx.val) q false) q 64

/-- A spore of the epoch that has no DONE notice ends with the statuses of R352. -/
def endInterrupted (s : State) (x : Entry) : State :=
  let j := { newJob s x x.spore (spProg x.spore) false with peerLost := true }
  let s1 := { s with nextId := s.nextId + 1, jobs := s.jobs ++ [j] }
  if areaReadable s1 j.queue j.req.toNat then beginSubstitute s1 j else endJob s1 j 0x21

/-- EPOCH_INSTALL: the claimant becomes manager as node 0 with its last complete epoch; every stretch is stopped with the meaning of ABORT,
which discards its output (R297; DEDUCED, log entry 103), and every spore without a DONE notice gets its record (R331, R355). -/
def execEpochInstall (t : Time) (s : State) : Host.Outcome State Fault Refusal :=
  live t s fun s =>
    if s.tree.role != 3 || !s.tree.managerLost || !operating s then s
    else
      let old := myNode s
      let s1 := modTree (dropStretches s) fun t => { t with
        role := 2, node := 0, epoch := t.claimed, takeovers := satInc t.takeovers, takeAt := stamp s, managerLost := false
        freeing := if old = 0 then t.freeing else t.freeing ++ [(old, 2)], wasActive := true, noticeDue := true, installed := true
        yielded := false, cut := (t.complete.map (·.cut)).getD 0
        members := (t.members.filter (·.node != 0)).map fun m => { m with answeredAt := s.now } }
      match s.tree.complete with
      | none => s1
      | some e =>
        let s2 := e.items.foldl (installItem e) s1
        let qs := (e.items.filterMap fun i => match i with | .spore q _ _ _ _ => some q | _ => none).eraseDups
        let s3 := qs.foldl (installQueue e) s2
        let open_ := s3.entries.filter fun x => x.st == .taken && qs.contains x.queue
        let s4 := open_.foldl (fun s x =>
          if !progShard s (spProg x.spore) then s
          else (s.tree.members.filter fun m => !m.lost).foldl (fun s m =>
            sendTo s x.part m.node (.stop [{ queue := x.queue, tag := spTag x.spore, abort := true }])) s) s3
        open_.foldl endInterrupted s4

/-- Every record of the installed epoch has been written to its ring (R356). -/
def drained (s : State) : Bool :=
  match s.tree.complete with
  | none => true
  | some e => e.items.all fun i => match i with
      | .spore q k _ ws _ => !(s.entries.any fun x => x.queue == q && x.idx == k && x.st != .freed && spTag x.spore == spTag ws)
      | _ => true

/-- The eight words of the role notice (R356). -/
def noticeWords (s : State) : List Word :=
  let t := s.tree
  [BitVec.ofNat 32 (t.role.toNat + at_ 2 (t.role == 2 && drained s).toNat + at_ 3 t.node.toNat), t.epoch, BitVec.ofNat 32 t.takeAt.toNat,
   BitVec.ofNat 32 (t.takeAt.toNat / 2 ^ 32), BitVec.ofNat 32 t.cut.toNat, BitVec.ofNat 32 (t.cut.toNat / 2 ^ 32), t.noticeSeq + 1, 0]

/-- ROLE_NOTICE_WRITE: once the records of a takeover are formed, and again when they have all been written; the first notice of a new
manager raises each partition's first vector (R355 to R357). -/
def execRoleNoticeWrite (t : Time) (s : State) : Host.Outcome State Fault Refusal :=
  live t s fun s =>
    let first := s.tree.noticeDue && !(s.jobs.any fun j => j.peerLost && j.st == .substitute)
    if !operating s || !(first || (s.tree.installed && !s.tree.noticeDue && drained s)) then s
    else
      let ws := noticeWords s
      let s1 := (allFin 8).foldl (fun s p =>
        let w := (part s p).win.get 0
        if !(part s p).en || winSize w < rwOff s + 8 then s
        else
          let s2 := ssStore s (winBase w + 4 * rwOff s) ws
          let r : RingId := idx 2047 (part s p).rfirst.toNat
          match s.tree.role == 2 && first, ringBlock s2 r with
          | true, some b => raiseVector s2 r b
          | _, _ => s2) s
      modTree s1 fun t => { t with noticeSeq := t.noticeSeq + 1, noticeDue := false, installed := t.installed && !drained s }

/-! ### The tree at a strobe (R331, R340, R346, R350, R352, R354, R360) -/

/-- DEVICE_ADMIT at a joining device: the timebase steps once, and it is a member (R340, R350). -/
def stepAtStrobe (s : State) : State :=
  match s.tree.pendStep with
  | some (d, at_) =>
    if earlier (stamp s) at_ then s
    else traceStep { s with
      tbAdj := s.tbAdj + BitVec.ofInt 56 d, tree := { s.tree with pendStep := none, member := true, beatAt := s.now } } d
  | none => s

/-- Insertion in ascending order of path (R346). -/
def byPath (x : BitVec 24 × Nat) : List (BitVec 24 × Nat) → List (BitVec 24 × Nat)
  | [] => [x]
  | y :: ys => if x.1.toNat < y.1.toNat then x :: y :: ys else y :: byPath x ys

/-- HOLDER_LIST (R346). -/
def holderList (s : State) : List Nat :=
  let ms := (s.tree.members.filter fun m => holderRole m && m.joinAt.isNone).map fun m => (m.path, m.node)
  let me := if mgrSh s then [(s.tree.path, myNode s)] else []
  ((ms ++ me).foldl (fun l x => byPath x l) []).map (·.2)

/-- The route a member uses from this strobe on: by the manager's best way, or away from a link that is down (R344, R352). -/
def rerouted (s : State) (m : Member) : Member :=
  if s.tree.role == 2 then { m with link := if 2 ≤ m.link.val then m.link else (bestRoute s m).1 }
  else
    let other : LinkId := if m.link = 0 then 1 else 0
    let swap := decide (m.link.val < 2) && (s.links.get m.link).st != .inService && (s.links.get other).st == .inService
    if swap && pathLevel s.tree.path == 0 then { m with link := other } else m

/-- What a strobe does to the tree, its links and its numbers. -/
def treeStrobe (s : State) : State :=
  let st := stamp s
  let due := fun (x : Option Stamp) => match x with | some a => !earlier st a | none => false
  let enter := fun (k : Link) => { k with st := LinkState.inService, admitAt := none, refusedBy344 := false, lastGood := s.now }
  let s1 := { s with links := s.links.map fun k => if due k.admitAt then enter k else k }
  let s2 := modTree s1 fun t =>
    let free := t.freeing.map fun x => (x.1, x.2 - 1)
    let gone := (free.filter (·.2 == 0)).map (·.1)
    { t with
      strobes := t.strobes + 1, freeing := free.filter (·.2 != 0)
      members := (t.members.filter fun m => !(m.lost && gone.contains m.node)).map fun m =>
        if due m.joinAt then { m with joinAt := none, answeredAt := s.now } else m
      epSkip := if t.partialE.isSome then satInc t.epSkip else t.epSkip, partialE := none }
  let s3 := modTree s2 fun t => { t with members := t.members.map (rerouted s2) }
  if s3.tree.role == 2 then
    let s4 := setRtt (modTree s3 fun t => { t with holders := holderList s3 })
    s4.tree.refused.foldl (fun s m => if rttFits s (rttOf s (m :: s.tree.members)) then admitMember s m else s) s4
  else s3

end Sys2Proof.Machine
end

