-- ==== Sys2Proof/Machine/Timing.lean ====
section
/-!
DEFINITION. The slot strobe and the PPS input (R26, R54, R249, R346, R350, R354, R434, R459, R460).
-/
namespace Sys2Proof.Machine

/-- An accepted strobe: a joining device steps its timebase first (R350); the edge is stamped; then the slot begins. -/
def acceptStrobe (s : State) : State :=
  let s0 := if operating s then stepAtStrobe s else s
  let st := stamp s0
  let s1 := { s0 with timing := { s0.timing with
    stbStamp := st, stbCnt := s0.timing.stbCnt + 1, stbAt := some s0.now, stbSinceLock := s0.timing.stbSinceLock || operating s0 } }
  if !operating s1 then s1
  else
    let s2 := { s1 with fronds := s1.fronds.map touchedClear }
    let s3 := modObs s2 fun o => { o with checkSeen := o.checkSeen.map (· + 1) }
    treeStrobe (windowOpenAt (wantBuild s3 st))

/-- The device looks at its SLOT_STB and PPS pins. -/
def pinsLive (s : State) : Bool := s.boot.phase != .held && !s.obs.halted

/-- SLOT_STROBE: ignored in a replay, counted if too early, else accepted (R459). -/
def execSlotStrobe (t : Time) (s : State) : Host.Outcome State Fault Refusal :=
  live t s fun s =>
    if !pinsLive s || strobesHeld s then s
    else match s.timing.stbAt with
    | some a =>
      if s.now < a + 160 * tAT then { s with timing := { s.timing with stbShort := satInc s.timing.stbShort } } else acceptStrobe s
    | none => acceptStrobe s

/-- PPS_EDGE: stamped, and its interval in AT less 3 840 000 recorded; sampled as SLOT_STB is, so not after a cut (R437, R459 to R461). -/
def execPpsEdge (t : Time) (s : State) : Host.Outcome State Fault Refusal :=
  live t s fun s =>
    when_ (pinsLive s) s fun s =>
      let st := stamp s
      let dev : Int := Int.ofNat ((st - s.timing.ppsStamp).toNat / 256) - 3840000
      { s with timing := { s.timing with
          ppsStamp := st, ppsCnt := s.timing.ppsCnt + 1, ppsSeen := true
          ppsDev := if s.timing.ppsSeen then BitVec.ofInt 16 (clampInt (-32768) 32767 dev) else 0x8000 } }

end Sys2Proof.Machine
end

