-- ==== Sys2Proof/Machine/PcieReset.lean ====
section
/-!
DEFINITION. The PCI Express port's resets and its link (R381, R450 to R452, R481, R488).
-/
namespace Sys2Proof.Machine

/-- The records of a ring written to the port, oldest first, split into those whose writes have all left and the others, by
the number of writes still on their way (R488). -/
def splitOut (writes : Nat) : List RingRec → List RingRec × List RingRec
  | [] => ([], [])
  | q :: rest =>
    if (rest.map (·.slots)).sum < writes then ([], q :: rest)
    else (q :: (splitOut writes rest).1, (splitOut writes rest).2)

/-- Records returned to wait for their ring before all others of it; a refused spore's record, which has no entry, counts in
DROPCNT (R50, R488). -/
def returnRecords (s : State) (r : RingId) (b : Nat) : State :=
  let x := s.rings.get r
  let (left, back) := splitOut (ringWrites s r.val) x.out
  let lost := (back.filter (·.direct.isSome)).length
  let s1 := { modRing s r fun x => { x with out := left } with
    ringQ := (back.filter (·.direct.isNone)).map (fun q => { q with tail := 0 }) ++ s.ringQ }
  if lost = 0 then s1
  else rmwWord s1 2 (b + 28) fun w => setField w 31 16 (min (field w 31 16 + lost) 0xFFFF)

/-- ENABLE cleared in the block of every ring that `which` picks, and its records returned (R452, R488). -/
def clearRings (s : State) (which : RingId → Bool) : State :=
  ((allFin 2048).filter which).foldl (fun s r =>
    match ringBlock s r with
    | some b =>
      let s1 := returnRecords s r b
      if bit (rdWord s1 (b + 8)) 8 then setEnable s1 r b false else s1
    | none => s) s

/-- The waiting writes of functions that `which` picks are discarded at the egress (R452). -/
def discardWrites (s : State) (which : FnId → Bool) : State :=
  let gone := (s.fabric.xfers.filter fun x => match x.x with
    | .tlp fn _ _ _ => which fn | .message fn _ => which fn | .completion fn _ _ _ => which fn | _ => false).map (·.id)
  let s1 := modFabric s fun f => { f with xfers := f.xfers.filter fun x => !gone.contains x.id }
  modPort s1 16 fun p => { p with
    cons := p.cons.filter fun c => !gone.contains c.ref, granted := p.granted.filter fun g => !gone.contains g.2 }

/-- Doorbell and cancel lines in the core are discarded, with the spores whose acceptance has not come and the reads not yet answered
(R452, R481). -/
def discardDoorbells (s : State) (which : FnId → Bool) : State :=
  modPcie s fun p => { p with
    reads := p.reads.filter fun x => !which x.fn, sporeQ := p.sporeQ.filter fun x => !which x.1
    fns := Vector.ofFn fun (n : FnId) => if which n then { p.fns.get n with lines := [], cancels := [] } else p.fns.get n }

/-- What a reset of some functions does to rings, writes and doorbells. After a cut the Shared Store and the lottery ports stand still
(R268, R437). -/
def resetFunctions (s : State) (which : FnId → Bool) : State :=
  let s1 := if s.obs.halted then s else clearRings s fun r => which (ringOwner s r)
  discardDoorbells (if s.obs.halted then s1 else discardWrites s1 which) which

/-- FUNCTION_LEVEL_RESET (R452, R481, R488). -/
def execFunctionLevelReset (t : Time) (fn : FnId) (s : State) : Host.Outcome State Fault Refusal :=
  live t s fun s => when_ s.pcie.up s fun s => resetFunctions s (· == fn)

/-- PCIE_CORE_RESET: every ring, every write and doorbell in the core; posted-write credits are withheld until the link
returns (R452). -/
def execPcieCoreReset (t : Time) (cause : CoreReset) (s : State) : Host.Outcome State Fault Refusal :=
  live t s fun s =>
    let s1 := resetFunctions s fun _ => true
    modPcie s1 fun p => { p with up := false, perst := p.perst || cause == .perst }

/-- PCIE_LINK_UP: the link reaches L0, not before READY nor while PE_PERST_N is asserted; `enabled` are the virtual functions
that software has enabled with Memory Space Enable (R381, R452). -/
def execPcieLinkUp (t : Time) (enabled : List FnId) (s : State) : Host.Outcome State Fault Refusal :=
  live t s fun s =>
    when_ (s.boot.ready && !s.pcie.perst && !s.pcie.up) s fun s =>
      modPcie s fun p => { p with
        up := true
        fns := Vector.ofFn fun (n : FnId) => { p.fns.get n with enabled := enabled.contains n && n != 0 } }

/-- PE_PERST_N_RELEASE: before READY the link training is held until READY (R452): PCIE_LINK_UP has no effect until then. -/
def execPePerstNRelease (t : Time) (s : State) : Host.Outcome State Fault Refusal :=
  live t s fun s => modPcie s fun p => { p with perst := false }

end Sys2Proof.Machine
end

