-- ==== Sys2Proof/Machine/Observability.lean ====
section
/-!
DEFINITION. The counter block with its freezes and samples, hang detection and declaration, the wait-for graph, the global stop,
and replay (R422 to R449).
-/
namespace Sys2Proof.Machine

/-! ### Counters (R423 to R426) -/

def pair16 (lo hi : BitVec 16) : Word := BitVec.ofNat 32 (lo.toNat + at_ 16 hi.toNat)

def Fcnt.word (n : Fcnt) (i : Nat) : Word :=
  match i with
  | 0 => n.busy
  | 1 => pair16 n.done n.preempt
  | 2 => pair16 n.demote n.fallbk
  | 3 => pair16 n.eccc n.eccu
  | 4 => pair16 n.faults n.trunc
  | _ => 0

def Pcnt.word (n : Pcnt) (i : Nat) : Word :=
  match i with
  | 0 => n.accept
  | 1 => n.refuse
  | 2 => pair16 n.unmatch n.late
  | 3 => n.waitSum
  | 4 => n.preSum
  | 5 => pair16 n.demote n.trunc
  | 6 => pair16 n.fbModel n.fbShift
  | 7 => pair16 n.fbNopr n.peerLost
  | 8 => n.done
  | _ => 0

/-- LCNT (R423). -/
def Link.cntWord (k : Link) (i : Nat) : Word :=
  match i with
  | 0 => k.txfr
  | 1 => k.rxfr
  | 2 => pair16 k.crcErr k.naks
  | 3 => pair16 k.downs k.wref
  | _ => 0

/-- A sum over the Loop Engine channels, saturating at 16 bits. -/
def leSum (s : State) (g : LeChan → BitVec 16) : BitVec 16 := BitVec.ofNat 16 (min 0xFFFF ((s.le.toList.map fun c => (g c).toNat).sum))

/-- DCNT (R423). -/
def dcntWord (s : State) (i : Nat) : Word :=
  match i with
  | 0 => s.obs.dcnt.trdrop
  | 1 => pair16 s.obs.dcnt.sscorr s.obs.dcnt.ssunc
  | 2 => pair16 (leSum s (·.elims)) (leSum s (·.dtTot))
  | 3 => pair16 (leSum s (·.stale)) (BitVec.ofNat 16 s.boot.majCnt.toNat)
  | 4 => s.obs.dcnt.evover
  | _ => 0

/-- A live counter word by its offset; 0 where none is (R423). -/
def cntLive (s : State) (off : Nat) : Word :=
  if off < 0x100 then 0
  else if off < 0x1100 then (vgetD s.obs.fcnt ((off - 0x100) / 32) Fcnt.reset).word (off % 32 / 4)
  else if off < 0x1180 then (vgetD s.links ((off - 0x1100) / 32) Link.reset).cntWord (off % 32 / 4)
  else if off < 0x1200 then 0
  else if off < 0x1400 then (vgetD s.obs.pcnt ((off - 0x1200) / 64) Pcnt.reset).word (off % 64 / 4)
  else if off < 0x1440 then dcntWord s ((off - 0x1400) / 4)
  else 0

/-- BUSY of every Frond brought up to the present. -/
def accrueAll (s : State) : State := (allFin 128).foldl accrueBusy s

/-- A freeze at the present AT edge. A second trigger in one AT only names the higher cause (R426, R449). -/
def freeze (s : State) (src : Nat) : State :=
  if s.obs.seq != 0 && s.obs.snapStamp == edgeStamp s then
    modObs s fun o => { o with frz := false, fsrc := BitVec.ofNat 3 (max o.fsrc.toNat src) }
  else
    let s1 := accrueAll s
    modObs s1 fun o => { o with
      snap := (upto 0x510).map fun i => cntLive s1 (4 * i)
      frz := false, fsrc := BitVec.ofNat 3 src, seq := o.seq + 1, snapStamp := edgeStamp s }

/-- FRZ: the firmware asks for a freeze at the next AT edge (R423). -/
def execFrz (t : Time) (s : State) : Host.Outcome State Fault Refusal :=
  live t s fun s => when_ (operating s) s fun s => modObs s fun o => { o with frz := true, frzAt := atCount s }

/-- COUNTER_FREEZE: the freeze asked for, or the periodic one (R426). -/
def execCounterFreeze (t : Time) (s : State) : Host.Outcome State Fault Refusal :=
  live t s fun s =>
    let byFw := s.obs.frz && atCount s != s.obs.frzAt
    let byPer := frzper s != 0 && atCount s % (frzper s * 3840) == 0 && !replayRuns s
    let cause := if byPer then 2 else 1
    let taken := s.obs.seq != 0 && s.obs.snapStamp == edgeStamp s && decide (cause ≤ s.obs.fsrc.toNat)
    when_ (operating s && (byFw || byPer) && !(taken && !byFw)) s fun s => freeze s cause

/-- Sixteen-bit values two to a word. -/
def packHalves : List (BitVec 16) → List Word
  | a :: b :: rest => pair16 a b :: packHalves rest
  | [a] => [pair16 a 0]
  | [] => []

/-- SAMPLEN as clamped (R422). -/
def samplePeriod (s : State) : Nat := if samplen s = 0 then 0 else clampNat 3840 384000 (samplen s)

/-- The U counters as a sample record lays them out, from offset 0x010 (R425). -/
def sampleWords (s : State) : List Word :=
  s.obs.fcnt.toList.map (·.busy) ++ packHalves (s.obs.fcnt.toList.map (·.done)) ++
    s.links.toList.map (·.txfr) ++ s.links.toList.map (·.rxfr) ++ s.fabric.ports.toList.map (·.grants) ++
    s.obs.pcnt.toList.map (·.done) ++ List.replicate 23 0

/-- UTILISATION_SAMPLE: at multiples of SAMPLEN, but not in a replay (R425, R447). -/
def execUtilisationSample (t : Time) (s : State) : Host.Outcome State Fault Refusal :=
  live t s fun s =>
    let due := operating s && samplePeriod s != 0 && atCount s % samplePeriod s == 0 && !replayRuns s && s.obs.sampledAt != some (edgeStamp s)
    when_ due s fun s =>
      let s1 := accrueAll s
      modObs s1 fun o => { o with sample := some (edgeStamp s, sampleWords s1), sampledAt := some (edgeStamp s) }

def sampleBase : Nat := ssBase + 0x1520000

/-- SAMPLE_RECORD_WRITE: the 1 KiB record at WIDX (R425). -/
def execSampleRecordWrite (t : Time) (s : State) : Host.Outcome State Fault Refusal :=
  live t s fun s =>
    match s.obs.sample with
    | some (st, ws) => when_ (operating s) s fun s =>
        let rec_ := [BitVec.ofNat 32 st.toNat, BitVec.ofNat 32 (st.toNat / 2 ^ 32), s.obs.sampleSeq, 0] ++ ws
        modObs (wrWords s (sampleBase + 0x400 * s.obs.widx.toNat) rec_) fun o =>
          { o with sample := none, sampleSeq := o.sampleSeq + 1, widx := o.widx + 1 }
    | none => s

/-! ### Watchdogs and hangs (R433 to R435) -/

/-- CHECKPOINT_TICK: the cores named pass their checkpoint (R434). -/
def execCheckpointTick (t : Time) (passed : List CoreId) (s : State) : Host.Outcome State Fault Refusal :=
  live t s fun s => when_ (operating s) s fun s =>
    passed.foldl (fun s c => modObs s fun o => { o with checkAt := vset o.checkAt c s.now, checkSeen := vset o.checkSeen c 0 }) s

/-- A core's watchdog has expired (R433, R434): strobes counted since its last pass make full intervals from the second on. -/
def watchExpired (s : State) (c : CoreId) : Bool :=
  let since := s.obs.checkAt.get c
  if s.timing.stbSinceLock then
    decide (3 ≤ s.obs.checkSeen.get c) || decide (max since (s.timing.stbAt.getD 0) + 2 * tMs ≤ s.now)
  else decide (since + 2 * tMs ≤ s.now)

/-- A hang declaration (R435): the event, the freeze and the cause; a second one before the stop is logged only. -/
def declareHang (s : State) (core : CoreId) (cause : Nat) : State :=
  let s1 := logEvent s (uHearth core.val) 0x14 core.val (BitVec.ofNat 32 cause)
  if s1.obs.hang.isSome then s1
  else modObs (freeze s1 3) fun o => { o with hang := some (BitVec.ofNat 8 cause, s1.now) }

/-- WATCHDOG_EXPIRY (R432, R433). -/
def execWatchdogExpiry (t : Time) (core : CoreId) (s : State) : Host.Outcome State Fault Refusal :=
  live t s fun s => when_ (operating s && watchExpired s core) s fun s =>
    declareHang (logEvent s (uHearth core.val) 0x13 core.val (BitVec.ofNat 32 core.val)) core 1

/-- TEARDOWN_HANG: 100 µs in TEARDOWN (R433). -/
def execTeardownHang (t : Time) (f : FrondId) (c : CtxId) (s : State) : Host.Outcome State Fault Refusal :=
  live t s fun s =>
    let x := ctx s f c
    when_ (operating s && x.st == .teardown && decide (x.tearAt + 100 * tUs ≤ s.now)) s fun s => declareHang s 2 2

/-- OVERDUE: 100 µs (98 304 units) past its deadline a spore has no record; not before the first strobe (R433, R434). -/
def execOverdue (t : Time) (q : QueueId) (entry : Fin 64) (s : State) : Host.Outcome State Fault Refusal :=
  live t s fun s =>
    match entryAt s q entry with
    | some e =>
      let open_ := e.st == .reserved || e.st == .buffered || e.st == .taken
      when_ (operating s && s.timing.stbSinceLock && open_ && notLater (spDeadline e.spore + 98304) (stamp s)) s fun s => declareHang s 1 3
    | none => s

/-- BACKLOG: an entry unconsumed across 4 strobes (R433). -/
def execBacklog (t : Time) (s : State) : Host.Outcome State Fault Refusal :=
  live t s fun s =>
    when_ (operating s && s.builder.list.any fun e => decide (e.born + 4 ≤ s.tree.strobes)) s fun s => declareHang s 0 4

/-! ### WAIT events (R432) -/

/-- A block long enough for its WAIT event, not yet written. -/
def waitDue (s : State) (b : Option Blk) : Option Blk :=
  match b with
  | some b => if !b.logged && decide (b.since + waitEv s * 16 * tFC s ≤ s.now) then some b else none
  | none => none

def Blk.markLogged (b : Blk) : Blk := { b with logged := true }

/-- WAIT_EVENT: every block of the context, its Crumb's or array's and its engines', that has lasted WAITEV × 16 FC. -/
def execWaitEvent (t : Time) (f : FrondId) (c : CtxId) (s : State) : Host.Outcome State Fault Refusal :=
  live t s fun s => when_ (operating s) s fun s =>
    let x := ctx s f c
    let s1 := match waitDue s x.blk with
      | some b => modCtx (logEvent s (uFrond f) 0x0D c.val b.data) f c fun x => { x with blk := x.blk.map Blk.markLogged }
      | none => s
    [Engine.fetch, Engine.drain].foldl (fun s e =>
      match waitDue s ((engQ x e).head?.bind (·.blk)) with
      | some b => modEng (logEvent s (uFrond f) 0x0D c.val b.data) f c e fun q => { q with blk := q.blk.map Blk.markLogged }
      | none => s) s1

/-! ### The wait-for graph (R436) -/

/-- An edge: waiter, what it waits on, the row of the table, the line, address or port; and the moment its block began. -/
structure WEdge where
  src : Nat
  dst : Nat
  reason : Nat
  data : Nat
  since : Time
deriving DecidableEq, Repr

def nodeOf (f : FrondId) (c : CtxId) : Nat := 4 * f.val + c.val

/-- Edges of a tag wait on a line: through open windows to the senders, or to the context whose TAGAREA holds the line. -/
def tagEdges (s : State) (f : FrondId) (c : CtxId) (m : Mem) (line : Nat) (since : Time) : List WEdge :=
  let fr := frond s f
  let w := 32 * line
  let covers := fun (x : FWin) => x.opened && x.mem.toNat == memCode m && decide (x.base.toNat ≤ w + 31) && decide (w ≤ x.limit.toNat)
  let job := (ctx s f c).job
  let viaWin := (fr.fwin.toList.filter covers).flatMap fun x =>
    if x.xdev then
      match s.tree.members.find? fun y => y.path == x.srcdev with
      | some y => [{ src := nodeOf f c, dst := 553 + y.link.val, reason := 0, data := line, since := since }]
      | none => []
    else
      let g := frondNo x.srcf.toNat
      ((allFin 4).filter fun d => job.isSome && (ctx s g d).job == job).map fun d =>
        { src := nodeOf f c, dst := nodeOf g d, reason := 0, data := line, since := since }
  let others := (allFin 4).filter fun d => d != c && (ctx s f d).st != .idle &&
    (match tagLine m w with | some l => (progTagLines s (ctx s f d).prog.toNat).contains l | none => false)
  viaWin ++ others.map fun d => { src := nodeOf f c, dst := nodeOf f d, reason := 2, data := line, since := since }

/-- Edges of one block of a context, from the DATA of its WAIT event. -/
def blkEdges (s : State) (f : FrondId) (c : CtxId) (b : Blk) : List WEdge :=
  let fr := frond s f
  let kind := field b.data 1 0
  let m := memOfCode (field b.data 5 4)
  let line := field b.data 16 6
  if kind = 0 then [{ src := nodeOf f c, dst := 516 + line / 8, reason := 5, data := line, since := b.since }]
  else if kind = 1 then tagEdges s f c m line b.since
  else if kind = 2 then
    match (allFin 8).find? fun i =>
        let r := fr.circ.get i
        r.en && r.mem' == m && decide (r.base.toNat ≤ line) && decide (line < r.base.toNat + r.lines) with
    | some i =>
      let r := fr.circ.get i
      [{ src := nodeOf f c, dst := nodeOf f r.ctx, reason := 1, data := if r.count = r.lines then r.cons.toNat else r.prod.toNat, since := b.since }]
    | none => []
  else
    let owner := (upto 24).find? fun i => match vgetD (fr.ctxs.get c).sb i none with
      | some r => r.mem == m && decide (r.lo ≤ 32 * line + 31) && decide (32 * line ≤ r.hi)
      | none => false
    match owner with
    | some i => [{ src := nodeOf f c, dst := nodeOf f c, reason := 3, data := if i < 8 then 2 else if i < 16 then 3 else 1, since := b.since }]
    | none => []

/-- Edges of a context: its blocks, and the context that outranks it (R284, R436). -/
def ctxEdges (s : State) (f : FrondId) (c : CtxId) : List WEdge :=
  let x := ctx s f c
  let blks := x.blk.toList ++ (x.fetchQ ++ x.drainQ).filterMap (·.blk)
  let rank := match (frond s f).cur with
    | some d => if d != c && (x.st == .ready || x.st == .saved) then
        [{ src := nodeOf f c, dst := nodeOf f d, reason := 4, data := 0, since := x.pwaitAt }] else []
    | none => []
  blks.flatMap (blkEdges s f c) ++ rank

/-- The node of a requester; units without a node number have none (R258, R436). -/
def requesterNode (id : Nat) : Option Nat :=
  if id < 16 then some (516 + id) else if id = 16 then some 512 else if 19 ≤ id ∧ id < 23 then some (553 + id - 19) else none

/-- Edges at the ports and links. -/
def portEdges (s : State) : List WEdge :=
  (allFin 21).flatMap fun p =>
    if p.val = 16 then []
    else (s.fabric.ports.get p).cons.filterMap fun c =>
      (requesterNode c.id).map fun n => { src := n, dst := 532 + p.val, reason := 6, data := p.val, since := c.at_ }

def linkEdges (s : State) : List WEdge :=
  (allFin 4).filterMap fun l =>
    let k := s.links.get l
    let dry := k.outq.any fun q => !hasCredit k q.2.msg
    if (k.st == .down && !(k.outq.isEmpty && k.retry.isEmpty)) || dry then
      some { src := 549 + l.val, dst := 553 + l.val, reason := 7, data := l.val, since := s.now }
    else none

/-- Edges between Hearth cores 0 and 1, which hand spores to each other (R25, R34): core 0 waits for admissions, core 1 for
spores taken from the work list. -/
def coreEdges (s : State) : List WEdge :=
  let admitted := s.jobs.any (·.st == .admitted)
  (if !s.popped.isEmpty && !admitted then [{ src := 512, dst := 513, reason := 8, data := 0, since := s.now }] else []) ++
  (if !s.builder.list.isEmpty && s.popped.isEmpty then [{ src := 513, dst := 512, reason := 8, data := 0, since := s.now }] else [])

def waitEdges (s : State) : List WEdge :=
  ((allFin 128).flatMap fun f => (allFin 4).flatMap (ctxEdges s f)) ++ portEdges s ++ linkEdges s ++ coreEdges s

/-- Nodes reached along edges, with fuel. -/
def reach (es : List WEdge) : Nat → List Nat → List Nat
  | 0, ns => ns
  | n + 1, ns =>
    let more := (es.filter fun e => ns.contains e.src && !ns.contains e.dst).map (·.dst)
    if more.isEmpty then ns else reach es n (more.foldl (fun l x => insertNat x l) ns)

def onCycle (es : List WEdge) (n : Nat) : Bool :=
  (reach es 576 ((es.filter (·.src == n)).foldl (fun l e => insertNat e.dst l) [])).contains n

/-- The four words of a node. -/
def nodeWords (s : State) (es : List WEdge) (n : Nat) (root : Bool) : List Word :=
  let since := (es.find? (·.src == n)).map (·.since)
  let st : Stamp := match since with | some t => BitVec.ofNat 56 (t / tUnit) + s.tbAdj | none => 0
  let (state, prog, queue) := if n < 512 then
      let x := ctx s (idx 127 (n / 4)) (idx 3 n)
      let q : Nat := match x.job.bind (jobOf s) with | some j => j.queue.toNat | none => 0
      (x.st.code, x.prog.toNat, q)
    else (0, 0, 0)
  [BitVec.ofNat 32 (n + at_ 10 state + at_ 13 (onCycle es n).toNat + at_ 14 root.toNat), BitVec.ofNat 32 st.toNat,
   BitVec.ofNat 32 (st.toNat / 2 ^ 32), BitVec.ofNat 32 (prog + at_ 12 queue)]

def graphBase : Nat := ssBase + 0x1560000

/-- The graph written by a core: every waiter, everything waited on and every hung core is a node, in ascending number. -/
def writeGraph (s : State) (builder : CoreId) : State :=
  let es := (waitEdges s).take 6136
  let hung := ((allFin 4).filter (watchExpired s)).map fun c => 512 + c.val
  let nodes := (es.foldl (fun l e => insertNat e.src (insertNat e.dst l)) (hung.foldl (fun l n => insertNat n l) [])).take 1024
  let isRoot := fun (n : Nat) => hung.contains n || (es.any (·.dst == n) && !es.any (·.src == n))
  let st := stamp s
  let hdr : List Word := [BitVec.ofNat 32 (1 + at_ 1 builder.val), BitVec.ofNat 32 (nodes.length + at_ 16 (es.length % 2048)),
    BitVec.ofNat 32 (nodes.filter (onCycle es)).length, BitVec.ofNat 32 (nodes.filter isRoot).length,
    BitVec.ofNat 32 st.toNat, BitVec.ofNat 32 (st.toNat / 2 ^ 32)]
  let s1 := wrWords s graphBase hdr
  let s2 := wrWords s1 (graphBase + 0x40) (nodes.flatMap fun n => nodeWords s es n (isRoot n))
  wrWords s2 (graphBase + 0x4040) (es.flatMap fun e =>
    [BitVec.ofNat 32 (e.src + at_ 16 e.dst + at_ 26 e.reason), BitVec.ofNat 32 e.data])

/-! ### The global stop (R435 to R439) -/

/-- The first AT edge at or after a stamp. -/
def edgeAfter (t : Stamp) : Stamp := BitVec.ofNat 56 (ceilDiv t.toNat 256 * 256)

/-- A cut notice leaves in the control frames of every UP link but one (R439). -/
def sendNotice (s : State) (node : Nat) (c : Stamp) (except : Option LinkId) : State :=
  if !treeStop s then s
  else (allFin 4).foldl (fun s l =>
    let k := s.links.get l
    if (k.st == .up || k.st == .inService) && except != some l then
      modLink s l fun k => { k with sent := k.sent ++ [{ part := 0, snode := idx 127 s.tree.node.toNat, dnode := 0, msg := .cut (idx 127 node) c }] }
    else s) s

/-- This device requests the stop: cut at the first AT edge at or after Q + 2 AT (R435, R437, R439). -/
def requestStop (s : State) : State :=
  let q := stamp s
  let c := edgeAfter (q + 512)
  let node := s.tree.node.toNat
  sendNotice (modObs s fun o => { o with
    stopReq := some q, cutDue := some c, origin := BitVec.ofNat 8 (128 + node), sender := BitVec.ofNat 8 node }) node c none

/-- WAIT_GRAPH_BUILD: within 50 µs of the declaration the lowest core whose watchdog is current has built the graph and the stop
is requested (R435, R436). -/
def execWaitGraphBuild (t : Time) (s : State) : Host.Outcome State Fault Refusal :=
  live t s fun s =>
    match s.obs.hang, (allFin 4).find? fun c => !watchExpired s c with
    | some (_, at0), some core =>
      when_ (operating s && s.obs.stopReq.isNone && decide (s.now ≤ at0 + 50 * tUs)) s fun s =>
        requestStop (modObs (writeGraph s core) fun o => { o with graph := true })
    | _, _ => s

/-- GRAPH_TIMEOUT (R435). -/
def execGraphTimeout (t : Time) (s : State) : Host.Outcome State Fault Refusal :=
  live t s fun s =>
    match s.obs.hang with
    | some (_, at0) =>
      when_ (operating s && s.obs.stopReq.isNone && decide (at0 + 50 * tUs ≤ s.now)) s fun s => requestStop s
    | none => s

/-- The node on the other side of a link, where it is known. -/
def peerNode (s : State) (l : LinkId) (other : Nat) : Nat :=
  match (s.tree.members.find? fun m => m.link == l && m.nLinks == 1).map (·.node) with
  | some n => n
  | none => other

/-- CUT_NOTICE: a notice with the node that first requested the stop and its cut tick. It is declared and passed on; a device
whose own request is pending cuts at the earlier tick, and after a notice that set the tick others are ignored (R439, R449). -/
def execCutNotice (t : Time) (l : LinkId) (node : Fin 128) (c : Stamp) (s : State) : Host.Outcome State Fault Refusal :=
  live t s fun s =>
    let st := (s.links.get l).st
    when_ (operating s && treeStop s && (st == .up || st == .inService) && s.obs.cut.isNone) s fun s =>
      let e := edgeAfter (stamp s)
      let c1 := if notLater c e then e else c
      let sender := BitVec.ofNat 8 (peerNode s l node.val)
      match s.obs.stopReq, s.obs.cutDue with
      | some _, some own =>
        if bit s.obs.origin 7 then
          let s1 := declareHang s 0 5
          let s2 := if earlier c1 own then
              modObs s1 fun o => { o with cutDue := some c1, origin := BitVec.ofNat 8 node.val, sender := sender }
            else s1
          sendNotice s2 node.val c1 (some l)
        else s
      | _, _ =>
        let s1 := declareHang s 0 5
        sendNotice (modObs s1 fun o => { o with
          stopReq := some (stamp s), cutDue := some c1, origin := BitVec.ofNat 8 node.val, sender := sender }) node.val c1 (some l)

/-- An entry of a ring with a stamp of its own. -/
def logAt (s : State) (unit code : Nat) (t : Stamp) (data : Word) : State :=
  let s1 := logEvent s unit code 0 data
  modObs s1 fun o => { o with rings := vmodNat o.rings unit fun r =>
    { r with slots := match r.slots with
        | (i, _) :: rest => (i, eventWords code 0 t data) :: rest
        | [] => [] } }

/-- STOPOFS: 0 to 4 cycles, which the manual leaves open; 0xFF of a domain already stopped (R30, R441). -/
def stopOffsets (s : State) : List Byte :=
  (upto 25).map fun i =>
    let stopped := (2 ≤ i && i < 18 && !((group s (idx 15 (i - 2))).st == .active)) ||
      (20 ≤ i && i < 24 && (s.links.get (idx 3 (i - 20))).st == .off)
    if stopped then 0xFF else BitVec.ofNat 8 ((Config.openWord s.freeCtr [BitVec.ofNat 32 i]).toNat % 5)

/-- The array instructions in flight retire (R437). -/
def retireAll (s : State) : State :=
  (allFin 128).foldl (fun s f => (upto (frond s f).mma.length).foldl (fun s _ => mmaRetire s f) s) s

/-- GLOBAL_STOP_CUT (R327, R403, R426, R437, R449). -/
def execGlobalStopCut (t : Time) (s : State) : Host.Outcome State Fault Refusal :=
  live t s fun s =>
    match s.obs.cutDue with
    | some c => when_ (operating s && s.obs.cut.isNone && notLater c (stamp s)) s fun s =>
        let s1 := freeze (retireAll s) 4
        let s2 := (upto 159).foldl (fun s u => logAt s u 0x15 c (BitVec.ofNat 32 c.toNat)) s1
        let s3 := modFabric s2 fun f => { f with traceOn := false }
        let s4 := powerStop { s3 with freeCtr := s3.freeCtr + 1 }
        let n := atCount s
        modObs { s4 with le := s4.le.map fun k => if k.st == .run then k.enterDecay n false else k } fun o => { o with
          cut := some c, halted := true, dumpSeed := s.freeCtr, stopOfs := stopOffsets s,
          leFrozen := (s4.le.map fun k => k.frozenAt n).toList }
    | none => s

/-- LINK_CAPTURE_END: 2 µs after the cut (R438). -/
def execLinkCaptureEnd (t : Time) (s : State) : Host.Outcome State Fault Refusal :=
  live t s fun s =>
    match s.obs.cut with
    | some c => when_ (notLater (c + 1966) (stamp s)) s fun s => { s with links := s.links.map fun k => { k with captureEnd := true } }
    | none => s

/-! ### Replay (R446, R447) -/

def ReplaySt.code : ReplaySt → Nat
  | .idle => 0 | .prep => 1 | .running => 2 | .drain => 3 | .done => 4 | .refused => 5

/-- The device's fields of the control block: STATE, PERTURB, SKIP and START. -/
def replayOut (s : State) : State :=
  match replayBlock s with
  | none => s
  | some b =>
    let r := s.obs.replay
    let s1 := wrWord s b (setField (rdWord s b) 4 1 (r.st.code + at_ 3 r.perturb.toNat))
    let s2 := wrWord s1 (b + 12) (setField (rdWord s1 (b + 12)) 31 16 r.skip.toNat)
    wrWords s2 (b + 16) [BitVec.ofNat 32 r.start.toNat, BitVec.ofNat 32 (r.start.toNat / 2 ^ 32)]

def modReplay (s : State) (g : Replay → Replay) : State := replayOut (modObs s fun o => { o with replay := g o.replay })

/-- A queue holds something, a context is busy, or the device is a tree's member (R447). -/
def replayRefused (s : State) : Bool :=
  !s.entries.isEmpty || s.deadQueues.any (fun q => qCount s (BitVec.ofNat 20 q) != 0) ||
    !(s.fronds.toList.all fun f => f.ctxs.toList.all fun x => x.st == .idle) || s.tree.member

/-- GO went from 0 to 1 in the block at `b`. -/
def replayEdge (s : State) (b : Nat) : State :=
  if !replayEn s || !operating s || replayRuns s then s
  else if replayRefused s then modReplay s fun r => { r with st := .refused }
  else
    let size := winSize ((part s (rpPart s)).win.get (idx 15 (rpWin s)))
    let s := (fwRead s 0 b 4).1
    let w1 := rdWord s (b + 4)
    let n := min (field w1 31 16) (size / 16)
    let first := ceilDiv (ceilDiv (stamp s).toNat 256 + 384) 38400 * 38400
    let s1 := modReplay s fun r => { Replay.reset with
      st := .prep, nstrobe := max 1 (field w1 15 0), nent := n, entoff := min (field (rdWord s (b + 8)) 23 0) (size - 16 * n)
      sper := clampNat 240 3840 (field (rdWord s (b + 12)) 11 0), goAt := s.now, start := BitVec.ofNat 56 (256 * first), wheel0 := r.wheel0 }
    (allFin 16).foldl requestWake s1

/-- The host may write the replay control block: its window is open to writes (R446, R478). -/
def replayOpen (s : State) : Bool := ((part s (rpPart s)).win.get (idx 15 (rpWin s))).hostw

/-- Word `i` of the replay control block as it stands after a host write: each field at its nearest legal value, reserved bits 0
(R9, R378, R446). -/
def replayClamp (s : State) (b i : Nat) (x : Word) : Word :=
  let size := winSize ((part s (rpPart s)).win.get (idx 15 (rpWin s)))
  match i with
  | 0 => x &&& 0x1F
  | 1 => if field x 15 0 = 0 then x ||| 1 else x
  | 2 => BitVec.ofNat 32 (min (field x 23 0) (size - 16 * min (field (rdWord s (b + 4)) 31 16) (size / 16)))
  | 3 => setField (x &&& 0xFFFF0FFF) 11 0 (clampNat 240 3840 (field x 11 0))
  | _ => x

/-- REPLAY_GO: the producer writes GO; 0 → 1 starts a replay or is refused (R446, R447). -/
def execReplayGo (t : Time) (s : State) : Host.Outcome State Fault Refusal :=
  live t s fun s => hostWrite s fun s =>
    match replayBlock s with
    | some b => if bit (rdWord s b) 0 || !replayOpen s then s else replayEdge (rmwWord s 0 b fun w => setBit w 0 true) b
    | none => s

/-- REPLAY_PREP_DONE: with every group Active the caches are primed again, and the fabric passes through RECOVERY with a commit
(R447). -/
def execReplayPrepDone (t : Time) (s : State) : Host.Outcome State Fault Refusal :=
  live t s fun s =>
    let ready := s.power.groups.toList.all fun g => g.st == .active
    when_ (operating s && s.obs.replay.st == .prep && !s.obs.replay.prepped && ready) s fun s =>
      modReplay (modFabric (primeAll s) fun f => setMode (commitTickets (xcNow s) (setMode f 3)) 1) fun r => { r with prepped := true }

/-- The stamp of replay strobe `k`. -/
def replayStamp (s : State) (k : Nat) : Stamp := s.obs.replay.start + BitVec.ofNat 56 (256 * s.obs.replay.sper * k)

/-- REPLAY_STROBE: strobe k from the AON count; strobe 0 sets every wheel's turn count to 0 (R447). -/
def execReplayStrobe (t : Time) (s : State) : Host.Outcome State Fault Refusal :=
  live t s fun s =>
    let r := s.obs.replay
    let due := (r.st == .prep && r.prepped) || (r.st == .running && decide (r.k < r.nstrobe))
    when_ (operating s && due && notLater (replayStamp s r.k) (stamp s)) s fun s =>
      acceptStrobe (modReplay s fun r => { r with
        st := .running, k := r.k + 1, wheel0 := if r.k = 0 then fcNow s / 8 * 8 else r.wheel0 })

/-- Script entry `i`: the spore's words. -/
def scriptEntry (s : State) (i : Nat) : State × List Word :=
  let w := (part s (rpPart s)).win.get (idx 15 (rpWin s))
  fwRead s 0 (winBase w + 4 * (s.obs.replay.entoff + 16 * i)) 16

/-- Entries from the next one on whose RSTROBE is `k` enter their queues; one out of order, or whose buffer is full, is skipped. -/
def releaseEntries (s : State) (k : Nat) : Nat → State
  | 0 => s
  | n + 1 =>
    let r := s.obs.replay
    if r.nent ≤ r.nextEnt then s
    else
      let (s1, ws) := scriptEntry s r.nextEnt
      let rs := min (field (wordAt ws 14) 15 0) (r.nstrobe - 1)
      let next := fun (s : State) (skip : Bool) => modObs s fun o => { o with replay := { o.replay with
        nextEnt := o.replay.nextEnt + 1, lastR := max o.replay.lastR rs, skip := if skip then satInc o.replay.skip else o.replay.skip } }
      if k < rs then s
      else if rs < max k r.lastR then releaseEntries (next s1 true) k n
      else
        let s2 := checkDesc s1 (BitVec.ofNat 20 (field (wordAt ws 0) 19 0))
        let s3 := checkDesc s2 (checkSpore s2 0 ws).queue
        let c := checkSpore s3 0 ws
        if c.refuse then releaseEntries (next (refuseSpore s3 c) false) k n
        else if qDepth s3 c.queue ≤ qCount s3 c.queue then releaseEntries (next s3 true) k n
        else releaseEntries (next (reserveAt s3 c (replayStamp s k - 1) s3.now false) false) k n

/-- REPLAY_ENTRY_RELEASE: 128 XC before the next strobe (R447). -/
def execReplayEntryRelease (t : Time) (s : State) : Host.Outcome State Fault Refusal :=
  live t s fun s =>
    let r := s.obs.replay
    let due := (r.st == .prep && r.prepped) || (r.st == .running && decide (r.k < r.nstrobe))
    when_ (operating s && due && notLater (replayStamp s r.k - BitVec.ofNat 56 (xcUnits 128)) (stamp s)) s fun s =>
      replayOut (releaseEntries s r.k r.nent)

/-- REPLAY_END (R447). -/
def execReplayEnd (t : Time) (s : State) : Host.Outcome State Fault Refusal :=
  live t s fun s =>
    let r := s.obs.replay
    when_ (operating s && r.st == .running && r.k == r.nstrobe && notLater (replayStamp s r.nstrobe) (stamp s)) s fun s =>
      modReplay s fun r => { r with st := .drain }

/-- REPLAY_DONE: every spore of the script has its record; records go to their rings, and spores held back become eligible (R447). -/
def execReplayDone (t : Time) (s : State) : Host.Outcome State Fault Refusal :=
  live t s fun s =>
    let answered := s.jobs.isEmpty && s.entries.all fun e => replayHolds s e.queue e.idx || e.st == .waiting || e.st == .freed
    when_ (operating s && s.obs.replay.st == .drain && answered) s fun s =>
      modReplay { s with ringQ := s.ringQ.map fun q => { q with replay := false } } fun r => { r with st := .done, held := [] }

end Sys2Proof.Machine
end

