-- ==== Sys2Proof/Machine/Registers.lean ====
section
/-!
DEFINITION. Configuration space as words: its blocks read and written by their access codes, the Crumb's alias, and the Crumb's
loads (R7, R8, R223, R227, R238 to R240, R280, R301, R302, R311, R328, R359, R377, R382, R398, R421, R423, R461, R473 to R477).
-/
namespace Sys2Proof.Machine

/-- Word `i` of a number laid out from bit 0. -/
def numWord (x i : Nat) : Word := BitVec.ofNat 32 (x / 2 ^ (32 * i))

/-- A late write: LATE is set, and the first address and requester are captured; of two in one XC the lower requester is first
(R7, R8, R380, R382). -/
def lateWrite (s : State) (req : Fin 32) (a : Nat) : State :=
  let xc := xcNow s
  let mine := (xc, BitVec.ofNat 40 a, BitVec.ofNat 5 req.val)
  let low := match s.boot.lateThis with
    | some x => if x.1 = xc ∧ x.2.2.toNat ≤ req.val then x else mine
    | none => mine
  if s.boot.late && s.boot.lateXC != some xc then modBoot s fun b => { b with lateThis := some low }
  else modBoot s fun b => { b with late := true, lateAddr := low.2.1, lateReq := low.2.2, lateXC := some xc, lateThis := some low }

/-- A 1 written to LATE clears it, but for a late write of the same XC, which is then the first (R382). -/
def clearLate (xc : Nat) (b : Boot) : Boot :=
  match b.lateThis with
  | some x => if x.1 = xc then { b with late := true, lateAddr := x.2.1, lateReq := x.2.2, lateXC := some xc } else { b with late := false }
  | none => { b with late := false }

/-! ### The blocks, read -/

def Slot.code : Slot → Nat
  | .a => 0 | .b => 1

def bootstatWord (s : State) : Word :=
  let b := s.boot
  BitVec.ofNat 32 (b.code.toNat + at_ 8 b.slot.code + at_ 9 b.ready.toNat + at_ 10 b.aReason.toNat + at_ 14 b.bReason.toNat +
    at_ 18 b.clamps.toNat + at_ 26 b.dupRec.toNat)

def bootRead (s : State) (o : Nat) : Word :=
  let b := s.boot
  if o = 0 then bootstatWord s
  else if o < 0xC then numWord b.imgGen.toNat (o / 4 - 1)
  else if o = 0xC then BitVec.ofNat 32 b.dirSkip.toNat
  else if o < 0x40 then wordAt (bytesWords 12 b.imgDig) (o / 4 - 4)
  else if o = 0x40 then BitVec.ofNat 32 ((locked s).toNat + at_ 1 b.late.toNat + at_ 2 b.majFix.toNat + at_ 8 b.majCnt.toNat)
  else if o < 0x4C then numWord (b.lateAddr.toNat + at_ 40 b.lateReq.toNat) (o / 4 - 17)
  else if o = 0x4C then BitVec.ofNat 32 ((lifeSealed s).toNat + at_ 1 (curOf s).code.toNat)
  else if o = 0x50 then b.devNote.word32
  else 0

def secRead (s : State) (o : Nat) : Word :=
  if o < 8 then numWord s.sec.devid.toNat (o / 4)
  else if o < 0x10 then numWord s.sec.chal.toNat (o / 4 - 2)
  else if o = 0x10 then BitVec.ofNat 32
    ((if curOf s == .service then s.session.scope.toNat else 0) + at_ 8 s.sec.tokLock.toNat + at_ 12 s.sec.tokFail.toNat +
      at_ 16 s.session.remain.toNat)
  else if o = 0x14 then pair16 s.sec.tapRef s.sec.svcn
  else if o = 0x18 then s.sec.secpol
  else 0

/-- PGSTAT's encoding of a group state; Off is never read (R398). -/
def PState.code : PState → Nat
  | .off => 0 | .cold => 0 | .warm => 1 | .proofUp => 2 | .proofDown => 3 | .active => 4 | .halted => 5

def powerRead (s : State) (o : Nat) : Word :=
  let p := s.power
  if o = 0 then p.cfg0
  else if o = 4 then p.cfg1
  else if o = 8 ∨ o = 0xC then
    BitVec.ofNat 32 (((upto 8).map fun i => at_ (4 * i) (group s (idx 15 (8 * (o / 4 - 2) + i))).st.code).sum)
  else if o = 0x10 then BitVec.ofNat 32 (allow s % 4096)
  else if o = 0x14 then pair16 p.wakes p.sleeps
  else if o = 0x18 then BitVec.ofNat 32 (p.defer.toNat + at_ 16 p.lastDrop.toNat)
  else if 0x80 ≤ o ∧ o < 0x100 then numWord (pgrdy s (idx 15 ((o - 0x80) / 8))).toNat (o / 4 % 2)
  else 0

def timingRead (s : State) (o : Nat) : Word :=
  let t := s.timing
  if o = 0 then BitVec.ofNat 32 (t.refsel.toNat + at_ 1 t.refok.toNat)
  else if o = 8 ∨ o = 0xC then numWord t.stbStamp.toNat (o / 4 - 2)
  else if o = 0x10 then t.stbCnt
  else if o = 0x14 then BitVec.ofNat 32 t.stbShort.toNat
  else if o = 0x18 ∨ o = 0x1C then numWord t.ppsStamp.toNat (o / 4 - 6)
  else if o = 0x20 then t.ppsCnt
  else if o = 0x24 then BitVec.ofNat 32 t.ppsDev.toNat
  else 0

/-- Four ticket bytes of a packed word. -/
def packBytes (g : Nat → Byte) (first : Nat) : Word := BitVec.ofNat 32 (((upto 4).map fun j => at_ (8 * j) (g (first + j)).toNat).sum)

/-- The lowest credit of a partition among the ports of a class (R280). -/
def lowestCredit (s : State) (cls p : Nat) : Int :=
  match ((allFin 21).filter fun k => portClass k == cls).map fun k => (s.fabric.ports.get k).credit.get (idx 7 p) with
  | [] => 0
  | x :: xs => xs.foldl min x

/-- The fabric arbitration block (R280); TKCOMMIT.GO reads 1 in the XC of the commit, whose effect the next XC sees (R271). -/
def fabricRead (s : State) (o : Nat) : Word :=
  let f := s.fabric
  let sh := f.shadow
  if o = 0 then BitVec.ofNat 32 f.mode.toNat
  else if o = 4 then BitVec.ofNat 32 (committing s).toNat
  else if o = 8 then sh.seed
  else if o = 0xC then BitVec.ofNat 32 (sh.ageSS.toNat + at_ 16 sh.ageLK.toNat)
  else if o = 0x10 then BitVec.ofNat 32 sh.agePE.toNat
  else if o = 0x14 then BitVec.ofNat 32 (f.trdrop.toNat + at_ 16 f.shdrop.toNat)
  else if 0x40 ≤ o ∧ o < 0x60 then packBytes (fun r => if r < 26 then vgetD sh.ss r 0 else 0) (o - 0x40)
  else if 0x60 ≤ o ∧ o < 0x80 then packBytes (fun r => if r < 26 then vgetD sh.lk r 0 else 0) (o - 0x60)
  else if 0x80 ≤ o ∧ o < 0x8C then packBytes (fun c => if c < 9 then vgetD sh.pe c 0 else 0) (o - 0x80)
  else if 0x100 ≤ o ∧ o < 0x280 then
    let cls := (o - 0x100) / 0x80
    let p := o % 0x80 / 16
    let r := regOf f cls (idx 7 p)
    match o % 16 / 4 with
    | 0 => pair16 r.rate r.burst
    | 1 => BitVec.ofNat 32 (r.en.toNat + at_ 1 r.slack.toNat)
    | 2 => BitVec.ofInt 32 (lowestCredit s cls p)
    | _ => pair16 r.held r.slackg
  else if 0x300 ≤ o ∧ o < 0x354 then
    let p := vgetD f.ports ((o - 0x300) / 4) (Port.reset 0)
    pair16 p.aged p.qfull
  else 0

def LinkState.code : LinkState → Nat
  | .off => 0 | .training => 1 | .up => 2 | .down => 3 | .refused => 4 | .inService => 5

def treeRead (s : State) (o : Nat) : Word :=
  let t := s.tree
  if o = 0 then BitVec.ofNat 32 (t.role.toNat + at_ 2 t.member.toNat + at_ 3 t.node.toNat)
  else if o = 4 then BitVec.ofNat 32 t.path.toNat
  else if o = 8 then t.epoch
  else if o = 0xC then pair16 t.offErr t.rttMax
  else if o = 0x10 then BitVec.ofNat 32 (t.epSkip.toNat + at_ 8 t.epOver.toNat + at_ 16 t.drift.toNat + at_ 24 t.takeovers.toNat)
  else if 0x20 ≤ o ∧ o < 0x30 then
    let k := s.links.get (idx 3 ((o - 0x20) / 4))
    BitVec.ofNat 32 (k.st.code + at_ 3 (min 31 k.badType.toNat) + at_ 8 k.retrain.toNat + at_ 16 k.crcErr.toNat)
  else 0

def cntctlWord (s : State) (i : Nat) : Word :=
  let o := s.obs
  if i = 0 then BitVec.ofNat 32 (o.frz.toNat + at_ 1 o.fsrc.toNat + at_ 16 o.seq.toNat)
  else if i = 1 then numWord o.snapStamp.toNat 0
  else if i = 2 then numWord o.snapStamp.toNat 1
  else if i = 3 then BitVec.ofNat 32 o.widx.toNat
  else 0

/-- The counter block: CNTCTL, live counters, and the snapshot bank at + 0x2000 (R423). -/
def counterRead (s : State) (o : Nat) : Word :=
  if o < 0x10 then cntctlWord s (o / 4)
  else if o < 0x1440 then cntLive s o
  else if 0x2000 ≤ o ∧ o < 0x3440 then wordAt s.obs.snap ((o - 0x2000) / 4)
  else 0

/-- A Loop Engine channel's block (R311, R328). -/
def leRead (s : State) (k o : Nat) : Word :=
  let c := s.le.get (idx 15 k)
  if o < 0x14 then vgetD c.cfg (o / 4) 0
  else if o = 0x20 then BitVec.ofNat 32
    (c.st.code + at_ 3 c.dir.code + at_ 5 c.elim.toNat + at_ 6 c.abank.toNat + at_ 7 c.pend.toNat + at_ 8 c.dtwin.toNat + at_ 16 c.cmdSeq.toNat)
  else if o = 0x24 then c.count
  else if o = 0x28 then c.err
  else if o = 0x2C then BitVec.ofNat 32 (c.dutyNow.toNat + at_ 12 (c.onCntAt (atCount s) % 2 ^ 20))
  else if o = 0x30 then pair16 c.dtTot c.elims
  else if o = 0x34 then pair16 c.swaps c.stale
  else if 0x40 ≤ o ∧ o < 0x80 then vgetD c.shadow (o / 4 - 16) 0
  else if 0x80 ≤ o ∧ o < 0xC0 then vgetD c.active (o / 4 - 32) 0
  else if o = 0xC0 then BitVec.ofNat 32 c.pend.toNat
  else 0

/-- The event rings and their counts (R431, R477). -/
def ringRead (s : State) (o : Nat) : Word :=
  if o < 159 * 0x400 then
    let r := vgetD s.obs.rings (o / 0x400) { slots := [], cnt := 0 }
    match (r.slots.find? (·.1 == o % 0x400 / 16)).map (·.2) with
    | some ws => wordAt ws (o % 16 / 4)
    | none => 0
  else if 0x27C00 ≤ o ∧ o < 0x27C00 + 4 * 159 then (vgetD s.obs.rings ((o - 0x27C00) / 4) { slots := [], cnt := 0 }).cnt
  else 0

/-- A circular region's descriptor (R223). -/
def Circ.word (r : Circ) (i : Nat) : Word :=
  match i with
  | 0 => BitVec.ofNat 32 (r.en.toNat + at_ 1 r.mem.toNat + at_ 2 r.ctx.val + at_ 4 r.prod.toNat + at_ 7 r.cons.toNat)
  | 1 => BitVec.ofNat 32 (r.base.toNat + at_ 16 r.size.toNat)
  | 2 => BitVec.ofNat 32 (r.head.toNat + at_ 16 r.tail.toNat)
  | _ => pair16 r.pstall r.cstall

/-- An inbound window (R227). -/
def FWin.word (w : FWin) (i : Nat) : Word :=
  match i with
  | 0 => BitVec.ofNat 32
    (w.opened.toNat + at_ 1 w.mem.toNat + at_ 3 w.mode.toNat + at_ 5 w.ctx.val + at_ 7 w.circ.val + at_ 10 w.xdev.toNat)
  | 1 => pair16 w.base w.limit
  | 2 => BitVec.ofNat 32 (w.srcf.toNat + at_ 8 w.srcdev.toNat)
  | _ => pair16 w.acc w.ref

/-- The Frond control block (R238 to R240). -/
def frondRead (fr : Frond) (o : Nat) : Word :=
  if o = 0 then 0x00A00100
  else if o = 4 then 0x10100060
  else if o = 8 then 0x10882208
  else if o = 0xC then 0x19500604
  else if o = 0x10 then fr.pwrmap
  else if o = 0x14 then BitVec.ofNat 32 (fr.scrubEn.toNat + at_ 1 fr.gshift.toNat)
  else if o = 0x18 then pair16 fr.corr fr.uncorr
  else if o = 0x1C then BitVec.ofNat 32 (fr.eccWord.toNat + at_ 16 fr.eccMem.toNat + at_ 18 fr.eccScrub.toNat + at_ 31 fr.eccValid.toNat)
  else if 0x40 ≤ o ∧ o < 0xC0 then (vgetD fr.circ ((o - 0x40) / 16) Circ.reset).word (o % 16 / 4)
  else if 0x100 ≤ o ∧ o < 0x200 then (vgetD fr.fwin ((o - 0x100) / 16) FWin.reset).word (o % 16 / 4)
  else 0

/-- DEVINFO (R476). -/
def devinfo (p : Part) : Word :=
  match p with
  | .sw15 => 0x00C08011
  | .sw11 => 0x00908012
  | .sw15T => 0x00C08013

/-- A word of configuration space by its offset; what no block defines reads 0 (R474, R475). -/
def cfgRead (s : State) (off : Nat) : Word :=
  let o := off / 4 * 4
  if o < 0x100 then (if o = 0 then devinfo s.part else if o = 0x10 ∨ o = 0x14 then numWord (dumap s).toNat (o / 4 - 4) else 0)
  else if 0x10000 ≤ o ∧ o < 0x10100 then bootRead s (o - 0x10000)
  else if 0x20000 ≤ o ∧ o < 0x20100 then secRead s (o - 0x20000)
  else if 0x30000 ≤ o ∧ o < 0x30100 then powerRead s (o - 0x30000)
  else if 0x40000 ≤ o ∧ o < 0x40100 then timingRead s (o - 0x40000)
  else if 0x50000 ≤ o ∧ o < 0x50400 then fabricRead s (o - 0x50000)
  else if 0x60000 ≤ o ∧ o < 0x60100 then treeRead s (o - 0x60000)
  else if 0x70000 ≤ o ∧ o < 0x74000 then counterRead s (o - 0x70000)
  else if 0x80000 ≤ o ∧ o < 0x81000 then leRead s ((o - 0x80000) / 0x100) (o % 0x100)
  else if 0xA0000 ≤ o ∧ o < 0xC8000 then ringRead s (o - 0xA0000)
  else if 0x100000 ≤ o ∧ o < 0x140000 then (noteOf s ((o - 0x100000) / 4)).word32
  else if 0x1000000 ≤ o ∧ o < 0x1800000 then
    let f : FrondId := idx 127 ((o - 0x1000000) / 0x10000)
    let r := o % 0x10000
    if r < 0x400 then frondRead (frond s f) r
    else if 0x1000 ≤ r ∧ r < 0x5000 then ctxRead s f (idx 3 (r / 0x1000 - 1)) (r % 0x1000)
    else 0
  else 0

/-! ### The blocks, written -/

/-- The LK words (R223, R233, R238, R280, R311, R398, R421). -/
def isLk (off : Nat) : Bool :=
  let o := off / 4 * 4
  let r := o % 0x10000
  o == 0x20018 || o == 0x30000 || o == 0x30004 ||
    (decide (0x50100 ≤ o) && decide (o < 0x50280) && decide (o % 16 < 8)) ||
    (decide (0x80000 ≤ o) && decide (o < 0x81000) && decide (o % 0x100 < 0x14)) ||
    (decide (0x1000000 ≤ o) && decide (o < 0x1800000) &&
      (r == 0x10 || r == 0x14 || (decide (0x40 ≤ r) && decide (r < 0xC0) && decide (r % 16 < 8))))

/-- A regulator's LK words, clamped (R280). -/
def writeReg (r : Reg273) (i : Nat) (v : Word) : Reg273 :=
  if i = 0 then { r with rate := BitVec.ofNat 16 (max 1 (field v 15 0)), burst := BitVec.ofNat 16 (max 128 (field v 31 16)) }
  else { r with en := bit v 0, slack := bit v 1 }

/-- An LK word of a Frond's control block before the lock. -/
def frondLk (fr : Frond) (r : Nat) (v : Word) : Frond :=
  if r = 0x10 then { fr with pwrmap := v }
  else if r = 0x14 then { fr with scrubEn := bit v 0, gshift := BitVec.ofNat 3 (clampNat 3 6 (field v 3 1)) }
  else
    let k := (r - 0x40) / 16
    let old := vgetD fr.circ k Circ.reset
    let w := fun i => if r % 16 / 4 = i then v else old.word i
    let new := (loadCirc (w 0) (w 1) false 0).1
    { fr with circ := vmodNat fr.circ k fun _ => { new with head := old.head, tail := old.tail, pstall := old.pstall, cstall := old.cstall } }

/-- A write of an LK word before the lock: it takes effect, clamped (R7, R9). -/
def lkWrite (s : State) (off : Nat) (v : Word) : State :=
  let o := off / 4 * 4
  if o = 0x20018 then { s with sec := { s.sec with secpol := (v &&& 0xFFFFFF1F) ||| (if field v 31 16 = 0 then 0x10000 else 0) } }
  else if o = 0x30000 then (loadPower s (wordsBytes [v, s.power.cfg1])).1
  else if o = 0x30004 then modPower s fun p => { p with cfg1 := v &&& 0x0000FFFF }
  else if o < 0x50280 then
    modFabric s fun f => modReg f ((o - 0x50100) / 0x80) (idx 7 (o % 0x80 / 16)) fun r => writeReg r (o % 16 / 4) v
  else if o < 0x81000 then
    let ch : ChanId := idx 15 ((o - 0x80000) / 0x100)
    let i := o % 0x100 / 4
    modLe s ch fun c =>
      let x := (loopClamp (maskWords (c.cfg.toList.set i v) loopMasks, []) i).1
      { c with cfg := Vector.ofFn fun (k : Fin 5) => wordAt x k.val }
  else modFrond s (idx 127 ((o - 0x1000000) / 0x10000)) fun fr => frondLk fr (o % 0x10000) v

def fabricWrite (s : State) (o : Nat) (v : Word) : State :=
  let bytes := fun {n : Nat} (t : Vector Byte n) (first most : Nat) =>
    (upto 4).foldl (fun t j => if first + j < most then vmodNat t (first + j) fun _ => BitVec.ofNat 8 (v.toNat / 2 ^ (8 * j)) else t) t
  if o = 0 then
    let m := BitVec.ofNat 2 v.toNat
    if modeAllowed s m then modFabric s fun f => setMode f m else s
  else if o = 4 then (if bit v 0 && s.fabric.mode != 1 then modFabric s (commitTickets (xcNow s)) else s)
  else if o = 8 then modFabric s fun f => writeTickets (xcNow s) f false fun t => { t with seed := if v = 0 then 1 else v }
  else if o = 0xC then modFabric s fun f => writeTickets (xcNow s) f false fun t =>
    clampAge f { t with ageSS := BitVec.ofNat 12 (field v 11 0), ageLK := BitVec.ofNat 12 (field v 27 16) }
  else if o = 0x10 then modFabric s fun f => writeTickets (xcNow s) f false fun t => { t with agePE := BitVec.ofNat 12 (field v 11 0) }
  else if o = 0x14 then modFabric s fun f => { f with trdrop := BitVec.ofNat 16 (field v 15 0), shdrop := f.shdrop && !bit v 16 }
  else if 0x40 ≤ o ∧ o < 0x60 then modFabric s fun f => writeTickets (xcNow s) f true fun t => { t with ss := bytes t.ss (o - 0x40) 26 }
  else if 0x60 ≤ o ∧ o < 0x80 then modFabric s fun f => writeTickets (xcNow s) f true fun t => { t with lk := bytes t.lk (o - 0x60) 26 }
  else if 0x80 ≤ o ∧ o < 0x8C then modFabric s fun f => writeTickets (xcNow s) f true fun t => { t with pe := bytes t.pe (o - 0x80) 9 }
  else if 0x300 ≤ o ∧ o < 0x354 then
    modFabric s fun f => { f with ports := vmodNat f.ports ((o - 0x300) / 4) fun p =>
      { p with aged := BitVec.ofNat 16 (field v 15 0), qfull := BitVec.ofNat 16 (field v 31 16) } }
  else s

/-- RW and W1C words of a Frond's control block, written in an FC; `windows`: the writer may write the windows, which a context may not (R227). -/
def frondWrite (fr : Frond) (fc : Nat) (windows : Bool) (r : Nat) (v : Word) : Frond :=
  if r = 0x18 then { fr with corr := BitVec.ofNat 16 (field v 15 0), uncorr := BitVec.ofNat 16 (field v 31 16) }
  else if r = 0x1C then (if bit v 31 then clearEcc fr fc else fr)
  else if windows && 0x100 ≤ r && r < 0x200 && r % 16 < 12 then
    let k := (r - 0x100) / 16
    let old := vgetD fr.fwin k FWin.reset
    let w := fun i => if r % 16 / 4 = i then v else old.word i
    let new := windowOf (w 0) (w 1) (w 2)
    let fresh := bit (w 0) 0 && !old.opened
    { fr with fwin := vmodNat fr.fwin k fun _ =>
        { new with opened := bit (w 0) 0, acc := if fresh then 0 else old.acc, ref := if fresh then 0 else old.ref } }
  else fr

/-- CTXCMD written by the firmware (R297): codes 0 and 5 to 7 are no command. -/
def ctxCommand (s : State) (f : FrondId) (c : CtxId) (v : Word) : State :=
  let code := field v 2 0
  let s1 := modCtx s f c fun x => { x with cmd := BitVec.ofNat 3 (if code < 5 then code else 0) }
  match code with
  | 1 => runCmd s1 f c
  | 2 => preemptCmd s1 f c
  | 3 => if operating s then abortCmd s1 f c else s1
  | 4 => if operating s then stopCtx s1 f c else s1
  | _ => s1

/-- A write of a word that is not LK (R7). -/
def rwWrite (s : State) (req : Fin 32) (off : Nat) (v : Word) : State :=
  let o := off / 4 * 4
  if o = 0x10040 then modBoot s fun b => { (if bit v 1 then clearLate (xcNow s) b else b) with majFix := b.majFix && !bit v 2 }
  else if 0x50000 ≤ o ∧ o < 0x50400 then fabricWrite s (o - 0x50000) v
  else if o = 0x70000 then
    if bit v 0 && req == 16 then modObs s fun o => { o with frz := true, frzAt := atCount s } else s
  else if 0x80000 ≤ o ∧ o < 0x81000 then
    let ch : ChanId := idx 15 ((o - 0x80000) / 0x100)
    let r := o % 0x100
    if 0x40 ≤ r ∧ r < 0x80 then leBank s ch [some (idx 15 (r / 4 - 16), v)]
    else if r = 0xC0 ∧ bit v 0 then leBank s ch [none]
    else s
  else if 0x1000000 ≤ o ∧ o < 0x1800000 then
    let f : FrondId := idx 127 ((o - 0x1000000) / 0x10000)
    let r := o % 0x10000
    if r < 0x400 then modFrond s f fun fr => frondWrite fr (fcNow s) true r v
    else if 0x1000 ≤ r ∧ r < 0x5000 then
      let c : CtxId := idx 3 (r / 0x1000 - 1)
      if r % 0x1000 = 0x608 then ctxCommand s f c v else ctxWrite s f c (r % 0x1000) v
    else s
  else s

/-- A write to configuration space by its offset (R7, R8, R474). -/
def cfgWrite (s : State) (req : Fin 32) (off : Nat) (v : Word) : State :=
  if isLk off then (if locked s then lateWrite s req (0x3000000000 + off) else lkWrite s off v)
  else rwWrite s req off v

/-! ### The internal space from the Hearth's side (R22, R234, R473) -/

/-- Where a Hearth access leads: a scratchpad word of a Frond, powered or not; the Shared Store; configuration space; another node's
remote window, or a part of the device's own that has no target; a hole (R22, R234, R342, R473). -/
inductive BusPlace where
  | pad (f : FrondId) (m : Mem) (w : Nat) (on : Bool)
  | shared (a : Nat)
  | cfg (o : Nat)
  | remote
  | hole
deriving DecidableEq, Repr

def busPlace (s : State) (a : Nat) : BusPlace :=
  if 0x1000000000 ≤ a ∧ a < 0x1008000000 then
    let f := frondNo ((a - 0x1000000000) / 0x100000)
    match padOf ((a - 0x1000000000) % 0x100000) with
    | some (m, w) => .pad f m w (padOn (frond s f) m w)
    | none => .hole
  else if ssBase ≤ a ∧ a < ssBase + 0x2000000 then .shared (a / 4 * 4)
  else if 0x3000000000 ≤ a ∧ a < 0x3002000000 then .cfg (a - 0x3000000000)
  else if 0x8000000000 ≤ a ∧ a < 0x10000000000 then
    let o := a % 0x100000000
    if a / 0x100000000 - 0x80 = myNode s ∧ 0x10000000 ≤ o ∧ inImage (ssBase + (o - 0x10000000)) 4 then .shared ((ssBase + (o - 0x10000000)) / 4 * 4)
    else .remote
  else .hole

/-- A hole access is logged. The rule says 'the Hearth event ring' and names no core: the model takes core 0's, whichever core made the access
(R22; DESIGN CHOICE, log entry 87). -/
def logHole (s : State) (a : Nat) : State := logEvent s (uHearth 0) 0x05 0 (BitVec.ofNat 32 a)

/-- A read of the internal space by the Hearth: a hole and an unpowered region read 0 and are logged (R22, R234); an uncorrectable word is read as
it stands, and is logged (R236, R482). A scratchpad read is made at once: no row of the table waits for its data (log entry 97). -/
def busRead (s : State) (a : Nat) : State × Word :=
  match busPlace s a with
  | .pad f m w true =>
    let s1 := (padCheck s f 0 m w false).1
    (s1, rdWord s1 (padAddr f m w))
  | .pad f m w false => (padOff s f m w, 0)
  | .shared p =>
    let (s1, ws) := fwRead s 0 p 1
    (s1, wordAt ws 0)
  | .cfg o => (s, cfgRead s o)
  | .remote => (s, 0)
  | .hole => (logHole s a, 0)

/-- No word stands at an address: a hole, or an unpowered region. -/
def busNone (s : State) (a : Nat) : Bool :=
  match busPlace s a with
  | .hole | .remote => true
  | .pad _ _ _ on => !on
  | _ => false

/-- A write to the internal space: to a scratchpad in an EXT slot (R215, R231); to a hole or an unpowered region it is discarded and logged (R22,
R234). Through the window of the device's own node it is performed locally (R342); through another node's it has no effect here: the firmware's
lines to other nodes are sent by the rows that push them (DESIGN CHOICE, log entry 105). -/
def busWrite (s : State) (req : Fin 32) (a : Nat) (v : Word) : State :=
  match busPlace s a with
  | .pad f m w true => fwPush s f (.write none m w [some v])
  | .pad f m w false => padOff s f m w
  | .shared p => wrWord s p v
  | .cfg o => cfgWrite s req o v
  | .remote => s
  | .hole => logHole s a

/-- The fabric arbitration block, which after the lock the firmware alone writes (R272). -/
def inFabricBlock (a : Nat) : Bool := decide (0x3000050000 ≤ a) && decide (a < 0x3000050400)

/-- REGISTER_WRITE: a write by requester `req` (R7, R8, R22, R234, R272, R474). -/
def execRegisterWrite (t : Time) (req : Fin 32) (addr : Addr) (data : Word) (s : State) : Host.Outcome State Fault Refusal :=
  live t s fun s =>
    when_ (s.boot.phase != .held && !s.obs.halted && (req == hearthReq || !locked s || !inFabricBlock addr.toNat || isLk (addr.toNat - 0x3000000000)))
      s fun s => busWrite s req addr.toNat data

/-! ### The alias (R475) -/

/-- The alias as the running context of a Frond reads it. -/
def aliasRead (s : State) (f : FrondId) (c : CtxId) (o : Nat) : Word :=
  if o < 0x400 then frondRead (frond s f) o
  else if o < 0xA20 then ctxRead s f c (o - 0x400)
  else 0

/-- The alias as it writes it: the windows only by WOPEN and WCLOSE (R227); an LK word is late (R8). -/
def aliasWrite (s : State) (f : FrondId) (c : CtxId) (o : Nat) (v : Word) : State :=
  if o < 0x400 then
    if isLk (0x1000000 + o) then lateWrite s ⟨f.val / 8, by omega⟩ (0x3000F00000 + o)
    else modFrond s f fun fr => frondWrite fr (fcNow s) false o v
  else if o < 0xA20 then ctxWrite s f c (o - 0x400) v
  else s

/-- A load through configuration space: the alias, forwarded from an earlier store of the context; elsewhere a window fault. -/
def aliasLoad (k : Issue) (rd : Reg) (addr : Addr) : CtxId → State → Issued := fun c s =>
  let a := addr.toNat / 4 * 4
  if a < 0x3000F00000 ∨ 0x3000F01000 ≤ a then .trap .window s
  else if (ctx s k.f c).load.isSome then .held s
  else match forwarded (ctx s k.f c) .config a with
  | some v => .done (setResult' s k.f c rd v 4)
  | none => .done (setResult' s k.f c rd (aliasRead s k.f c (a - 0x3000F00000)) 4)

def crumbLoad (k : Issue) (dst : LoadDst) (addr : Addr) (tag : TagKind) (s : State) : Host.Outcome State Fault Refusal :=
  crumb k [] s (loadAny k dst addr tag fun rd => aliasLoad k rd addr)

/-- SCRATCHPAD_LOAD (R484). -/
def execScratchpadLoad (k : Issue) (dst : LoadDst) (addr : Addr) (tag : TagKind) (s : State) : Host.Outcome State Fault Refusal :=
  crumbLoad k dst addr tag s

/-- SHARED_STORE_LOAD (R483). -/
def execSharedStoreLoad (k : Issue) (rd : Reg) (addr : Addr) (s : State) : Host.Outcome State Fault Refusal := crumbLoad k (.reg rd) addr .plain s

/-- REMOTE_LOAD (R343). -/
def execRemoteLoad (k : Issue) (rd : Reg) (addr : Addr) (s : State) : Host.Outcome State Fault Refusal := crumbLoad k (.reg rd) addr .plain s

/-- CONFIG_ALIAS_LOAD (R475). -/
def execConfigAliasLoad (k : Issue) (rd : Reg) (addr : Addr) (s : State) : Host.Outcome State Fault Refusal := crumbLoad k (.reg rd) addr .plain s

/-- STORE_VISIBLE: the oldest buffered store has been written by its home, and leaves the buffer; the next one may leave for its
home (R301, R302). A store through the alias is written here. -/
def execStoreVisible (t : Time) (f : FrondId) (c : CtxId) (s : State) : Host.Outcome State Fault Refusal :=
  live t s fun s => when_ (operating s) s fun s =>
    match (ctx s f c).store with
    | e :: _ =>
      let pop := fun (s : State) => kickStores (modStore s f c fun l => l.drop 1) f c
      if e.home == .config then pop (aliasWrite s f c (e.addr - 0x3000F00000) e.data)
      else if e.done then pop s
      else s
    | [] => s

end Sys2Proof.Machine
end

