-- ==== Sys2Proof/Machine/Apertures.lean ====
section
/-!
DEFINITION. The dump, the private TAP with the fuses, and the host's apertures (R415 to R420, R424, R437, R440, R441, R446,
R478 to R480).
-/
namespace Sys2Proof.Machine

/-! ### The dump (R440, R441) -/

/-- The dump exists from the end of the ramp to Halted (R440). -/
def dumpExists (s : State) : Bool :=
  s.obs.halted && s.power.seq == .idle && s.power.groups.toList.all fun g => g.st == .halted || g.st == .off

/-- Rights to the dump: the summary, and the full one (R418). -/
structure Rights where
  summary : Bool
  full : Bool
deriving DecidableEq, Repr

/-- Through the privileged aperture. -/
def apertureRights (s : State) : Rights :=
  match curOf s with
  | .opened => ⟨true, true⟩
  | .service => ⟨privAp s, privAp s && scopeBit s 2⟩
  | .sealed => ⟨privAp s && dumpSum s, false⟩

/-- Through a linked private TAP. -/
def tapRights (s : State) : Rights :=
  match curOf s with
  | .opened => ⟨true, true⟩
  | .service => ⟨scopeBit s 2 || scopeBit s 3, scopeBit s 2⟩
  | .sealed => ⟨false, false⟩

/-- Bytes of a number, least significant first. -/
def numBytes (n v : Nat) : List Byte := (upto n).map fun i => BitVec.ofNat 8 (v / 256 ^ i)

/-- The header's bytes (R441). -/
def dumpHeader (s : State) (full : Bool) : List Byte :=
  let o := s.obs
  let st := fun (x : Option Stamp) => numBytes 7 ((x.getD 0).toNat)
  let cause : Byte := match o.hang with | some (c, _) => c | none => 0
  [0x53, 0x57, 0x38, 0x38, 0x30, 0x44, 0x4D, 0x50, 0x01, 0x00, BitVec.ofNat 8 (full.toNat + at_ 1 o.graph.toNat + at_ 2 o.dumpRead.toNat),
   cause, BitVec.ofNat 8 s.tree.node.toNat] ++ numBytes 3 s.tree.path.toNat ++ st o.cut ++ [0] ++ st o.stopReq ++
  [0, o.origin, o.sender] ++ numBytes 2 o.hostDisc.toNat ++ numBytes 2 o.lnkDisc.toNat ++ List.replicate 10 0 ++
  numBytes 8 s.sec.devid.toNat ++ numBytes 8 s.boot.imgGen.toNat ++ s.boot.buildId.take 16 ++ s.boot.imgDig.take 16 ++
  numBytes 8 (dumap s).toNat ++ o.stopOfs

/-- The device as its registers stood at the cut: the Loop Engine's are held apart (R327). -/
def atCut (s : State) : State := { s with le := Vector.ofFn fun (k : Fin 16) => s.obs.leFrozen.getD k.val (s.le.get k) }

/-- A word of a section whose inner layout the manual does not give. -/
def openDump (s : State) (a : Nat) : Word :=
  bytesWord ((upto 4).map fun i => Config.dumpByte (a + i) s.obs.dumpSeed)

/-- A word of the dump at a byte offset (R440); 0 where the rights do not reach. -/
def dumpWord (s : State) (r : Rights) (a : Nat) : Word :=
  let a := a / 4 * 4
  if !dumpExists s then 0
  else if a < 0x200000 then
    if !r.summary then 0
    else if a < 0x100 then wordAt (bytesWords 64 (dumpHeader s r.full)) (a / 4)
    else if a < 0x1000 then 0
    else if a < 0x2000 then openDump s a
    else if a < 0x10000 then 0
    else if a < 0x20000 then counterRead s (a - 0x10000)
    else if 0x40000 ≤ a ∧ a < 0x68000 then ringRead s (a - 0x40000)
    else if 0x80000 ≤ a ∧ a < 0x90000 then rdWord s (graphBase + (a - 0x80000))
    else if 0x100000 ≤ a then openDump s a
    else 0
  else if !r.full then 0
  else if a < 0x340000 then openDump s a
  else if 0x400000 ≤ a ∧ a < 0x500000 then cfgRead (atCut s) (a - 0x400000)
  else if 0x1000000 ≤ a ∧ a < 0x3000000 then rdWord s (ssBase + (a - 0x1000000))
  else if 0x4000000 ≤ a ∧ a < 0x8000000 then
    let f : FrondId := idx 127 ((a - 0x4000000) / 0x80000)
    match padOf ((a - 0x4000000) % 0x80000) with
    | some (m, w) => if padOn (frond s f) m w then rdWord s (padAddr f m w) else 0
    | none => 0
  else 0

/-- Byte `i` of words read by byte offset. -/
def byteOf (g : Nat → Word) (a : Nat) : Byte := byteAt (wordBytes (g (a / 4 * 4))) (a % 4)

/-- READ: an offset past the header has been read (R441). -/
def markRead (s : State) (off n : Nat) : State :=
  if dumpExists s && decide (0x100 < off + n) && decide (0 < n) then modObs s fun o => { o with dumpRead := true } else s

/-- DUMP_READ: bytes of the dump through the linked private TAP or the dump window (R419, R440). -/
def execDumpRead (t : Time) (tap : Bool) (off n : Nat) (s : State) : Host.Outcome State Fault Refusal :=
  live t s fun s =>
    when_ (if tap then s.tap.linked else s.pcie.up) s fun s =>
      let r := if tap then tapRights s else apertureRights s
      let n := min n 4096
      let bs := (upto n).map fun i => byteOf (dumpWord s r) (off + i)
      modObs (markRead s off n) fun o => { o with dumpData := bs }

/-! ### The private TAP (R415 to R419) -/

/-- The group that an address targets (R419). -/
def targetGroup (a : Nat) : Option GroupId :=
  if 0x1000000000 ≤ a ∧ a < 0x1008000000 then some (idx 15 ((a - 0x1000000000) / 0x800000))
  else if 0x3001000000 ≤ a ∧ a < 0x3001800000 then some (idx 15 ((a - 0x3001000000) / 0x80000))
  else none

/-- STAT from the group an access targets: DORMANT, BUSY, or none to report. -/
def groupStat (s : State) (a : Nat) : Option (BitVec 3) :=
  match targetGroup a with
  | some g =>
    match (group s g).st with
    | .cold | .warm => some 2
    | .proofUp | .proofDown => some 6
    | _ => none
  | none => none

/-- A refused access (R415). -/
def tapDenied (s : State) : State :=
  { s with sec := { s.sec with tapRef := satInc s.sec.tapRef }, tap := { s.tap with data := 0, stat := 1, busyUntil := s.now + 2 * tUs } }

def tapDone (s : State) (stat : BitVec 3) (x : Word) : State :=
  { s with tap := { s.tap with data := x, stat := stat, busyUntil := s.now + 2 * tUs } }

/-- The device is past READY: R419's running or Halted columns apply. -/
def pastReady (s : State) : Bool := s.boot.ready

/-- TAP reads (R418, R419): all in OPEN; in SERVICE with DBGR, and the counter block with COUNTERS; before READY in OPEN only. -/
def tapReadOk (s : State) (a : Nat) : Bool :=
  match curOf s with
  | .opened => true
  | .service => pastReady s && (scopeBit s 3 || (scopeBit s 1 && decide (0x3000070000 ≤ a) && decide (a < 0x3000074000)))
  | .sealed => false

def tapWriteOk (s : State) : Bool :=
  match curOf s with
  | .opened => true
  | .service => pastReady s && scopeBit s 4
  | .sealed => false

/-- An access of the linked private TAP: the one at the update that unlinks it is denied (R413); while the one before is not done,
nothing but BUSY (R415). -/
def tapAccess (s : State) (f : State → State) : State :=
  if !s.tap.linked then s
  else if s.tap.unlinkNext then
    let d := tapDenied s
    { d with tap := { d.tap with linked := false, unlinkNext := false } }
  else if s.now < s.tap.busyUntil then { s with tap := { s.tap with stat := 6 } }
  else f s

/-- DBG_READ (R415, R418, R419). -/
def execDbgRead (t : Time) (addr : Addr) (dspace : Bool) (s : State) : Host.Outcome State Fault Refusal :=
  live t s fun s => tapAccess s fun s =>
    let a := addr.toNat
    if dspace then
      let r := tapRights s
      if !(if a < 0x200000 then r.summary else r.full) then tapDenied s
      else if !dumpExists s then tapDone s 3 0
      else tapDone (markRead s a 4) 0 (dumpWord s r a)
    else if !tapReadOk s a then tapDenied s
    else match (if pastReady s then groupStat s a else none) with
    | some st => tapDone s st 0
    | none =>
      if busNone s a then tapDone s 3 0
      else
        let (s1, x) := busRead s a
        tapDone s1 0 x

/-- What a TAP write never reaches (R415): DEVID, CHAL, SVCST; and SECPOL, which answers LATE. -/
def tapProtected (a : Nat) : Bool := decide (0x3000020000 ≤ a) && decide (a < 0x3000020018)

/-- DBG_WRITE (R415, R418, R419). A late write is captured under the requester id of the configuration registers' block. -/
def execDbgWrite (t : Time) (addr : Addr) (dspace : Bool) (data : Word) (s : State) : Host.Outcome State Fault Refusal :=
  live t s fun s => tapAccess s fun s =>
    let a := addr.toNat
    let inCfg := decide (0x3000000000 ≤ a) && decide (a < 0x3002000000)
    if !tapWriteOk s then tapDenied s
    else if s.obs.halted then tapDone s 4 0
    else if dspace then tapDone s 3 0
    else match (if pastReady s then groupStat s a else none) with
    | some st => tapDone s st 0
    | none =>
      if busNone s a then tapDone s 3 0
      else if a / 4 * 4 = 0x3000020018 ∨ (inCfg ∧ isLk (a - 0x3000000000) ∧ locked s) then tapDone (lateWrite s 24 a) 5 0
      else if tapProtected a then tapDone s 0 0
      else tapDone (busWrite s 24 a data) 0 0

/-- Key-hash slots whose twelve words are programmed. -/
def hashProgrammed (f : Fuses) (k : Nat) : Bool := (upto 12).all fun i => f.written.contains (12 * k + i)

def revokedNow (f : Fuses) : BitVec 4 := majority f.revoked[0] f.revoked[1] f.revoked[2]

/-- A revocation that leaves an unrevoked slot with a programmed hash (R417). -/
def revokeOk (f : Fuses) (bits : BitVec 4) : Bool :=
  (upto 4).any fun k => hashProgrammed f k && !bit (revokedNow f ||| bits) k

/-- Programming is permitted (R416 to R419). -/
def fuseOk (s : State) (word : Nat) (data : Word) : Bool :=
  let proofing := s.power.groups.toList.any (fun g => g.st == .proofUp || g.st == .proofDown) ||
    (match s.power.seq with | .uncore _ => true | _ => false)
  let may := match curOf s with
    | .opened => decide (word ≤ 0x31)
    | .service => pastReady s && word == 0x31 && scopeBit s 7
    | .sealed => false
  may && !proofing && !s.obs.halted && (word != 0x31 || revokeOk s.fuses (BitVec.ofNat 4 data.toNat))

/-- A fuse word written to its three copies (R416). -/
def burn (f : Fuses) (word : Nat) (data : Word) : Fuses :=
  let g := { f with written := insertNat word f.written }
  if word < 0x30 then
    { g with hash := vmodNat g.hash (word / 12) fun h => h.take (4 * (word % 12)) ++ wordBytes data ++ h.drop (4 * (word % 12) + 4) }
  else if word = 0x30 then { g with life := Vector.replicate 3 true }
  else { g with revoked := g.revoked.map fun r => r ||| BitVec.ofNat 4 data.toNat }

/-- FUSE_PROGRAM: each fuse word takes its first write only (R7, R416, R417). -/
def execFuseProgram (t : Time) (word : Byte) (data : Word) (s : State) : Host.Outcome State Fault Refusal :=
  live t s fun s => tapAccess s fun s =>
    let w := word.toNat
    if !fuseOk s w data then tapDenied s
    else if s.fuses.written.contains w then tapDone (lateWrite s 24 w) 5 0
    else tapDone { s with fuses := burn s.fuses w data } 0 0

/-! ### The host's apertures (R478 to R480) -/

/-- The partition, window and byte offset a data-window offset names. -/
def windowAt (fn : FnId) (off : Nat) : PartId × Nat × Nat :=
  let p : PartId := if fn.val = 0 then idx 7 (off / 0x10000000) else idx 7 (fn.val - 1)
  (p, off / 0x1000000 % 16, off % 0x1000000)

/-- Address of a word of a data window that the host may reach; none beyond SIZE (R478). -/
def windowWord (s : State) (p : PartId) (w o : Nat) : Option Nat :=
  let x := (part s p).win.get (idx 15 w)
  if o / 4 < winSize x then some (winBase x + o / 4 * 4) else none

/-- Global counters and the privileged aperture (R418, R419): served from READY on, as PRIVAP grants outside OPEN. -/
def privileged (s : State) : Bool := curOf s == .opened || privAp s

/-- Before READY no aperture is served; after a cut, until the dump exists, none either (R419). -/
def countersServed (s : State) : Bool := s.boot.ready && (!s.obs.halted || dumpExists s)

/-- The snapshot and live words of a partition's counters in an aperture: 64 B live, then 64 B of snapshot. -/
def pcntWord (s : State) (p o : Nat) : Word :=
  if o < 0x40 then cntLive s (0x1200 + 64 * p + o) else counterRead s (0x2000 + 0x1200 + 64 * p + (o - 0x40))

/-- The counter aperture of the physical function (R479). -/
def pfCounters (s : State) (o : Nat) : Word :=
  if o < 0x10 then cntctlWord s (o / 4)
  else if o = 0x40 then bootstatWord s
  else if o = 0x48 ∨ o = 0x4C then numWord s.boot.imgGen.toNat (o / 4 - 18)
  else if 0x50 ≤ o ∧ o < 0x80 then wordAt (bytesWords 12 s.boot.imgDig) (o / 4 - 20)
  else if o = 0x80 ∨ o = 0x84 then numWord (dumap s).toNat (o / 4 - 32)
  else if 0x1000 ≤ o ∧ o < 0x1800 then
    let p := (o - 0x1000) / 0x100
    if (part s (idx 7 p)).en && o % 0x100 < 0x80 then pcntWord s p (o % 0x100) else 0
  else 0

/-- The counter aperture of a virtual function (R479). -/
def vfCounters (s : State) (p o : Nat) : Word :=
  if o < 0x10 then cntctlWord s (o / 4)
  else if 0x100 ≤ o ∧ o < 0x180 then pcntWord s p (o - 0x100)
  else 0

/-- The privileged aperture (R480); in Halted the counter block alone. -/
def privWord (s : State) (o : Nat) : Word :=
  if !privileged s then 0
  else if 0x100000 ≤ o ∧ o < 0x104000 then counterRead s (o - 0x100000)
  else if s.obs.halted then 0
  else if 0x200000 ≤ o ∧ o < 0x240000 then rdWord s (sampleBase + (o - 0x200000))
  else if 0x300000 ≤ o ∧ o < 0x340000 then (noteOf s ((o - 0x300000) / 4)).word32
  else if 0x400000 ≤ o ∧ o < 0x400100 then treeRead s (o - 0x400000)
  else if 0x401008 ≤ o ∧ o < 0x40101C then powerRead s (o - 0x401000)
  else if 0x402010 ≤ o ∧ o < 0x402018 then secRead s (o - 0x402000)
  else if 0x403000 ≤ o ∧ o < 0x403100 then timingRead s (o - 0x403000)
  else 0

/-- The staging control block (R385). -/
def stagingWord (s : State) (i : Nat) : Word :=
  let g := s.stg
  match i with
  | 0 => BitVec.ofNat 32 g.cmdReg.toNat
  | 1 => BitVec.ofNat 32 g.foff.toNat
  | 2 => BitVec.ofNat 32 g.len.toNat
  | 3 => BitVec.ofNat 32 g.boff.toNat
  | 4 => BitVec.ofNat 32 (g.busy.toNat + at_ 1 g.session.toNat + at_ 2 (tslot s).code + at_ 4 g.result.toNat + at_ 16 g.rej.toNat)
  | _ => 0

/-- BAR 0 of the physical function beyond its doorbells (R478). -/
def bar0Word (s : State) (o : Nat) : Word :=
  if s.obs.halted then 0
  else if 0x10000 ≤ o ∧ o < 0x10020 then stagingWord s (o / 4 - 0x4000)
  else if 0x10100 ≤ o ∧ o < 0x10190 then bytesWord (s.sec.tokenBlock.drop (o - 0x10100))
  else if 0x101A0 ≤ o ∧ o < 0x101B0 then secRead s (o - 0x101A0)
  else 0

/-- A word as a function's BAR shows it, but for what lies in the Shared Store: data windows and the staging buffer (R478). -/
def hostWord (s : State) (fn : FnId) (bar : Fin 6) (o : Nat) : Word :=
  if !s.boot.ready || (fn.val != 0 && !fnServed s fn) then 0
  else if bar.val = 0 then (if fn.val = 0 then bar0Word s o else 0)
  else if bar.val = 4 then
    if fn.val != 0 then (if countersServed s then vfCounters s (fn.val - 1) o else 0)
    else if o < 0x100000 then (if countersServed s then pfCounters s o else 0)
    else if o < 0x8000000 then (if countersServed s then privWord s o else 0)
    else dumpWord s (apertureRights s) (o - 0x8000000)
  else 0

/-- The Shared Store word that a function's read of its BAR names, with the partition it is attributed to: a data window that the host may
read, or the staging buffer (R261, R478). -/
def hostReadAt (s : State) (fn : FnId) (bar : Fin 6) (o : Nat) : Option (Nat × Option PartId) :=
  if !s.boot.ready || s.obs.halted || (fn.val != 0 && !fnServed s fn) then none
  else if bar.val = 2 then
    let (p, w, b) := windowAt fn o
    match windowWord s p w b with
    | some a => if ((part s p).win.get (idx 15 w)).hostr then some (a, some p) else none
    | none => none
  else if bar.val = 0 ∧ fn.val = 0 ∧ 0x100000 ≤ o ∧ o < 0x200000 ∧ o - 0x100000 < stgBufSize s then some (stgBufBase s + (o - 0x100000), none)
  else none

/-- Words at rising addresses gathered into runs that stay inside one line: place, address, partition and number. -/
def lineRuns : List (Nat × Nat × Option PartId) → List (Nat × Nat × Option PartId × Nat)
  | [] => []
  | (k, a, p) :: rest =>
    match lineRuns rest with
    | (k', a', p', n) :: more =>
      if a' = a + 4 ∧ a' / 128 = a / 128 ∧ k' = k + 4 ∧ p' = p then (k, a, p, n + 1) :: more
      else (k, a, p, 1) :: (k', a', p', n) :: more
    | [] => [(k, a, p, 1)]

/-- The completions of a host read whose bytes are all there, of at most 128 B each: in the class of its partition, or of the device
(R260, R261). -/
def sendCompletions (s : State) (r : HostRead) : State :=
  let bs := (r.bytes.drop r.skip).take r.len
  let n := (bs.length + 127) / 128
  (upto n).foldl (fun s i => (putXfer s (egressClass r.part) r.part fun _ => .completion r.fn r.id ((bs.drop (128 * i)).take 128) (i + 1 == n)).2) s

/-- HOST_WINDOW_READ: at most 4 KiB. What lies in the Shared Store is read through its ports as requester 18, and the bytes return through
the egress; a read inside a replay perturbs it (R260, R261, R446, R478 to R480). -/
def execHostWindowRead (t : Time) (fn : FnId) (bar : Fin 6) (off n : Nat) (s : State) : Host.Outcome State Fault Refusal :=
  live t s fun s => when_ (s.pcie.up && n != 0) s fun s =>
    let n := min n 4096
    let first := off / 4 * 4
    let words := (off + n + 3) / 4 - off / 4
    let s1 := setPerturb s
    let s2 := if bar.val = 4 ∧ fn.val = 0 ∧ 0x8000000 ≤ off then markRead s1 (off - 0x8000000) n else s1
    let named := (upto words).filterMap fun i => (hostReadAt s fn bar (first + 4 * i)).map fun x => (4 * i, x.1, x.2)
    let runs := lineRuns named
    let r : HostRead := {
      id := s2.nextId, fn := fn, part := (named.head?).bind (·.2.2)
      bytes := wordsBytes ((upto words).map fun i => hostWord s fn bar (first + 4 * i)), skip := off - first, len := n
      waiting := runs.map fun x => (x.1, x.2.1, x.2.2.2), sent := [] }
    let s3 := modPcie { s2 with nextId := s2.nextId + 1 } fun p => { p with reads := p.reads ++ [r] }
    if runs.isEmpty then sendCompletions s3 r
    else runs.foldl (fun s x => (putXfer s pcieReq x.2.2.1 fun _ => .hostRead r.id x.2.1 x.2.2.2).2) s3

/-- Words of a host read have come from the Shared Store: they take their places, and with the last the completions are formed. -/
def hostReturned (s : State) (rd addr : Nat) (ws : List Word) : State :=
  match s.pcie.reads.find? (·.id == rd) with
  | none => s
  | some r =>
    match r.waiting.find? fun w => w.2.1 == addr && w.2.2 == ws.length with
    | none => s
    | some w =>
      let bs := wordsBytes ws
      let r1 := { r with bytes := r.bytes.take w.1 ++ bs ++ r.bytes.drop (w.1 + bs.length), waiting := r.waiting.erase w }
      let s1 := modPcie s fun p => { p with reads := p.reads.map fun h => if h.id = rd then r1 else h }
      if r1.waiting.isEmpty then sendCompletions s1 r1 else s1

/-! ### Host writes -/

/-- The ring and word of its control block at an address (R65). -/
def ringWordAt (s : State) (a : Nat) : Option (RingId × Nat) :=
  (allFin 8).findSome? fun p =>
    let x := part s p
    let b := winBase (x.win.get (idx 15 x.rcbwin.toNat)) + 4 * x.rcboff.toNat
    let i := (a - b) / 32
    if x.en && decide (b ≤ a) && decide (i < x.rcount.toNat) then
      let r : RingId := idx 2047 (x.rfirst.toNat + i)
      if (ringBlock s r).isSome then some (r, (a - b) / 4 % 8) else none
    else none

/-- A word of a role notice, which only the device writes (R356). -/
def inNotice (s : State) (a : Nat) : Bool :=
  decide (2 ≤ rcdRole s) && (allFin 8).any fun p =>
    let w := (part s p).win.get 0
    let b := winBase w + 4 * rwOff s
    (part s p).en && decide (rwOff s + 8 ≤ winSize w) && decide (b ≤ a) && decide (a < b + 32)

/-- The bits of a word that the host's write leaves alone: the device's fields of the replay block (R446). -/
def replayKeeps (s : State) (a : Nat) : Word :=
  match replayBlock s with
  | some b =>
    if !replayEn s then 0
    else if a = b then 0x0000001E
    else if a = b + 12 then 0xFFFF0000
    else if b + 16 ≤ a ∧ a < b + 32 then 0xFFFFFFFF
    else 0
  | none => 0

/-- One word of a data window written by the host at its port, the bits of `mask` from `v`, with what the device does when it is a word of
a control block. A part of an uncorrectable word leaves it so (R236). -/
def hostStore (s : State) (a : Nat) (v mask : Word) : State :=
  let ring := ringWordAt s a
  let fixed := inNotice s a || (match ring with | some (_, i) => i == 5 || i == 7 | none => false)
  if fixed then s
  else
    let m := mask &&& ~~~(replayKeeps s a)
    let old := rdWord s a
    let put := (old &&& ~~~m) ||| (v &&& m)
    let new := match ring with
      | some (r, i) => ringClamp s r i put
      | none => match replayBlock s with
        | some b => if replayEn s && b ≤ a && a < b + 32 then replayClamp s b ((a - b) / 4) put else put
        | none => put
    let s1 := if m = 0xFFFFFFFF ∨ !poisoned s a then wrWord s a new else { s with mem := memSetWord s.mem a new }
    let s2 := match ring with | some (r, 2) => syncRing s1 r | _ => s1
    if replayBlock s = some a && !bit old 0 && bit new 0 then replayEdge s2 a else s2

/-- Word `i` (from byte offset `off`) of a write and the mask of its bytes. -/
def writeWord (off : Nat) (data : List Byte) (i : Nat) : Word × Word :=
  let base := (off / 4 + i) * 4
  let sel := fun j => off ≤ base + j ∧ base + j < off + data.length
  (bytesWord ((upto 4).map fun j => if sel j then byteAt data (base + j - off) else 0),
   bytesWord ((upto 4).map fun j => if sel j then 0xFF else 0))

/-- The words a write touches, as (byte offset, word, mask). -/
def writeWords (off : Nat) (data : List Byte) : List (Nat × Word × Word) :=
  if data.isEmpty then []
  else (upto ((off + data.length + 3) / 4 - off / 4)).map fun i => ((off / 4 + i) * 4, writeWord off data i)

/-- A word of the staging control block written; while BUSY a command is discarded, the operands are stored (R7, R385). -/
def stagingWrite (s : State) (i : Nat) (v : Word) : State :=
  let g := s.stg
  let set := fun (f : Staging → Staging) => { s with stg := f g }
  match i with
  | 0 =>
    match field v 3 0 with
    | 1 => stgBegin s
    | 2 => stgRange s 2 4096 false true g.foff g.len g.boff
    | 3 => stgRange s 3 256 true true g.foff g.len g.boff
    | 4 => stgRange s 4 256 true false g.foff g.len g.boff
    | 5 => stgFinalize s
    | 6 => stgAbort s
    | _ => s
  | 1 => set fun g => { g with foff := BitVec.ofNat 27 (field v 26 0) }
  | 2 => set fun g => { g with len := BitVec.ofNat 27 (field v 26 0) }
  | 3 => set fun g => { g with boff := BitVec.ofNat 24 (field v 23 0) }
  | _ => s

/-- BAR 0 of the physical function beyond its doorbells, written. -/
def bar0Write (s : State) (o : Nat) (v mask : Word) : State :=
  if 0x10000 ≤ o ∧ o < 0x10020 then stagingWrite s (o / 4 - 0x4000) v
  else if 0x10100 ≤ o ∧ o < 0x10190 then
    let old := bytesWord (s.sec.tokenBlock.drop (o - 0x10100))
    let new := (old &&& ~~~mask) ||| (v &&& mask)
    { s with sec := { s.sec with tokenBlock := s.sec.tokenBlock.take (o - 0x10100) ++ wordBytes new ++ s.sec.tokenBlock.drop (o - 0x10100 + 4) } }
  else if o = 0x10190 then (if bit v 0 && hearthRuns s then presentToken s s.sec.tokenBlock else s)
  else s

/-- The Shared Store word that a function's write to its BAR names, with the partition it is attributed to: a data window that the host may
write, beyond whose SIZE a write is discarded, or the staging buffer (R261, R478). -/
def hostWriteAt (s : State) (fn : FnId) (bar : Fin 6) (o : Nat) : Option (Nat × Option PartId) :=
  if bar.val = 2 then
    let (p, w, b) := windowAt fn o
    match windowWord s p w b with
    | some a => if ((part s p).win.get (idx 15 w)).hostw then some (a, some p) else none
    | none => none
  else if bar.val = 0 ∧ fn.val = 0 ∧ 0x100000 ≤ o ∧ o < 0x200000 ∧ o - 0x100000 < stgBufSize s then some (stgBufBase s + (o - 0x100000), none)
  else none

/-- The words of a write that lie in the Shared Store leave for their ports as requester 18, a transfer for each run inside a line
(R258, R261). -/
def sendHostLines (s : State) (fn : FnId) (bar : Fin 6) (ws : List (Nat × Word × Word)) : State :=
  let named := ws.filterMap fun x => (hostWriteAt s fn bar x.1).map fun a => (x.1, a.1, a.2)
  (lineRuns named).foldl (fun s r => (putXfer s pcieReq r.2.2.1 fun _ => .hostLine (bar.val == 0) r.2.1
    ((ws.filter fun x => decide (r.1 ≤ x.1) && decide (x.1 < r.1 + 4 * r.2.2.2)).map fun x => x.2)).2) s

/-- A word of the staging buffer written by the host at its port. A part of an uncorrectable word leaves it so (R236). -/
def stagingStore (s : State) (a : Nat) (v mask : Word) : State :=
  let new := (rdWord s a &&& ~~~mask) ||| (v &&& mask)
  if mask = 0xFFFFFFFF ∨ !poisoned s a then wrWord s a new else { s with mem := memSetWord s.mem a new }

/-- HOST_WINDOW_WRITE (R437, R446, R478, R479): counter apertures discard every write. -/
def execHostWindowWrite (t : Time) (fn : FnId) (bar : Fin 6) (off : Nat) (data : List Byte) (s : State) : Host.Outcome State Fault Refusal :=
  live t s fun s => hostWrite s fun s =>
    if !operating s || (fn.val != 0 && !fnServed s fn) then s
    else if bar.val = 0 then
      if off < 0x8000 then doorbellBytes fn off data s
      else if off < 0x9000 then cancelBytes fn off data s
      else if fn.val = 0 then sendHostLines ((writeWords off data).foldl (fun s x => bar0Write s x.1 x.2.1 x.2.2) s) fn bar (writeWords off data)
      else s
    else if bar.val = 2 then sendHostLines s fn bar (writeWords off data)
    else s

end Sys2Proof.Machine
end

