-- ==== Sys2Proof/Machine/SharedStore.lean ====
section
/-!
DEFINITION. The Shared Store at its ports: one line per XC, write-back and scrub in idle cycles, and what each access that a port performs
means for the unit that sent it (R23, R53, R258, R261, R301, R305, R482).
-/
namespace Sys2Proof.Machine

/-! ### Accesses performed -/

/-- An access that a port performs (R23, R301). An uncorrectable word that a port or link reads for the outside is sent raw and logged in
the ring of Hearth core 0 (R482, log entry 22). -/
def ssPerform (s : State) (id : Nat) (x : Xfer) : State :=
  match x with
  | .load f c i a =>
    let (s1, bad) := ssCheck s a
    let v := match ctxJob s1 f c with | some j => wordAt (inSeen s1 j a [rdWord s1 a]) 0 | none => rdWord s1 a
    loadBack s1 f c i v bad
  | .store f c i a v => storeDone (progStore s a [v]) f c i
  | .amo f c i a op u v =>
    let (s1, bad) := ssCheck s a
    let old := rdWord s1 a
    loadBack (if bad then s1 else progStore s1 a [amoWord op old u v]) f c i old bad
  | .engRead f c e a n =>
    let (s1, bad) := ssCheckAll s a n
    let ws := rdWords s1 a n
    let ws := match ctxJob s1 f c with | some j => inSeen s1 j a ws | none => ws
    if engAwaits s1 f c e id then engGot s1 f c e ws bad else s1
  | .engWrite f c e a ws _ job =>
    let s1 := progStore (outputBegins s job a) a ws
    let s2 := match job with | some j => noteWrite (if (jobOf s1 j).any isStretch then noteShards s1 a else s1) j a | none => s1
    if engAwaits s2 f c e id then engKicks (engMoved s2 f c e ws.length) f c e 34 else s2
  | .leInput ch i =>
    let a := (s.le.get ch).iblk
    let (s1, bad) := ssCheckAll s a 32
    if (s1.le.get ch).readId = i then modLe s1 ch fun c => { c with inTransit := some (rdWords s1 a 32, bad) } else s1
  | .saveLine _ _ a ws => ssStore s a ws
  | .restoreLine f c a n =>
    let (s1, bad) := ssCheckAll s a n
    if bad && (ctx s1 f c).st == .restoring then raiseFault s1 f c .ecc else s1
  | .bitmapLine l => readAndClear s l
  | .hostLine staging a ws => (upto ws.length).foldl (fun s i =>
      let w := ws.getD i (0, 0)
      if staging then stagingStore s (a + 4 * i) w.1 w.2 else hostStore s (a + 4 * i) w.1 w.2) s
  | .hostRead rd a n => let (s1, ws) := fwRead s 0 a n; hostReturned s1 rd a ws
  | .recordRead ids a n odd => let (s1, ws) := fwRead s 2 a n; recordReturned s1 ids (recordSlots s1 odd (n == 16) ws)
  | .linkLine _ f ws => sendWack (storeShared s (f.sfrond.toNat < 0x80) (ssBase + 128 * f.line.toNat) ws) f.part f.snode.val none
  | .linkRead _ f a n => let (s1, ws) := fwRead s 0 a n; readReturned s1 f ws
  | .tlp _ _ _ _ => s
  | .message _ _ => s
  | .completion _ _ _ _ => s
  | .frame _ => s

/-- The Shared Store port of a number. -/
def ssPortNo (port : Fin 16) : Fin 21 := ⟨port.val, by omega⟩

/-- The port has moved a line in this XC (R23). -/
def portUsed (s : State) (p : Fin 21) : Bool := (s.fabric.ports.get p).usedXC == some (xcNow s)

/-- The port's cycle is idle: it moves no line in this XC and none waits (R482). -/
def portIdle (s : State) (p : Fin 21) : Bool := !portUsed s p && (s.fabric.ports.get p).granted.isEmpty

/-- The port's line of this XC is taken (R23). -/
def usePort (s : State) (p : Fin 21) : State := modPort s p fun x => { x with usedXC := some (xcNow s) }

/-- The port performs the access granted first, if it has not moved a line in this XC (R23). -/
def performNext (s : State) (p : Fin 21) : State :=
  match (s.fabric.ports.get p).granted with
  | (_, ref) :: rest =>
    if portUsed s p || !operating s then s
    else
      let s1 := modPort (usePort s p) p fun x => { x with granted := rest }
      match xferOf s1 ref with
      | some x => ssPerform (dropXfer s1 ref) ref x
      | none => s1
  | [] => s

/-- SS_LINE_ACCESS: the port performs the access granted first, one line in an XC; bit flips strike first (R23, R236). -/
def execSsLineAccess (t : Time) (port : Fin 16) (upsets : List Upset) (s : State) : Host.Outcome State Fault Refusal :=
  live t s fun s => performNext (strikeAll s upsets) (ssPortNo port)

/-- The port whose next access is the read-and-clear of a bitmap line; the lowest-numbered one. -/
def bitmapPort (s : State) : Option (Fin 21) :=
  (allFin 21).find? fun p => decide (p.val < 16) && !portUsed s p && (match (s.fabric.ports.get p).granted with
    | (_, ref) :: _ => (match xferOf s ref with | some (.bitmapLine _) => true | _ => false)
    | [] => false)

/-- BITMAP_READ_AND_CLEAR: a port performs the read-and-clear of a bitmap line that it has granted, and the line's L1 bit is cleared with it
(R53). -/
def execBitmapReadAndClear (t : Time) (s : State) : Host.Outcome State Fault Refusal :=
  live t s fun s =>
    match bitmapPort s with
    | some p => performNext s p
    | none => s

/-! ### Idle cycles (R482) -/

/-- SS_ECC_WRITEBACK: in an idle cycle the port writes back a corrected word (R482). -/
def execSsEccWriteback (t : Time) (port : Fin 16) (s : State) : Host.Outcome State Fault Refusal :=
  live t s fun s =>
    let p := ssPortNo port
    match (s.fabric.ports.get p).wback with
    | a :: rest =>
      when_ (operating s && portIdle s p) s fun s =>
        let s1 := modPort (usePort s p) p fun x => { x with wback := rest }
        if poisoned s1 a then s1 else setMark s1 a none
    | [] => s

/-- SS_SCRUB: in an idle cycle that no write-back takes, the port reads the next line of its share, in ascending order (R482). -/
def execSsScrub (t : Time) (port : Fin 16) (upsets : List Upset) (s : State) : Host.Outcome State Fault Refusal :=
  live t s fun s =>
    let s := strikeAll s upsets
    let p := ssPortNo port
    when_ (operating s && portIdle s p && (s.fabric.ports.get p).wback.isEmpty) s fun s =>
      let n := (s.fabric.ports.get p).scrub
      let (s1, _) := ssCheckAll (usePort s p) (ssBase + 2048 * n + 128 * port.val) 32
      modPort s1 p fun x => { x with scrub := (n + 1) % 16384 }

end Sys2Proof.Machine
end

