-- ==== Sys2Proof/Machine/Dispatch.lean ====
section
/-! DEFINITION. exec: one arm per constructor, in the order of the table of operations and events. -/
namespace Sys2Proof.Machine

def exec (i : Instr) (s : State) : Host.Outcome State Fault Refusal :=
  match i with
  | .registerWrite t req addr data => Sys2Proof.Machine.execRegisterWrite t req addr data s
  | .majorityCheck t upset => Sys2Proof.Machine.execMajorityCheck t upset s
  | .powerOnReset t refsel => Sys2Proof.Machine.execPowerOnReset t refsel s
  | .resetInput t => Sys2Proof.Machine.execResetInput t s
  | .resetRelease t refclk bsref testMode flash => Sys2Proof.Machine.execResetRelease t refclk bsref testMode flash s
  | .bootPllLock t => Sys2Proof.Machine.execBootPllLock t s
  | .sfdpRead t r => Sys2Proof.Machine.execSfdpRead t r s
  | .octalModeEntry t ok => Sys2Proof.Machine.execOctalModeEntry t ok s
  | .dqsCalibration t reads => Sys2Proof.Machine.execDqsCalibration t reads s
  | .headerRead t => Sys2Proof.Machine.execHeaderRead t s
  | .verifyPass t => Sys2Proof.Machine.execVerifyPass t s
  | .loadPass t reread eccError => Sys2Proof.Machine.execLoadPass t reread eccError s
  | .firmwareReady t => Sys2Proof.Machine.execFirmwareReady t s
  | .fwStartTimeout t => Sys2Proof.Machine.execFwStartTimeout t s
  | .programSetDigest t => Sys2Proof.Machine.execProgramSetDigest t s
  | .lockSequence t => Sys2Proof.Machine.execLockSequence t s
  | .bootReady t => Sys2Proof.Machine.execBootReady t s
  | .stgBegin t => Sys2Proof.Machine.execStgBegin t s
  | .stgErase t foff len => Sys2Proof.Machine.execStgErase t foff len s
  | .stgProgram t foff len boff => Sys2Proof.Machine.execStgProgram t foff len boff s
  | .stgReadback t foff len boff => Sys2Proof.Machine.execStgReadback t foff len boff s
  | .stgFinalize t => Sys2Proof.Machine.execStgFinalize t s
  | .stgAbort t => Sys2Proof.Machine.execStgAbort t s
  | .stagingCommandDone t flashErr => Sys2Proof.Machine.execStagingCommandDone t flashErr s
  | .hostWindowWrite t fn bar off data => Sys2Proof.Machine.execHostWindowWrite t fn bar off data s
  | .hostWindowRead t fn bar off n => Sys2Proof.Machine.execHostWindowRead t fn bar off n s
  | .doorbellWrite t fn off data => Sys2Proof.Machine.execDoorbellWrite t fn off data s
  | .sporeAccept t => Sys2Proof.Machine.execSporeAccept t s
  | .sporeBufferWrite t q entry => Sys2Proof.Machine.execSporeBufferWrite t q entry s
  | .cancelLineWrite t fn off data => Sys2Proof.Machine.execCancelLineWrite t fn off data s
  | .cancel t => Sys2Proof.Machine.execCancel t s
  | .slotStrobe t => Sys2Proof.Machine.execSlotStrobe t s
  | .worklistBuild t => Sys2Proof.Machine.execWorklistBuild t s
  | .bitmapReadAndClear t => Sys2Proof.Machine.execBitmapReadAndClear t s
  | .bitmapLineReturn t line => Sys2Proof.Machine.execBitmapLineReturn t line s
  | .worklistPop t => Sys2Proof.Machine.execWorklistPop t s
  | .admission t q => Sys2Proof.Machine.execAdmission t q s
  | .placement t q => Sys2Proof.Machine.execPlacement t q s
  | .contextStaged t f c => Sys2Proof.Machine.execContextStaged t f c s
  | .mma k a => Sys2Proof.Machine.execMma k a s
  | .mmaRetire t f => Sys2Proof.Machine.execMmaRetire t f s
  | .tileLoad k a => Sys2Proof.Machine.execTileLoad k a s
  | .tileLoadComplete t f tile => Sys2Proof.Machine.execTileLoadComplete t f tile s
  | .cvt k a => Sys2Proof.Machine.execCvt k a s
  | .rmaxclr k => Sys2Proof.Machine.execRmaxclr k s
  | .mul k rd ra rb => Sys2Proof.Machine.execMul k rd ra rb s
  | .mulh k rd ra rb => Sys2Proof.Machine.execMulh k rd ra rb s
  | .mulhu k rd ra rb => Sys2Proof.Machine.execMulhu k rd ra rb s
  | .multiplyComplete t f => Sys2Proof.Machine.execMultiplyComplete t f s
  | .fadd k rd ra rb => Sys2Proof.Machine.execFadd k rd ra rb s
  | .fsub k rd ra rb => Sys2Proof.Machine.execFsub k rd ra rb s
  | .fmul k rd ra rb => Sys2Proof.Machine.execFmul k rd ra rb s
  | .fmin k rd ra rb => Sys2Proof.Machine.execFmin k rd ra rb s
  | .fmax k rd ra rb => Sys2Proof.Machine.execFmax k rd ra rb s
  | .fcmp k rel rd ra rb => Sys2Proof.Machine.execFcmp k rel rd ra rb s
  | .fcvt k dir rd ra => Sys2Proof.Machine.execFcvt k dir rd ra s
  | .fdiv k rd ra rb => Sys2Proof.Machine.execFdiv k rd ra rb s
  | .fsqrt k rd ra => Sys2Proof.Machine.execFsqrt k rd ra s
  | .div k rd ra rb => Sys2Proof.Machine.execDiv k rd ra rb s
  | .divu k rd ra rb => Sys2Proof.Machine.execDivu k rd ra rb s
  | .rem k rd ra rb => Sys2Proof.Machine.execRem k rd ra rb s
  | .remu k rd ra rb => Sys2Proof.Machine.execRemu k rd ra rb s
  | .xrcp k rd rlo rhi => Sys2Proof.Machine.execXrcp k rd rlo rhi s
  | .xgiv k rc rs rr ra rb => Sys2Proof.Machine.execXgiv k rc rs rr ra rb s
  | .dividerComplete t f => Sys2Proof.Machine.execDividerComplete t f s
  | .xrhs k a => Sys2Proof.Machine.execXrhs k a s
  | .xrelax k a => Sys2Proof.Machine.execXrelax k a s
  | .xproj k a => Sys2Proof.Machine.execXproj k a s
  | .fbeg k => Sys2Proof.Machine.execFbeg k s
  | .fend k => Sys2Proof.Machine.execFend k s
  | .itmark k bufs => Sys2Proof.Machine.execItmark k bufs s
  | .outmark k => Sys2Proof.Machine.execOutmark k s
  | .cheap k imm => Sys2Proof.Machine.execCheap k imm s
  | .tset k m line => Sys2Proof.Machine.execTset k m line s
  | .tclr k m line => Sys2Proof.Machine.execTclr k m line s
  | .creset k n => Sys2Proof.Machine.execCreset k n s
  | .wopen k n w0 w1 w2 => Sys2Proof.Machine.execWopen k n w0 w1 w2 s
  | .wclose k n => Sys2Proof.Machine.execWclose k n s
  | .fenceSl k => Sys2Proof.Machine.execFenceSl k s
  | .fenceE k => Sys2Proof.Machine.execFenceE k s
  | .fenceAll k => Sys2Proof.Machine.execFenceAll k s
  | .amoswap k rd addr rs => Sys2Proof.Machine.execAmoswap k rd addr rs s
  | .amoadd k rd addr rs => Sys2Proof.Machine.execAmoadd k rd addr rs s
  | .amocas k rd addr rcmp rnew => Sys2Proof.Machine.execAmocas k rd addr rcmp rnew s
  | .integerAluOp k op rd a b => Sys2Proof.Machine.execIntegerAluOp k op rd a b s
  | .scratchpadLoad k dst addr tag => Sys2Proof.Machine.execScratchpadLoad k dst addr tag s
  | .scratchpadStore k rs addr tag => Sys2Proof.Machine.execScratchpadStore k rs addr tag s
  | .sharedStoreLoad k rd addr => Sys2Proof.Machine.execSharedStoreLoad k rd addr s
  | .sharedStoreStore k rs addr => Sys2Proof.Machine.execSharedStoreStore k rs addr s
  | .remoteLoad k rd addr => Sys2Proof.Machine.execRemoteLoad k rd addr s
  | .remoteStore k rs addr => Sys2Proof.Machine.execRemoteStore k rs addr s
  | .configAliasLoad k rd addr => Sys2Proof.Machine.execConfigAliasLoad k rd addr s
  | .configAliasStore k rs addr => Sys2Proof.Machine.execConfigAliasStore k rs addr s
  | .storeVisible t f c => Sys2Proof.Machine.execStoreVisible t f c s
  | .fetchCommand k a => Sys2Proof.Machine.execFetchCommand k a s
  | .drainCommand k a => Sys2Proof.Machine.execDrainCommand k a s
  | .rangeRetire t f c n => Sys2Proof.Machine.execRangeRetire t f c n s
  | .stridedRead t f c e => Sys2Proof.Machine.execStridedRead t f c e s
  | .transposedRead t f c e => Sys2Proof.Machine.execTransposedRead t f c e s
  | .circAppend t f c who n data => Sys2Proof.Machine.execCircAppend t f c who n data s
  | .circTake t f c who n => Sys2Proof.Machine.execCircTake t f c who n s
  | .circPeek t f c who n d => Sys2Proof.Machine.execCircPeek t f c who n d s
  | .circRelease t f c who n r => Sys2Proof.Machine.execCircRelease t f c who n r s
  | .scratchpadSlotAccess t f m upsets => Sys2Proof.Machine.execScratchpadSlotAccess t f m upsets s
  | .scratchpadAccessDone t f => Sys2Proof.Machine.execScratchpadAccessDone t f s
  | .inboundLine t f => Sys2Proof.Machine.execInboundLine t f s
  | .inboundRetry t f => Sys2Proof.Machine.execInboundRetry t f s
  | .refusalAtSender t f c => Sys2Proof.Machine.execRefusalAtSender t f c s
  | .scratchpadScrub t f m upsets => Sys2Proof.Machine.execScratchpadScrub t f m upsets s
  | .scrubWriteback t f => Sys2Proof.Machine.execScrubWriteback t f s
  | .lotteryContest t port arrivals => Sys2Proof.Machine.execLotteryContest t port arrivals s
  | .regulatorAccrual t => Sys2Proof.Machine.execRegulatorAccrual t s
  | .ticketCommit t => Sys2Proof.Machine.execTicketCommit t s
  | .fabmodeWrite t mode => Sys2Proof.Machine.execFabmodeWrite t mode s
  | .ssLineAccess t port upsets => Sys2Proof.Machine.execSsLineAccess t port upsets s
  | .ssEccWriteback t port => Sys2Proof.Machine.execSsEccWriteback t port s
  | .ssScrub t port upsets => Sys2Proof.Machine.execSsScrub t port upsets s
  | .tracePacketSend t router => Sys2Proof.Machine.execTracePacketSend t router s
  | .traceFrame t => Sys2Proof.Machine.execTraceFrame t s
  | .ctxRun t f c => Sys2Proof.Machine.execCtxRun t f c s
  | .ctxPreempt t f c => Sys2Proof.Machine.execCtxPreempt t f c s
  | .ctxAbort t f c => Sys2Proof.Machine.execCtxAbort t f c s
  | .ctxStop t f c => Sys2Proof.Machine.execCtxStop t f c s
  | .contextBoundary t f c => Sys2Proof.Machine.execContextBoundary t f c s
  | .pwaitExpiry t f c => Sys2Proof.Machine.execPwaitExpiry t f c s
  | .waitYield t f c => Sys2Proof.Machine.execWaitYield t f c s
  | .saveComplete t f c => Sys2Proof.Machine.execSaveComplete t f c s
  | .restoreComplete t f c => Sys2Proof.Machine.execRestoreComplete t f c s
  | .contextTeardown t f c => Sys2Proof.Machine.execContextTeardown t f c s
  | .teardownComplete t f c => Sys2Proof.Machine.execTeardownComplete t f c s
  | .ringRecordWrite t r => Sys2Proof.Machine.execRingRecordWrite t r s
  | .tailMirrorUpdate t r => Sys2Proof.Machine.execTailMirrorUpdate t r s
  | .ringEnable t r => Sys2Proof.Machine.execRingEnable t r s
  | .ringDisable t r => Sys2Proof.Machine.execRingDisable t r s
  | .ringHeadWrite t r head => Sys2Proof.Machine.execRingHeadWrite t r head s
  | .coalesceTimeout t r => Sys2Proof.Machine.execCoalesceTimeout t r s
  | .deadlineComparatorFire t q entry => Sys2Proof.Machine.execDeadlineComparatorFire t q entry s
  | .deadlineAction t q entry => Sys2Proof.Machine.execDeadlineAction t q entry s
  | .iterateDelivery t f c => Sys2Proof.Machine.execIterateDelivery t f c s
  | .substituteCopy t => Sys2Proof.Machine.execSubstituteCopy t s
  | .digestComplete t q entry => Sys2Proof.Machine.execDigestComplete t q entry s
  | .leSampleBoundary t ch => Sys2Proof.Machine.execLeSampleBoundary t ch s
  | .leStart t ch seq => Sys2Proof.Machine.execLeStart t ch seq s
  | .leStop t ch seq => Sys2Proof.Machine.execLeStop t ch seq s
  | .leRezero t ch seq zpos => Sys2Proof.Machine.execLeRezero t ch seq zpos s
  | .leInputRead t ch => Sys2Proof.Machine.execLeInputRead t ch s
  | .leInputReturn t ch => Sys2Proof.Machine.execLeInputReturn t ch s
  | .leQuadratureSample t ch qa qb => Sys2Proof.Machine.execLeQuadratureSample t ch qa qb s
  | .leDecoderWindow t => Sys2Proof.Machine.execLeDecoderWindow t s
  | .lePwmPeriod t ch => Sys2Proof.Machine.execLePwmPeriod t ch s
  | .leOntimeWindow t ch => Sys2Proof.Machine.execLeOntimeWindow t ch s
  | .leOntimeLimit t ch => Sys2Proof.Machine.execLeOntimeLimit t ch s
  | .leShadowWrite t ch n x => Sys2Proof.Machine.execLeShadowWrite t ch n x s
  | .leBankCommit t ch => Sys2Proof.Machine.execLeBankCommit t ch s
  | .linkTraining t l => Sys2Proof.Machine.execLinkTraining t l s
  | .trainingTimeout t l => Sys2Proof.Machine.execTrainingTimeout t l s
  | .offsetExchange t l t1 t2 t3 t4 => Sys2Proof.Machine.execOffsetExchange t l t1 t2 t3 t4 s
  | .linkUp t l => Sys2Proof.Machine.execLinkUp t l s
  | .linkDown t l cause => Sys2Proof.Machine.execLinkDown t l cause s
  | .ctrlFrame t l n good => Sys2Proof.Machine.execCtrlFrame t l n good s
  | .writeFrame t l f => Sys2Proof.Machine.execWriteFrame t l f s
  | .writewFrame t l f => Sys2Proof.Machine.execWritewFrame t l f s
  | .readFrame t l f => Sys2Proof.Machine.execReadFrame t l f s
  | .rdataFrame t l f => Sys2Proof.Machine.execRdataFrame t l f s
  | .wackFrame t l f => Sys2Proof.Machine.execWackFrame t l f s
  | .sporeFrame t l h m => Sys2Proof.Machine.execSporeFrame t l h m s
  | .pdoneFrame t l h m => Sys2Proof.Machine.execPdoneFrame t l h m s
  | .epochFrame t l h n cut m => Sys2Proof.Machine.execEpochFrame t l h n cut m s
  | .ependFrame t l h n count => Sys2Proof.Machine.execEpendFrame t l h n count s
  | .doneFrame t l h xs => Sys2Proof.Machine.execDoneFrame t l h xs s
  | .hbeatFrame t l h m => Sys2Proof.Machine.execHbeatFrame t l h m s
  | .joinFrame t l h m => Sys2Proof.Machine.execJoinFrame t l h m s
  | .stopFrame t l h xs => Sys2Proof.Machine.execStopFrame t l h xs s
  | .reservedFrame t l f odd => Sys2Proof.Machine.execReservedFrame t l f odd s
  | .cutNotice t l node c => Sys2Proof.Machine.execCutNotice t l node c s
  | .heartbeatSend t => Sys2Proof.Machine.execHeartbeatSend t s
  | .memberLost t node => Sys2Proof.Machine.execMemberLost t node s
  | .managerLost t => Sys2Proof.Machine.execManagerLost t s
  | .epochInstall t => Sys2Proof.Machine.execEpochInstall t s
  | .roleNoticeWrite t => Sys2Proof.Machine.execRoleNoticeWrite t s
  | .workerOrphan t => Sys2Proof.Machine.execWorkerOrphan t s
  | .epochCopy t => Sys2Proof.Machine.execEpochCopy t s
  | .pllLock t g => Sys2Proof.Machine.execPllLock t g s
  | .sequencerTake t => Sys2Proof.Machine.execSequencerTake t s
  | .clockStepDone t => Sys2Proof.Machine.execClockStepDone t s
  | .rampComplete t => Sys2Proof.Machine.execRampComplete t s
  | .proofHoldDone t => Sys2Proof.Machine.execProofHoldDone t s
  | .idleCountExpiry t g => Sys2Proof.Machine.execIdleCountExpiry t g s
  | .haltedRamp t => Sys2Proof.Machine.execHaltedRamp t s
  | .thermalCheck t temps => Sys2Proof.Machine.execThermalCheck t temps s
  | .referenceLoss t => Sys2Proof.Machine.execReferenceLoss t s
  | .referenceReturn t => Sys2Proof.Machine.execReferenceReturn t s
  | .token t bytes => Sys2Proof.Machine.execToken t bytes s
  | .tokenBlockGo t => Sys2Proof.Machine.execTokenBlockGo t s
  | .tokenCheckDone t => Sys2Proof.Machine.execTokenCheckDone t s
  | .remainTick t => Sys2Proof.Machine.execRemainTick t s
  | .serviceExpiry t => Sys2Proof.Machine.execServiceExpiry t s
  | .svcexit t viaTap => Sys2Proof.Machine.execSvcexit t viaTap s
  | .extest t bits => Sys2Proof.Machine.execExtest t bits s
  | .samplePreload t pins bits => Sys2Proof.Machine.execSamplePreload t pins bits s
  | .idcode t => Sys2Proof.Machine.execIdcode t s
  | .clamp t => Sys2Proof.Machine.execClamp t s
  | .highz t => Sys2Proof.Machine.execHighz t s
  | .bootstat t => Sys2Proof.Machine.execBootstat t s
  | .chal t => Sys2Proof.Machine.execChal t s
  | .dbgsel t => Sys2Proof.Machine.execDbgsel t s
  | .bypass t => Sys2Proof.Machine.execBypass t s
  | .testLogicReset t => Sys2Proof.Machine.execTestLogicReset t s
  | .dbgRead t addr dspace => Sys2Proof.Machine.execDbgRead t addr dspace s
  | .dbgWrite t addr dspace data => Sys2Proof.Machine.execDbgWrite t addr dspace data s
  | .fuseProgram t word data => Sys2Proof.Machine.execFuseProgram t word data s
  | .dumpRead t tap off n => Sys2Proof.Machine.execDumpRead t tap off n s
  | .frz t => Sys2Proof.Machine.execFrz t s
  | .counterFreeze t => Sys2Proof.Machine.execCounterFreeze t s
  | .utilisationSample t => Sys2Proof.Machine.execUtilisationSample t s
  | .sampleRecordWrite t => Sys2Proof.Machine.execSampleRecordWrite t s
  | .checkpointTick t passed => Sys2Proof.Machine.execCheckpointTick t passed s
  | .watchdogExpiry t core => Sys2Proof.Machine.execWatchdogExpiry t core s
  | .teardownHang t f c => Sys2Proof.Machine.execTeardownHang t f c s
  | .overdue t q entry => Sys2Proof.Machine.execOverdue t q entry s
  | .backlog t => Sys2Proof.Machine.execBacklog t s
  | .waitEvent t f c => Sys2Proof.Machine.execWaitEvent t f c s
  | .waitGraphBuild t => Sys2Proof.Machine.execWaitGraphBuild t s
  | .graphTimeout t => Sys2Proof.Machine.execGraphTimeout t s
  | .globalStopCut t => Sys2Proof.Machine.execGlobalStopCut t s
  | .linkCaptureEnd t => Sys2Proof.Machine.execLinkCaptureEnd t s
  | .replayGo t => Sys2Proof.Machine.execReplayGo t s
  | .replayPrepDone t => Sys2Proof.Machine.execReplayPrepDone t s
  | .replayStrobe t => Sys2Proof.Machine.execReplayStrobe t s
  | .replayEntryRelease t => Sys2Proof.Machine.execReplayEntryRelease t s
  | .replayEnd t => Sys2Proof.Machine.execReplayEnd t s
  | .replayDone t => Sys2Proof.Machine.execReplayDone t s
  | .functionLevelReset t fn => Sys2Proof.Machine.execFunctionLevelReset t fn s
  | .pcieCoreReset t cause => Sys2Proof.Machine.execPcieCoreReset t cause s
  | .ppsEdge t => Sys2Proof.Machine.execPpsEdge t s
  | .pcieLinkUp t enabled => Sys2Proof.Machine.execPcieLinkUp t enabled s
  | .pePerstNRelease t => Sys2Proof.Machine.execPePerstNRelease t s
  | .frameLock t l => Sys2Proof.Machine.execFrameLock t l s
  | .uncoreRampComplete t => Sys2Proof.Machine.execUncoreRampComplete t s

end Sys2Proof.Machine
end

