-- ==== Sys2Proof/Safety.lean ====
section
/-!
DEFINITION. The terms the statements are written in: what it is for a command to complete, which parts of the state a
command may change, and the invariants of the security state, of the Loop Engine's outputs and of memory.
-/
namespace Sys2Proof.Safety
open Sys2Proof.Machine

/-- `exec i s` answers a next state, and `P` holds of it. -/
def Completes (i : Instr) (s : State) (P : State → Prop) : Prop := ∃ s', exec i s = .next s' ∧ P s'

/-- Nothing but the power governor changes (and the moment). -/
def OnlyPower (t : Time) (s s' : State) : Prop := s' = { s with now := max s.now t, power := s'.power }

/-- Nothing but the public and private TAP changes. -/
def OnlyTap (t : Time) (s s' : State) : Prop := s' = { s with now := max s.now t, tap := s'.tap }

/-- Nothing but the fabric's settings, ports and trace collectors changes. -/
def OnlyFabric (t : Time) (s s' : State) : Prop := s' = { s with now := max s.now t, fabric := s'.fabric }

/-- The three copies of CUR agree (R362, R407). -/
def curAgrees (s : State) : Prop := s.session.cur0 = s.session.cur1 ∧ s.session.cur1 = s.session.cur2

/-- CUR is OPEN exactly when the LIFE sensed at power-on is OPEN (R407, R408). -/
def openIffLifeOpen (s : State) : Prop := curOf s = .opened ↔ lifeSealed s = false

/-- The invariant of the security state: the copies agree, and OPEN is the state of an OPEN device alone. -/
def SecurityInv (s : State) : Prop := curAgrees s ∧ openIffLifeOpen s

/-- A group other than `g` is as before. -/
def otherGroups (g : GroupId) (s s' : State) : Prop := ∀ h, g ≠ h → group s' h = group s h

/-- Nothing but one Loop Engine channel changes. -/
def OnlyChannel (t : Time) (ch : ChanId) (s s' : State) : Prop :=
  s' = { s with now := max s.now t, le := s'.le } ∧ ∀ q, ch ≠ q → s'.le.get q = s.le.get q

/-! ### The lottery -/

/-- The lottery port of a link's egress (R258). -/
def linkPort (l : LinkId) : Fin 21 := idx 20 (17 + l.val)

/-- A port runs, its next contest is due at `t`, no commit falls in that XC, and nothing waits at it (R258, R268, R271). -/
def ContestAt (t : Time) (p : Fin 21) (s : State) : Prop :=
  s.testMode = false ∧ portRuns s p = true ∧ contestDue (atTime s t) p = true ∧ committing (atTime s t) = false ∧ (s.fabric.ports.get p).cons = []

/-- A transfer under way to a port is the next one of its requester to arrive there (R27, R266). -/
def NextTransfer (s : State) (p : Fin 21) (e : Sent) : Prop :=
  sentOf s e.id = some e ∧ e.x.ready = true ∧ (underWay s p e.req).head? = some e

/-- Its arrival: the requester and partition it was sent with, by the router input of its route (R259 to R261). -/
def arrivalOf (p : Fin 21) (e : Sent) : Arrival := { id := e.req, part := e.part, input := inputOf e.req.val p, ref := e.id }

/-! ### The boot -/

/-- The recorded reason of a slot (R382). -/
def slotReason (s : State) (sl : Slot) : BitVec 4 := match sl with
  | .a => s.boot.aReason
  | .b => s.boot.bReason

/-- The load pass may end: the chosen image, as read again, has no Frond record, or every group is Active (R376). -/
def loadAwake (s : State) (rr : List (Nat × Byte)) : Prop :=
  ((slotRecords s (reread s rr) s.boot.chosen).any fun r => r.e.typ == 2) = false ∨ ∀ g, (group s g).st = .active

/-! ### Crumb instructions -/

/-- The context `c` of the Frond may issue the instruction `k` now, and no register it names is still to be written (R484). -/
def CanIssue (k : Issue) (regs : List Reg) (s : State) (c : CtxId) : Prop :=
  s.testMode = false ∧ runningCtx s k.f = some c ∧ mayIssue (atTime s k.t) k c = true ∧
  regs.any (regBusy (atTime s k.t) k.f (ctx s k.f c)) = false ∧ fetchOk (frond s k.f) k.ia = true ∧
  markAt s (padAddr k.f .w (k.ia.toNat / 4)) = none

/-- The moment at which an instruction issues. -/
def issuedAt (k : Issue) (s : State) : Time := max s.now k.t

/-- The FC in which it issues. -/
def issueFc (k : Issue) (s : State) : Nat := fcNow (atTime s k.t)

/-- A context behind an instruction that took effect in an FC: the program counter goes on, a block and a stall have ended, and the boundary
behind the last instruction is a cheap point (R246, R289, R484). -/
def steppedCtx (fc : Nat) (k : Issue) (x : Ctx) : Ctx :=
  { x.endLost fc with
    pc := k.nx, waitk := .none, blk := none, cresetAt := 0, atCheap := if k.last then some 0x3F else none, completed := x.completed || k.last }

/-- What an instruction may touch outside its own Frond: counters and event rings, and, when `traced`, the trace collectors and
the count of free values. -/
def crumbOutside (traced : Bool) (k : Issue) (s s' : State) : Prop :=
  (∀ f, k.f ≠ f → frond s' f = frond s f) ∧
  s' = { s with
    now := issuedAt k s, fronds := s'.fronds, obs := s'.obs
    freeCtr := if traced then s'.freeCtr else s.freeCtr, fabric := if traced then s'.fabric else s.fabric }

/-- Of its own Frond: its context, the yield marks of the others, the issue slot, register times and the busy account. -/
def crumbInside (k : Issue) (c : CtxId) (s s' : State) : Prop :=
  (∀ d, c ≠ d → ctx s' k.f d = { ctx s k.f d with yielded := false }) ∧
  frond s' k.f = { frond s k.f with
    ctxs := (frond s' k.f).ctxs, issueAt := issuedAt k s + tFC s, regReady := (frond s' k.f).regReady
    busySince := (frond s' k.f).busySince }

/-- The instruction took effect: its context is `x` behind it, and nothing else of the machine changed. -/
def Steps (traced : Bool) (k : Issue) (c : CtxId) (x : Ctx) (s s' : State) : Prop :=
  ctx s' k.f c = steppedCtx (issueFc k s) k x ∧ crumbOutside traced k s s' ∧ crumbInside k c s s'

/-- The context with ASTAT bits set in an FC, by an operation that has flags. -/
def flagged (x : Ctx) (fc : Nat) (bits : Option (BitVec 8)) : Ctx := match bits with
  | some b => x.flag fc b
  | none => x

/-- A register of the context is written with `v`, with flags where the operation has them, usable `n` FC after issue. -/
def WritesReg (k : Issue) (c : CtxId) (rd : Reg) (v : Word) (bits : Option (BitVec 8)) (n : Nat) (s s' : State) : Prop :=
  Steps false k c { flagged (ctx s k.f c) (issueFc k s) bits with g := vset (ctx s k.f c).g rd v } s s' ∧
  (rd.val, issuedAt k s + n * tFC s) ∈ (frond s' k.f).regReady

/-- The array takes an instruction of the context now, in tag mode: nothing in flight, every line of the one before it read, no circular
region enabled on the Frond, no word of memory with a check error. -/
def ArrayReady (k : Issue) (solver : Bool) (s : State) (c : CtxId) : Prop :=
  CanIssue k [] s c ∧ (ctx s k.f c).sbEn = false ∧ (frond s k.f).mma = [] ∧ (frond s k.f).arrLines = [] ∧
  arrayFrom s k.f solver ≤ issuedAt k s ∧ (∀ i, ((frond s k.f).circ.get i).en = false) ∧ s.ecc = []

/-- Spans of words that exist in powered regions, with no tag that blocks their access (R219, R221, R234). -/
def Reaches (s : State) (f : FrondId) (ps : List Span) : Prop :=
  ∀ p ∈ ps, padsOn (frond s f) p.m p.w p.n = true ∧ spanBlocked (frond s f) p = []

/-- Words of a scratchpad all lie in it and in powered regions. -/
def Powered (s : State) (f : FrondId) (m : Mem) (w n : Nat) : Prop := padsOn (frond s f) m w n = true

/-- Outside `n` words of a scratchpad from `w`, every byte of memory reads as before. -/
def OnlyPad (f : FrondId) (m : Mem) (w n : Nat) (s s' : State) : Prop :=
  ∀ a, a < padAddr f m w ∨ padAddr f m w + 4 * n ≤ a → cellGet 0 s'.mem a = cellGet 0 s.mem a

/-- The context as an instruction's own computation sees it. -/
def bodyCtx (s : State) (f : FrondId) (c : CtxId) : Ctx := { ctx s f c with atCheap := none }

/-! ### Crumb instructions that send something on, or are held for their slot -/

/-- Where a store of the context goes: its home, and the address its home knows the word by; no enabled region and no remote Frond window
is in the way (R225, R302, R473, R483 to R485). -/
def StoreGoes (s : State) (f : FrondId) (addr : Addr) (home : Home) (a : Nat) : Prop :=
  viaFrondWindow addr.toNat = false ∧
  match home with
  | .scratch => ∃ m w, placeOf s f addr.toNat = .pad m w ∧ a = padAddr f m w ∧ padOn (frond s f) m w = true ∧
      inRegion (frond s f) m w = false
  | .shared => placeOf s f addr.toNat = .shared a ∧ inImage a 4 = true
  | .remote n => placeOf s f addr.toNat = .remoteSS n a
  | .config => placeOf s f addr.toNat = .cfg a ∧ 0x3000F00000 ≤ a ∧ a < 0x3000F01000

/-- The instruction took effect and sent something on: beside what `Steps` allows, ids, fabric, links and the tree's read tags. -/
def StepsSending (k : Issue) (c : CtxId) (x : Ctx) (s s' : State) : Prop :=
  ctx s' k.f c = steppedCtx (issueFc k s) k x ∧ (∀ f, k.f ≠ f → frond s' f = frond s f) ∧ crumbInside k c s s' ∧
  s' = { s with
    now := issuedAt k s, nextId := s'.nextId, fronds := s'.fronds, fabric := s'.fabric, obs := s'.obs, links := s'.links, tree := s'.tree }

/-- The instruction waits for its slot of the wheel: its context holds it as `x`, and only the issue slot was used. -/
def HeldForSlot (k : Issue) (c : CtxId) (x : Ctx) (s s' : State) : Prop :=
  ctx s' k.f c = x ∧ (∀ d, c ≠ d → ctx s' k.f d = ctx s k.f d) ∧ (∀ f, k.f ≠ f → frond s' f = frond s f) ∧
  frond s' k.f = { frond s k.f with ctxs := (frond s' k.f).ctxs, issueAt := issuedAt k s + tFC s } ∧
  s' = { s with now := issuedAt k s, fronds := s'.fronds }

/-- The slot of the wheel at `t` belongs to `o` and has carried nothing yet, on a Frond that works, with no word of memory in error. -/
def SlotOf (o : SlotOwner) (t : Time) (f : FrondId) (m : Mem) (s : State) : Prop :=
  s.testMode = false ∧ operating s = true ∧ groupActive s f = true ∧ ownSlot (atTime s t) f m o = true ∧ s.ecc = []

/-- The context `c` runs on the Frond, and its accesses have begun again after a restore (R213). -/
def Runs (t : Time) (f : FrondId) (c : CtxId) (s : State) : Prop := runningCtx s f = some c ∧ (frond s f).resumeAt ≤ max s.now t

/-- When an access of the present slot has come back (R212). -/
def backAt (t : Time) (m : Mem) (s : State) : Time := slotStart (atTime s t) m + 6 * tFC s

/-- The context as a block, its end, or an end of a stall leaves it. -/
def unblocked (x y : Ctx) : Prop := y = { x with waitk := y.waitk, blk := y.blk, lost := y.lost, sbStalls := y.sbStalls, sbNinth := y.sbNinth }

/-- An owner's slot of a region's memory, in which it may append to the region, or take from it; `n` lines from the pointer `p` on are powered
(R214, R224, R225, R234). -/
def RegionTurn (t : Time) (f : FrondId) (c : CtxId) (who : Owner) (i : Fin 8) (asProd : Bool) (p n : Nat) (s : State) : Prop :=
  SlotOf (ownerSlot who) t f ((frond s f).circ.get i).mem' s ∧ runningCtx s f = some c ∧ circAllowed (frond s f) c who i asProd = true ∧
  circOn (frond s f) i p n = true

/-- A Shared Store port that works, has moved no line in this XC, and performs the transfer `x` next (R23). -/
def PortServes (t : Time) (port : Fin 16) (q ref : Nat) (rest : List (Nat × Nat)) (x : Xfer) (s : State) : Prop :=
  s.testMode = false ∧ operating s = true ∧ portUsed (atTime s t) (ssPortNo port) = false ∧
  (s.fabric.ports.get (ssPortNo port)).granted = (q, ref) :: rest ∧ xferOf s ref = some x ∧ s.ecc = []

/-- The word at an address as the program of a context loads it (R49, R148). -/
def wordSeen (s : State) (f : FrondId) (c : CtxId) (a : Nat) : Word := match ctxJob s f c with
  | some j => wordAt (inSeen s j a [rdWord s a]) 0
  | none => rdWord s a

/-- Outside the bytes from `a` to `b`, memory reads as before. -/
def OnlyBytes (a b : Nat) (s s' : State) : Prop := ∀ x, x < a ∨ b ≤ x → cellGet 0 s'.mem x = cellGet 0 s.mem x

/-- One Frond, event rings and counters, and memory: nothing else changes. -/
def OnlyFrondAndMemory (t : Time) (f : FrondId) (s s' : State) : Prop :=
  (∀ h, f ≠ h → frond s' h = frond s h) ∧
  s' = { s with now := max s.now t, fronds := s'.fronds, obs := s'.obs, mem := s'.mem, ecc := s'.ecc }

/-! ### Host accesses -/

/-- The state a host write meets: every spore of an earlier write has been accepted (R44), and a running replay has been marked as
perturbed (R446). -/
def hostSees (s : State) (t : Time) : State := setPerturb (if operating s = true then acceptAll s.pcie.sporeQ (atTime s t) else atTime s t)

/-- The host's access reaches the device (R437, R488). -/
def HostReaches (s : State) : Prop := s.testMode = false ∧ s.obs.halted = false ∧ s.pcie.up = true

/-- The bytes a function's buffer of doorbell line `l` holds. -/
def doorbellLine (s : State) (fn : FnId) (l : Nat) : List Host.Cell := (((s.pcie.fns.get fn).lines.find? (·.1 == l)).map (·.2)).getD []

/-- No queue descriptor holds a word in error, and the device works. -/
def QueuesSound (s : State) : Prop := s.testMode = false ∧ operating s = true ∧ s.ecc = []

/-! ### Records, rings and contexts -/

/-- The completion record of a buffer entry stands in its pool entry with a status, and waits for its ring (R39, R62). -/
def RecordFormed (s s' : State) (q : QueueId) (i : Fin 64) (st : Byte) : Prop :=
  field (rdWord s' (poolEntry s q i + 8)) 7 0 = st.toNat ∧ (∃ e, entryAt s' q i = some e ∧ e.st = .waiting) ∧
  ∃ r ∈ s'.ringQ, r.queue = q ∧ r.idx = i ∧ r.direct = none

/-- The vector of a ring is signalled to its function: a message is put before the egress in the class of the ring's partition, or the vector
is set pending while masked (R68, R260, R452). -/
def Signalled (s s' : State) (r : RingId) (b : Nat) : Prop :=
  let fn := ringOwner s r
  let pt := partOfRing s r.val
  let v := min (field (rdWord s (b + 12)) 10 0) (vectorsOf fn - 1)
  (s'.rings.get r).unsig = 0 ∧
  (v ∈ (s.pcie.fns.get fn).masked → v ∈ (s'.pcie.fns.get fn).pendingVec ∧ s'.fabric = s.fabric) ∧
  (v ∉ (s.pcie.fns.get fn).masked → s'.pcie = s.pcie ∧
    s'.fabric = { s.fabric with xfers := s.fabric.xfers ++ [{ id := s.nextId, req := egressClass pt, part := pt, x := .message fn v }] })

/-- Only one context of one Frond changed, with event rings and counters. -/
def OnlyContext (t : Time) (f : FrondId) (c : CtxId) (s s' : State) : Prop :=
  (∀ d, c ≠ d → ctx s' f d = ctx s f d) ∧ (∀ h, f ≠ h → frond s' h = frond s h) ∧
  frond s' f = { frond s f with ctxs := (frond s' f).ctxs, busySince := (frond s' f).busySince } ∧
  s' = { s with now := max s.now t, fronds := s'.fronds, obs := s'.obs }

/-- A command its state does not list: discarded and logged (R297, R432). -/
def Discarded (t : Time) (f : FrondId) (c : CtxId) (cmd : Nat) (s s' : State) : Prop :=
  ctx s' f c = { ctx s f c with cmd := 0 } ∧ OnlyContext t f c s s' ∧
  s'.obs = (logEvent (atTime s t) (uFrond f) 0x0A c.val (BitVec.ofNat 32 (cmd + at_ 8 (ctx s f c).st.code))).obs

/-- A context has entered TEARDOWN, its registers untouched (R297, R299). -/
def TearingDown (t : Time) (f : FrondId) (c : CtxId) (s s' : State) : Prop :=
  (ctx s' f c).st = .teardown ∧ (ctx s' f c).torn = false ∧ (ctx s' f c).tearAt = max s.now t ∧ (ctx s' f c).g = (ctx s f c).g ∧
  (ctx s' f c).job = (ctx s f c).job ∧ (ctx s' f c).astat = (ctx s f c).astat ∧ OnlyContext t f c s s'

/-! ### Frames -/

/-- The state behind a good data frame with the expected number: counted at its link (R337). -/
def rxState (s : State) (t : Time) (l : LinkId) : State :=
  modLink (atTime s t) l fun k => { k with rxCount := k.rxCount + 1, rxfr := k.rxfr + 1, rxWait := false, nakRun := 0, lastGood := max s.now t }

/-- A link in service of a device that works expects the frame with this number next. -/
def Expects (s : State) (l : LinkId) (num : BitVec 16) : Prop :=
  s.testMode = false ∧ operating s = true ∧ (s.links.get l).st = .inService ∧ num = (s.links.get l).rxCount

/-- A sound frame of a type reaches this device, its destination. -/
def FrameArrives (s : State) (l : LinkId) (ty : Nat) (f : Frame) : Prop :=
  Expects s l f.num ∧ f.crc = frameCrc ty f ∧ f.dnode.val = myNode s

/-- The same for a frame taken as structured content, of a unit that sends (R334). -/
def MessageArrives (s : State) (l : LinkId) (h : Hdr) : Prop :=
  Expects s l h.num ∧ h.good = true ∧ h.dnode.val = myNode s ∧ h.sfrond.toNat < 0x82

/-- A transfer on its way to its lottery port under the next id, and nothing else (R258 to R261). -/
def withXfer (s : State) (req : Fin 32) (part : Option PartId) (x : Xfer) : State :=
  { s with nextId := s.nextId + 1, fabric := { s.fabric with xfers := s.fabric.xfers ++ [{ id := s.nextId, req := req, part := part, x := x }] } }

/-- A packet has joined the egress queue of the link that leads to a node, if any does (R330, R334). -/
def SentTo (s s' : State) (node : Nat) (p : Packet) : Prop :=
  ∀ x, linkTo s node = some x → ∃ id, (s'.links.get x).outq = (s.links.get x).outq ++ [(id, p)]

/-- The home's answer to a line it refuses: a WACK with the line and the sending unit (R228, R334, R335). -/
def RefusedTo (s s' : State) (p : PartId) (node : Nat) (line : BitVec 20) (unit : BitVec 8) : Prop :=
  SentTo s s' node { part := p, snode := idx 127 (myNode s), dnode := idx 127 node, msg := .wack (mkFrame 5 p (myNode s) node 0x80 false 0 0
    [0, 1, line.setWidth 32, unit.setWidth 32]) }

/-- A link as training begins (R339). -/
def trainingLink (t : Time) (k : Link) : Link :=
  { k with
    st := .training, trainAt := t, frameLocked := false, joined := false, mismatch := false, samples := [], refusedBy344 := false
    admitAt := none, txCount := 0, rxCount := 0, rxWait := false, nakRun := 0, nakGot := 0, sinceCtrl := 0, echo := none, retry := [] }

/-- Every link but one is as before. -/
def otherLinks (l : LinkId) (s s' : State) : Prop := ∀ k, l ≠ k → s'.links.get k = s.links.get k

/-! ### The private TAP, counters, hangs and the stop -/

/-- The private TAP is linked and its last access is done (R415). -/
def TapFree (s : State) (t : Time) : Prop := s.testMode = false ∧ s.tap.linked = true ∧ s.tap.unlinkNext = false ∧ s.tap.busyUntil ≤ max s.now t

/-- What a capture shows after an access at `t` (R415). -/
def tapShows (s : State) (t : Time) (stat : BitVec 3) (x : Word) : Tap :=
  { s.tap with data := x, stat := stat, busyUntil := max s.now t + 2 * tUs }

/-- An access refused in this combination: TAPREF gains 1, nothing else happens (R415). -/
def TapRefused (t : Time) (s s' : State) : Prop :=
  s' = { s with now := max s.now t, tap := tapShows s t 1 0, sec := { s.sec with tapRef := satInc s.sec.tapRef } }

/-- BUSY of every Frond stands at the present: it gained the FC since it was last brought up, where a context ran unblocked
(R423); no other counter of a Frond changed. -/
def BusyUpToDate (t : Time) (s s' : State) : Prop :=
  (∀ f, frond s' f = { frond s f with busySince := max s.now t }) ∧
  ∀ f : FrondId, s'.obs.fcnt.get f = { s.obs.fcnt.get f with
    busy := if ∃ c, (frond s f).cur = some c ∧ (ctx s f c).st = .running ∧ (ctx s f c).waitk = .none then
        (s.obs.fcnt.get f).busy + BitVec.ofNat 32 (fcNow (atTime s t) - (frond s f).busySince / tFC s)
      else (s.obs.fcnt.get f).busy }

/-- A device that declares a hang now: the cause, and the counters frozen with FSRC 3 at the present AT edge (R426, R435). -/
def HangDeclared (t : Time) (cause : Byte) (s s' : State) : Prop :=
  s'.obs.hang = some (cause, max s.now t) ∧ s'.obs.snapStamp = edgeStamp (atTime s t) ∧ s'.obs.frz = false ∧
  (s.obs.fsrc.toNat ≤ 3 → s'.obs.fsrc = 3) ∧ (∀ f, frond s' f = { frond s f with busySince := (frond s' f).busySince }) ∧
  s'.obs.cut = s.obs.cut ∧ s'.obs.halted = s.obs.halted

/-- The same, and nothing else of the machine but what a freeze and an event touch. -/
def OnlyHangDeclared (t : Time) (cause : Byte) (s s' : State) : Prop :=
  HangDeclared t cause s s' ∧ s'.obs.stopReq = s.obs.stopReq ∧ s'.obs.cutDue = s.obs.cutDue ∧
  s' = { s with now := max s.now t, fronds := s'.fronds, obs := s'.obs }

/-- A stop is requested now: Q, and the cut at the first AT edge at or after Q + 2 AT (R437); the origin is this device. -/
def StopAsked (t : Time) (s s' : State) : Prop :=
  let q := stamp (atTime s t)
  s'.obs.stopReq = some q ∧ bit s'.obs.origin 7 = true ∧
  (∃ c, s'.obs.cutDue = some c ∧ c.toNat % 256 = 0 ∧ (q.toNat + 768 < 2 ^ 56 → q.toNat + 512 ≤ c.toNat ∧ c.toNat < q.toNat + 768) ∧
    ∀ l : LinkId, if treeStop s = true ∧ ((s.links.get l).st = .up ∨ (s.links.get l).st = .inService) then
        ∃ p, (s'.links.get l).sent = (s.links.get l).sent ++ [p] ∧ p.msg = .cut (idx 127 s.tree.node.toNat) c
      else s'.links.get l = s.links.get l)

/-- The device works. -/
def Works (s : State) : Prop := s.testMode = false ∧ operating s = true

/-- Only the control block of a replay at `b`, the replay's own state and time changed, beside what `s'` is compared with. -/
def OnlyReplay (t : Time) (b : Nat) (s s' : State) : Prop :=
  OnlyBytes b (b + 32) s s' ∧
  s' = { s with now := max s.now t, obs := { s.obs with replay := s'.obs.replay }, mem := s'.mem, ecc := s'.ecc }

/-- Control blocks of two rings share no byte. -/
def BlocksApart (s : State) : Prop :=
  ∀ r q a b, ringBlock s r = some a → ringBlock s q = some b → r ≠ q → a + 32 ≤ b ∨ b + 32 ≤ a

end Sys2Proof.Safety
end

