-- ==== Sys2Proof/Certificates/Slice0/Obligations.lean ====
section
/-!
DEFINITION. The statements for the provers. `Completes c s P` says that `exec c s` answers a next state of which P holds; each
clause gives the conditions on the state and the operands alone, the effect, and the frame.
-/
section
open Sys2Proof
open Sys2Proof.Machine Sys2Proof.Safety

/-- For every command c and state s: the step of s with c in front of its queue is exec of c on s with the queue's rest. With nothing in the queue the block idles (the model's choice, log entry 1). -/
def Obligations.StepRunsTheFrontCommand : Prop :=
  (∀ c rest s, s.pending = c :: rest → step s = exec c { s with pending := rest }) ∧
  (∀ s, s.pending = [] → step s = .next s)

/-- No command stops the device while it works under the manual: for every command and operands exec answers a next state, and its queue is the queue it was given. In manufacturing test every command but POWER_ON_RESET faults, since no rule of the manual applies to it (R466). -/
def Obligations.EveryCommandCompletesAndLeavesTheQueue : Prop :=
  (∀ c s, s.testMode = false → Completes c s fun s' => s'.pending = s.pending) ∧
  (∀ c s, s.testMode = true → (∀ t r, c ≠ .powerOnReset t r) → exec c s = .fault .manufacturingTest)

/-- PLL_LOCK, SEQUENCER_TAKE, CLOCK_STEP_DONE, RAMP_COMPLETE and PROOF_HOLD_DONE (R390, R392): a due PLL locks; the oldest ready request is taken, its
clock step lasting 0.25 µs (a move from Dormant-Warm to Dormant-Cold is a ramp alone); the ramp follows from the group's current to the level of
the state it goes to, then the hold of 0.25 µs; at its end an upward group is Active with its ready time now and WAKES counts, a downward group is
Dormant and SLEEPS counts. Nothing but the governor changes, and no other group. -/
def Obligations.SequencerMovesOneGroupThroughItsSteps : Prop :=
  (∀ t g s, s.testMode = false → (group s g).st = .cold → (∃ r, (group s g).req = some (.wake, r)) → (group s g).pll = false →
      (group s g).pllAt ≤ max s.now t →
    Completes (.pllLock t g) s fun s' => OnlyPower t s s' ∧ otherGroups g s s' ∧ group s' g = { group s g with pll := true }) ∧
  (∀ t s g target, s.testMode = false → s.power.seq = .idle → s.power.resetting = false → s.obs.halted = false →
      nextRequest s.power.groups = some (g, target) →
    Completes (.sequencerTake t) s fun s' => OnlyPower t s s' ∧ otherGroups g s s' ∧ (group s' g).req = none ∧
      (group s' g).st = (if target = .active then .proofUp else .proofDown) ∧
      if target = .cold ∧ (group s g).st = .warm then
        s'.power.seq = .ramp g .cold ∧ s'.power.rampFrom = (group s g).cur ∧ s'.power.rampTo = 16
      else s'.power.seq = .clock g target ∧ s'.power.stepAt = max s.now t + tStep) ∧
  (∀ t s g target, s.testMode = false → s.power.seq = .clock g target → s.power.stepAt ≤ max s.now t →
    Completes (.clockStepDone t) s fun s' => OnlyPower t s s' ∧ otherGroups g s s' ∧ s'.power.seq = .ramp g target ∧
      s'.power.rampFrom = (group s g).cur ∧ s'.power.rampTo = target.level ∧
      s'.power.stepAt = max s.now t +
        rampTicks s (max (group s g).cur target.level - min (group s g).cur target.level)) ∧
  (∀ t s g target, s.testMode = false → s.power.seq = .ramp g target → s.power.stepAt ≤ max s.now t → s.power.resetting = false →
      target = .active ∨ target = .warm →
    Completes (.rampComplete t) s fun s' => OnlyPower t s s' ∧ otherGroups g s s' ∧ s'.power.seq = .hold g target ∧
      s'.power.stepAt = max s.now t + tStep ∧ (group s' g).cur = target.level) ∧
  (∀ t s g, s.testMode = false → s.power.seq = .ramp g .cold → s.power.stepAt ≤ max s.now t → s.power.resetting = false →
      s.power.rampFrom = 120 → (group s g).rewake = false →
    Completes (.rampComplete t) s fun s' => OnlyPower t s s' ∧ otherGroups g s s' ∧ s'.power.seq = .idle ∧
      (group s' g).st = .cold ∧ (group s' g).pll = false ∧ (group s' g).cur = 16 ∧ s'.power.sleeps = satInc s.power.sleeps) ∧
  (∀ t s g, s.testMode = false → s.power.seq = .hold g .active → s.power.stepAt ≤ max s.now t →
    Completes (.proofHoldDone t) s fun s' => OnlyPower t s s' ∧ otherGroups g s s' ∧ s'.power.seq = .idle ∧
      (group s' g).st = .active ∧ (group s' g).ready = stamp s' ∧ s'.power.wakes = satInc s.power.wakes) ∧
  (∀ t s g target, s.testMode = false → s.power.seq = .hold g target → s.power.stepAt ≤ max s.now t → target = .warm ∨ target = .cold →
      (group s g).rewake = false →
    Completes (.proofHoldDone t) s fun s' => OnlyPower t s s' ∧ otherGroups g s s' ∧ s'.power.seq = .idle ∧
      (group s' g).st = target ∧ (group s' g).ready = BitVec.allOnes 56 ∧ s'.power.sleeps = satInc s.power.sleeps)

/-- IDLE_COUNT_EXPIRY and HALTED_RAMP (R390, R395, R403): outside the boundary window an idle Active group with TWARM idle windows asks to go to
Dormant-Warm, an idle Dormant-Warm group with TCOLD (not 0) asks for Dormant-Cold; a group that is kept awake or not idle asks for nothing. After a cut
the lowest-numbered group not yet Halted begins its way down, or is Halted at once when it draws no more than 1.5 A. -/
def Obligations.IdleGroupsAndHaltedGroupsGoDown : Prop :=
  (∀ t g s, s.testMode = false → operating s = true → replayRuns s = false → keepAwake s g = false → (group s g).req = none →
      s.power.windowOpen = false → s.power.resetting = false → groupIdle s g = true → (group s g).st = .active → twarm s ≤ (group s g).idle.toNat →
    Completes (.idleCountExpiry t g) s fun s' => OnlyPower t s s' ∧ otherGroups g s s' ∧
      group s' g = { group s g with req := some (.toWarm, max s.now t) }) ∧
  (∀ t g s, s.testMode = false → operating s = true → replayRuns s = false → keepAwake s g = false → (group s g).req = none →
      s.power.windowOpen = false → s.power.resetting = false → groupIdle s g = true → (group s g).st = .warm → tcold s ≠ 0 →
      tcold s ≤ (group s g).idle.toNat →
    Completes (.idleCountExpiry t g) s fun s' => OnlyPower t s s' ∧ otherGroups g s s' ∧
      group s' g = { group s g with req := some (.toCold, max s.now t) }) ∧
  (∀ t g s, s.testMode = false → keepAwake s g = true ∨ groupIdle s g = false →
    exec (.idleCountExpiry t g) s = .next { s with now := max s.now t }) ∧
  (∀ t s g, s.testMode = false → s.obs.halted = true → s.power.seq = .idle → s.power.resetting = false →
      (allFin 16).find? (fun g => (group s g).st != .halted && (group s g).st != .off) = some g →
    Completes (.haltedRamp t) s fun s' => OnlyPower t s s' ∧ otherGroups g s s' ∧ (group s' g).req = none ∧
      if (group s g).cur ≤ 120 then (group s' g).st = .halted ∧ s'.power.seq = .idle
      else (group s' g).st = .proofDown ∧ s'.power.seq = .clock g .halted ∧ s'.power.stepAt = max s.now t + tStep)

/-- POWER_ON_RESET (R361 for what is cleared, with R362, R400, R407): memory with its check state, Fronds, Loop Engine, links, fabric, queues and rings are at
their reset values, the lock is open, the boot controller is held in its first phase, every group is Off and LASTDROP is 0; each fuse copy is sensed from what is
programmed, CUR equals the sensed LIFE in all three copies, and flash, the programmed fuses and the queue stay. It completes in manufacturing test too. The
reset values themselves that the manual does not state are the model's (log entries 4 and 10). -/
def Obligations.PowerOnResetClearsEverythingVolatile : Prop :=
  ∀ t refsel s, Completes (.powerOnReset t refsel) s fun s' =>
    s'.mem = [] ∧ s'.ecc = [] ∧ s'.fronds = State.reset.fronds ∧ s'.le = State.reset.le ∧ s'.links = State.reset.links ∧
    s'.fabric = State.reset.fabric ∧ s'.rings = State.reset.rings ∧ s'.entries = [] ∧ s'.jobs = [] ∧ s'.programs = [] ∧
    locked s' = false ∧ s'.boot.phase = .held ∧ s'.boot.bootDone = false ∧ s'.boot.ready = false ∧
    (∀ g, (group s' g).st = .off ∧ (group s' g).cur = 0) ∧ s'.power.lastDrop = 0 ∧ s'.power.thermLatch = false ∧
    s'.fuses = { s.fuses with sRevoked := s.fuses.revoked, sDumap := s.fuses.dumap, sHash := s.fuses.hash } ∧
    s'.session.sLife = s.fuses.life ∧ curAgrees s' ∧ curOf s' = (if lifeSealed s' then .sealed else .opened) ∧ s'.session.scope = 0 ∧
    s'.testMode = false ∧ s'.timing.refsel = refsel ∧ s'.flash = s.flash ∧ s'.part = s.part ∧ s'.pending = s.pending

/-- THERMAL_CHECK, REFERENCE_LOSS, REFERENCE_RETURN (R400 to R405): a reading at or above the trip point on an awake, untripped device puts every group in
Off, clears the volatile state (outputs low, memory empty, lock open), latches the trip and sets LASTDROP to 2; readings all below it change nothing. Loss of the
reference does the same with LASTDROP 3, unless a trip of the same AT governs. Once the reference has been back for 10 ms a device that nothing holds starts its boot: every
group goes to Dormant-Cold. -/
def Obligations.DropsPutEveryGroupOffAndRecordTheirCause : Prop :=
  (∀ t temps x s, s.testMode = false → hottest temps = some x → tripPoint s ≤ x → s.boot.phase ≠ .held → s.power.thermLatch = false →
    Completes (.thermalCheck t temps) s fun s' =>
      (∀ g, (group s' g).st = .off ∧ (group s' g).cur = 0) ∧ s'.power.lastDrop = 2 ∧ s'.power.thermLatch = true ∧ s'.boot.phase = .held ∧
      locked s' = false ∧ s'.le = State.reset.le ∧ s'.fronds = State.reset.fronds ∧ s'.mem = [] ∧ s'.flash = s.flash ∧ s'.fuses = s.fuses ∧
      s'.session = Session.atReset s.session.sLife ∧ s'.pending = s.pending) ∧
  (∀ t temps x s, s.testMode = false → hottest temps = some x → x < tripPoint s →
    exec (.thermalCheck t temps) s = .next { s with now := max s.now t }) ∧
  (∀ t s, s.testMode = false → s.timing.refLost = false → s.boot.porHeld = false →
    Completes (.referenceLoss t) s fun s' =>
      (∀ g, (group s' g).st = .off ∧ (group s' g).cur = 0) ∧ (s.power.thermLatch = false → s'.power.lastDrop = 3) ∧
      s'.timing.refok = false ∧ s'.timing.refLost = true ∧ s'.boot.phase = .held ∧ locked s' = false ∧ s'.le = State.reset.le ∧
      s'.mem = [] ∧ s'.flash = s.flash ∧ s'.fuses = s.fuses ∧ s'.session = Session.atReset s.session.sLife ∧ s'.pending = s.pending) ∧
  (∀ t s, s.testMode = false → s.timing.refLost = true → s.timing.lostAt + 10 * tMs ≤ max s.now t → s.boot.resetPin = false →
      s.power.thermLatch = false → s.boot.released = none →
    Completes (.referenceReturn t) s fun s' => s'.timing.refLost = false ∧ s'.boot.phase = .pllWait ∧
      (∀ g, (group s' g).st = .cold ∧ (group s' g).cur = 16) ∧ s'.power.lastDrop = s.power.lastDrop ∧ s'.mem = [] ∧
      s'.session = Session.atReset s.session.sLife ∧ s'.flash = s.flash ∧ s'.fuses = s.fuses)

/-- RESET_INPUT, UNCORE_RAMP_COMPLETE, RESET_RELEASE (R361, R392, R403): asserted on an awake device with the sequencer at rest, the input withdraws every request and
begins the ramp of the lowest-numbered group that draws current to 0 A; memory and the lock stay until the uncore's ramp ends, when the volatile state is cleared and LASTDROP is
1. The upward uncore ramp sets the fabric at speed. Release of a held device with REFCLK starts the boot with every group in Dormant-Cold, and with TEST_MODE high after a power-on
reset it enters manufacturing test. -/
def Obligations.ResetInputIsGovernedAndReleaseBoots : Prop :=
  (∀ t s g, s.testMode = false → s.power.resetting = false → s.boot.phase ≠ .held → s.power.seq = .idle →
      (allFin 16).find? (fun g => decide (0 < (group s g).cur)) = some g →
    Completes (.resetInput t) s fun s' => s'.power.resetting = true ∧ (∀ h, (group s' h).req = none) ∧
      s'.power.seq = .ramp g .off ∧ s'.power.rampFrom = (group s g).cur ∧ s'.power.rampTo = 0 ∧ s'.boot.resetPin = true ∧
      s' = { s with now := max s.now t, power := s'.power, boot := s'.boot } ∧ locked s' = locked s) ∧
  (∀ t s, s.testMode = false → s.power.seq = .uncore true → s.power.stepAt ≤ max s.now t → s.boot.released = none →
    Completes (.uncoreRampComplete t) s fun s' => s'.power.lastDrop = 1 ∧ s'.mem = [] ∧ s'.ecc = [] ∧ locked s' = false ∧ s'.boot.bootDone = false ∧
      s'.le = State.reset.le ∧ s'.fronds = State.reset.fronds ∧ s'.session = Session.atReset s.session.sLife ∧ s'.flash = s.flash ∧
      s'.fuses = s.fuses ∧ s'.pending = s.pending) ∧
  (∀ t s, s.testMode = false → s.power.seq = .uncore false → s.power.stepAt ≤ max s.now t →
    Completes (.uncoreRampComplete t) s fun s' => OnlyPower t s s' ∧ s'.power.fabricFast = true ∧ s'.power.seq = .idle ∧
      s'.power.uncore = s.power.rampTo ∧ s'.power.groups = s.power.groups) ∧
  (∀ t bsref s, s.testMode = false → s.boot.resetPin = true → s.power.resetting = false → s.timing.refLost = false → s.power.thermLatch = false →
    Completes (.resetRelease t true bsref false []) s fun s' => s'.boot.phase = .pllWait ∧ s'.boot.resetPin = false ∧
      (∀ g, (group s' g).st = .cold ∧ (group s' g).cur = 16) ∧ s'.power.seq = .uncore false ∧
      s' = { s with now := max s.now t, power := s'.power, boot := s'.boot, timing := s'.timing }) ∧
  (∀ t bsref s, s.testMode = false → s.boot.resetPin = true → s.boot.porHeld = true →
    Completes (.resetRelease t true bsref true []) s fun s' => s'.testMode = true)

/-- MAJORITY_CHECK (R362): with one copy struck or none, after it the three lock copies are equal, and so are the three of CUR, and the fused copies are as before; with none struck they are the majority of what
stood, and MAJFIX is set where an item disagreed; where every copy agreed and nothing struck, nothing changes; where exactly one copy of the lock is struck and all else agrees, MAJFIX is set, MAJCNT gains 1 (saturating) and the boot controller's
ring gains one entry. -/
def Obligations.MajorityCheckVotesAndRewrites : Prop :=
  (∀ t s, s.testMode = false → disagreeing s = [] → exec (.majorityCheck t none) s = .next { s with now := max s.now t }) ∧
  (∀ t u s, s.testMode = false → Completes (.majorityCheck t u) s fun s' =>
      s'.boot.lock0 = s'.boot.lock1 ∧ s'.boot.lock1 = s'.boot.lock2 ∧ curAgrees s' ∧ s'.fuses = s.fuses ∧ s'.mem = s.mem ∧
      s'.session.scope = s.session.scope ∧ s'.session.remain = s.session.remain) ∧
  (∀ t s, s.testMode = false → Completes (.majorityCheck t none) s fun s' =>
      s'.boot.lock0 = locked s ∧ s'.boot.lock1 = locked s ∧ s'.boot.lock2 = locked s ∧ curAgrees s' ∧ curOf s' = curOf s ∧
      s'.boot.majFix = (s.boot.majFix || !(disagreeing s).isEmpty)) ∧
  (∀ t i s, s.testMode = false → disagreeing s = [] → Completes (.majorityCheck t (some (.lock i))) s fun s' =>
      locked s' = locked s ∧ curOf s' = curOf s ∧ s'.boot.majFix = true ∧ s'.boot.majCnt = satInc s.boot.majCnt ∧
      (s'.obs.rings.get 157).cnt = (s.obs.rings.get 157).cnt + 1) ∧
  (∀ t i b s, s.testMode = false → disagreeing s = [] → Completes (.majorityCheck t (some (.cur i b))) s fun s' =>
      locked s' = locked s ∧ curOf s' = curOf s ∧ s'.boot.majFix = true ∧ s'.boot.majCnt = satInc s.boot.majCnt ∧
      (s'.obs.rings.get 157).cnt = (s.obs.rings.get 157).cnt + 1)

/-- For every state that meets SecurityInv (the three copies of CUR agree; CUR is OPEN exactly when the LIFE sensed at the last power-on reset is OPEN), and every
command in front of its queue, the next state meets it (R407, R408): an upset of one copy is outvoted and rewritten, a token reaches SERVICE from SEALED alone, and every reset sets CUR to LIFE. -/
def Obligations.EveryStepKeepsTheSecurityInvariant : Prop :=
  ∀ s s', SecurityInv s → step s = .next s' → SecurityInv s'

/-- State.reset meets SecurityInv, with CUR OPEN: its fuses are blank, which is the model's choice (log entry 10). -/
def Obligations.ResetMeetsTheSecurityInvariant : Prop :=
  SecurityInv State.reset ∧ curOf State.reset = .opened

/-- From every state that meets SecurityInv and is not OPEN, with LIFE as fused reading SEALED by majority (which is what a power-on reset would sense), no command in front of the
queue leads to OPEN, whatever its operands (R407). -/
def Obligations.SealedNeverBecomesOpen : Prop :=
  ∀ s s', SecurityInv s → curOf s ≠ .opened →
    ((s.fuses.life[0] && s.fuses.life[1]) || (s.fuses.life[0] && s.fuses.life[2]) || (s.fuses.life[1] && s.fuses.life[2])) = true →
    step s = .next s' → curOf s' ≠ .opened

/-- TOKEN, TOKEN_BLOCK_GO and TOKEN_CHECK_DONE (R412): a presentation takes the next challenge from the entropy source (a free value, log entry 24); while the Hearth runs and TOKLOCK is 0 it joins the checks with
the challenge it must carry; with TOKLOCK or without the Hearth it is refused (log entry 25): TOKFAIL counts and TOKLOCK is set from the eighth. A check that finds the token good sets CUR to SERVICE with
the masked scope, REMAIN and SVCN; one that fails counts as refused and leaves the security state alone. -/
def Obligations.TokensRenewTheChallengeAndAreCheckedOrRefused : Prop :=
  (∀ t bytes s, s.testMode = false → s.sec.svcexitAt = none → operating s = true → s.sec.tokLock = false →
    Completes (.token t bytes) s fun s' => s'.sec.chal = Config.entropy s.freeCtr ∧ s'.sec.checking = s.sec.checking ++ [(bytes, s.sec.chal, max s.now t)] ∧
      s'.tap.ir = .token ∧ s'.sec.tokFail = s.sec.tokFail ∧ s'.session = s.session ∧
      s' = { s with now := max s.now t, freeCtr := s.freeCtr + 1, tap := s'.tap, sec := s'.sec }) ∧
  (∀ t bytes s, s.testMode = false → s.sec.svcexitAt = none → operating s = false ∨ s.sec.tokLock = true →
    Completes (.token t bytes) s fun s' => s'.sec.chal = Config.entropy s.freeCtr ∧ s'.sec.checking = s.sec.checking ∧ s'.sec.tokFail = satInc s.sec.tokFail ∧
      s'.sec.tokLock = (s.sec.tokLock || decide (8 ≤ (satInc s.sec.tokFail).toNat)) ∧ s'.session = s.session) ∧
  (∀ t s, s.testMode = false → s.pcie.up = true → s.sec.svcexitAt = none → operating s = true → s.sec.tokLock = false →
    Completes (.tokenBlockGo t) s fun s' => s'.sec.chal = Config.entropy s.freeCtr ∧
      s'.sec.checking = s.sec.checking ++ [(s.sec.tokenBlock, s.sec.chal, max s.now t)] ∧ s'.session = s.session ∧ s'.tap = s.tap ∧
      s' = { s with now := max s.now t, freeCtr := s.freeCtr + 1, sec := s'.sec }) ∧
  (∀ t b chal at0 rest s, s.testMode = false → s.sec.checking = (b, chal, at0) :: rest → operating s = true → lifeSealed s = true → curOf s ≠ .opened → svcEn s = true →
      s.sec.tokLock = false → tokenGood s b chal = true → BitVec.ofNat 8 (byteAt b 0x18).toNat &&& BitVec.ofNat 8 (field s.sec.secpol 15 8) ≠ 0 →
    Completes (.tokenCheckDone t) s fun s' => curOf s' = .service ∧ curAgrees s' ∧
      s'.session.scope = (BitVec.ofNat 8 (byteAt b 0x18).toNat &&& BitVec.ofNat 8 (field s.sec.secpol 15 8)) ∧
      s'.session.remain = BitVec.ofNat 16 (tokenDuration s b) ∧ s'.sec.svcn = satInc s.sec.svcn ∧ s'.sec.checking = rest ∧
      s' = { s with now := max s.now t, sec := s'.sec, session := s'.session }) ∧
  (∀ t b chal at0 rest s, s.testMode = false → s.sec.checking = (b, chal, at0) :: rest → operating s = true →
      lifeSealed s = false ∨ svcEn s = false ∨ s.sec.tokLock = true ∨ tokenGood s b chal = false →
    Completes (.tokenCheckDone t) s fun s' => s'.session = s.session ∧ s'.sec.tokFail = satInc s.sec.tokFail ∧ s'.sec.svcn = s.sec.svcn ∧
      s'.sec.checking = rest ∧ s' = { s with now := max s.now t, sec := s'.sec })

/-- REMAIN_TICK, SERVICE_EXPIRY and SVCEXIT (R413): in SERVICE REMAIN loses 1 after 3 840 000 AT; at 0, or on an SVCEXIT, CUR is SEALED, SCOPE 0, FABMODE.MODE NORMAL with nothing left in shadow, the private TAP
unlinked at its next update, with STAGEN 0 the staging session ended, and with TRCSEAL 0 the trace port idle. Outside SERVICE an SVCEXIT through the token block changes nothing. -/
def Obligations.ServiceCountsDownAndEndsInFiveSteps : Prop :=
  (∀ t s, s.testMode = false → curOf s = .service → s.session.remain ≠ 0 → s.session.remainAt + tSecond ≤ max s.now t →
    Completes (.remainTick t) s fun s' => s'.session.remain = s.session.remain - 1 ∧ s'.session.remainAt = s.session.remainAt + tSecond ∧
      curOf s' = .service ∧ s' = { s with now := max s.now t, session := s'.session }) ∧
  (∀ t s, s.testMode = false → curOf s = .service → s.session.remain = 0 →
    Completes (.serviceExpiry t) s fun s' => curOf s' = .sealed ∧ curAgrees s' ∧ s'.session.scope = 0 ∧ s'.fabric.mode = 1 ∧ s'.tap.unlinkNext = true ∧
      (stagEn s = false → s'.stg.session = false) ∧ (trcSeal s = false → s'.fabric.traceOn = false) ∧
      s' = { s with now := max s.now t, session := s'.session, fabric := s'.fabric, tap := s'.tap, stg := s'.stg }) ∧
  (∀ t viaTap s, s.testMode = false → curOf s = .service →
    Completes (.svcexit t viaTap) s fun s' => curOf s' = .sealed ∧ curAgrees s' ∧ s'.session.scope = 0 ∧ s'.fabric.mode = 1 ∧ s'.tap.unlinkNext = true ∧
      (viaTap = true → s'.tap.ir = .svcexit) ∧ (stagEn s = false → s'.stg.session = false) ∧ (trcSeal s = false → s'.fabric.traceOn = false) ∧
      s'.sec.svcexitAt = some (max s.now t) ∧ s'.mem = s.mem ∧ s'.fuses = s.fuses) ∧
  (∀ t s, s.testMode = false → curOf s ≠ .service → exec (.svcexit t false) s = .next { s with now := max s.now t })

/-- EXTEST, SAMPLE/PRELOAD, IDCODE, CLAMP, HIGHZ, BOOTSTAT, CHAL, DBGSEL, BYPASS and Test-Logic-Reset (R414): EXTEST, CLAMP and HIGHZ drive the pins while the device is held or OPEN and are executed as BYPASS otherwise; SAMPLE/PRELOAD captures the
141 pins; IDCODE, BOOTSTAT and CHAL capture the device's IDCODE, BOOTSTAT[7:0], and DEVID with CHAL; DBGSEL links the private TAP from the next Update-IR where CUR or SCOPE allows it; Test-Logic-Reset selects IDCODE and unlinks.
None of them changes anything but the TAP. -/
def Obligations.PublicTapInstructionsCaptureOrAreBypassed : Prop :=
  (∀ t bits s, s.testMode = false → tapDriveOk s = true →
    Completes (.extest t bits) s fun s' => OnlyTap t s s' ∧ s'.tap.ir = .extest ∧ s'.tap.boundary = bits ∧ s'.tap.pinsDriven = true ∧ s'.tap.pinsHighZ = false) ∧
  (∀ t bits s, s.testMode = false → tapDriveOk s = false →
    Completes (.extest t bits) s fun s' => OnlyTap t s s' ∧ s'.tap.ir = .bypass ∧ s'.tap.boundary = s.tap.boundary ∧ s'.tap.pinsDriven = false) ∧
  (∀ t pins bits s, s.testMode = false →
    Completes (.samplePreload t pins bits) s fun s' => OnlyTap t s s' ∧ s'.tap.ir = .samplePreload ∧ s'.tap.dr = bitsOf 141 pins.toNat ∧ s'.tap.boundary = bits) ∧
  (∀ t s, s.testMode = false →
    Completes (.idcode t) s fun s' => OnlyTap t s s' ∧ s'.tap.ir = .idcode ∧ s'.tap.dr = bitsOf 32 (idcodeOf s.part).toNat) ∧
  (∀ t s, s.testMode = false →
    Completes (.clamp t) s fun s' => OnlyTap t s s' ∧ s'.tap.ir = (if tapDriveOk s then .clamp else .bypass) ∧ s'.tap.pinsDriven = tapDriveOk s ∧
      s'.tap.boundary = s.tap.boundary) ∧
  (∀ t s, s.testMode = false →
    Completes (.highz t) s fun s' => OnlyTap t s s' ∧ s'.tap.ir = (if tapDriveOk s then .highz else .bypass) ∧ s'.tap.pinsHighZ = tapDriveOk s) ∧
  (∀ t s, s.testMode = false →
    Completes (.bootstat t) s fun s' => OnlyTap t s s' ∧ s'.tap.ir = .bootstat ∧ s'.tap.dr = bitsOf 8 s.boot.code.toNat) ∧
  (∀ t s, s.testMode = false →
    Completes (.chal t) s fun s' => OnlyTap t s s' ∧ s'.tap.ir = .chal ∧ s'.tap.dr = bitsOf 64 s.sec.devid.toNat ++ bitsOf 64 s.sec.chal.toNat) ∧
  (∀ t s, s.testMode = false →
    Completes (.dbgsel t) s fun s' => OnlyTap t s s' ∧ s'.tap.ir = (if dbgselOk s then .dbgsel else .bypass) ∧ s'.tap.linkNext = dbgselOk s) ∧
  (∀ t s, s.testMode = false →
    Completes (.bypass t) s fun s' => OnlyTap t s s' ∧ s'.tap.ir = .bypass ∧ s'.tap.dr = [false]) ∧
  (∀ t s, s.testMode = false →
    Completes (.testLogicReset t) s fun s' => OnlyTap t s s' ∧ s'.tap.ir = .idcode ∧ s'.tap.linked = false ∧ s'.tap.linkNext = false)

/-- TRACE_PACKET_SEND and TRACE_FRAME (R276, R429, R430): with the port running and 61 XC past the last grant, a collector's oldest full packet, or its records of 1 µs age filled up with NULL records, joins the trace queue. The port sends a SYNC
packet first, after 256 packets and after a STEP, and otherwise the oldest packet of the queue, each with its CRC-32; a port that may not run idles. Nothing but the fabric block changes. -/
def Obligations.TracePortSendsPacketsInOrder : Prop :=
  (∀ t r p ps s, s.testMode = false → traceRuns s = true → s.fabric.traceAt + 61 * tXC ≤ max s.now t → (s.fabric.coll.get r).packets = p :: ps →
    Completes (.tracePacketSend t r) s fun s' => OnlyFabric t s s' ∧ s'.fabric.traceQ = s.fabric.traceQ ++ [p] ∧ (s'.fabric.coll.get r).packets = ps ∧
      s'.fabric.traceAt = max s.now t ∧ ∀ q, r ≠ q → s'.fabric.coll.get q = s.fabric.coll.get q) ∧
  (∀ t r t0 w rs s, s.testMode = false → traceRuns s = true → s.fabric.traceAt + 61 * tXC ≤ max s.now t → (s.fabric.coll.get r).packets = [] →
      (s.fabric.coll.get r).recs = (t0, w) :: rs → rs.length < 8 → t0 + tUs ≤ max s.now t →
    Completes (.tracePacketSend t r) s fun s' => OnlyFabric t s s' ∧ (s'.fabric.coll.get r).recs = [] ∧
      s'.fabric.traceQ = s.fabric.traceQ ++ [w :: rs.map (·.2) ++ List.replicate (7 - rs.length) traceNull]) ∧
  (∀ t s, s.testMode = false → traceRuns s = true → s.fabric.traceOn = false ∨ s.fabric.stepDue = true ∨ 256 ≤ s.fabric.sinceSync →
    Completes (.traceFrame t) s fun s' => OnlyFabric t s s' ∧ s'.fabric.traceOn = true ∧ s'.fabric.sinceSync = 0 ∧ s'.fabric.stepDue = false ∧
      s'.fabric.traceSeq = s.fabric.traceSeq + 1 ∧ s'.fabric.traceQ = s.fabric.traceQ ∧ (s'.fabric.traceOut.getLast?).map (·.recs) = some (syncPacket (atTime s t))) ∧
  (∀ t p ps s, s.testMode = false → traceRuns s = true → s.fabric.traceOn = true → s.fabric.stepDue = false → s.fabric.sinceSync < 256 → s.fabric.traceQ = p :: ps →
    Completes (.traceFrame t) s fun s' => OnlyFabric t s s' ∧ s'.fabric.traceQ = ps ∧ s'.fabric.sinceSync = s.fabric.sinceSync + 1 ∧
      s'.fabric.traceOut = s.fabric.traceOut ++ [{ recs := p, crc := crc32 (wordsBytes p.flatten) }]) ∧
  (∀ t s, s.testMode = false → traceRuns s = false →
    Completes (.traceFrame t) s fun s' => OnlyFabric t s s' ∧ s'.fabric.traceOn = false ∧ s'.fabric.traceQ = [] ∧ s'.fabric.traceOut = s.fabric.traceOut)

/-- BOOT_PLL_LOCK, SFDP_READ, OCTAL_MODE_ENTRY, DQS_CALIBRATION (R363, R383, R387): each leads to the next phase where its check holds; a missing signature or revision, a missing table or mode, too small a flash, a refused octal mode
or any of the 32 calibration reads that differs stops the boot with 0x10, 0x11, 0x12, 0x11 or 0x13. A stopped boot leaves memory empty, the lock open and READY low. -/
def Obligations.FlashDiscoveryLeadsToTheHeadersOrStops : Prop :=
  (∀ t s, s.testMode = false → s.boot.phase = .pllWait →
    exec (.bootPllLock t) s = .next { s with now := max s.now t, boot := { s.boot with phase := .sfdp, phaseAt := max s.now t } }) ∧
  (∀ t r s, s.testMode = false → s.boot.phase = .sfdp → s.boot.phaseAt + tMs ≤ max s.now t → r.signature = true → 8 ≤ r.minorRev.toNat →
      r.basicTable = true → r.profileTable = true → r.read8D = true → r.addr4 = true → r.erase4K = true → 2 ^ 28 ≤ r.bytes →
    exec (.sfdpRead t r) s = .next { s with
      now := max s.now t, boot := { s.boot with phase := .octal, phaseAt := max s.now t, erase64K := r.erase64K } }) ∧
  (∀ t r s, s.testMode = false → s.boot.phase = .sfdp → s.boot.phaseAt + tMs ≤ max s.now t →
      r.signature = false ∨ r.minorRev.toNat < 8 ∨ r.basicTable = false ∨ r.profileTable = false ∨ r.read8D = false ∨ r.addr4 = false ∨
        r.erase4K = false ∨ r.bytes < 2 ^ 28 →
    Completes (.sfdpRead t r) s fun s' => s'.boot.phase = .stopped ∧ s'.mem = [] ∧ locked s' = false ∧ s'.boot.ready = false ∧ s'.flash = s.flash ∧
      s'.boot.code = (if r.signature = false ∨ r.minorRev.toNat < 8 then 0x10
        else if r.basicTable = false ∨ r.profileTable = false ∨ r.read8D = false ∨ r.addr4 = false ∨ r.erase4K = false then 0x11 else 0x12)) ∧
  (∀ t s, s.testMode = false → s.boot.phase = .octal →
    exec (.octalModeEntry t true) s = .next { s with now := max s.now t, boot := { s.boot with phase := .calib, phaseAt := max s.now t } }) ∧
  (∀ t s, s.testMode = false → s.boot.phase = .octal →
    Completes (.octalModeEntry t false) s fun s' => s'.boot.phase = .stopped ∧ s'.boot.code = 0x11 ∧ s'.mem = [] ∧ locked s' = false ∧ s'.flash = s.flash) ∧
  (∀ t reads s, s.testMode = false → s.boot.phase = .calib → reads.length = 32 → (∀ r ∈ reads, r = true) →
    exec (.dqsCalibration t reads) s = .next { s with now := max s.now t, boot := { s.boot with phase := .headers, phaseAt := max s.now t } }) ∧
  (∀ t reads s, s.testMode = false → s.boot.phase = .calib → false ∈ reads →
    Completes (.dqsCalibration t reads) s fun s' => s'.boot.phase = .stopped ∧ s'.boot.code = 0x13 ∧ s'.mem = [] ∧ locked s' = false ∧ s'.flash = s.flash)

/-- HEADER_READ, VERIFY_PASS and LOAD_PASS (R374 to R376): slots whose header and directory stand become candidates, the higher generation first and A first on a tie; with none the boot stops with 0x20. The pass of the next candidate records its reason; a valid one
that is alone or of the higher generation is chosen for loading, and one that is not valid leaves the other to its pass or, as the last, stops the boot with 0x24 (no key acceptable) or 0x21; of two of equal generation both are judged, and the valid one is chosen, A where their
digests agree, with 0x22 where they differ and 0x21 where none is valid. The load pass reads the slot again, `rr` giving the bytes that read differently: a digest that was not verified stops the boot with 0x26, an ECC error with 0x30; else the firmware starts and the image's
generation, digest and build id stand. It waits until every group is Active where the image has Frond records. -/
def Obligations.ImageSelectionJudgesEachSlot : Prop :=
  (∀ t s, s.testMode = false → s.boot.phase = .headers → frontReason s .a = 7 → frontReason s .b ≠ 7 →
    Completes (.headerRead t) s fun s' => s'.boot.phase = .verify ∧ s'.boot.cand = [.a] ∧ s'.boot.verified = [] ∧ s'.boot.aReason = 7 ∧
      s'.boot.bReason = frontReason s .b ∧ s' = { s with now := max s.now t, boot := s'.boot }) ∧
  (∀ t s, s.testMode = false → s.boot.phase = .headers → frontReason s .a ≠ 7 → frontReason s .b = 7 →
    Completes (.headerRead t) s fun s' => s'.boot.phase = .verify ∧ s'.boot.cand = [.b] ∧ s'.boot.verified = [] ∧ s'.boot.aReason = frontReason s .a ∧
      s'.boot.bReason = 7 ∧ s' = { s with now := max s.now t, boot := s'.boot }) ∧
  (∀ t s, s.testMode = false → s.boot.phase = .headers → frontReason s .a = 7 → frontReason s .b = 7 →
    Completes (.headerRead t) s fun s' => s'.boot.phase = .verify ∧
      s'.boot.cand = (if slotGen s .a < slotGen s .b then [.b, .a] else [.a, .b]) ∧ s' = { s with now := max s.now t, boot := s'.boot }) ∧
  (∀ t s, s.testMode = false → s.boot.phase = .headers → frontReason s .a ≠ 7 → frontReason s .b ≠ 7 →
    Completes (.headerRead t) s fun s' => s'.boot.phase = .stopped ∧ s'.boot.code = 0x20 ∧ s'.boot.aReason = frontReason s .a ∧
      s'.boot.bReason = frontReason s .b ∧ s'.mem = [] ∧ s'.flash = s.flash) ∧
  (∀ t sl s, s.testMode = false → s.boot.phase = .verify → s.boot.cand = [sl] → s.boot.verified = [] →
    Completes (.verifyPass t) s fun s' =>
      let r := judgeSlot s (curOf s) s.flash sl (slotHeader s sl)
      slotReason s' sl = r ∧ s'.flash = s.flash ∧ s'.mem = (if r = 0 then s.mem else []) ∧
      if r = 0 then s'.boot.phase = .load ∧ s'.boot.chosen = sl
      else s'.boot.phase = .stopped ∧ s'.boot.code = (if r = 5 then 0x24 else 0x21)) ∧
  (∀ t x y s, s.testMode = false → s.boot.phase = .verify → s.boot.cand = [x, y] → x ≠ y → slotGen s .a ≠ slotGen s .b → s.boot.verified = [] →
    Completes (.verifyPass t) s fun s' =>
      let r := judgeSlot s (curOf s) s.flash x (slotHeader s x)
      slotReason s' x = r ∧ s'.flash = s.flash ∧ s'.mem = s.mem ∧
      if r = 0 then s'.boot.phase = .load ∧ s'.boot.chosen = x else s'.boot.phase = .verify ∧ s'.boot.verified.map (·.slot) = [x]) ∧
  (∀ t x y v s, s.testMode = false → s.boot.phase = .verify → s.boot.cand = [x, y] → x ≠ y → slotGen s .a ≠ slotGen s .b → s.boot.verified = [v] → v.slot = x →
    Completes (.verifyPass t) s fun s' =>
      let r := judgeSlot s (curOf s) s.flash y (slotHeader s y)
      slotReason s' y = r ∧ s'.flash = s.flash ∧
      if r = 0 then s'.boot.phase = .load ∧ s'.boot.chosen = y ∧ s'.mem = s.mem
      else s'.boot.phase = .stopped ∧ s'.boot.code = (if slotReason s x = 5 ∧ r = 5 then 0x24 else 0x21) ∧ s'.mem = []) ∧
  (∀ t s, s.testMode = false → s.boot.phase = .verify → s.boot.cand = [.a, .b] → slotGen s .a = slotGen s .b → s.boot.verified = [] →
    Completes (.verifyPass t) s fun s' => slotReason s' .a = judgeSlot s (curOf s) s.flash .a (slotHeader s .a) ∧
      s'.boot.phase = .verify ∧ s'.boot.verified.map (·.slot) = [.a] ∧ s' = { s with now := max s.now t, boot := s'.boot }) ∧
  (∀ t v s, s.testMode = false → s.boot.phase = .verify → s.boot.cand = [.a, .b] → slotGen s .a = slotGen s .b → s.boot.verified = [v] → v.slot = .a →
    Completes (.verifyPass t) s fun s' =>
      let r := judgeSlot s (curOf s) s.flash .b (slotHeader s .b)
      slotReason s' .b = r ∧ s'.flash = s.flash ∧
      if v.valid = true ∧ r = 0 then
        if v.digest = imageDigest (slotHeader s .b) (slotBody s s.flash .b) then s'.boot.phase = .load ∧ s'.boot.chosen = .a
        else s'.boot.phase = .stopped ∧ s'.boot.code = 0x22 ∧ s'.mem = []
      else if v.valid = true then s'.boot.phase = .load ∧ s'.boot.chosen = .a
      else if r = 0 then s'.boot.phase = .load ∧ s'.boot.chosen = .b
      else s'.boot.phase = .stopped ∧ s'.boot.code = 0x21 ∧ s'.mem = []) ∧
  (∀ t rr s, s.testMode = false → s.boot.phase = .load → loadAwake s rr →
    Completes (.loadPass t rr false) s fun s' =>
      let d := imageDigest (slotHeader s s.boot.chosen) (slotBody s (reread s rr) s.boot.chosen)
      if ∃ v ∈ s.boot.verified, v.slot = s.boot.chosen ∧ v.digest = d then
        s'.boot.phase = .fwStart ∧ s'.boot.imgGen = BitVec.ofNat 64 (slotGen s s.boot.chosen) ∧ s'.boot.imgDig = d ∧
        s'.boot.buildId = ((slotHeader s s.boot.chosen).drop 0x40).take 16
      else s'.boot.phase = .stopped ∧ s'.boot.code = 0x26 ∧ s'.mem = [] ∧ s'.flash = s.flash) ∧
  (∀ t rr s, s.testMode = false → s.boot.phase = .load → loadAwake s rr →
    Completes (.loadPass t rr true) s fun s' => s'.boot.phase = .stopped ∧ s'.boot.code = 0x30 ∧ s'.mem = [] ∧ s'.flash = s.flash)

/-- FIRMWARE_READY, FW_START_TIMEOUT, PROGRAM_SET_DIGEST, LOCK_SEQUENCE, BOOT_READY (R376, R379): the ready word within 100 ms leads to the digest, its absence stops the boot with 0x31; the digest is the SHA-256 of the program records and the powered W memories; the
lock sequence sets the three lock copies, commits the tickets, reloads every generator from SEED, sets every credit to BURST and MODE to NORMAL; when priming ends READY and BOOT_DONE are set and the code is 0x00, or 0x02 after a higher generation was rejected, and of the CACHE 1 pairs every one whose priming does not fail is valid, and no other. How a priming ends is a
free value (log entry 23). -/
def Obligations.LockSequenceLocksAndReadyEndsTheBoot : Prop :=
  (∀ t s, s.testMode = false → s.boot.phase = .fwStart → max s.now t ≤ s.boot.phaseAt + 100 * tMs →
    exec (.firmwareReady t) s = .next { s with now := max s.now t, boot := { s.boot with phase := .digest, phaseAt := max s.now t } }) ∧
  (∀ t s, s.testMode = false → s.boot.phase = .fwStart → s.boot.phaseAt + 100 * tMs ≤ max s.now t →
    Completes (.fwStartTimeout t) s fun s' => s'.boot.phase = .stopped ∧ s'.boot.code = 0x31 ∧ s'.mem = [] ∧ locked s' = false ∧ s'.flash = s.flash) ∧
  (∀ t s, s.testMode = false → s.boot.phase = .digest →
    Completes (.programSetDigest t) s fun s' => s'.boot.phase = .lock ∧
      s'.boot.progDigest = sha256 (programBytes s ++ (allFin 128).flatMap (poweredW s)) ∧ s' = { s with now := max s.now t, boot := s'.boot }) ∧
  (∀ t s, s.testMode = false → s.boot.phase = .lock →
    Completes (.lockSequence t) s fun s' => locked s' = true ∧ s'.boot.lock0 = true ∧ s'.boot.lock1 = true ∧ s'.boot.lock2 = true ∧ s'.boot.phase = .priming ∧
      s'.fabric.mode = 1 ∧ s'.fabric.live = clampAge s.fabric s.fabric.shadow ∧ s'.fabric.shadow = s'.fabric.live ∧
      (∀ k, (s'.fabric.ports.get k).lfsr = lfsrLoad s.fabric.shadow.seed k.val) ∧
      (∀ k p, (s'.fabric.ports.get k).credit.get p = Int.ofNat (regOf s.fabric (portClass k) p).burst.toNat * 256) ∧
      s' = { s with now := max s.now t, boot := s'.boot, fabric := s'.fabric, obs := s'.obs }) ∧
  (∀ t s, s.testMode = false → s.boot.phase = .priming → s.power.resetting = false → s.obs.halted = false →
    Completes (.bootReady t) s fun s' => s'.boot.ready = true ∧ s'.boot.bootDone = true ∧ s'.boot.phase = .ready ∧
      s'.boot.code = (if s.boot.lower then 0x02 else 0x00) ∧ locked s' = locked s ∧
      (∀ f p, p ∈ (s'.fronds.get f).cacheValid → p ∈ cachePrograms s f) ∧
      (∀ f p, p ∈ cachePrograms s f → (∀ n, Config.primeFails n f.val p = false) → p ∈ (s'.fronds.get f).cacheValid) ∧
      s' = { s with now := max s.now t, freeCtr := s'.freeCtr, boot := s'.boot, fronds := s'.fronds, obs := s'.obs })

/-- STG_BEGIN, STG_ERASE, STG_PROGRAM, STG_READBACK, STG_FINALIZE and STG_ABORT (R385 for the discard while BUSY, with R386): while BUSY each is discarded and counted in REJ; with no right to stage each answers DENIED; ERASE, PROGRAM, FINALIZE and ABORT answer NOSESSION outside
a session; otherwise BEGIN, ERASE, PROGRAM, READBACK and FINALIZE set BUSY with their clamped operands (RANGE when LEN is clamped to 0), and ABORT ends the session with DONE. The flash is unchanged by all of them. -/
def Obligations.StagingCommandsStartOrAnswerAtOnce : Prop :=
  (∀ t c s, s.testMode = false → stagingServed s = true → s.stg.busy = true →
      (∃ foff len boff, c ∈ [Instr.stgBegin t, .stgErase t foff len, .stgProgram t foff len boff, .stgReadback t foff len boff, .stgFinalize t, .stgAbort t]) →
    exec c s = .next { s with now := max s.now t, stg := { s.stg with rej := satInc s.stg.rej } }) ∧
  (∀ t c s, s.testMode = false → stagingServed s = true → s.stg.busy = false → stagingOk s = false →
      (∃ foff len boff, c ∈ [Instr.stgBegin t, .stgErase t foff len, .stgProgram t foff len boff, .stgReadback t foff len boff, .stgFinalize t, .stgAbort t]) →
    exec c s = .next { s with now := max s.now t, stg := { s.stg with result := 6 } }) ∧
  (∀ t s, s.testMode = false → stagingServed s = true → s.stg.busy = false → stagingOk s = true →
    exec (.stgBegin t) s = .next { s with now := max s.now t, stg := { s.stg with
      cmdReg := 1, busy := true, pendResult := 0, session := false, header := List.replicate 256 0xFF } }) ∧
  (∀ t foff len s, s.testMode = false → stagingServed s = true → s.stg.busy = false → stagingOk s = true → s.stg.session = true →
      min len.toNat (slotSize - foff.toNat / 4096 * 4096) ≠ 0 →
    Completes (.stgErase t foff len) s fun s' => s'.stg.busy = true ∧ s'.stg.cmdReg = 2 ∧ s'.stg.foff.toNat = foff.toNat / 4096 * 4096 ∧
      s'.stg.len.toNat = min len.toNat (slotSize - foff.toNat / 4096 * 4096) ∧ s' = { s with now := max s.now t, stg := s'.stg }) ∧
  (∀ t foff len boff s, s.testMode = false → stagingServed s = true → s.stg.busy = false → stagingOk s = true → s.stg.session = true →
      (stgOperands s 256 true foff len boff).2.1 ≠ 0 →
    Completes (.stgProgram t foff len boff) s fun s' => s'.stg.busy = true ∧ s'.stg.cmdReg = 3 ∧ s'.stg.foff.toNat = foff.toNat / 256 * 256 ∧
      s'.stg.boff.toNat + s'.stg.len.toNat ≤ stgBufSize s ∧ s' = { s with now := max s.now t, stg := s'.stg }) ∧
  (∀ t foff len boff s, s.testMode = false → stagingServed s = true → s.stg.busy = false → stagingOk s = true →
      (stgOperands s 256 true foff len boff).2.1 ≠ 0 →
    Completes (.stgReadback t foff len boff) s fun s' => s'.stg.busy = true ∧ s'.stg.cmdReg = 4 ∧ s'.stg.foff.toNat = foff.toNat / 256 * 256 ∧
      s'.stg.boff.toNat + s'.stg.len.toNat ≤ stgBufSize s ∧ s' = { s with now := max s.now t, stg := s'.stg }) ∧
  (∀ t s, s.testMode = false → stagingServed s = true → s.stg.busy = false → stagingOk s = true → s.stg.session = true →
    Completes (.stgFinalize t) s fun s' => s'.stg.busy = true ∧ s'.stg.cmdReg = 5 ∧ s'.stg.finalHdr = s.stg.header ∧
      s'.stg.pendResult = (if judgeSlot s (curOf s) s.flash (tslot s) s.stg.header ≠ 0 then 3
        else if hdrGen s.stg.header ≤ s.boot.imgGen.toNat then 4 else 0) ∧ s' = { s with now := max s.now t, stg := s'.stg }) ∧
  (∀ t s, s.testMode = false → stagingServed s = true → s.stg.busy = false → stagingOk s = true → s.stg.session = true →
    exec (.stgAbort t) s = .next { s with now := max s.now t, stg := { s.stg with session := false, header := List.replicate 256 0xFF, result := 0 } }) ∧
  (∀ t c s, s.testMode = false → stagingServed s = true → s.stg.busy = false → stagingOk s = true → s.stg.session = false →
      c = .stgFinalize t ∨ c = .stgAbort t →
    exec c s = .next { s with now := max s.now t, stg := { s.stg with result := 5 } })

/-- STAGING_COMMAND_DONE (R385, R386): BEGIN erases the first 4 KiB of the target slot and opens the session; ERASE sets its rounded range to 0xFF; PROGRAM changes no byte of the target slot below 0x1000 and holds those bytes in the header buffer; READBACK leaves the flash alone; FINALIZE writes the held
header only with verdict DONE; a failure reported by the flash leaves it as it was and answers FLASHERR. Outside the named range every byte of the flash reads as before, and BUSY clears. -/
def Obligations.StagingWorkWritesTheFlashItNames : Prop :=
  (∀ t s, s.testMode = false → operating s = true → s.stg.busy = true → s.stg.cmdReg = 1 → s.stg.pendResult = 0 →
    Completes (.stagingCommandDone t false) s fun s' => s'.stg.busy = false ∧ s'.stg.result = 0 ∧ s'.stg.session = true ∧
      (∀ a, slotBase (tslot s) ≤ a → a < slotBase (tslot s) + 4096 → cellGet 0xFF s'.flash a = 0xFF) ∧
      (∀ a, a < slotBase (tslot s) ∨ slotBase (tslot s) + 4096 ≤ a → cellGet 0xFF s'.flash a = cellGet 0xFF s.flash a) ∧
      s' = { s with now := max s.now t, stg := s'.stg, flash := s'.flash }) ∧
  (∀ t s, s.testMode = false → operating s = true → s.stg.busy = true → s.stg.cmdReg = 2 → s.stg.pendResult = 0 →
    Completes (.stagingCommandDone t false) s fun s' => s'.stg.busy = false ∧ s'.stg.result = 0 ∧
      (∀ i, s.stg.foff.toNat ≤ i → i < s.stg.foff.toNat + s.stg.len.toNat → i < slotSize → cellGet 0xFF s'.flash (slotBase (tslot s) + i) = 0xFF) ∧
      (∀ a, a < slotBase (tslot s) + s.stg.foff.toNat ∨ slotBase (tslot s) + ceilDiv (s.stg.foff.toNat + s.stg.len.toNat) 4096 * 4096 ≤ a →
        cellGet 0xFF s'.flash a = cellGet 0xFF s.flash a) ∧ s' = { s with now := max s.now t, stg := s'.stg, flash := s'.flash }) ∧
  (∀ t s, s.testMode = false → operating s = true → s.stg.busy = true → s.stg.cmdReg = 3 → s.stg.pendResult = 0 →
    Completes (.stagingCommandDone t false) s fun s' => s'.stg.busy = false ∧ s'.stg.result = 0 ∧
      (∀ i, 0x1000 ≤ s.stg.foff.toNat + i → i < s.stg.len.toNat →
        cellGet 0xFF s'.flash (slotBase (tslot s) + s.stg.foff.toNat + i) = cellGet 0 s.mem (stgBufBase s + s.stg.boff.toNat + i)) ∧
      (∀ a, a < slotBase (tslot s) + max 0x1000 s.stg.foff.toNat ∨ slotBase (tslot s) + s.stg.foff.toNat + s.stg.len.toNat ≤ a →
        cellGet 0xFF s'.flash a = cellGet 0xFF s.flash a) ∧
      (∀ i, i < s.stg.len.toNat → s.stg.foff.toNat + i < 256 →
        byteAt s'.stg.header (s.stg.foff.toNat + i) = cellGet 0 s.mem (stgBufBase s + s.stg.boff.toNat + i)) ∧
      s' = { s with now := max s.now t, stg := s'.stg, flash := s'.flash }) ∧
  (∀ t s, s.testMode = false → operating s = true → s.stg.busy = true → s.stg.cmdReg = 4 → s.stg.pendResult = 0 →
    Completes (.stagingCommandDone t false) s fun s' => s'.stg.busy = false ∧ s'.flash = s.flash ∧
      (∀ i, i < s.stg.len.toNat → cellGet 0 s'.mem (stgBufBase s + s.stg.boff.toNat + i) =
        cellGet 0xFF s.flash (slotBase (tslot s) + s.stg.foff.toNat + i)) ∧
      (∀ a, a < stgBufBase s + s.stg.boff.toNat ∨ stgBufBase s + s.stg.boff.toNat + s.stg.len.toNat ≤ a → cellGet 0 s'.mem a = cellGet 0 s.mem a)) ∧
  (∀ t s, s.testMode = false → operating s = true → s.stg.busy = true → s.stg.cmdReg = 5 → s.stg.pendResult ≠ 0 →
    Completes (.stagingCommandDone t false) s fun s' => s'.stg.busy = false ∧ s'.stg.result = s.stg.pendResult ∧ s'.stg.session = false ∧ s'.flash = s.flash) ∧
  (∀ t s, s.testMode = false → operating s = true → s.stg.busy = true → s.stg.cmdReg = 1 ∨ s.stg.cmdReg = 2 ∨ s.stg.cmdReg = 3 →
    Completes (.stagingCommandDone t true) s fun s' => s'.stg.busy = false ∧ s'.stg.result = 2 ∧ s'.flash = s.flash ∧ s'.mem = s.mem)

/-- LOTTERY_CONTEST (R258, R263 to R265, R273): at a port that runs and whose next contest is due, with nothing waiting, the arrival of a transfer of the device class is granted: at a Shared Store port it joins the granted list in order, at the PCI Express egress a
message leaves for the host, at a link egress the frame leaves. Of two such arrivals of different router inputs at a Shared Store port, with no AGE of 0, the draw over their tickets grants exactly one and the other waits in a pending entry with age 1; one without tickets loses to
one with them, and no draw is made. With no arrivals nothing is granted, and a contest that is not due changes nothing. -/
def Obligations.LotteryGrantsByAgeThenByTickets : Prop :=
  (∀ t p e s, ContestAt t p s → portClass p = 0 → NextTransfer s p e → e.part = none →
    Completes (.lotteryContest t p [arrivalOf p e]) s fun s' =>
      (s'.fabric.ports.get p).granted = (s.fabric.ports.get p).granted ++ [(e.req.val, e.id)] ∧ (s'.fabric.ports.get p).cons = [] ∧
      (s'.fabric.ports.get p).grants = (s.fabric.ports.get p).grants + 1 ∧ (s'.fabric.ports.get p).lastAt = some (max s.now t) ∧
      (s'.fabric.ports.get p).credit = ((s.fabric.ports.get p).accrue s.fabric p (xcNow (atTime s t))).credit ∧
      s'.fabric.xfers = s.fabric.xfers ∧ (∀ q, p ≠ q → s'.fabric.ports.get q = s.fabric.ports.get q) ∧ OnlyFabric t s s') ∧
  (∀ t e fn v s, ContestAt t 16 s → NextTransfer s 16 e → e.part = none → e.x = .message fn v →
    Completes (.lotteryContest t 16 [arrivalOf 16 e]) s fun s' =>
      (s'.pcie.fns.get fn).msgs = (s.pcie.fns.get fn).msgs ++ [v] ∧ s'.fabric.xfers = s.fabric.xfers.filter (·.id != e.id) ∧
      (s'.fabric.ports.get 16).grants = (s.fabric.ports.get 16).grants + 1 ∧
      s' = { s with now := max s.now t, fabric := s'.fabric, pcie := s'.pcie }) ∧
  (∀ t l e q s, ContestAt t (linkPort l) s → NextTransfer s (linkPort l) e → e.part = none → e.x = .frame l →
      (s.links.get l).outq.find? (·.1 == e.id) = some (e.id, q) → hasCredit (s.links.get l) q.msg = true → (s.links.get l).sinceCtrl < 179 →
    Completes (.lotteryContest t (linkPort l) [arrivalOf (linkPort l) e]) s fun s' =>
      (s'.links.get l).sent = (s.links.get l).sent ++ [q] ∧ (s'.links.get l).retry = (s.links.get l).retry ++ [((s.links.get l).txCount, q)] ∧
      (s'.links.get l).outq = (s.links.get l).outq.filter (·.1 != e.id) ∧ otherLinks l s s' ∧
      s' = { s with now := max s.now t, fabric := s'.fabric, links := s'.links }) ∧
  (∀ t p a b s, ContestAt t p s → portClass p = 0 → NextTransfer s p a → NextTransfer s p b → a.part = none → b.part = none → a.id ≠ b.id →
      a.req < b.req → inputOf a.req.val p ≠ inputOf b.req.val p → 0 < portAge (inForce (atTime s t)) p →
    Completes (.lotteryContest t p [arrivalOf p a, arrivalOf p b]) s fun s' =>
      (∃ w l : Sent, (w = a ∧ l = b ∨ w = b ∧ l = a) ∧
        (s'.fabric.ports.get p).granted = (s.fabric.ports.get p).granted ++ [(w.req.val, w.id)] ∧
        (s'.fabric.ports.get p).cons = [{ id := l.req.val, part := none, at_ := max s.now t, age := 1, input := none, ref := l.id, waits := false, oldAge := 0 }]) ∧
      (s'.fabric.ports.get p).grants = (s.fabric.ports.get p).grants + 1 ∧ (∀ q, p ≠ q → s'.fabric.ports.get q = s.fabric.ports.get q) ∧ OnlyFabric t s s') ∧
  (∀ t p a b s, ContestAt t p s → portClass p = 0 → NextTransfer s p a → NextTransfer s p b → a.part = none → b.part = none → a.id ≠ b.id →
      inputOf a.req.val p ≠ inputOf b.req.val p → 0 < portAge (inForce (atTime s t)) p →
      ticketsOf (inForce (atTime s t)) p a.req.val = 0 → ticketsOf (inForce (atTime s t)) p b.req.val ≠ 0 →
    Completes (.lotteryContest t p [arrivalOf p a, arrivalOf p b]) s fun s' =>
      (s'.fabric.ports.get p).granted = (s.fabric.ports.get p).granted ++ [(b.req.val, b.id)] ∧
      (s'.fabric.ports.get p).lfsr = (s.fabric.ports.get p).lfsr) ∧
  (∀ t p s, ContestAt t p s → Completes (.lotteryContest t p []) s fun s' =>
      (s'.fabric.ports.get p).granted = (s.fabric.ports.get p).granted ∧ (s'.fabric.ports.get p).grants = (s.fabric.ports.get p).grants ∧
      (s'.fabric.ports.get p).cons = [] ∧ OnlyFabric t s s') ∧
  (∀ t p as s, s.testMode = false → contestDue (atTime s t) p = false → exec (.lotteryContest t p as) s = .next { s with now := max s.now t })

/-- REGULATOR_ACCRUAL, TICKET_COMMIT and FABMODE_WRITE (R271 for the commit; R262, R269, R273, R278): credit becomes the smaller of credit + RATE and BURST × 256 where EN is 1 and stays where it is 0; outside NORMAL the commit copies every shadow into the live fields (AGE_SS limited by XLAT), reloads every generator
from SEED and clears every age, and in NORMAL it does nothing; credit accrues once in an XC at each port; a permitted write of another MODE takes it and reloads the shadows from the live values, with SHDROP set when they differed; after the lock a write of 0 is discarded. -/
def Obligations.RegulatorsAccrueAndTicketsCommit : Prop :=
  (∀ t s, s.testMode = false → s.obs.halted = false → operating s = true → s.fabric.accruedXC ≠ some (xcNow (atTime s t)) →
    Completes (.regulatorAccrual t) s fun s' => OnlyFabric t s s' ∧ s'.fabric.accruedXC = some (xcNow (atTime s t)) ∧ ∀ k p,
      (s'.fabric.ports.get k).credit.get p = (let r := regOf s.fabric (portClass k) p
        if r.en ∧ (s.fabric.ports.get k).accXC ≠ some (xcNow (atTime s t)) then min ((s.fabric.ports.get k).credit.get p + Int.ofNat r.rate.toNat) (Int.ofNat r.burst.toNat * 256)
        else (s.fabric.ports.get k).credit.get p) ∧
      (s'.fabric.ports.get k).cons = (s.fabric.ports.get k).cons ∧ (s'.fabric.ports.get k).lfsr = (s.fabric.ports.get k).lfsr) ∧
  (∀ t s, s.testMode = false → s.fabric.accruedXC = some (xcNow (atTime s t)) → exec (.regulatorAccrual t) s = .next { s with now := max s.now t }) ∧
  (∀ t s, s.testMode = false → s.fabric.mode ≠ 1 → s.obs.halted = false → s.boot.phase ≠ .held →
    Completes (.ticketCommit t) s fun s' => OnlyFabric t s s' ∧ s'.fabric.live = clampAge s.fabric s.fabric.shadow ∧ s'.fabric.shadow = s'.fabric.live ∧
      s'.fabric.mode = s.fabric.mode ∧
      ∀ k, (s'.fabric.ports.get k).lfsr = lfsrLoad s.fabric.shadow.seed k.val ∧ (∀ c ∈ (s'.fabric.ports.get k).cons, c.age = 0)) ∧
  (∀ t s, s.testMode = false → s.fabric.mode = 1 → exec (.ticketCommit t) s = .next { s with now := max s.now t }) ∧
  (∀ t m s, s.testMode = false → s.obs.halted = false → s.boot.phase ≠ .held → modeAllowed s m = true → m ≠ s.fabric.mode →
    Completes (.fabmodeWrite t m) s fun s' => OnlyFabric t s s' ∧ s'.fabric.mode = m ∧ s'.fabric.shadow = s.fabric.live ∧ s'.fabric.live = s.fabric.live ∧
      s'.fabric.shdrop = (s.fabric.shdrop || s.fabric.shadow != s.fabric.live)) ∧
  (∀ t s, s.testMode = false → locked s = true → exec (.fabmodeWrite t 0) s = .next { s with now := max s.now t })

/-- For every state and channel LE_PAk and LE_PBk are never high together; both are low before DEAD AT of a period have passed, outside RUN and DECAY, with direction NONE, and while the on-time limit holds them (R310, R322 to R324). -/
def Obligations.LoopEngineOutputsNeverDriveBoth : Prop :=
  ∀ s ch, lePins s ch ≠ (true, true) ∧
    (((s.le.get ch).period.any fun p => decide (atCount s < p + (s.le.get ch).dead)) = true → lePins s ch = (false, false)) ∧
    ((s.le.get ch).st ≠ .run → (s.le.get ch).st ≠ .decay → lePins s ch = (false, false)) ∧
    ((s.le.get ch).elim = true ∨ (s.le.get ch).blank = true ∨ (s.le.get ch).pdir = .none → lePins s ch = (false, false))

/-- LE_SAMPLE_BOUNDARY, LE_INPUT_READ and LE_INPUT_RETURN (R312 to R319): at an AT count that is a multiple of SDIV, once, a commit of an earlier AT swaps the banks and leaves both equal, a returned line becomes the inputs or STALE counts, and a channel in RUN that no command moves takes the error and direction of the law; the decoder's AT comes first, so that an encoder fault does (R326: `quadAhead`); nothing but that channel
changes. The read of the input block is put before its port 2 AT ahead, and its line, unless it is uncorrectable, waits for the boundary. -/
def Obligations.SampleBoundaryRunsItsFourSteps : Prop :=
  (∀ t ch s, let n := atCount (atTime s t); let c := (s.le.get ch).quadAhead n
      s.testMode = false → leRuns s ch = true → n % c.sdiv = 0 → c.sampleAt ≠ some n → c.st = .run → c.pend = false → c.returned = none →
      c.late = [] → field (wordAt c.inputs 16) 3 0 = 0 →
    Completes (.leSampleBoundary t ch) s fun s' => OnlyChannel t ch s s' ∧
      s'.le.get ch = { c with
        stale := satInc c.stale, awaiting := false, cmdSeq := BitVec.ofNat 8 (field (wordAt c.inputs 16) 15 8), dir := c.newDir c.error
        err := BitVec.ofInt 32 c.error, first := false, sampleAt := some n, dirWas := c.dir }) ∧
  (∀ t ch s, s.testMode = false → leRuns s ch = true → atCount (atTime s t) % (s.le.get ch).sdiv = 0 →
      (s.le.get ch).sampleAt ≠ some (atCount (atTime s t)) → (s.le.get ch).pend = true → (s.le.get ch).late = [] →
    Completes (.leSampleBoundary t ch) s fun s' => OnlyChannel t ch s s' ∧ (s'.le.get ch).abank = (!(s.le.get ch).abank) ∧
      (s'.le.get ch).active = (s.le.get ch).shadow ∧ (s'.le.get ch).shadow = (s'.le.get ch).active ∧ (s'.le.get ch).pend = false ∧
      (s'.le.get ch).swaps = satInc (s.le.get ch).swaps) ∧
  (∀ t ch ws s, s.testMode = false → leRuns s ch = true → atCount (atTime s t) % (s.le.get ch).sdiv = 0 →
      (s.le.get ch).sampleAt ≠ some (atCount (atTime s t)) → (s.le.get ch).returned = some ws →
    Completes (.leSampleBoundary t ch) s fun s' => OnlyChannel t ch s s' ∧ (s'.le.get ch).inputs = ws ∧ (s'.le.get ch).returned = none ∧
      (s'.le.get ch).stale = (s.le.get ch).stale ∧ ((s.le.get ch).st = .off → (s.le.get ch).autorun = false → (s'.le.get ch).st ≠ .off)) ∧
  (∀ t ch s, s.testMode = false → leRuns s ch = true → (atCount (atTime s t) + 2) % (s.le.get ch).sdiv = 0 →
      (s.le.get ch).readAt ≠ some (atCount (atTime s t)) →
    Completes (.leInputRead t ch) s fun s' => s'.fabric.xfers = s.fabric.xfers ++ [{ id := s.nextId, req := 24, part := none, x := .leInput ch s.nextId }] ∧ (s'.le.get ch).awaiting = true ∧
      (s'.le.get ch).readId = s.nextId ∧ (∀ q, ch ≠ q → s'.le.get q = s.le.get q) ∧
      s' = { s with now := max s.now t, nextId := s.nextId + 1, fabric := s'.fabric, le := s'.le }) ∧
  (∀ t ch ws s, s.testMode = false → leRuns s ch = true → (s.le.get ch).inTransit = some (ws, false) → (s.le.get ch).awaiting = true →
    Completes (.leInputReturn t ch) s fun s' => OnlyChannel t ch s s' ∧
      s'.le.get ch = { s.le.get ch with inTransit := none, returned := some ws })

/-- LE_START, LE_STOP, LE_REZERO, LE_SHADOW_WRITE, LE_BANK_COMMIT (R319, R324, R325): a command with a new SEQ moves STOPPED to RUN, RUN to DECAY (or to STOPPED when nothing is driven), and in STOPPED or EFAULT sets the count; the same SEQ again changes nothing. Outside the AT of a boundary to come, a shadow write changes that word of the shadow bank alone and clears PEND; GO sets PEND. -/
def Obligations.LoopEngineCommandsMoveTheChannel : Prop :=
  (∀ t ch seq s, s.testMode = false → leRuns s ch = true → seq ≠ (s.le.get ch).cmdSeq → (s.le.get ch).st = .stopped →
    Completes (.leStart t ch seq) s fun s' => OnlyChannel t ch s s' ∧
      s'.le.get ch = { s.le.get ch with st := .run, dir := .none, first := true, cmdSeq := seq }) ∧
  (∀ t ch seq s, s.testMode = false → leRuns s ch = true → seq ≠ (s.le.get ch).cmdSeq → (s.le.get ch).st = .run →
    Completes (.leStop t ch seq) s fun s' => OnlyChannel t ch s s' ∧ (s'.le.get ch).cmdSeq = seq ∧ (s'.le.get ch).count = (s.le.get ch).count ∧
      (s'.le.get ch).st = (if (s.le.get ch).dir = .none then .stopped else .decay)) ∧
  (∀ t ch seq zpos s, s.testMode = false → leRuns s ch = true → seq ≠ (s.le.get ch).cmdSeq → (s.le.get ch).st = .stopped ∨ (s.le.get ch).st = .efault →
    Completes (.leRezero t ch seq zpos) s fun s' => OnlyChannel t ch s s' ∧ (s'.le.get ch).count = zpos ∧ (s'.le.get ch).st = .stopped ∧
      (s'.le.get ch).cmdSeq = seq) ∧
  (∀ t ch s, s.testMode = false → leRuns s ch = true →
    Completes (.leStart t ch (s.le.get ch).cmdSeq) s fun s' => s' = { s with now := max s.now t, le := s'.le } ∧ s'.le.get ch = s.le.get ch) ∧
  (∀ t ch i x s, s.testMode = false → operating s = true → leEarly (atTime s t) ch = false → (s.le.get ch).late = [] →
    Completes (.leShadowWrite t ch i x) s fun s' => OnlyChannel t ch s s' ∧ (s'.le.get ch).shadow.get i = x ∧ (s'.le.get ch).active = (s.le.get ch).active ∧
      (∀ j, i ≠ j → (s'.le.get ch).shadow.get j = (s.le.get ch).shadow.get j) ∧ (s'.le.get ch).pend = false ∧ (s'.le.get ch).abank = (s.le.get ch).abank) ∧
  (∀ t ch s, s.testMode = false → operating s = true → leEarly (atTime s t) ch = false → (s.le.get ch).late = [] →
    Completes (.leBankCommit t ch) s fun s' => OnlyChannel t ch s s' ∧ s'.le.get ch = { s.le.get ch with pend := true })

/-- LE_QUADRATURE_SAMPLE, LE_DECODER_WINDOW, LE_PWM_PERIOD, LE_ONTIME_WINDOW, LE_ONTIME_LIMIT (R320 to R324): with no filter and QFILT 0 an accepted forward step adds 1 to the count (subtracts with DIRINV) and a double transition counts in DTWIN and DTTOT instead; an AT samples once, and where a boundary has taken the decoder's AT already the pins reach the synchroniser alone (R326); the window clears DTWIN; a period in RUN that starts in no sample boundary’s AT takes the direction and the duty of the active bank; DECAY
loses DSTEP each period and ends in STOPPED or EFAULT; the on-time window clears ONCNT and ELIM, and reaching ONMAX sets ELIM and counts. -/
def Obligations.QuadratureCountsAndOnTimeLimits : Prop :=
  (∀ t ch qa qb a b s, s.testMode = false → leRuns s ch = true → (s.le.get ch).msrc = false → (s.le.get ch).st = .run → (s.le.get ch).qfilt = 0 →
      (s.le.get ch).pinsAt ≠ some (atCount (atTime s t)) → (s.le.get ch).quadAt ≠ some (atCount (atTime s t)) →
      (s.le.get ch).sync.getD 1 (false, false) = (a, b) → quadStep (s.le.get ch).pair (a, b) = .fwd →
    Completes (.leQuadratureSample t ch qa qb) s fun s' => OnlyChannel t ch s s' ∧ (s'.le.get ch).pair = (a, b) ∧
      (s'.le.get ch).count = (if (s.le.get ch).dirinv then (s.le.get ch).count - 1 else (s.le.get ch).count + 1) ∧
      (s'.le.get ch).sync.getD 0 (false, false) = (qa, qb) ∧ (s'.le.get ch).st = .run ∧ (s'.le.get ch).dtwin = (if atCount (atTime s t) % 3840 = 0 then 0 else (s.le.get ch).dtwin)) ∧
  (∀ t ch qa qb a b s, s.testMode = false → leRuns s ch = true → (s.le.get ch).msrc = false → (s.le.get ch).st = .stopped → (s.le.get ch).qfilt = 0 →
      (s.le.get ch).pinsAt ≠ some (atCount (atTime s t)) → (s.le.get ch).quadAt ≠ some (atCount (atTime s t)) →
      (s.le.get ch).sync.getD 1 (false, false) = (a, b) → quadStep (s.le.get ch).pair (a, b) = .double → atCount (atTime s t) % 3840 ≠ 0 →
    Completes (.leQuadratureSample t ch qa qb) s fun s' => OnlyChannel t ch s s' ∧ (s'.le.get ch).count = (s.le.get ch).count ∧
      (s'.le.get ch).dtwin = satInc (s.le.get ch).dtwin ∧ (s'.le.get ch).dtTot = satInc (s.le.get ch).dtTot ∧
      (s'.le.get ch).st = (if (s.le.get ch).dtthr < (satInc (s.le.get ch).dtwin).toNat then .efault else .stopped)) ∧
  (∀ t ch qa qb s, s.testMode = false → leRuns s ch = true → (s.le.get ch).msrc = false →
      (s.le.get ch).pinsAt ≠ some (atCount (atTime s t)) → (s.le.get ch).quadAt = some (atCount (atTime s t)) →
    Completes (.leQuadratureSample t ch qa qb) s fun s' => OnlyChannel t ch s s' ∧
      s'.le.get ch = { s.le.get ch with sync := (qa, qb) :: (s.le.get ch).sync.drop 1, pinsAt := some (atCount (atTime s t)) }) ∧
  (∀ t s, s.testMode = false → operating s = true → atCount (atTime s t) % 3840 = 0 →
    Completes (.leDecoderWindow t) s fun s' => s' = { s with now := max s.now t, le := s'.le } ∧
      ∀ ch, s'.le.get ch = if (s.le.get ch).en && !(s.le.get ch).msrc && (s.le.get ch).quadAt != some (atCount (atTime s t)) then { s.le.get ch with dtwin := 0 }
        else s.le.get ch) ∧
  (∀ t ch s, s.testMode = false → leRuns s ch = true → atCount (atTime s t) % (s.le.get ch).pper = 0 → (s.le.get ch).period ≠ some (atCount (atTime s t)) →
      (s.le.get ch).st = .run → (s.le.get ch).sampleAt ≠ some (atCount (atTime s t)) →
    Completes (.lePwmPeriod t ch) s fun s' => OnlyChannel t ch s s' ∧ (s'.le.get ch).period = some (atCount (atTime s t)) ∧
      (s'.le.get ch).pdir = (s.le.get ch).dir ∧ (s'.le.get ch).st = .run ∧
      (s'.le.get ch).dutyNow = BitVec.ofNat 12 (match (s.le.get ch).dir with
        | .fwd => (s.le.get ch).duty 3 | .rev => (s.le.get ch).duty 4 | .none => 0)) ∧
  (∀ t ch s, s.testMode = false → leRuns s ch = true → atCount (atTime s t) % (s.le.get ch).pper = 0 → (s.le.get ch).period ≠ some (atCount (atTime s t)) →
      (s.le.get ch).st = .decay →
    Completes (.lePwmPeriod t ch) s fun s' => OnlyChannel t ch s s' ∧
      if (s.le.get ch).dutyNow.toNat ≤ (s.le.get ch).dstep then
        (s'.le.get ch).st = (if (s.le.get ch).toEfault then .efault else .stopped) ∧ (s'.le.get ch).dutyNow = 0 ∧ (s'.le.get ch).pdir = .none
      else (s'.le.get ch).st = .decay ∧ (s'.le.get ch).dutyNow.toNat = (s.le.get ch).dutyNow.toNat - (s.le.get ch).dstep) ∧
  (∀ t ch s, s.testMode = false → leRuns s ch = true → atCount (atTime s t) % ((s.le.get ch).ewin * 3840) = 0 →
    Completes (.leOntimeWindow t ch) s fun s' => OnlyChannel t ch s s' ∧
      s'.le.get ch = { s.le.get ch with onCnt := 0, elim := false, accAt := atCount (atTime s t) }) ∧
  (∀ t ch s, s.testMode = false → leRuns s ch = true → (s.le.get ch).elim = false → atCount (atTime s t) % ((s.le.get ch).ewin * 3840) ≠ 0 →
      (s.le.get ch).onmax ≤ (s.le.get ch).onCntAt (atCount (atTime s t)) →
    Completes (.leOntimeLimit t ch) s fun s' => OnlyChannel t ch s s' ∧ (s'.le.get ch).elim = true ∧ (s'.le.get ch).blank = true ∧
      (s'.le.get ch).elims = satInc (s.le.get ch).elims ∧ (s'.le.get ch).st = (s.le.get ch).st ∧ lePins s' ch = (false, false))

/-- INTEGER_ALU_OP, FMIN, FMAX, FCMP, FADD, FSUB, FMUL and FCVT (R103, R484), when the context can issue them: the destination holds the result, usable 1, 1, 1, 1, 3, 3, 3 or 2 FC after issue; ASTAT gains the flags of the result; the program counter is that of the next instruction; a result an earlier instruction was still to write there is dropped (`claim`, log entry 28); every other register, context, Frond and unit is as before. For
the floating-point ones that can trap, this is where no enabled trap is met. The ALU operations are the model's list (log entry 7), and FCMP of a NaN gives a free value (log entry 8). -/
def Obligations.ScalarInstructionsWriteOneRegister : Prop :=
  (∀ k op rd a b c s, CanIssue k (srcRegs a ++ srcRegs b) s c →
    Completes (.integerAluOp k op rd a b) s fun s' => WritesReg k c rd (aluRun op (srcVal s k.f c a) (srcVal s k.f c b)) none 1 (claim s k.f c rd) s') ∧
  (∀ k rd ra rb c s, CanIssue k [ra, rb] s c →
    Completes (.fmin k rd ra rb) s fun s' => WritesReg k c rd (fminRun (regVal s k.f c ra) (regVal s k.f c rb)) none 1 (claim s k.f c rd) s') ∧
  (∀ k rd ra rb c s, CanIssue k [ra, rb] s c →
    Completes (.fmax k rd ra rb) s fun s' => WritesReg k c rd (fmaxRun (regVal s k.f c ra) (regVal s k.f c rb)) none 1 (claim s k.f c rd) s') ∧
  (∀ k rel rd ra rb c s, CanIssue k [ra, rb] s c →
    Completes (.fcmp k rel rd ra rb) s fun s' => s'.freeCtr = s.freeCtr + 1 ∧ WritesReg k c rd
      (fcmpRun rel (regVal s k.f c ra) (regVal s k.f c rb) (Config.openWord s.freeCtr [regVal s k.f c ra, regVal s k.f c rb])) none 1 (claim s k.f c rd) { s' with freeCtr := s.freeCtr }) ∧
  (∀ k rd ra rb c s, CanIssue k [ra, rb] s c → trapOf (ctx s k.f c).trapen (faddRun (regVal s k.f c ra) (regVal s k.f c rb)).2 false = none →
    Completes (.fadd k rd ra rb) s fun s' => WritesReg k c rd (faddRun (regVal s k.f c ra) (regVal s k.f c rb)).1
      (some (faddRun (regVal s k.f c ra) (regVal s k.f c rb)).2) 3 (claim s k.f c rd) s') ∧
  (∀ k rd ra rb c s, CanIssue k [ra, rb] s c → trapOf (ctx s k.f c).trapen (fsubRun (regVal s k.f c ra) (regVal s k.f c rb)).2 false = none →
    Completes (.fsub k rd ra rb) s fun s' => WritesReg k c rd (fsubRun (regVal s k.f c ra) (regVal s k.f c rb)).1
      (some (fsubRun (regVal s k.f c ra) (regVal s k.f c rb)).2) 3 (claim s k.f c rd) s') ∧
  (∀ k rd ra rb c s, CanIssue k [ra, rb] s c → trapOf (ctx s k.f c).trapen (fmulRun (regVal s k.f c ra) (regVal s k.f c rb)).2 false = none →
    Completes (.fmul k rd ra rb) s fun s' => WritesReg k c rd (fmulRun (regVal s k.f c ra) (regVal s k.f c rb)).1
      (some (fmulRun (regVal s k.f c ra) (regVal s k.f c rb)).2) 3 (claim s k.f c rd) s') ∧
  (∀ k dir rd ra c s, CanIssue k [ra] s c → trapOf (ctx s k.f c).trapen (fcvtRun dir (regVal s k.f c ra)).2 false = none →
    Completes (.fcvt k dir rd ra) s fun s' => WritesReg k c rd (fcvtRun dir (regVal s k.f c ra)).1 (some (fcvtRun dir (regVal s k.f c ra)).2) 2 (claim s k.f c rd) s')

/-- FADD, FSUB, FMUL and FCVT under an enabled trap (R88, R89): the flags are set, every register and the program counter are as before, and the context carries the fault. An instruction fetched outside the code region faults the context with FAULT_WINDOW and does nothing else (R20); one whose fetched word is uncorrectable faults it with FAULT_ECC, counted and captured (R236; the word at its address, log entry 6). -/
def Obligations.TrappingInstructionsKeepTheirDestination : Prop :=
  (∀ k rd ra rb c e s, CanIssue k [ra, rb] s c → trapOf (ctx s k.f c).trapen (faddRun (regVal s k.f c ra) (regVal s k.f c rb)).2 false = some e →
    Completes (.fadd k rd ra rb) s fun s' => (ctx s' k.f c).g = (ctx s k.f c).g ∧ (ctx s' k.f c).pc = (ctx s k.f c).pc ∧ (ctx s' k.f c).fault = some e ∧
      (ctx s' k.f c).astat = (ctx s k.f c).astat ||| (faddRun (regVal s k.f c ra) (regVal s k.f c rb)).2 ∧ crumbOutside false k s s') ∧
  (∀ k rd ra rb c e s, CanIssue k [ra, rb] s c → trapOf (ctx s k.f c).trapen (fsubRun (regVal s k.f c ra) (regVal s k.f c rb)).2 false = some e →
    Completes (.fsub k rd ra rb) s fun s' => (ctx s' k.f c).g = (ctx s k.f c).g ∧ (ctx s' k.f c).pc = (ctx s k.f c).pc ∧ (ctx s' k.f c).fault = some e ∧
      crumbOutside false k s s') ∧
  (∀ k rd ra rb c e s, CanIssue k [ra, rb] s c → trapOf (ctx s k.f c).trapen (fmulRun (regVal s k.f c ra) (regVal s k.f c rb)).2 false = some e →
    Completes (.fmul k rd ra rb) s fun s' => (ctx s' k.f c).g = (ctx s k.f c).g ∧ (ctx s' k.f c).pc = (ctx s k.f c).pc ∧ (ctx s' k.f c).fault = some e ∧
      crumbOutside false k s s') ∧
  (∀ k dir rd ra c e s, CanIssue k [ra] s c → trapOf (ctx s k.f c).trapen (fcvtRun dir (regVal s k.f c ra)).2 false = some e →
    Completes (.fcvt k dir rd ra) s fun s' => (ctx s' k.f c).g = (ctx s k.f c).g ∧ (ctx s' k.f c).pc = (ctx s k.f c).pc ∧ (ctx s' k.f c).fault = some e ∧
      crumbOutside false k s s') ∧
  (∀ k op rd a b c s, s.testMode = false → runningCtx s k.f = some c → mayIssue (atTime s k.t) k c = true →
      (srcRegs a ++ srcRegs b).any (regBusy (atTime s k.t) k.f (ctx s k.f c)) = false → fetchOk (frond s k.f) k.ia = false →
    Completes (.integerAluOp k op rd a b) s fun s' => ctx s' k.f c = { ctx s k.f c with fault := some .window } ∧ s' = { s with now := issuedAt k s, fronds := s'.fronds } ∧
      (∀ f, k.f ≠ f → frond s' f = frond s f) ∧ (∀ d, c ≠ d → ctx s' k.f d = ctx s k.f d)) ∧
  (∀ k op rd a b c s, s.testMode = false → runningCtx s k.f = some c → mayIssue (atTime s k.t) k c = true →
      (srcRegs a ++ srcRegs b).any (regBusy (atTime s k.t) k.f (ctx s k.f c)) = false → fetchOk (frond s k.f) k.ia = true →
      markAt s (padAddr k.f .w (k.ia.toNat / 4)) = some .uncorrectable →
    Completes (.integerAluOp k op rd a b) s fun s' => (ctx s' k.f c).fault = some .ecc ∧ (ctx s' k.f c).g = (ctx s k.f c).g ∧ (ctx s' k.f c).pc = (ctx s k.f c).pc ∧
      (frond s' k.f).uncorr = satInc (frond s k.f).uncorr ∧ (frond s' k.f).eccValid = true ∧ s'.mem = s.mem)

/-- MUL, MULH, MULHU, FDIV, FSQRT, DIV, DIVU, REM, REMU, XRCP and XGIV wait while their unit is busy, whatever the other unit does (R102), and enter a free one, which holds the destination, the result and the moment it is due: k + 1 FC by the multiplier (5 with MULFIX), 12, 14, 19, 12 and 16 FC, for XRCP also the register pair of a replaced pivot (R114; when it is written, and PIVB and SAT set, is the model’s choice, log entry 101); no register changes before, and what an earlier instruction was still to write to the destination is dropped (`claim`, log entry 28), unless a trap keeps it. MULTIPLY_COMPLETE and DIVIDER_COMPLETE then write the results and free the unit; a
division whose trap is enabled faults the context and writes nothing. -/
def Obligations.MultiplyAndDivideUnitsHoldTheirResults : Prop :=
  (∀ k rd ra rb c s i v n, CanIssue k [ra, rb] s c → (frond s k.f).mul = none →
      (i = .mul k rd ra rb ∧ v = mulRun (regVal s k.f c ra) (regVal s k.f c rb) ∧ n = mulFc true (regVal s k.f c rb) ∨
       i = .mulh k rd ra rb ∧ v = mulhRun (regVal s k.f c ra) (regVal s k.f c rb) ∧ n = mulFc true (regVal s k.f c rb) ∨
       i = .mulhu k rd ra rb ∧ v = mulhuRun (regVal s k.f c ra) (regVal s k.f c rb) ∧ n = mulFc false (regVal s k.f c rb)) →
    Completes i s fun s' => (frond s' k.f).mul = some { ctx := c, outs := [(rd, v)], astat := 0, trap := none, ready := issuedAt k s + (if (ctx s k.f c).mulfix then 5 else n) * tFC s } ∧
      ctx s' k.f c = steppedCtx (issueFc k s) k (ctx (claim s k.f c rd) k.f c) ∧ crumbOutside false k s s') ∧
  (∀ k rd ra rb c s i v e n, CanIssue k [ra, rb] s c → (frond s k.f).div = none →
      (let a := regVal s k.f c ra
       let b := regVal s k.f c rb
       i = .fdiv k rd ra rb ∧ v = (fdivRun a b).1 ∧ e = (fdivRun a b).2 ∧ n = 12 ∨ i = .div k rd ra rb ∧ v = (divRun a b).1 ∧ e = (divRun a b).2.2 ∧ n = 19 ∨
       i = .divu k rd ra rb ∧ v = (divuRun a b).1 ∧ e = (divuRun a b).2.2 ∧ n = 19 ∨ i = .rem k rd ra rb ∧ v = (divRun a b).2.1 ∧ e = (divRun a b).2.2 ∧ n = 19 ∨
       i = .remu k rd ra rb ∧ v = (divuRun a b).2.1 ∧ e = (divuRun a b).2.2 ∧ n = 19) →
    Completes i s fun s' => (frond s' k.f).div = some { ctx := c, outs := [(rd, v)], astat := e, trap := trapOf (ctx s k.f c).trapen e false, ready := issuedAt k s + n * tFC s } ∧ ctx s' k.f c = steppedCtx (issueFc k s) k (ctx (if (trapOf (ctx s k.f c).trapen e false).isSome then s else claim s k.f c rd) k.f c) ∧ crumbOutside false k s s') ∧
  (∀ k rd ra c s, CanIssue k [ra] s c → (frond s k.f).div = none →
    Completes (.fsqrt k rd ra) s fun s' => (frond s' k.f).div = some { ctx := c, outs := [(rd, (fsqrtRun (regVal s k.f c ra)).1)], astat := (fsqrtRun (regVal s k.f c ra)).2, trap := trapOf (ctx s k.f c).trapen (fsqrtRun (regVal s k.f c ra)).2 false, ready := issuedAt k s + 14 * tFC s } ∧ ctx s' k.f c = steppedCtx (issueFc k s) k (ctx (if (trapOf (ctx s k.f c).trapen (fsqrtRun (regVal s k.f c ra)).2 false).isSome then s else claim s k.f c rd) k.f c) ∧ crumbOutside false k s s') ∧
  (∀ k rd rlo rhi c s, CanIssue k [rlo, rhi] s c → (frond s k.f).div = none →
    Completes (.xrcp k rd rlo rhi) s fun s' =>
      (let a := acc64 (regVal s k.f c rlo) (regVal s k.f c rhi)
       let r := xrcpRun (ctx s k.f c) (issueFc k s) a k.ia
       ((frond s' k.f).div.map fun u => (u.outs, u.astat, u.ready)) =
         some (xrcpOuts (ctx s k.f c) a rd rlo rhi r.1, r.2.1, issuedAt k s + 12 * tFC s) ∧
       (ctx s' k.f c).pivcnt = r.2.2.pivcnt ∧ (ctx s' k.f c).pivrec0 = r.2.2.pivrec0 ∧ (ctx s' k.f c).pivrec1 = r.2.2.pivrec1) ∧
      (ctx s' k.f c).g = (ctx s k.f c).g ∧ (ctx s' k.f c).pc = k.nx ∧ crumbOutside false k s s') ∧
  (∀ k rc rs rr ra rb c s, CanIssue k [ra, rb] s c → (frond s k.f).div = none →
    Completes (.xgiv k rc rs rr ra rb) s fun s' =>
      (let r := xgivRun (regVal s k.f c ra) (regVal s k.f c rb)
       ((frond s' k.f).div.map fun u => (u.outs, u.astat, u.ready)) = some ([(rc, r.1), (rs, r.2.1), (rr, r.2.2)], 0, issuedAt k s + 16 * tFC s)) ∧
      ctx s' k.f c = steppedCtx (issueFc k s) k (ctx (claim (claim (claim s k.f c rc) k.f c rs) k.f c rr) k.f c) ∧ crumbOutside false k s s') ∧
  (∀ k rd ra rb c s i, CanIssue k [ra, rb] s c →
      ((frond s k.f).mul.isSome = true ∧ (i = .mul k rd ra rb ∨ i = .mulh k rd ra rb ∨ i = .mulhu k rd ra rb) ∨
        (frond s k.f).div.isSome = true ∧ (i = .fdiv k rd ra rb ∨ i = .div k rd ra rb ∨ i = .divu k rd ra rb ∨ i = .rem k rd ra rb ∨ i = .remu k rd ra rb ∨
          i = .xrcp k rd ra rb ∨ ∃ rs rr, i = .xgiv k rd rs rr ra rb)) →
    Completes i s (HeldForSlot k c (ctx s k.f c) s)) ∧
  (∀ k rd ra c s, CanIssue k [ra] s c → (frond s k.f).div.isSome = true → Completes (.fsqrt k rd ra) s (HeldForSlot k c (ctx s k.f c) s)) ∧
  (∀ t f c rd v e at0 s, s.testMode = false → operating s = true → (frond s f).mul = some { ctx := c, outs := [(rd, v)], astat := e, trap := none, ready := at0 } →
      at0 ≤ max s.now t →
    Completes (.multiplyComplete t f) s fun s' => (frond s' f).mul = none ∧
      ctx s' f c = { (ctx s f c).flag (fcNow (atTime s t)) e with g := vset (ctx s f c).g rd v } ∧ (∀ d, c ≠ d → ctx s' f d = ctx s f d) ∧
      (∀ h, f ≠ h → frond s' h = frond s h) ∧ s' = { s with now := max s.now t, fronds := s'.fronds }) ∧
  (∀ t f c rd v e at0 s, s.testMode = false → operating s = true → (frond s f).div = some { ctx := c, outs := [(rd, v)], astat := e, trap := none, ready := at0 } →
      at0 ≤ max s.now t →
    Completes (.dividerComplete t f) s fun s' => (frond s' f).div = none ∧
      ctx s' f c = { (ctx s f c).flag (fcNow (atTime s t)) e with g := vset (ctx s f c).g rd v } ∧ (∀ d, c ≠ d → ctx s' f d = ctx s f d) ∧
      (∀ h, f ≠ h → frond s' h = frond s h) ∧ s' = { s with now := max s.now t, fronds := s'.fronds }) ∧
  (∀ t f c outs v e at0 s, s.testMode = false → operating s = true → (frond s f).div = some { ctx := c, outs := outs, astat := v, trap := some e, ready := at0 } →
      at0 ≤ max s.now t → (ctx s f c).fault = none →
    Completes (.dividerComplete t f) s fun s' => (frond s' f).div = none ∧
      ctx s' f c = { (ctx s f c).flag (fcNow (atTime s t)) v with fault := some e } ∧ s' = { s with now := max s.now t, fronds := s'.fronds })

/-- What the integer units compute, for every operand (R100, R106): MULH with MUL is the signed 64-bit product, MULHU with MUL the unsigned one; DIV and REM truncate towards zero, with the identity quotient × divisor + remainder = dividend and the remainder's sign that of the dividend, except for the most negative number divided by −1, whose quotient wraps to itself with remainder 0; a division by
zero gives the saturated quotient of the dividend's sign (all ones unsigned), the dividend as remainder, and IDZ. A NaN operand of FDIV gives the canonical NaN without a flag, and 0/0 the canonical NaN with NV. -/
def Obligations.DivisionAndProductsAreExact : Prop :=
  (∀ a b : Word, (mulhRun a b).toInt * 2 ^ 32 + (mulRun a b).toNat = a.toInt * b.toInt ∧
    (mulhuRun a b).toNat * 2 ^ 32 + (mulRun a b).toNat = a.toNat * b.toNat) ∧
  (∀ a b : Word, b ≠ 0 → ¬(a = 0x80000000 ∧ b = 0xFFFFFFFF) →
    (divRun a b).1.toInt * b.toInt + (divRun a b).2.1.toInt = a.toInt ∧ (divRun a b).2.2 = 0 ∧
    (divRun a b).2.1.toInt.natAbs < b.toInt.natAbs ∧ (0 ≤ a.toInt → 0 ≤ (divRun a b).2.1.toInt) ∧ (a.toInt ≤ 0 → (divRun a b).2.1.toInt ≤ 0)) ∧
  divRun 0x80000000 0xFFFFFFFF = (0x80000000, 0, 0) ∧
  (∀ a b : Word, b ≠ 0 → (divuRun a b).1.toNat * b.toNat + (divuRun a b).2.1.toNat = a.toNat ∧ (divuRun a b).2.1.toNat < b.toNat ∧ (divuRun a b).2.2 = 0) ∧
  (∀ a : Word, divRun a 0 = (if a.toInt < 0 then 0x80000000 else 0x7FFFFFFF, a, aIDZ) ∧ divuRun a 0 = (0xFFFFFFFF, a, aIDZ)) ∧
  (∀ a b : Word, (a32In a).isNan = true ∨ (a32In b).isNan = true → fdivRun a b = (0x7FC00000, 0)) ∧
  fdivRun 0 0 = (0x7FC00000, aNV)

/-- RMAXCLR clears the 32 maxima; FBEG deepens FDEPTH up to 15 and FEND lowers it (not at depth 1, where a priming may end); CHEAP marks the boundary behind it with its live mask; ITMARK adds 1 to ITCNT, names the buffers, and sets FINAL at the declared count; OUTMARK sets FINAL for a program that is not iterative (R85, R108, R172, R194, R289). Nothing else of
the machine changes but trace records. -/
def Obligations.MarkersChangeTheContextAlone : Prop :=
  (∀ k c s, CanIssue k [] s c →
    Completes (.rmaxclr k) s fun s' => Steps false k c { ctx s k.f c with rmax := Vector.replicate 32 0 } s s') ∧
  (∀ k c s, CanIssue k [] s c →
    Completes (.fbeg k) s fun s' => Steps true k c { ctx s k.f c with fdepth := BitVec.ofNat 4 (min 15 ((ctx s k.f c).fdepth.toNat + 1)) } s s') ∧
  (∀ k c s, CanIssue k [] s c → (ctx s k.f c).fdepth ≠ 1 →
    Completes (.fend k) s fun s' => Steps true k c { ctx s k.f c with fdepth := BitVec.ofNat 4 ((ctx s k.f c).fdepth.toNat - 1) } s s') ∧
  (∀ k imm c s, CanIssue k [] s c → k.last = false →
    Completes (.cheap k imm) s fun s' => ctx s' k.f c = { steppedCtx (issueFc k s) k (ctx s k.f c) with atCheap := some (BitVec.ofNat 6 imm.toNat) } ∧
      crumbOutside false k s s' ∧ crumbInside k c s s') ∧
  (∀ k bufs c s, CanIssue k [] s c →
    Completes (.itmark k bufs) s fun s' => (let n := min ((ctx s k.f c).itcnt.toNat + 1) 0xFF
      ctx s' k.f c = { steppedCtx (issueFc k s) k (ctx s k.f c) with
        itcnt := BitVec.ofNat 16 n, mark := bufs, atCheap := some 0x3F
        final := (ctx s k.f c).final || decide (itersOf s (ctx s k.f c).holdProg.toNat = some n) }) ∧ crumbOutside true k s s' ∧ crumbInside k c s s') ∧
  (∀ k c s, CanIssue k [] s c →
    Completes (.outmark k) s fun s' => ctx s' k.f c = { steppedCtx (issueFc k s) k (ctx s k.f c) with
        atCheap := some 0x3F, final := (ctx s k.f c).final || (itersOf s (ctx s k.f c).holdProg.toNat).isNone } ∧ crumbOutside true k s s' ∧ crumbInside k c s s')

/-- TILE_LOAD, TILE_LOAD_COMPLETE, MMA and MMA_RETIRE for a context in tag mode between powered words (R71, R72, R211, R217): a load leaves the register as it was and reads its rows in the array's slots of W, a row in each (a line of a transposed block); it is due 6 FC after the last of them; its end makes the register valid with the rows, transposed
where asked, or faults the context where a row was uncorrectable. An MMA whose tags allow it computes at issue from the tile, the vectors in A and, with ACC, the accumulators in P; its results change no memory until retirement, in a slot of the array's in P from COUNT + 3 FC later on, which writes exactly them with their tags. The array is taken from the moment it is free,
4 FC later behind an instruction of the other mode (R72). With TRAPEN.NAN 0 no event stops it. When operands are read and results written is the model's reading (log entries 54 and 93). -/
def Obligations.TilesAreLoadedAndMultiplied : Prop :=
  (∀ k a c s, CanIssue k [] s c → (ctx s k.f c).sbEn = false → (frond s k.f).mma = [] → (∀ i, ((ctx s k.f c).tiles.get i).pendArgs = none) →
      Powered s k.f .w a.waddr.toNat (tileWordsN a) →
    Completes (.tileLoad k a) s fun s' => Steps true k c { ctx s k.f c with tiles := vmod (ctx s k.f c).tiles a.tile fun t =>
        { t with issued := true, loadAt := none, pendArgs := some a, rows := [], bad := false, mark := [] } } s s') ∧
  (∀ t f c i a s, SlotOf .arr t f .w s → Runs t f c s → (frond s f).arrLines.find? (·.m == .w) = none → tileLoading s f = some (c, i, a) →
    Completes (.scratchpadSlotAccess t f .w []) s fun s' =>
      (let n := ((ctx s f c).tiles.get i).rows.length
       let k := min (tilePiece a) (tileWordsN a - n)
       (ctx s' f c).tiles.get i = { (ctx s f c).tiles.get i with
         rows := ((ctx s f c).tiles.get i).rows ++ padWords s f .w (a.waddr.toNat + n) k, loadAt := if n + k < tileWordsN a then none else some (backAt t .w s) }) ∧
      (∀ j, i ≠ j → (ctx s' f c).tiles.get j = (ctx s f c).tiles.get j) ∧ s'.mem = s.mem ∧ OnlyFrondAndMemory t f s s') ∧
  (∀ t f c i at0 a s, s.testMode = false → runningCtx s f = some c → ((ctx s f c).tiles.get i).loadAt = some at0 → ((ctx s f c).tiles.get i).pendArgs = some a →
      at0 ≤ max s.now t → ((ctx s f c).tiles.get i).bad = false →
    Completes (.tileLoadComplete t f i) s fun s' =>
      (let ws := ((ctx s f c).tiles.get i).rows
       let r := (ctx s' f c).tiles.get i
       r.valid = true ∧ r.loadAt = none ∧ r.pendArgs = none ∧ r.solver = a.solver ∧ r.fmt = a.fmt ∧
       r.words = (if a.transposed then transposeWords (packOf a.solver a.fmt) ws else ws)) ∧
      (∀ j, i ≠ j → (ctx s' f c).tiles.get j = (ctx s f c).tiles.get j) ∧ (ctx s' f c).g = (ctx s f c).g ∧ (∀ h, f ≠ h → frond s' h = frond s h) ∧
      s'.mem = s.mem ∧ s'.ecc = s.ecc) ∧
  (∀ t f c i at0 a s, s.testMode = false → runningCtx s f = some c → ((ctx s f c).tiles.get i).loadAt = some at0 → ((ctx s f c).tiles.get i).pendArgs = some a →
      at0 ≤ max s.now t → ((ctx s f c).tiles.get i).bad = true → (ctx s f c).fault = none →
    Completes (.tileLoadComplete t f i) s fun s' => (ctx s' f c).fault = some .ecc ∧ ((ctx s' f c).tiles.get i).valid = ((ctx s f c).tiles.get i).valid ∧
      ((ctx s' f c).tiles.get i).words = ((ctx s f c).tiles.get i).words ∧ (∀ h, f ≠ h → frond s' h = frond s h) ∧ s'.mem = s.mem) ∧
  (∀ k a w tag c s, ArrayReady k a.solver s c → a.src = .word w tag → a.dstCirc = none → ((ctx s k.f c).tiles.get a.tile).pendArgs = none →
      bit (ctx s k.f c).trapen 0 = false →
      Reaches s k.f ([⟨.a, w.toNat, countOf a.count * vecWords a.solver a.fmt, readKind tag⟩] ++
        (if a.acc then [⟨.p, a.dst.toNat, countOf a.count * accWords a.solver, readKind a.accTag⟩] else []) ++ [mmaSpan a]) →
    Completes (.mma k a) s fun s' =>
      (let x := bodyCtx s k.f c
       let r := mmaRun a (xfield x .ea + xfield x .eb - xfield x .eacc + 17) (tileWords x a.tile)
         (padWords s k.f .a w.toNat (countOf a.count * vecWords a.solver a.fmt))
         (if a.acc then padWords s k.f .p a.dst.toNat (countOf a.count * accWords a.solver) else [])
       (frond s' k.f).mma = [{ ctx := c, args := a, out := [r.words], ready := issuedAt k s + (countOf a.count + 3) * tFC s, mark := [] }] ∧
       (ctx s' k.f c).astat = (ctx s k.f c).astat ||| r.bits) ∧
      (frond s' k.f).arrFree = issuedAt k s + countOf a.count * tFC s ∧ (frond s' k.f).arrMode = some a.solver ∧ (ctx s' k.f c).pc = k.nx ∧ (ctx s' k.f c).g = (ctx s k.f c).g ∧
      (ctx s' k.f c).fault = none ∧ (∀ h, k.f ≠ h → frond s' h = frond s h) ∧ (frond s' k.f).full = (frond s k.f).full ∧ s'.mem = s.mem ∧ s'.ecc = s.ecc) ∧
  (∀ t f m l s, SlotOf .arr t f m s → (frond s f).arrLines.find? (·.m == m) = some l → l.circ = none →
    Completes (.scratchpadSlotAccess t f m []) s fun s' => (frond s' f).arrLines = (frond s f).arrLines.erase l ∧
      (frond s' f).full = ((tagAccess (frond s f) m l.word l.tag).getD (frond s f)).full ∧ (∀ c, ctx s' f c = ctx s f c) ∧ s'.mem = s.mem ∧ OnlyFrondAndMemory t f s s') ∧
  (∀ t f o rest s, s.testMode = false → (frond s f).mma = o :: rest → o.ready ≤ max s.now t → o.args.dstCirc = none → ownSlot (atTime s t) f .p .arr = true →
      rest ≠ [] ∨ (∀ l ∈ (frond s f).arrLines, l.mma = false) →
    Completes (.mmaRetire t f) s fun s' => (frond s' f).mma = rest ∧ padWords s' f .p o.args.dst.toNat o.out.flatten.length = o.out.flatten ∧
      OnlyPad f .p o.args.dst.toNat o.out.flatten.length s s' ∧ (∀ h, f ≠ h → frond s' h = frond s h) ∧
      (∀ c, ctx s' f c = ctx s f c) ∧ (frond s' f).full = (spanTags (frond s f) (mmaSpan o.args)).full)

/-- CVT (R81, R84, R95) and the vector instructions of predictive control (R163), for a context in tag mode, between powered words whose tags allow it: the destination words are the results, the maxima and flags are those of the run, the program counter goes on, and every byte of memory outside the destination reads as before. XRHS, XRELAX and XPROJ take σ, ρ and α from the
context's program and the equality rows from the mask in W (R161); of a program with FORM 0 these are free values (log entry 94). When operands are read and results written is the model's reading (log entry 93). -/
def Obligations.ConversionsAndVectorInstructionsWriteTheirSpan : Prop :=
  (∀ k a m w tag c s, ArrayReady k a.solver s c → a.dst = .word m w tag → bit (ctx s k.f c).trapen 0 = false →
      (∀ p ∈ (frond s k.f).flight, ∀ ws, p.2 ≠ .scale c ws) →
      (let fromA := a.fromA && !a.solver
       Reaches s k.f [⟨if fromA then .a else .p, a.src.toNat, countOf a.count * if fromA then 32 else accWords a.solver, readKind a.srcTag⟩,
         ⟨m, w.toNat, countOf a.count * cvtWords a.solver (tgtOf a.solver a.tgt), writeKind tag⟩]) →
    Completes (.cvt k a) s fun s' =>
      (let fromA := a.fromA && !a.solver
       let sw := if fromA then 32 else accWords a.solver
       let r := cvtRun { a with fromA := fromA } (bodyCtx s k.f c) (padWords s k.f (if fromA then .a else .p) a.src.toNat (countOf a.count * sw)) sw (countOf a.count)
       padWords s' k.f m w.toNat r.2.words.length = r.2.words ∧ OnlyPad k.f m w.toNat r.2.words.length s s' ∧
       (ctx s' k.f c).rmax = r.1.rmax ∧ (ctx s' k.f c).xmax = r.1.xmax ∧ (ctx s' k.f c).astat = (ctx s k.f c).astat ||| r.2.bits) ∧
      (ctx s' k.f c).pc = k.nx ∧ (ctx s' k.f c).g = (ctx s k.f c).g ∧ (∀ h, k.f ≠ h → frond s' h = frond s h)) ∧
  (∀ k a c s, ArrayReady k true s c →
      Reaches s k.f ([xIn a.x, xIn a.q] ++ (match a.w with | some b => [xIn b] | none => []) ++ [⟨.p, a.dst.toNat, 64, writeKind a.dstTag⟩]) →
    Completes (.xrhs k a) s fun s' =>
      (let ws := [padWords s k.f .a a.x.word.toNat 32, padWords s k.f .a a.q.word.toNat 32] ++
         (match a.w with | some b => [padWords s k.f .a b.word.toNat 32] | none => [])
       let r := xrhsRun a (sigmaExp s (ctx s k.f c)) (bodyCtx s k.f c) ws
       padWords s' k.f .p a.dst.toNat 64 = r.1.flatten ∧ (ctx s' k.f c).astat = (ctx s k.f c).astat ||| r.2) ∧
      OnlyPad k.f .p a.dst.toNat 64 s s' ∧ (ctx s' k.f c).pc = k.nx ∧ (ctx s' k.f c).g = (ctx s k.f c).g ∧ (∀ h, k.f ≠ h → frond s' h = frond s h)) ∧
  (∀ k a c s, ArrayReady k true s c → Reaches s k.f [xIn a.xt, xIn a.x, xOut a.dst] →
    Completes (.xrelax k a) s fun s' =>
      (let r := xrelaxRun a (alphaCode s (ctx s k.f c)) (bodyCtx s k.f c) [padWords s k.f .a a.xt.word.toNat 32, padWords s k.f .a a.x.word.toNat 32]
       padWords s' k.f .a a.dst.word.toNat 32 = r.1.flatten ∧ (ctx s' k.f c).astat = (ctx s k.f c).astat ||| r.2) ∧
      OnlyPad k.f .a a.dst.word.toNat 32 s s' ∧ (ctx s' k.f c).pc = k.nx ∧ (ctx s' k.f c).g = (ctx s k.f c).g ∧ (∀ h, k.f ≠ h → frond s' h = frond s h)) ∧
  (∀ k a c s, ArrayReady k true s c → Reaches s k.f ([a.zh, a.z, a.y, a.l, a.u].map xIn ++ [⟨.w, a.mask.toNat, 1, .plain⟩] ++ [a.dz, a.dy, a.dw].map xOut) →
      [a.dz, a.dy, a.dw].Pairwise (fun b d => b.word.toNat + 32 ≤ d.word.toNat ∨ d.word.toNat + 32 ≤ b.word.toNat) →
    Completes (.xproj k a) s fun s' =>
      (let x := ctx s k.f c
       let r := xprojRun a (alphaCode s x) (rhoExp s x) (bodyCtx s k.f c)
         (([a.zh, a.z, a.y, a.l, a.u].map fun b => padWords s k.f .a b.word.toNat 32) ++ [padWords s k.f .w a.mask.toNat 1])
       [padWords s' k.f .a a.dz.word.toNat 32, padWords s' k.f .a a.dy.word.toNat 32, padWords s' k.f .a a.dw.word.toNat 32] = r.1 ∧
       (ctx s' k.f c).astat = (ctx s k.f c).astat ||| r.2) ∧
      (∀ x, (∀ b ∈ [a.dz, a.dy, a.dw], x < padAddr k.f .a b.word.toNat ∨ padAddr k.f .a b.word.toNat + 128 ≤ x) → cellGet 0 s'.mem x = cellGet 0 s.mem x) ∧
      (ctx s' k.f c).pc = k.nx ∧ (ctx s' k.f c).g = (ctx s k.f c).g ∧ (∀ h, k.f ≠ h → frond s' h = frond s h))

/-- SCRATCHPAD_STORE, SHARED_STORE_STORE, REMOTE_STORE, CONFIG_ALIAS_STORE and STORE_VISIBLE (R301, R302, R484): a store enters the buffer of its context behind a store of the same home that has left, and nothing else of the machine changes; into an empty buffer a Shared Store store at once asks its port; the oldest
scratchpad store is written in the Crumb's slot, and nothing outside its word, and acknowledged 6 FC later (R212; log entry 98); a range that another engine holds blocks it there, counted (R244); the oldest store that its home has written leaves the buffer. A PUT to a tagged line is held for its slot (R221); what that slot does is stated with the loads. -/
def Obligations.StoresEnterTheBufferAndReachTheirHome : Prop :=
  (∀ k rs addr tag home a i c s e l, CanIssue k [rs] s c → StoreGoes s k.f addr home a → (ctx s k.f c).load = none →
      (ctx s k.f c).store = e :: l → e.sent = true → (ctx s k.f c).store.getLast?.map (·.home) = some home → l.length < 7 →
      (i = .scratchpadStore k rs addr tag ∧ writeKind tag = .plain ∨ i = .sharedStoreStore k rs addr ∨ i = .remoteStore k rs addr ∨ i = .configAliasStore k rs addr) →
    Completes i s (Steps false k c { ctx s k.f c with
      store := (ctx s k.f c).store ++ [{ home := home, addr := a, data := regVal s k.f c rs, sent := false, done := false, id := 0 }] } s)) ∧
  (∀ k rs addr tag home a i c s, CanIssue k [rs] s c → StoreGoes s k.f addr home a → (ctx s k.f c).load = none → (ctx s k.f c).store = [] →
      home = .scratch ∨ home = .config → (i = .scratchpadStore k rs addr tag ∧ writeKind tag = .plain ∨ i = .configAliasStore k rs addr) →
    Completes i s (Steps false k c { ctx s k.f c with store := [{ home := home, addr := a, data := regVal s k.f c rs, sent := false, done := false, id := 0 }] } s)) ∧
  (∀ k rs addr a c s, CanIssue k [rs] s c → StoreGoes s k.f addr .shared a → (ctx s k.f c).load = none → (ctx s k.f c).store = [] →
    Completes (.sharedStoreStore k rs addr) s fun s' =>
      StepsSending k c { ctx s k.f c with store := [{ home := .shared, addr := a, data := regVal s k.f c rs, sent := true, done := false, id := s.nextId }] } s s' ∧
      s'.fabric = { s.fabric with xfers := s.fabric.xfers ++
        [{ id := s.nextId, req := frondReq k.f, part := ctxAtt s k.f c, x := .store k.f c s.nextId a (regVal s k.f c rs) }] } ∧
      s'.nextId = s.nextId + 1 ∧ s'.links = s.links ∧ s'.tree = s.tree) ∧
  (∀ k rs addr n a l c s, CanIssue k [rs] s c → StoreGoes s k.f addr (.remote n) a → (ctx s k.f c).load = none → (ctx s k.f c).store = [] → linkTo s n = some l →
    Completes (.remoteStore k rs addr) s fun s' =>
      (let fr := mkFrame 2 (ctxPart s k.f c) s.tree.node.toNat n (BitVec.ofNat 8 k.f.val) true (BitVec.ofNat 20 ((a - ssBase) / 128)) 0
         (maskedPayload ((a - ssBase) % 128 / 4) [regVal s k.f c rs])
       StepsSending k c { ctx s k.f c with store := [{ home := .remote n, addr := a, data := regVal s k.f c rs, sent := true, done := false, id := s.nextId }] } s s' ∧
       (s'.links.get l).outq = (s.links.get l).outq ++
         [(s.nextId + 1, { part := ctxPart s k.f c, snode := idx 127 s.tree.node.toNat, dnode := idx 127 n, msg := .writew fr })]) ∧
      (∀ h, l ≠ h → s'.links.get h = s.links.get h) ∧ s'.tree.tags.length = s.tree.tags.length + 1) ∧
  (∀ t f m w c e l s, SlotOf .crd t f m s → Runs t f c s → (ctx s f c).store = e :: l → e.home = .scratch → e.sent = false →
      padOf (e.addr - frondBase f) = some (m, w) → sbConflict (ctx s f c) .crumb m w w true = false →
    Completes (.scratchpadSlotAccess t f m []) s fun s' =>
      rdWord s' (padAddr f m w) = e.data ∧ OnlyPad f m w 1 s s' ∧ OnlyFrondAndMemory t f s s' ∧ s'.ecc = s.ecc ∧ s'.obs = s.obs ∧
      ctx s' f c = { ctx s f c with store := { e with sent := true } :: l } ∧ (∀ d, c ≠ d → ctx s' f d = ctx s f d) ∧
      (frond s' f).flight = (frond s f).flight ++ [(backAt t m s, .storeAck c)] ∧
      (frond s' f).full = (frond s f).full ∧ (frond s' f).circ = (frond s f).circ) ∧
  (∀ t f m w c e l s, SlotOf .crd t f m s → Runs t f c s → (ctx s f c).store = e :: l → e.home = .scratch → e.sent = false →
      padOf (e.addr - frondBase f) = some (m, w) → sbConflict (ctx s f c) .crumb m w w true = true →
    Completes (.scratchpadSlotAccess t f m []) s fun s' => ctx s' f c = { ctx s f c with sbStalls := satInc (ctx s f c).sbStalls } ∧
      s'.mem = s.mem ∧ (∀ d, c ≠ d → ctx s' f d = ctx s f d) ∧ OnlyFrondAndMemory t f s s') ∧
  (∀ t f c e l at0 s, s.testMode = false → (frond s f).flight = [(at0, .storeAck c)] → at0 ≤ max s.now t → (ctx s f c).store = e :: l → e.home = .scratch →
      e.sent = true → e.done = false →
    Completes (.scratchpadAccessDone t f) s fun s' => ctx s' f c = { ctx s f c with store := { e with done := true } :: l } ∧ (frond s' f).flight = [] ∧
      (∀ d, c ≠ d → ctx s' f d = ctx s f d) ∧ (∀ h, f ≠ h → frond s' h = frond s h) ∧ s' = { s with now := max s.now t, fronds := s'.fronds }) ∧
  (∀ t f c e s, s.testMode = false → operating s = true → (ctx s f c).store = [e] → e.home ≠ .config → e.done = true →
    Completes (.storeVisible t f c) s fun s' => ctx s' f c = { ctx s f c with store := [] } ∧ s' = { s with now := max s.now t, fronds := s'.fronds } ∧
      (∀ d, c ≠ d → ctx s' f d = ctx s f d) ∧ (∀ h, f ≠ h → frond s' h = frond s h)) ∧
  (∀ t f c e s, s.testMode = false → operating s = true → (ctx s f c).store = [e] → e.home = .config → e.addr = 0x3000F00000 + 0x18 →
    Completes (.storeVisible t f c) s fun s' =>
      (frond s' f).corr = BitVec.ofNat 16 (field e.data 15 0) ∧ (frond s' f).uncorr = BitVec.ofNat 16 (field e.data 31 16) ∧
      ctx s' f c = { ctx s f c with store := [] } ∧ s' = { s with now := max s.now t, fronds := s'.fronds } ∧
      (∀ d, c ≠ d → ctx s' f d = ctx s f d) ∧ (∀ h, f ≠ h → frond s' h = frond s h))

/-- SCRATCHPAD_LOAD, SHARED_STORE_LOAD, REMOTE_LOAD, CONFIG_ALIAS_LOAD, SCRATCHPAD_SLOT_ACCESS, SCRATCHPAD_ACCESS_DONE, SS_LINE_ACCESS (R302, R484): a value the context has stored and that is not yet visible is forwarded; otherwise a scratchpad load is held for the Crumb's slot,
which reads the word under its tag kind (R219), or the line that SCALE is loaded from (R85), and delivers it 6 FC later (R212); a load of the Shared Store asks its port, which reads the word; a load from another device sends a READ under the lowest free tag (R335, R343); a load through the alias reads its register. A held PUT stores in its slot and fills its line. Nothing is written but the destination register. -/
def Obligations.LoadsReturnTheirWord : Prop :=
  (∀ k dst addr tag m w c s, CanIssue k [] s c → viaFrondWindow addr.toNat = false → placeOf s k.f addr.toNat = .pad m w →
      padsOn (frond s k.f) m (loadWords dst w).1 (loadWords dst w).2 = true → (ctx s k.f c).load = none →
    Completes (.scratchpadLoad k dst addr tag) s (HeldForSlot k c { ctx s k.f c with
      slotWait := some { m := m, word := (loadWords dst w).1, tag := readKind tag, rd := dst, put := none, issue := k } } s)) ∧
  (∀ t f m q rd c fr s, SlotOf .crd t f m s → Runs t f c s → storeReady (ctx s f c) f m = none → (ctx s f c).slotWait = some q → q.m = m → q.issue.f = f →
      waitReady (ctx s f c) f q = true → q.put = none → q.rd = .reg rd → sbConflict (ctx s f c) .crumb m q.word q.word false = false →
      tagAccess (frond s f) m q.word q.tag = some fr →
    Completes (.scratchpadSlotAccess t f m []) s fun s' =>
      (let v := if q.tag = .plain then (forwarded (ctx s f c) .scratch (padAddr f m q.word)).getD (rdWord s (padAddr f m q.word)) else rdWord s (padAddr f m q.word)
       (frond s' f).flight = (frond (claim s f c rd) f).flight ++ [(backAt t m s, .load c (some rd) v)]) ∧
      ctx s' f c = steppedCtx (fcNow (atTime s t)) q.issue { ctx (claim s f c rd) f c with slotWait := none } ∧
      (frond s' f).full = fr.full ∧ (frond s' f).sbmix = fr.sbmix ∧ s'.mem = s.mem ∧ OnlyFrondAndMemory t f s s') ∧
  (∀ t f m q c fr s, SlotOf .crd t f m s → Runs t f c s → storeReady (ctx s f c) f m = none → (ctx s f c).slotWait = some q → q.m = m → q.issue.f = f →
      waitReady (ctx s f c) f q = true → q.put = none → q.rd = .scale → sbConflict (ctx s f c) .crumb m q.word (q.word + 31) false = false →
      tagAccess (frond s f) m q.word q.tag = some fr →
    Completes (.scratchpadSlotAccess t f m []) s fun s' =>
      (frond s' f).flight = (frond s f).flight ++ [(backAt t m s, .scale c (padWords s f m q.word 32))] ∧
      ctx s' f c = steppedCtx (fcNow (atTime s t)) q.issue { ctx s f c with slotWait := none } ∧
      (frond s' f).full = fr.full ∧ (frond s' f).sbmix = fr.sbmix ∧ s'.mem = s.mem ∧ OnlyFrondAndMemory t f s s') ∧
  (∀ t f m q v c fr s, SlotOf .crd t f m s → Runs t f c s → (ctx s f c).slotWait = some q → q.m = m → q.issue.f = f →
      waitReady (ctx s f c) f q = true → q.put = some v → sbConflict (ctx s f c) .crumb m q.word q.word true = false →
      tagAccess (frond s f) m q.word q.tag = some fr →
    Completes (.scratchpadSlotAccess t f m []) s fun s' =>
      rdWord s' (padAddr f m q.word) = v ∧ OnlyPad f m q.word 1 s s' ∧ (frond s' f).flight = (frond s f).flight ++ [(backAt t m s, .storeAck c)] ∧
      ctx s' f c = steppedCtx (fcNow (atTime s t)) q.issue { ctx s f c with
        slotWait := none, store := [{ home := .scratch, addr := padAddr f m q.word, data := v, sent := true, done := false, id := 0 }] } ∧
      (frond s' f).full = fr.full ∧ (frond s' f).sbmix = fr.sbmix ∧ OnlyFrondAndMemory t f s s') ∧
  (∀ t f c rd v at0 s, s.testMode = false → (frond s f).flight = [(at0, .load c (some rd) v)] → at0 ≤ max s.now t →
    Completes (.scratchpadAccessDone t f) s fun s' => ctx s' f c = { ctx s f c with g := vset (ctx s f c).g rd v } ∧ (frond s' f).flight = [] ∧
      (∀ d, c ≠ d → ctx s' f d = ctx s f d) ∧ (∀ h, f ≠ h → frond s' h = frond s h) ∧ s' = { s with now := max s.now t, fronds := s'.fronds }) ∧
  (∀ t f c ws at0 s, s.testMode = false → (frond s f).flight = [(at0, .scale c ws)] → at0 ≤ max s.now t →
    Completes (.scratchpadAccessDone t f) s fun s' => (∀ i, (ctx s' f c).scale.get i = BitVec.ofNat 19 (wordAt ws i.val).toNat) ∧
      ctx s' f c = { ctx s f c with scale := (ctx s' f c).scale } ∧ (frond s' f).flight = [] ∧
      (∀ d, c ≠ d → ctx s' f d = ctx s f d) ∧ (∀ h, f ≠ h → frond s' h = frond s h) ∧ s' = { s with now := max s.now t, fronds := s'.fronds }) ∧
  (∀ k rd addr a c s, CanIssue k [] s c → viaFrondWindow addr.toNat = false → placeOf s k.f addr.toNat = .shared a → inImage a 4 = true → (ctx s k.f c).load = none →
    (∀ v, forwarded (ctx s k.f c) .shared a = some v → Completes (.sharedStoreLoad k rd addr) s (WritesReg k c rd v none 1 (claim s k.f c rd))) ∧
    (forwarded (ctx s k.f c) .shared a = none →
      Completes (.sharedStoreLoad k rd addr) s fun s' =>
        StepsSending k c { ctx s k.f c with load := some { home := .shared, addr := a, rd := some rd, id := s.nextId, amo := false } } (claim s k.f c rd) s' ∧
        s'.fabric = { s.fabric with xfers := s.fabric.xfers ++
          [{ id := s.nextId, req := frondReq k.f, part := ctxAtt s k.f c, x := .load k.f c s.nextId a }] } ∧
        s'.nextId = s.nextId + 1 ∧ s'.links = s.links ∧ s'.tree = s.tree)) ∧
  (∀ t port f c i a l d q ref rest s, PortServes t port q ref rest (.load f c i a) s → (ctx s f c).load = some l → l.id = i → l.rd = some d →
    Completes (.ssLineAccess t port []) s fun s' =>
      ctx s' f c = { ctx s f c with load := none, g := vset (ctx s f c).g d (wordSeen s f c a) } ∧ s'.mem = s.mem ∧ s'.ecc = s.ecc ∧
      (s'.fabric.ports.get (ssPortNo port)).granted = rest ∧ s'.fabric.xfers = s.fabric.xfers.filter (·.id != ref) ∧
      (∀ e, c ≠ e → ctx s' f e = ctx s f e) ∧ (∀ h, f ≠ h → frond s' h = frond s h) ∧
      s' = { s with now := max s.now t, fronds := s'.fronds, fabric := s'.fabric }) ∧
  (∀ k rd addr n a tg l c s, CanIssue k [] s c → viaFrondWindow addr.toNat = false → placeOf s k.f addr.toNat = .remoteSS n a → (ctx s k.f c).load = none →
      forwarded (ctx s k.f c) (.remote n) a = none → freeTag s = some tg → linkTo s n = some l →
    Completes (.remoteLoad k rd addr) s fun s' =>
      (let fr := mkFrame 3 (ctxPart s k.f c) s.tree.node.toNat n (BitVec.ofNat 8 k.f.val) true (BitVec.ofNat 20 ((a - ssBase) / 128)) tg
         [BitVec.ofNat 32 ((a - ssBase) % 128 / 4)]
       StepsSending k c { ctx s k.f c with load := some { home := .remote n, addr := a, rd := some rd, id := s.nextId, amo := false } } (claim s k.f c rd) s' ∧
       (s'.links.get l).outq = (s.links.get l).outq ++
         [(s.nextId + 1, { part := ctxPart s k.f c, snode := idx 127 s.tree.node.toNat, dnode := idx 127 n, msg := .read fr })] ∧
       s'.tree = { s.tree with tags := s.tree.tags ++
         [{ id := s.nextId, f := k.f, c := c, node := n, read := true, tag := tg, line := (a - ssBase) / 128, words := 1, job := (ctx s k.f c).job }] }) ∧
      (∀ h, l ≠ h → s'.links.get h = s.links.get h)) ∧
  (∀ k rd addr a c s, CanIssue k [] s c → viaFrondWindow addr.toNat = false → placeOf s k.f addr.toNat = .cfg a → 0x3000F00000 ≤ addr.toNat / 4 * 4 → addr.toNat / 4 * 4 < 0x3000F01000 →
      (ctx s k.f c).load = none → forwarded (ctx s k.f c) .config (addr.toNat / 4 * 4) = none →
    Completes (.configAliasLoad k rd addr) s
      (WritesReg k c rd (aliasRead (modCtx (atTime s k.t) k.f c fun x => { x with atCheap := none }) k.f c (addr.toNat / 4 * 4 - 0x3000F00000)) none 4 (claim s k.f c rd)))

/-- FENCE.SL, FENCE.E, FENCE.ALL, AMOSWAP, AMOADD, AMOCAS and SS_LINE_ACCESS (R304, R305): a fence takes effect when every earlier store is visible, every earlier engine command has retired, or both; an atomic on a word of the image region asks its port once no store of the context waits, and the port reads the old word for the
register and writes the new one, the sum, or the new one where the old equals the compare value, and nothing outside that word. A store granted at the port is written there, and its buffer entry is done; one to the header of a state block is discarded (R141). -/
def Obligations.FencesWaitAndAtomicsAreOneAccess : Prop :=
  (∀ k i c s, CanIssue k [] s c →
      (i = .fenceSl k ∧ (ctx s k.f c).store = [] ∨ i = .fenceE k ∧ enginesRetired (ctx s k.f c) = true ∨
       i = .fenceAll k ∧ (ctx s k.f c).store = [] ∧ enginesRetired (ctx s k.f c) = true) →
    Completes i s (Steps false k c (ctx s k.f c) s)) ∧
  (∀ k i c s, CanIssue k [] s c → ((i = .fenceSl k ∨ i = .fenceAll k) ∧ (ctx s k.f c).store ≠ [] ∨ (i = .fenceE k ∨ i = .fenceAll k) ∧ enginesRetired (ctx s k.f c) = false) →
    Completes i s (HeldForSlot k c (ctx s k.f c) s)) ∧
  (∀ k i op rd addr x y a c s, (i = .amoswap k rd addr x ∧ op = .swap ∧ y = x ∨ i = .amoadd k rd addr x ∧ op = .add ∧ y = x ∨ i = .amocas k rd addr x y ∧ op = .cas) →
      CanIssue k [x, y] s c → placeOf s k.f addr.toNat = .shared a → inImage a 4 = true → addr.toNat < 0x8000000000 →
      (ctx s k.f c).store = [] → (ctx s k.f c).load = none →
    Completes i s fun s' =>
      StepsSending k c { ctx s k.f c with load := some { home := .shared, addr := a, rd := some rd, id := s.nextId, amo := true } } (claim s k.f c rd) s' ∧
      s'.fabric = { s.fabric with xfers := s.fabric.xfers ++
        [{ id := s.nextId, req := frondReq k.f, part := ctxAtt s k.f c, x := .amo k.f c s.nextId a op (regVal s k.f c x) (regVal s k.f c y) }] } ∧
      s'.nextId = s.nextId + 1 ∧ s'.links = s.links ∧ s'.tree = s.tree) ∧
  (∀ t port f c i a op u v l d q ref rest s, PortServes t port q ref rest (.amo f c i a op u v) s → inHeader s a = false →
      (ctx s f c).load = some l → l.id = i → l.rd = some d →
    Completes (.ssLineAccess t port []) s fun s' =>
      (let old := rdWord s a
       rdWord s' a = (match op with | .swap => u | .add => old + u | .cas => if old = u then v else old) ∧
       ctx s' f c = { ctx s f c with load := none, g := vset (ctx s f c).g d old }) ∧
      OnlyBytes a (a + 4) s s' ∧ s'.fabric.xfers = s.fabric.xfers.filter (·.id != ref) ∧ (∀ e, c ≠ e → ctx s' f e = ctx s f e) ∧
      (∀ h, f ≠ h → frond s' h = frond s h) ∧ s' = { s with now := max s.now t, mem := s'.mem, ecc := s'.ecc, fronds := s'.fronds, fabric := s'.fabric }) ∧
  (∀ t port f c i a v q ref rest s, PortServes t port q ref rest (.store f c i a v) s → inHeader s a = true →
    Completes (.ssLineAccess t port []) s fun s' => s'.mem = s.mem ∧
      (ctx s' f c).store = (ctx s f c).store.map (fun e => if e.sent = true ∧ e.id = i then { e with done := true } else e)) ∧
  (∀ t port f c i a v q ref rest s, PortServes t port q ref rest (.store f c i a v) s → inHeader s a = false →
    Completes (.ssLineAccess t port []) s fun s' => rdWord s' a = v ∧ OnlyBytes a (a + 4) s s' ∧
      (ctx s' f c).store = (ctx s f c).store.map (fun e => if e.sent = true ∧ e.id = i then { e with done := true } else e) ∧
      s'.fabric.xfers = s.fabric.xfers.filter (·.id != ref) ∧ (∀ d, c ≠ d → ctx s' f d = ctx s f d) ∧ (∀ h, f ≠ h → frond s' h = frond s h) ∧
      s' = { s with now := max s.now t, mem := s'.mem, ecc := s'.ecc, fronds := s'.fronds, fabric := s'.fabric })

/-- TSET and TCLR set and clear the FULL bit of a line of A or P in the Crumb's slot, behind every earlier store (R218, R484); they change nothing in W, which has no tags; CRESET by the owner takes a slot of the Crumb's for each 32 lines, sets them EMPTY, and with the last of them puts the pointers to 0 (R226); WOPEN writes a window's words, clamped, with its counts at 0, and WCLOSE closes a window of the same context and leaves another's alone (R227, R230). CRESET of another's region and WOPEN of another's open window are window faults. Memory and registers are unchanged. -/
def Obligations.TagsRegionsAndWindowsAreTheOwnersToChange : Prop :=
  (∀ k m line b i c s, (i = .tset k m line ∧ b = true ∨ i = .tclr k m line ∧ b = false) → CanIssue k [] s c → m ≠ .w →
      padOn (frond s k.f) m (32 * line.toNat) = true → ownSlot (atTime s k.t) k.f m .crd = true → (ctx s k.f c).store = [] →
    Completes i s fun s' => ctx s' k.f c = steppedCtx (issueFc k s) k (ctx s k.f c) ∧ crumbOutside false k s s' ∧
      (let l := (if m = .a then 0 else 1280) + line.toNat
       (l ∈ (frond s k.f).touched → (frond s' k.f).full = (frond s k.f).full ∧ (frond s' k.f).sbmix = satInc (frond s k.f).sbmix) ∧
       (l ∉ (frond s k.f).touched → (l ∈ (frond s' k.f).full ↔ b = true) ∧ (∀ j, l ≠ j → (j ∈ (frond s' k.f).full ↔ j ∈ (frond s k.f).full)) ∧
         (frond s' k.f).sbmix = (frond s k.f).sbmix)) ∧
      (frond s' k.f).circ = (frond s k.f).circ ∧ (frond s' k.f).fwin = (frond s k.f).fwin) ∧
  (∀ k line i c s, i = .tset k .w line ∨ i = .tclr k .w line → CanIssue k [] s c → Completes i s (Steps false k c (ctx s k.f c) s)) ∧
  (∀ k i c s, CanIssue k [] s c → ((frond s k.f).circ.get i).en = true → ((frond s k.f).circ.get i).ctx = c → (ctx s k.f c).sbEn = false →
      ownSlot (atTime s k.t) k.f ((frond s k.f).circ.get i).mem' .crd = true → (ctx s k.f c).store = [] →
      (ctx s k.f c).cresetAt + 32 < ((frond s k.f).circ.get i).lines →
    Completes (.creset k i) s fun s' => ctx s' k.f c = { ctx s k.f c with cresetAt := (ctx s k.f c).cresetAt + 32 } ∧ (frond s' k.f).circ = (frond s k.f).circ ∧
      (∀ j, let r := (frond s k.f).circ.get i
        (ctx s k.f c).cresetAt ≤ j → j < (ctx s k.f c).cresetAt + 32 →
        ∀ l, tagLine r.mem' (32 * (r.base.toNat + j)) = some l → l ∉ (frond s k.f).touched → l ∉ (frond s' k.f).full) ∧ s'.mem = s.mem) ∧
  (∀ k i c s, CanIssue k [] s c → ((frond s k.f).circ.get i).en = true → ((frond s k.f).circ.get i).ctx = c → (ctx s k.f c).sbEn = false →
      ownSlot (atTime s k.t) k.f ((frond s k.f).circ.get i).mem' .crd = true → (ctx s k.f c).store = [] →
      ((frond s k.f).circ.get i).lines ≤ (ctx s k.f c).cresetAt + 32 →
    Completes (.creset k i) s fun s' => ctx s' k.f c = steppedCtx (issueFc k s) k (ctx s k.f c) ∧ crumbOutside false k s s' ∧
      (frond s' k.f).circ.get i = { (frond s k.f).circ.get i with head := 0, tail := 0 } ∧ (∀ j, i ≠ j → (frond s' k.f).circ.get j = (frond s k.f).circ.get j) ∧
      (∀ j, let r := (frond s k.f).circ.get i
        (ctx s k.f c).cresetAt ≤ j → j < r.lines → ∀ l, tagLine r.mem' (32 * (r.base.toNat + j)) = some l → l ∉ (frond s k.f).touched → l ∉ (frond s' k.f).full) ∧
      (frond s' k.f).fwin = (frond s k.f).fwin) ∧
  (∀ k i c s, CanIssue k [] s c → ((frond s k.f).circ.get i).en = false ∨ ((frond s k.f).circ.get i).ctx ≠ c ∨ (ctx s k.f c).sbEn = true →
    Completes (.creset k i) s fun s' => (ctx s' k.f c).fault = some .window ∧ (frond s' k.f).circ = (frond s k.f).circ ∧ (frond s' k.f).full = (frond s k.f).full ∧ s'.mem = s.mem) ∧
  (∀ k i w0 w1 w2 c s, CanIssue k [] s c → ((frond s k.f).fwin.get i).opened = false ∨ ((frond s k.f).fwin.get i).ctx = c →
      (ctx s k.f c).sbEn = false ∨ field w0 4 3 ≠ 2 →
    Completes (.wopen k i w0 w1 w2) s fun s' => ctx s' k.f c = steppedCtx (issueFc k s) k (ctx s k.f c) ∧ crumbOutside false k s s' ∧
      (let w := (frond s' k.f).fwin.get i
       w = windowOf w0 w1 w2 ∧ w.opened = true ∧ w.acc = 0 ∧ w.ref = 0 ∧ w.base.toNat ≤ w.limit.toNat) ∧
      (∀ j, i ≠ j → (frond s' k.f).fwin.get j = (frond s k.f).fwin.get j) ∧ (frond s' k.f).circ = (frond s k.f).circ ∧ (frond s' k.f).full = (frond s k.f).full) ∧
  (∀ k i w0 w1 w2 c s, CanIssue k [] s c → ((frond s k.f).fwin.get i).opened = true → ((frond s k.f).fwin.get i).ctx ≠ c →
    Completes (.wopen k i w0 w1 w2) s fun s' => (ctx s' k.f c).fault = some .window ∧ (frond s' k.f).fwin = (frond s k.f).fwin ∧ s'.mem = s.mem) ∧
  (∀ k i c s, CanIssue k [] s c →
    Completes (.wclose k i) s fun s' => ctx s' k.f c = steppedCtx (issueFc k s) k (ctx s k.f c) ∧ crumbOutside false k s s' ∧
      (frond s' k.f).fwin.get i = (let w := (frond s k.f).fwin.get i
        if w.ctx = c then { w with opened := false } else w) ∧
      (∀ j, i ≠ j → (frond s' k.f).fwin.get j = (frond s k.f).fwin.get j) ∧ (frond s' k.f).circ = (frond s k.f).circ ∧ (frond s' k.f).full = (frond s k.f).full)

/-- FETCH_COMMAND, DRAIN_COMMAND, STRIDED_READ, TRANSPOSED_READ, RANGE_RETIRE, SCRATCHPAD_SLOT_ACCESS, SCRATCHPAD_ACCESS_DONE, SS_LINE_ACCESS (R216, R217, R243, R303): a command whose addresses its engine may name joins a queue of at most 8 once no store of the context waits; its slot reads at most a line under its tag kind and delivers it 6 FC later;
its next slot writes the words held, and nothing outside them, and the acknowledgement 6 FC later retires the command when its last word is written. A strided read gathers its words, a transposed read its block by columns. At the port a command reads or writes its line of the Shared Store. A range that nothing holds any more becomes free; one still held stays. -/
def Obligations.EngineCommandsQueueMoveLinesAndRetire : Prop :=
  (∀ k a i e c s, (i = .fetchCommand k a ∧ e = .fetch ∨ i = .drainCommand k a ∧ e = .drain) → CanIssue k [] s c → srcOk s k.f c e a = true → dstOk s k.f c e a = true →
      (ctx s k.f c).store = [] → (ctx s k.f c).sbEn = false → 0 < engWords a →
    (engQ (ctx s k.f c) e = [] → (∀ b tag, a.src = .addr b tag → ∃ m w, placeOf s k.f (b.toNat / 4 * 4) = .pad m w) →
      Completes i s (Steps true k c (setEngQ (ctx s k.f c) e [{ args := a, done := 0, buf := none, busy := none, poison := false, slots := 0, part := [], mark := [], blk := none }]) s)) ∧
    (∀ b tag p, engQ (ctx s k.f c) e = [] → a.src = .addr b tag → placeOf s k.f (b.toNat / 4 * 4) = .shared p →
      Completes i s fun s' =>
        StepsSending k c (setEngQ (ctx s k.f c) e [{ args := a, done := 0, buf := none, busy := some s.nextId, poison := false, slots := 0, part := [], mark := [], blk := none }]) { s with freeCtr := s'.freeCtr } s' ∧
        s'.fabric.xfers = s.fabric.xfers ++
          [{ id := s.nextId, req := frondReq k.f, part := ctxAtt s k.f c, x := .engRead k.f c e p (min (engWords a) ((128 - b.toNat / 4 * 4 % 128) / 4)) }] ∧ s'.links = s.links ∧ s'.tree = s.tree) ∧
    (∀ q l, engQ (ctx s k.f c) e = q :: l → q.busy.isSome = true → l.length < 7 →
      Completes i s (Steps true k c (setEngQ (ctx s k.f c) e (q :: l ++ [{ args := a, done := 0, buf := none, busy := none, poison := false, slots := 0, part := [], mark := [], blk := none }])) s)) ∧
    (8 ≤ (engQ (ctx s k.f c) e).length → Completes i s (HeldForSlot k c (ctx s k.f c) s))) ∧
  (∀ t f m e c q l b tag w fr s, SlotOf (ownerSlot (engOwner e)) t f m s → Runs t f c s → engQ (ctx s f c) e = q :: l →
      stopsHere (ctx s f c) = false → q.busy = none → q.poison = false → q.buf = none → q.args.src = .addr b tag → placeOf s f (b.toNat / 4 * 4 + 4 * q.done) = .pad m w →
      (let n := min (engWords q.args - q.done) (32 - w % 32)
       sbConflict (ctx s f c) (engOwner e) m w (w + n - 1) false = false) → tagAccess (frond s f) m w (readKind tag) = some fr →
    Completes (.scratchpadSlotAccess t f m []) s fun s' =>
      ctx s' f c = setEngQ (ctx s f c) e ({ q with busy := some 0, blk := none } :: l) ∧ (∀ d, c ≠ d → ctx s' f d = ctx s f d) ∧
      frond s' f = { frond s f with ctxs := (frond s' f).ctxs, taken := (frond s' f).taken, full := fr.full, sbmix := fr.sbmix, flight := (frond s f).flight ++
        [(backAt t m s, .engRead c e (padWords s f m w (min (engWords q.args - q.done) (32 - w % 32))) false)] } ∧
      s'.mem = s.mem ∧ OnlyFrondAndMemory t f s s') ∧
  (∀ t f c e q l ws at0 s, s.testMode = false → (frond s f).flight = [(at0, .engRead c e ws false)] → at0 ≤ max s.now t → engQ (ctx s f c) e = q :: l →
      ((∃ i, q.args.dst = .circ i) ∨ ∃ b tag m w, q.args.dst = .addr b tag ∧ placeOf s f (b.toNat / 4 * 4 + 4 * q.done) = .pad m w) →
    Completes (.scratchpadAccessDone t f) s fun s' => ctx s' f c = setEngQ (ctx s f c) e ({ q with busy := none, buf := some ws } :: l) ∧ (frond s' f).flight = [] ∧
      (∀ d, c ≠ d → ctx s' f d = ctx s f d) ∧ s'.mem = s.mem ∧ OnlyFrondAndMemory t f s s') ∧
  (∀ t f m e c q l ws b tag w fr s, SlotOf (ownerSlot (engOwner e)) t f m s → Runs t f c s → engQ (ctx s f c) e = q :: l →
      q.busy = none → q.poison = false → q.buf = some ws → q.args.dst = .addr b tag → placeOf s f (b.toNat / 4 * 4 + 4 * q.done) = .pad m w →
      (let n := min ws.length (32 - w % 32)
       sbConflict (ctx s f c) (engOwner e) m w (w + n - 1) true = false) → tagAccess (frond s f) m w (writeKind tag) = some fr →
    Completes (.scratchpadSlotAccess t f m []) s fun s' =>
      (let n := min ws.length (32 - w % 32)
       padWords s' f m w n = ws.take n ∧ OnlyPad f m w n s s' ∧ (frond s' f).flight = (frond s f).flight ++ [(backAt t m s, .engAck c e n)]) ∧
      ctx s' f c = setEngQ (ctx s f c) e ({ q with busy := some 0, blk := none } :: l) ∧ (frond s' f).full = fr.full ∧ (∀ d, c ≠ d → ctx s' f d = ctx s f d) ∧
      OnlyFrondAndMemory t f s s') ∧
  (∀ t f c e q n at0 s, s.testMode = false → (frond s f).flight = [(at0, .engAck c e n)] → at0 ≤ max s.now t → engQ (ctx s f c) e = [q] →
      engWords q.args ≤ q.done + n →
    Completes (.scratchpadAccessDone t f) s fun s' => ctx s' f c = setEngQ (ctx s f c) e [] ∧ (frond s' f).flight = [] ∧ (∀ d, c ≠ d → ctx s' f d = ctx s f d) ∧
      (∀ h, f ≠ h → frond s' h = frond s h) ∧ s'.mem = s.mem ∧ s'.fabric.xfers = s.fabric.xfers) ∧
  (∀ t f c e q l m a0 st tag s, SlotOf (ownerSlot (engOwner e)) t f m s → Runs t f c s → engQ (ctx s f c) e = q :: l → stopsHere (ctx s f c) = false →
      q.busy = none → q.poison = false → q.buf = none → q.args.src = .strided m a0 st tag → (∀ lo hi, sbConflict (ctx s f c) (engOwner e) m lo hi false = false) →
      (let ws := (stridedWords a0 st (engWords q.args)).map (·.toNat)
       q.slots + 1 < gatherSlots m ws ∨ tagBlocks (frond s f) m (readKind tag) (linesOfWords ws) = none) →
    Completes (.stridedRead t f c e) s fun s' =>
      (let ws := (stridedWords a0 st (engWords q.args)).map (·.toNat)
       if q.slots + 1 < gatherSlots m ws then
         ctx s' f c = setEngQ (ctx s f c) e ({ q with slots := q.slots + 1, blk := none } :: l) ∧ (frond s' f).flight = (frond s f).flight ∧ (frond s' f).full = (frond s f).full
       else
         ctx s' f c = setEngQ (ctx s f c) e ({ q with busy := some 0, blk := none } :: l) ∧
         (frond s' f).flight = (frond s f).flight ++ [(backAt t m s, .engRead c e (ws.map fun w => rdWord s (padAddr f m w)) false)] ∧
         (frond s' f).full = ((linesOfWords ws).foldl (fun fr l => (tagAccess fr m (32 * l) (readKind tag)).getD fr) (frond s f)).full) ∧
      s'.mem = s.mem ∧ (∀ d, c ≠ d → ctx s' f d = ctx s f d) ∧ OnlyFrondAndMemory t f s s') ∧
  (∀ t f c e q l m a0 fmt tag fr s, SlotOf (ownerSlot (engOwner e)) t f m s → Runs t f c s → engQ (ctx s f c) e = q :: l → stopsHere (ctx s f c) = false →
      q.busy = none → q.poison = false → q.buf = none → q.args.src = .transposed m a0 fmt tag → (∀ lo hi, sbConflict (ctx s f c) (engOwner e) m lo hi false = false) →
      tagAccess (frond s f) m (a0.toNat / 32 * 32 + q.part.length) (readKind tag) = some fr →
    Completes (.transposedRead t f c e) s fun s' =>
      (let ws := q.part ++ padWords s f m (a0.toNat / 32 * 32 + q.part.length) 32
       if ws.length < engWords q.args then
         ctx s' f c = setEngQ (ctx s f c) e ({ q with slots := q.slots + 1, part := ws, blk := none } :: l) ∧ (frond s' f).flight = (frond s f).flight
       else
         ctx s' f c = setEngQ (ctx s f c) e ({ q with busy := some 0, blk := none } :: l) ∧
         (frond s' f).flight = (frond s f).flight ++ [(backAt t m s, .engRead c e (transposeWords (packOf false fmt) ws) false)]) ∧
      (frond s' f).full = fr.full ∧ s'.mem = s.mem ∧ (∀ d, c ≠ d → ctx s' f d = ctx s f d) ∧ OnlyFrondAndMemory t f s s') ∧
  (∀ t f c i s, s.testMode = false →
    Completes (.rangeRetire t f c i) s fun s' =>
      (if rangeHeld { frond s f with arrHold := (frond s f).arrHold.filter fun h => decide (max s.now t < h.at_) } c i.val = true then (ctx s' f c).sb = (ctx s f c).sb
       else (ctx s' f c).sb.get i = none) ∧ (∀ j, i ≠ j → (ctx s' f c).sb.get j = (ctx s f c).sb.get j) ∧
      ctx s' f c = { ctx s f c with sb := (ctx s' f c).sb } ∧ (∀ d, c ≠ d → ctx s' f d = ctx s f d) ∧ (∀ h, f ≠ h → frond s' h = frond s h) ∧
      s' = { s with now := max s.now t, fronds := s'.fronds }) ∧
  (∀ t port f c e a n q l z ref rest s, PortServes t port z ref rest (.engRead f c e a n) s → engQ (ctx s f c) e = q :: l → q.busy = some ref →
      (∃ b tag m w, q.args.dst = .addr b tag ∧ placeOf s f (b.toNat / 4 * 4 + 4 * q.done) = .pad m w) →
    Completes (.ssLineAccess t port []) s fun s' =>
      ctx s' f c = setEngQ (ctx s f c) e ({ q with busy := none, buf := some (match ctxJob s f c with
        | some j => inSeen s j a (rdWords s a n)
        | none => rdWords s a n) } :: l) ∧ s'.mem = s.mem ∧ (∀ d, c ≠ d → ctx s' f d = ctx s f d) ∧ (∀ h, f ≠ h → frond s' h = frond s h)) ∧
  (∀ t port f c e a ws o j q z ref rest s, PortServes t port z ref rest (.engWrite f c e a ws o j) s → engQ (ctx s f c) e = [q] → q.busy = some ref →
      engWords q.args ≤ q.done + ws.length → (∀ i, i < ws.length → inHeader s (a + 4 * i) = false) →
      (∀ id x, j = some id → jobOf s id = some x → isStretch x = false ∧ (inOutput s x a = true → x.begun = true)) →
    Completes (.ssLineAccess t port []) s fun s' => rdWords s' a ws.length = ws ∧ OnlyBytes a (a + 4 * ws.length) s s' ∧ ctx s' f c = setEngQ (ctx s f c) e [] ∧
      (∀ id x, j = some id → jobOf s id = some x → inOutput s x a = true → ∃ y, jobOf s' id = some y ∧ y.outAt = true ∧ y.finish = stamp (atTime s t)) ∧
      (∀ d, c ≠ d → ctx s' f d = ctx s f d) ∧ (∀ h, f ≠ h → frond s' h = frond s h))

/-- CIRC_APPEND, CIRC_TAKE, CIRC_PEEK and CIRC_RELEASE (R224, R225): the producer's append writes the line at TAIL and advances TAIL modulo twice the size; the consumer's take delivers the line at HEAD 6 FC later and advances HEAD; a peek delivers a line at a depth and advances nothing; a release advances HEAD by at most the lines held. An append to a full region and a take from an empty one are counted
and change no pointer. An operation of a context or an owner that the region does not name, or on a line without power, faults, with no effect. Each takes a slot of its owner's in the region's memory. -/
def Obligations.RegionOperationsMoveOneLine : Prop :=
  (∀ t f c who i data s, RegionTurn t f c who i true ((frond s f).circ.get i).tail.toNat 1 s → who ≠ .fetch → who ≠ .drain → data.length ≤ 32 →
    Completes (.circAppend t f c who i data) s fun s' =>
      (let r := (frond s f).circ.get i
       let r' := (frond s' f).circ.get i
       if r.count = r.lines then r' = { r with pstall := satInc r.pstall } ∧ s'.mem = s.mem ∧ (frond s' f).full = (frond s f).full
       else r' = { r with tail := BitVec.ofNat 12 ((r.tail.toNat + 1) % (2 * r.lines)) } ∧ padWords s' f r.mem' (r.wordAt r.tail.toNat) data.length = data ∧
         OnlyPad f r.mem' (r.wordAt r.tail.toNat) data.length s s') ∧
      (∀ j, i ≠ j → (frond s' f).circ.get j = (frond s f).circ.get j) ∧ unblocked (ctx s f c) (ctx s' f c) ∧
      (∀ d, c ≠ d → ctx s' f d = ctx s f d) ∧ OnlyFrondAndMemory t f s s') ∧
  (∀ t f c e i data q l ws s, RegionTurn t f c (engOwner e) i true ((frond s f).circ.get i).tail.toNat 1 s → Runs t f c s → engQ (ctx s f c) e = q :: l →
      q.busy = none → q.poison = false → q.buf = some ws → q.args.dst = .circ i →
    Completes (.circAppend t f c (engOwner e) i data) s fun s' =>
      (let r := (frond s f).circ.get i
       let r' := (frond s' f).circ.get i
       if r.count = r.lines then r' = { r with pstall := satInc r.pstall } ∧ s'.mem = s.mem ∧ (∃ b, ctx s' f c = setEngQ (ctx s f c) e ({ q with blk := some b } :: l))
       else r' = { r with tail := BitVec.ofNat 12 ((r.tail.toNat + 1) % (2 * r.lines)) } ∧
         padWords s' f r.mem' (r.wordAt r.tail.toNat) (min 32 ws.length) = ws.take 32 ∧ OnlyPad f r.mem' (r.wordAt r.tail.toNat) (min 32 ws.length) s s' ∧
         (frond s' f).flight = (frond s f).flight ++ [(backAt t r.mem' s, .engAck c e (min 32 ws.length))] ∧
         ctx s' f c = setEngQ (ctx s f c) e ({ q with busy := some 0, blk := none } :: l)) ∧
      (∀ j, i ≠ j → (frond s' f).circ.get j = (frond s f).circ.get j) ∧ (∀ d, c ≠ d → ctx s' f d = ctx s f d) ∧ OnlyFrondAndMemory t f s s') ∧
  (∀ t f c who i s, RegionTurn t f c who i false ((frond s f).circ.get i).head.toNat 1 s → who ≠ .fetch → who ≠ .drain →
    Completes (.circTake t f c who i) s fun s' =>
      (let r := (frond s f).circ.get i
       let r' := (frond s' f).circ.get i
       if r.count = 0 then r' = { r with cstall := satInc r.cstall } ∧ (frond s' f).flight = (frond s f).flight ∧ (frond s' f).full = (frond s f).full
       else r' = { r with head := BitVec.ofNat 12 ((r.head.toNat + 1) % (2 * r.lines)) } ∧
         (frond s' f).flight = (frond s f).flight ++ [(backAt t r.mem' s, .line (padWords s f r.mem' (r.wordAt r.head.toNat) 32))]) ∧
      (∀ j, i ≠ j → (frond s' f).circ.get j = (frond s f).circ.get j) ∧ unblocked (ctx s f c) (ctx s' f c) ∧
      (∀ d, c ≠ d → ctx s' f d = ctx s f d) ∧ s'.mem = s.mem ∧ OnlyFrondAndMemory t f s s') ∧
  (∀ t f c who i d s, (let r := (frond s f).circ.get i
        RegionTurn t f c who i false (r.head.toNat + min d.toNat (r.lines - 1)) 1 s ∧ min d.toNat (r.lines - 1) < r.count) → who ≠ .fetch → who ≠ .drain →
    Completes (.circPeek t f c who i d) s fun s' =>
      (let r := (frond s f).circ.get i
       (frond s' f).flight = (frond s f).flight ++
         [(backAt t r.mem' s, .line (padWords s f r.mem' (r.wordAt (r.head.toNat + min d.toNat (r.lines - 1))) 32))]) ∧
      (frond s' f).circ = (frond s f).circ ∧ (frond s' f).full = (frond s f).full ∧ s'.mem = s.mem ∧ OnlyFrondAndMemory t f s s') ∧
  (∀ t f c e i d op p q l s, (let r := (frond s f).circ.get i
        (op = .circTake t f c (engOwner e) i ∧ p = r.head.toNat ∧ r.count ≠ 0 ∨
         op = .circPeek t f c (engOwner e) i d ∧ p = r.head.toNat + min d.toNat (r.lines - 1) ∧ min d.toNat (r.lines - 1) < r.count)) →
      RegionTurn t f c (engOwner e) i false p 1 s → Runs t f c s → engQ (ctx s f c) e = q :: l → stopsHere (ctx s f c) = false → q.busy = none → q.poison = false →
      q.buf = none → q.args.src = .circ i →
    Completes op s fun s' =>
      (let r := (frond s f).circ.get i
       (frond s' f).flight = (frond s f).flight ++ [(backAt t r.mem' s, .engRead c e ((padWords s f r.mem' (r.wordAt p) 32).take (engWords q.args - q.done)) false)] ∧
       (frond s' f).circ.get i = if op = .circTake t f c (engOwner e) i then { r with head := BitVec.ofNat 12 ((r.head.toNat + 1) % (2 * r.lines)) } else r) ∧
      ctx s' f c = setEngQ (ctx s f c) e ({ q with busy := some 0, blk := none } :: l) ∧
      (∀ j, i ≠ j → (frond s' f).circ.get j = (frond s f).circ.get j) ∧ (∀ d, c ≠ d → ctx s' f d = ctx s f d) ∧ s'.mem = s.mem ∧ OnlyFrondAndMemory t f s s') ∧
  (∀ t f c who i n s, RegionTurn t f c who i false ((frond s f).circ.get i).head.toNat 0 s →
    Completes (.circRelease t f c who i n) s fun s' =>
      (let r := (frond s f).circ.get i
       (frond s' f).circ.get i = { r with head := BitVec.ofNat 12 ((r.head.toNat + min n.toNat r.count) % (2 * r.lines)) }) ∧
      (∀ j, i ≠ j → (frond s' f).circ.get j = (frond s f).circ.get j) ∧ (∀ d, ctx s' f d = ctx s f d) ∧ (frond s' f).flight = (frond s f).flight ∧
      (∀ h, f ≠ h → frond s' h = frond s h) ∧ s' = { s with now := max s.now t, fronds := s'.fronds }) ∧
  (∀ t f c ws at0 s, s.testMode = false → (frond s f).flight = [(at0, .line ws)] → at0 ≤ max s.now t →
    Completes (.scratchpadAccessDone t f) s fun s' => (frond s' f).line = ws ∧ (frond s' f).flight = [] ∧ ctx s' f c = ctx s f c ∧
      (∀ h, f ≠ h → frond s' h = frond s h) ∧ s' = { s with now := max s.now t, fronds := s'.fronds }) ∧
  (∀ t f c who i data d n b p m op s,
      (let r := (frond s f).circ.get i
       (op = .circAppend t f c who i data ∧ b = true ∧ p = r.tail.toNat ∧ m = 1 ∨ op = .circTake t f c who i ∧ b = false ∧ p = r.head.toNat ∧ m = 1 ∨
        op = .circPeek t f c who i d ∧ b = false ∧ p = r.head.toNat + min d.toNat (r.lines - 1) ∧ m = 1 ∨ op = .circRelease t f c who i n ∧ b = false ∧ p = r.head.toNat ∧ m = 0)) →
      s.testMode = false → runningCtx s f = some c → operating s = true → groupActive s f = true → circAllowed (frond s f) c who i b = false ∨ circOn (frond s f) i p m = false →
      (ctx s f c).fault = none →
    Completes op s fun s' => (ctx s' f c).fault = some .window ∧ (frond s' f).circ = (frond s f).circ ∧ (frond s' f).full = (frond s f).full ∧ s'.mem = s.mem ∧
      (∀ d, c ≠ d → ctx s' f d = ctx s f d) ∧ (∀ h, f ≠ h → frond s' h = frond s h))

/-- INBOUND_LINE, INBOUND_RETRY, REFUSAL_AT_SENDER (R228, R229): in an EXT slot that scrub does not take, the oldest buffered line is written through the lowest window that accepts it, its absent words untouched, and ACC counts it; a MODE 2 window appends it to its region; with no window it is refused, REF of every open window of its memory counts, and the refusal reaches the sender, whose context faults if it still runs
that spore and whose Frond logs it otherwise. A line held back at a full buffer is offered again 64 XC later. -/
def Obligations.InboundLinesAreWrittenOrRefused : Prop :=
  (∀ t f l rest i fr s, SlotOf .ext t f l.mem s → scrubTurn (atTime s t) (frond s f) l.mem = false → fwReady (frond s f) l.mem = false → (frond s f).inbound = l :: rest → l.data.length = 32 →
      (allFin 16).find? (fun i => windowFits s (frond s f) ((frond s f).fwin.get i) l) = some i → ((frond s f).fwin.get i).mode ≠ 2 →
      tagAccess (frond s f) l.mem l.word (if ((frond s f).fwin.get i).mode = 1 then .put else .plain) = some fr →
      l.sender.path = none → (ctx s (frondNo l.sender.unit.toNat) l.sender.ctx).drainQ = [] →
    Completes (.inboundLine t f) s fun s' =>
      (∀ j, (h : j < 32) → match l.data[j]? with
        | some (some x) => rdWord s' (padAddr f l.mem (l.word + j)) = x
        | _ => rdWord s' (padAddr f l.mem (l.word + j)) = rdWord s (padAddr f l.mem (l.word + j))) ∧ OnlyPad f l.mem l.word 32 s s' ∧
      (frond s' f).inbound = rest ∧ (frond s' f).full = fr.full ∧
      (frond s' f).fwin.get i = { (frond s f).fwin.get i with acc := satInc ((frond s f).fwin.get i).acc } ∧ (∀ j, i ≠ j → (frond s' f).fwin.get j = (frond s f).fwin.get j) ∧
      (∀ c, ctx s' f c = ctx s f c) ∧ OnlyFrondAndMemory t f s s') ∧
  (∀ t f l rest i s, SlotOf .ext t f l.mem s → scrubTurn (atTime s t) (frond s f) l.mem = false → fwReady (frond s f) l.mem = false → (frond s f).inbound = l :: rest →
      (allFin 16).find? (fun i => windowFits s (frond s f) ((frond s f).fwin.get i) l) = some i →
      (let w := (frond s f).fwin.get i
       let r := (frond s f).circ.get w.circ
       w.mode = 2 ∧ circAllowed (frond s f) w.ctx .inbound w.circ true = true ∧ circOn (frond s f) w.circ r.tail.toNat 1 = true ∧ r.count ≠ r.lines) →
      l.sender.path = none → (ctx s (frondNo l.sender.unit.toNat) l.sender.ctx).drainQ = [] →
    Completes (.inboundLine t f) s fun s' =>
      (let w := (frond s f).fwin.get i
       let r := (frond s f).circ.get w.circ
       (frond s' f).circ.get w.circ = { r with tail := BitVec.ofNat 12 ((r.tail.toNat + 1) % (2 * r.lines)) } ∧ OnlyPad f r.mem' (r.wordAt r.tail.toNat) 32 s s' ∧
       (frond s' f).fwin.get i = { w with acc := satInc w.acc }) ∧
      (frond s' f).inbound = rest ∧ (∀ c, ctx s' f c = ctx s f c) ∧ OnlyFrondAndMemory t f s s') ∧
  (∀ t f l rest s, SlotOf .ext t f l.mem s → scrubTurn (atTime s t) (frond s f) l.mem = false → fwReady (frond s f) l.mem = false → (frond s f).inbound = l :: rest →
      (∀ i, windowFits s (frond s f) ((frond s f).fwin.get i) l = false) → l.sender.path = none →
    Completes (.inboundLine t f) s fun s' =>
      (frond s' (frondNo l.sender.unit.toNat)).refusals = (frond s (frondNo l.sender.unit.toNat)).refusals ++
        [(l.sender.ctx, l.sender.job, BitVec.ofNat 32 (lineField f l.mem l.word))] ∧
      (frond s' f).inbound = rest ∧ (∀ i, let w := (frond s f).fwin.get i
        (frond s' f).fwin.get i = if w.opened = true ∧ w.mem' = some l.mem then { w with ref := satInc w.ref } else w) ∧
      (∀ h c, ctx s' h c = ctx s h c) ∧ s' = { s with now := max s.now t, fronds := s'.fronds }) ∧
  (∀ t f l at0 rest s, s.testMode = false → operating s = true → (frond s f).held = (l, at0) :: rest → at0 ≤ max s.now t →
    Completes (.inboundRetry t f) s fun s' =>
      (if 16 ≤ (frond s f).inbound.length then (frond s' f).inbound = (frond s f).inbound ∧ (frond s' f).held = (frond s f).held.map (fun h => if h = (l, at0) then (l, max s.now t + 64 * tXC) else h)
       else (frond s' f).inbound = (frond s f).inbound ++ [l] ∧ (frond s' f).held = rest) ∧
      s' = { s with now := max s.now t, fronds := s'.fronds, obs := s'.obs }) ∧
  (∀ t f c r s, s.testMode = false → (frond s f).refusals.find? (·.1 == c) = some r →
    Completes (.refusalAtSender t f c) s fun s' => (frond s' f).refusals = (frond s f).refusals.erase r ∧ s'.mem = s.mem ∧ (∀ h, f ≠ h → frond s' h = frond s h) ∧
      (∀ d, c ≠ d → ctx s' f d = ctx s f d) ∧
      if r.2.1.isSome = true ∧ (ctx s f c).job = r.2.1 ∧ (ctx s f c).st ≠ .teardown ∧ (ctx s f c).st ≠ .idle then
        ctx s' f c = (ctx s f c).raise .window ∧ s' = { s with now := max s.now t, fronds := s'.fronds }
      else ctx s' f c = ctx s f c ∧ s'.obs = (logEvent (atTime s t) (uFrond f) 0x0B c.val r.2.2).obs)

/-- SCRATCHPAD_SCRUB, SCRUB_WRITEBACK, SS_SCRUB, SS_ECC_WRITEBACK (R236, R237, R482): a scrub reads the next powered line of its memory and goes on to the line behind it; a single-bit error in it is counted, logged and queued for write-back, the word as read being right; the write-back restores the word's check bits and leaves every other word's alone. The data of memory never changes. -/
def Obligations.ScrubReadsEveryLineAndCorrects : Prop :=
  (∀ t f m s, s.testMode = false → operating s = true → groupActive s f = true → (frond s f).scrubEn = true → scrubSlot (atTime s t) f m = true →
      writebackOf (frond s f) f m = none → s.ecc = [] →
      (let l := nextPowered (frond s f) m (scrubPtr (frond s f) m) (memWordsN m / 32)
       padOn (frond s f) m (32 * l) = true) →
    Completes (.scratchpadScrub t f m []) s fun s' =>
      (let l := nextPowered (frond s f) m (scrubPtr (frond s f) m) (memWordsN m / 32)
       scrubPtr (frond s' f) m = (l + 1) % (memWordsN m / 32)) ∧ (∀ n, n ≠ m → scrubPtr (frond s' f) n = scrubPtr (frond s f) n) ∧
      (∀ c, ctx s' f c = ctx s f c) ∧ (∀ h, f ≠ h → frond s' h = frond s h) ∧ s' = { s with now := max s.now t, fronds := s'.fronds }) ∧
  (∀ t f m i b s, s.testMode = false → operating s = true → groupActive s f = true → (frond s f).scrubEn = true → scrubSlot (atTime s t) f m = true →
      writebackOf (frond s f) f m = none → i < 32 →
      (let l := nextPowered (frond s f) m (scrubPtr (frond s f) m) (memWordsN m / 32)
       padOn (frond s f) m (32 * l) = true ∧ s.ecc = [(padAddr f m (32 * l + i), .single b)] ∧ padAddr f m (32 * l + i) ∉ (frond s f).wback) →
    Completes (.scratchpadScrub t f m []) s fun s' =>
      (let l := nextPowered (frond s f) m (scrubPtr (frond s f) m) (memWordsN m / 32)
       (frond s' f).wback = (frond s f).wback ++ [padAddr f m (32 * l + i)] ∧
       s'.obs.rings = (logEvent (atTime s t) (uFrond f) 0x03 0 (eccData m (32 * l + i) true)).obs.rings) ∧
      (frond s' f).corr = satInc (frond s f).corr ∧ (frond s' f).uncorr = (frond s f).uncorr ∧ s'.mem = s.mem ∧ s'.ecc = s.ecc ∧ (∀ c, ctx s' f c = ctx s f c)) ∧
  (∀ t f m a s, s.testMode = false → operating s = true → groupActive s f = true → (frond s f).scrubEn = true →
      ([Mem.w, .a, .p].findSome? fun m => if scrubSlot (atTime s t) f m = true then (writebackOf (frond s f) f m).map fun a => (m, a) else none) = some (m, a) →
    Completes (.scrubWriteback t f) s fun s' => (frond s' f).wback = (frond s f).wback.erase a ∧ s'.mem = s.mem ∧
      (if poisoned s a = true then s'.ecc = s.ecc else markAt s' a = none) ∧ (∀ b, b / 4 ≠ a / 4 → markAt s' b = markAt s b) ∧
      (∀ c, ctx s' f c = ctx s f c) ∧ (∀ h, f ≠ h → frond s' h = frond s h) ∧
      s' = { s with now := max s.now t, fronds := s'.fronds, ecc := s'.ecc, obs := s'.obs }) ∧
  (∀ t port s, s.testMode = false → operating s = true → portIdle (atTime s t) (ssPortNo port) = true → (s.fabric.ports.get (ssPortNo port)).wback = [] → s.ecc = [] →
    Completes (.ssScrub t port []) s fun s' =>
      (let p := ssPortNo port
       s'.fabric.ports.get p = { s.fabric.ports.get p with scrub := ((s.fabric.ports.get p).scrub + 1) % 16384, usedXC := some (xcNow (atTime s t)) } ∧
       (∀ q, p ≠ q → s'.fabric.ports.get q = s.fabric.ports.get q)) ∧ s' = { s with now := max s.now t, fabric := s'.fabric }) ∧
  (∀ t port a rest s, s.testMode = false → operating s = true → portIdle (atTime s t) (ssPortNo port) = true → (s.fabric.ports.get (ssPortNo port)).wback = a :: rest →
    Completes (.ssEccWriteback t port) s fun s' =>
      (let p := ssPortNo port
       s'.fabric.ports.get p = { s.fabric.ports.get p with wback := rest, usedXC := some (xcNow (atTime s t)) } ∧ (∀ q, p ≠ q → s'.fabric.ports.get q = s.fabric.ports.get q)) ∧
      (if poisoned s a = true then s'.ecc = s.ecc else markAt s' a = none) ∧ (∀ b, b / 4 ≠ a / 4 → markAt s' b = markAt s b) ∧
      s' = { s with now := max s.now t, fabric := s'.fabric, ecc := s'.ecc })

/-- SLOT_STROBE and PPS_EDGE (R459, R460): a strobe within 160 AT of the one accepted before it is counted as short and does nothing else; a held, halted or replaying device ignores its pin; an accepted one is stamped after a joining step (R350) and counted, and on a device that works asks for a work-list build at its stamp and counts a strobe of the tree.
A PPS edge is stamped and counted, with its interval in AT less 3 840 000, clamped to 16 bits, or 0x8000 at the first edge; a held or halted device ignores that pin too. -/
def Obligations.StrobesAndPpsEdgesAreStamped : Prop :=
  (∀ t s, s.testMode = false → s.boot.phase = .held ∨ s.obs.halted = true ∨ strobesHeld s = true → exec (.slotStrobe t) s = .next { s with now := max s.now t }) ∧
  (∀ t a s, s.testMode = false → s.boot.phase ≠ .held → s.obs.halted = false → strobesHeld s = false → s.timing.stbAt = some a → max s.now t < a + 160 * tAT →
    exec (.slotStrobe t) s = .next { s with now := max s.now t, timing := { s.timing with stbShort := satInc s.timing.stbShort } }) ∧
  (∀ t s, s.testMode = false → s.boot.phase ≠ .held → s.obs.halted = false → strobesHeld s = false → (∀ a, s.timing.stbAt = some a → a + 160 * tAT ≤ max s.now t) →
    (operating s = false →
      exec (.slotStrobe t) s = .next { s with
        now := max s.now t, timing := { s.timing with stbStamp := stamp (atTime s t), stbCnt := s.timing.stbCnt + 1, stbAt := some (max s.now t) } }) ∧
    (operating s = true →
      Completes (.slotStrobe t) s fun s' =>
        s'.timing = { s.timing with
          stbStamp := stamp (stepAtStrobe (atTime s t)), stbCnt := s.timing.stbCnt + 1, stbAt := some (max s.now t), stbSinceLock := true } ∧
        (if s.builder.want = none then s'.builder.want = some s'.timing.stbStamp ∧ s'.builder.again = s.builder.again
         else s'.builder.want = s.builder.want ∧ s'.builder.again = some s'.timing.stbStamp) ∧
        s'.tree.strobes = s.tree.strobes + 1 ∧ s'.tbAdj = (stepAtStrobe (atTime s t)).tbAdj ∧ s'.mem = s.mem ∧ s'.boot = s.boot ∧ s'.le = s.le)) ∧
  (∀ t s, s.testMode = false → s.boot.phase = .held ∨ s.obs.halted = true → exec (.ppsEdge t) s = .next { s with now := max s.now t }) ∧
  (∀ t s, s.testMode = false → s.boot.phase ≠ .held → s.obs.halted = false →
    exec (.ppsEdge t) s = .next { s with
      now := max s.now t
      timing := { s.timing with
        ppsStamp := stamp (atTime s t), ppsCnt := s.timing.ppsCnt + 1, ppsSeen := true
        ppsDev := if s.timing.ppsSeen = true then
          BitVec.ofInt 16 (clampInt (-32768) 32767 (Int.ofNat ((stamp (atTime s t) - s.timing.ppsStamp).toNat / 256) - 3840000)) else 0x8000 } })

/-- DOORBELL_WRITE, SPORE_ACCEPT, SPORE_BUFFER_WRITE (R43, R44, R49 to R52): a write that covers byte 63 of a line gives up its 64 bytes as a spore and clears the buffer; its acceptance falls now, or 2 XC after that of the spore before it; a shorter write only fills the buffer; after a cut it is discarded and counted. The oldest spore, at its moment, checked, takes the entry behind the counted ones of its queue, with COUNT and SEQ one higher and its acceptance stamped; a full or disabled queue refuses it, counted.
Stage 2 writes 14 words and the stamp to the pool entry and sets the bit of the queue. A write is taken once the spores of every earlier write have been accepted, and marks a running replay as perturbed (R446: `hostSees`). -/
def Obligations.DoorbellsBecomeBufferedSpores : Prop :=
  (∀ t fn l data s, HostReaches s → deviceReady s = true → fnServed s fn = true → data.length = 64 → 64 * l + 64 ≤ 0x8000 →
    let p := hostSees s t
    let due := max p.now p.pcie.acceptAt
    Completes (.doorbellWrite t fn (64 * l) data) s fun s' => s'.pcie.sporeQ = p.pcie.sporeQ ++ [(fn, data, due)] ∧ s'.pcie.acceptAt = due + 2 * tXC ∧
      s'.pcie.fns.get fn = { p.pcie.fns.get fn with lines := (p.pcie.fns.get fn).lines.filter (·.1 != l) } ∧
      (∀ n, fn ≠ n → s'.pcie.fns.get n = p.pcie.fns.get n) ∧ s'.pcie.cancelQ = p.pcie.cancelQ ∧ s' = { p with pcie := s'.pcie }) ∧
  (∀ t fn l o data s, HostReaches s → deviceReady s = true → fnServed s fn = true → 0 < data.length → o + data.length < 64 → 64 * l + 64 ≤ 0x8000 →
    let p := hostSees s t
    Completes (.doorbellWrite t fn (64 * l + o) data) s fun s' => s'.pcie.sporeQ = p.pcie.sporeQ ∧
      (∀ i, cellGet 0 (doorbellLine s' fn l) i = if o ≤ i ∧ i < o + data.length then byteAt data (i - o) else cellGet 0 (doorbellLine p fn l) i) ∧
      (∀ k, l ≠ k → doorbellLine s' fn k = doorbellLine p fn k) ∧ (∀ n, fn ≠ n → s'.pcie.fns.get n = p.pcie.fns.get n) ∧ s' = { p with pcie := s'.pcie }) ∧
  (∀ t fn off data s, s.testMode = false → s.obs.halted = false → s.pcie.up = false → exec (.doorbellWrite t fn off data) s = .next { s with now := max s.now t }) ∧
  (∀ t fn off data s, s.testMode = false → s.obs.halted = true →
    exec (.doorbellWrite t fn off data) s = .next { s with now := max s.now t, obs := { s.obs with hostDisc := satInc s.obs.hostDisc } }) ∧
  (∀ t fn bytes at0 rest s, QueuesSound s → s.pcie.sporeQ = (fn, bytes, at0) :: rest → at0 ≤ max s.now t → anyPartition s = true → s.tree.yielded = false →
    let c := checkSpore s fn (bytesWords 16 bytes)
    Completes (.sporeAccept t) s fun s' => s'.pcie = { s.pcie with sporeQ := rest } ∧
      if c.refuse = true ∨ qDepth s c.queue ≤ qCount s c.queue then
        s'.entries = s.entries ∧ (s'.obs.pcnt.get c.part).refuse = satInc (s.obs.pcnt.get c.part).refuse ∧
        field (desc s' c.queue 3) 15 0 = min (field (desc s c.queue 3) 15 0 + 1) 0xFFFF ∧ desc s' c.queue 0 = desc s c.queue 0
      else
        s'.entries = s.entries ++ [{
          queue := c.queue, idx := idx 63 ((qHead s c.queue + qCount s c.queue) % qDepth s c.queue), st := .reserved, part := c.part
          accept := stampOf s at0, acceptAt := at0, clamp := c.clamp, toNull := c.toNull, spore := c.words }] ∧
        desc s' c.queue 0 = setField (desc s c.queue 0) 14 8 (qCount s c.queue + 1) ∧
        desc s' c.queue 3 = setField (desc s c.queue 3) 31 16 (field (desc s c.queue 3) 31 16 + 1) ∧
        OnlyBytes (descAddr c.queue) (descAddr c.queue + 16) s s' ∧ desc s' c.queue 1 = desc s c.queue 1 ∧ desc s' c.queue 2 = desc s c.queue 2 ∧
        (s'.obs.pcnt.get c.part).accept = satInc (s.obs.pcnt.get c.part).accept ∧ s'.jobs = s.jobs ∧ s'.ringQ = s.ringQ) ∧
  (∀ t q i e s, QueuesSound s → entryAt s q i = some e → e.st = .reserved → e.spore.length = 16 →
    Completes (.sporeBufferWrite t q i) s fun s' =>
      rdWords s' (poolEntry s q i) 16 = e.spore.take 14 ++ [BitVec.ofNat 32 e.accept.toNat, BitVec.ofNat 32 (e.accept.toNat / 2 ^ 32)] ∧
      (let a := bitmapBase + q.toNat / 32 * 4
       rdWord s' a = setBit (rdWord s a) (q.toNat % 32) true ∧
       ∀ x, (x < poolEntry s q i ∨ poolEntry s q i + 64 ≤ x) → (x < a ∨ a + 4 ≤ x) → cellGet 0 s'.mem x = cellGet 0 s.mem x) ∧
      q.toNat / 1024 ∈ s'.builder.l1 ∧ entryAt s' q i = some { e with st := .buffered } ∧ s'.entries.length = s.entries.length ∧
      s' = { s with now := max s.now t, mem := s'.mem, ecc := s'.ecc, entries := s'.entries, builder := { s.builder with l1 := s'.builder.l1, setXC := s'.builder.setXC } })

/-- CANCEL_LINE_WRITE and CANCEL (R59 to R61): a write that covers byte 15 of a cancel line sends queue and tag to Hearth core 1, or counts it as unmatched when the queue is out of range or disabled. A cancel that matches nothing is counted; one that matches a spore still in its buffer forms its record with status 0x08; one that matches a running spore puts ABORT on its contexts, whose output is discarded from then on; that the buffer of a cancel line is cleared is the model's choice (log entry 86). -/
def Obligations.CancelsReachEveryMatchingSpore : Prop :=
  (∀ t fn l data s, HostReaches s → deviceReady s = true → fnServed s fn = true → anyPartition s = true → s.ecc = [] → data.length = 16 → 16 * l + 16 ≤ 0x1000 →
    let p := hostSees s t
    let ws := bytesWords 4 data
    let q : QueueId := BitVec.ofNat 20 (field (wordAt ws 0) 19 0)
    let pt := (checkPart p fn (idx 7 (field (wordAt ws 0) 22 20))).1
    Completes (.cancelLineWrite t fn (0x8000 + 16 * l) data) s fun s' =>
      (if inRange p pt q = true ∧ qEn p q = true then s'.pcie.cancelQ = p.pcie.cancelQ ++ [(pt, q, dword (wordAt ws 2) (wordAt ws 3))] ∧ s'.obs = p.obs
       else s'.pcie.cancelQ = p.pcie.cancelQ ∧ (s'.obs.pcnt.get pt).unmatch = satInc (p.obs.pcnt.get pt).unmatch) ∧
      s'.pcie.fns.get fn = { p.pcie.fns.get fn with cancels := (p.pcie.fns.get fn).cancels.filter (·.1 != l) } ∧ s'.pcie.sporeQ = p.pcie.sporeQ ∧
      s' = { p with pcie := s'.pcie, obs := s'.obs }) ∧
  (∀ t p q tag rest s, s.testMode = false → operating s = true → s.pcie.cancelQ = (p, q, tag) :: rest →
      (∀ e ∈ queueEntries s q, e.st = .buffered ∨ e.st = .reserved → spTag e.spore ≠ tag) → (∀ j ∈ s.jobs, j.queue = q → spTag j.spore ≠ tag) →
    Completes (.cancel t) s fun s' => (s'.obs.pcnt.get p).unmatch = satInc (s.obs.pcnt.get p).unmatch ∧ s'.pcie = { s.pcie with cancelQ := rest } ∧
      s' = { s with now := max s.now t, pcie := s'.pcie, obs := { s.obs with pcnt := s'.obs.pcnt } }) ∧
  (∀ t p q tag rest e s, QueuesSound s → s.pcie.cancelQ = (p, q, tag) :: rest →
      (queueEntries s q).filter (fun e => (e.st == .buffered || e.st == .reserved) && spTag e.spore == tag) = [e] → entryAt s q e.idx = some e → e.queue = q →
      (∀ j ∈ s.jobs, j.queue = q → spTag j.spore ≠ tag) → s.deadQueues = [] →
    Completes (.cancel t) s fun s' => entryAt s' q e.idx = some { e with st := .waiting } ∧ field (rdWord s' (poolEntry s q e.idx + 8)) 7 0 = 0x08 ∧
      rdWord s' (poolEntry s q e.idx) = loWord tag ∧ rdWord s' (poolEntry s q e.idx + 4) = hiWord tag ∧
      (∃ r ∈ s'.ringQ, r.queue = q ∧ r.idx = e.idx) ∧ s'.pcie.cancelQ = rest ∧ s'.jobs = s.jobs ∧ s'.fronds = s.fronds) ∧
  (∀ t p q tag rest j s, s.testMode = false → operating s = true → s.pcie.cancelQ = (p, q, tag) :: rest →
      (∀ e ∈ queueEntries s q, e.st = .buffered ∨ e.st = .reserved → spTag e.spore ≠ tag) → s.jobs.filter (fun j => j.queue == q && spTag j.spore == tag) = [j] →
      j.shard = .none → j.st = .placed → (∀ k ∈ s.jobs, k.id = j.id → k = j) →
    Completes (.cancel t) s fun s' => (∀ a ∈ ctxsOf s j, (ctx s a.1 a.2).st = .running → (ctx s' a.1 a.2).areq = true ∧ (ctx s' a.1 a.2).noOutput = true ∧
        (ctx s' a.1 a.2).st = .running ∧ (ctx s' a.1 a.2).g = (ctx s a.1 a.2).g) ∧
      (∃ k ∈ s'.jobs, k = markCancel (atTime s t) j) ∧ s'.entries = s.entries ∧ s'.mem = s.mem ∧ s'.pcie = { s.pcie with cancelQ := rest })

/-- WORKLIST_BUILD, BITMAP_READ_AND_CLEAR, BITMAP_LINE_RETURN, WORKLIST_POP (R53 to R58): a build starts once no spore accepted before the edge still waits for stage 2, with the lines of the summary in order, put before their ports; a granted line's 32 words are read and cleared with its summary bit, but for the bits set in the same XC, which are left for the next build; a returned line is published when every earlier one has been, and held until then; the last one ends the build and the boundary window.
A popped entry visits its queues: eligible spores are taken, and the bit of a queue with others is set again. -/
def Obligations.WorkListIsBuiltLineByLineAndConsumed : Prop :=
  (∀ t edge s, s.testMode = false → operating s = true → s.builder.want = some edge → s.builder.active = false →
      (∀ e ∈ s.entries, e.st = .reserved → earlier e.accept edge = false) →
    Completes (.worklistBuild t) s fun s' =>
      if s.builder.l1 = [] then
        s'.builder = { s.builder with active := false, scanned := false, toIssue := [], issued := [], lineAt := [], want := s.builder.again, again := none } ∧
        s'.power.windowOpen = false ∧ s' = { s with now := max s.now t, builder := s'.builder, power := s'.power }
      else
        s'.fabric = { s.fabric with xfers := s.fabric.xfers ++ s.builder.l1.mapIdx fun i l => { id := s.nextId + i, req := builderReq, part := none, x := .bitmapLine l } } ∧
        s' = { s with
          now := max s.now t, nextId := s.nextId + s.builder.l1.length, fabric := s'.fabric
          builder := { s.builder with active := true, scanned := true, toIssue := s.builder.l1, issued := s.builder.l1.map fun l => (l, none), lineAt := [] } }) ∧
  (∀ t edge e s, s.testMode = false → s.builder.want = some edge → e ∈ s.entries → e.st = .reserved → earlier e.accept edge = true →
    exec (.worklistBuild t) s = .next { s with now := max s.now t }) ∧
  (∀ t p q ref rest l s, s.testMode = false → operating s = true → bitmapPort (atTime s t) = some p → (s.fabric.ports.get p).granted = (q, ref) :: rest →
      xferOf s ref = some (.bitmapLine l) → s.ecc = [] →
    let a := bitmapBase + 128 * l
    let r := clearedLine (atTime s t) l (rdWords s a 32)
    Completes (.bitmapReadAndClear t) s fun s' =>
      rdWords s' a 32 = r.2 ∧ OnlyBytes a (a + 128) s s' ∧
      ((setNow (atTime s t)).all (fun x => x.1.toNat / 1024 != l) = true → r.1 = rdWords s a 32 ∧ (∀ x, a ≤ x → x < a + 128 → cellGet 0 s'.mem x = 0) ∧
        s'.builder.l1 = removeNat l s.builder.l1) ∧
      (s'.fabric.ports.get p).granted = rest ∧ s'.fabric.xfers = s.fabric.xfers.filter (·.id != ref) ∧ (∀ k, p ≠ k → s'.fabric.ports.get k = s.fabric.ports.get k) ∧
      s' = { s with
        now := max s.now t, mem := s'.mem, ecc := s'.ecc, fabric := s'.fabric
        builder := { s.builder with
          l1 := if r.2.all (· == 0) then removeNat l s.builder.l1 else s.builder.l1, toIssue := s.builder.toIssue.filter (· != l)
          lineAt := s.builder.lineAt ++ [(l, r.1)] } }) ∧
  (∀ t l k ws rest s, s.testMode = false → operating s = true → s.builder.issued = (l.val, none) :: (k, none) :: rest → k ≠ l.val →
      (s.builder.lineAt.find? (·.1 == l.val)).map (·.2) = some ws →
    Completes (.bitmapLineReturn t l) s fun s' => s'.builder.list = publishLine s.tree.strobes s.builder.list l.val ws ∧
      s'.builder.issued.map (·.1) = k :: rest.map (·.1) ∧ s'.builder.toIssue = s.builder.toIssue ∧ s'.builder.l1 = s.builder.l1 ∧
      s' = { s with now := max s.now t, builder := s'.builder }) ∧
  (∀ t l k ws rest s, s.testMode = false → operating s = true → s.builder.issued = (k, none) :: rest → k ≠ l.val → (l.val, none) ∈ rest →
      (s.builder.lineAt.find? (·.1 == l.val)).map (·.2) = some ws →
    Completes (.bitmapLineReturn t l) s fun s' => s'.builder.list = s.builder.list ∧ (l.val, some ws) ∈ s'.builder.issued ∧
      s'.builder.issued.length = s.builder.issued.length ∧ s' = { s with now := max s.now t, builder := s'.builder }) ∧
  (∀ t l ws s, s.testMode = false → operating s = true → s.builder.issued = [(l.val, none)] → s.builder.toIssue = [] →
      (s.builder.lineAt.find? (·.1 == l.val)).map (·.2) = some ws →
    Completes (.bitmapLineReturn t l) s fun s' => s'.builder.list = publishLine s.tree.strobes s.builder.list l.val ws ∧ s'.builder.active = false ∧
      s'.builder.want = s.builder.again ∧ s'.builder.issued = [] ∧ s'.power.windowOpen = false ∧
      s' = { s with now := max s.now t, builder := s'.builder, power := s'.power }) ∧
  (∀ t e rest b s, QueuesSound s → s.builder.list = e :: rest → b < 64 → e.mask = BitVec.ofNat 64 (2 ^ b) →
    let q : QueueId := BitVec.ofNat 20 (64 * e.word + b)
    let es := (queueEntries s q).filter fun e => e.st == .buffered && !(s.popped.any fun x => x.1 == q && x.2 == e.idx)
    Completes (.worklistPop t) s fun s' => s'.builder.list = rest ∧ s'.popped = s.popped ++ (es.filter (eligibleSpore s)).map (fun e => (q, e.idx)) ∧
      (if es.filter (eligibleSpore s) = es then s'.mem = s.mem ∧ s'.builder.l1 = s.builder.l1
       else rdWord s' (bitmapBase + q.toNat / 32 * 4) = setBit (rdWord s (bitmapBase + q.toNat / 32 * 4)) (q.toNat % 32) true ∧ q.toNat / 1024 ∈ s'.builder.l1 ∧
         OnlyBytes (bitmapBase + q.toNat / 32 * 4) (bitmapBase + q.toNat / 32 * 4 + 4) s s') ∧
      s' = { s with now := max s.now t, builder := s'.builder, popped := s'.popped, mem := s'.mem, ecc := s'.ecc })

/-- REGISTER_WRITE, HOST_WINDOW_WRITE, HOST_WINDOW_READ (R7, R8, R22, R215, R272, R474, R478 to R480): a write of a Shared Store word stores it and nothing else; one of a scratchpad word waits for an EXT slot of its memory, which stores it, and one of an unpowered region is only logged; a write of an LK word after the lock changes only the late-write capture, which keeps the first of an earlier XC, and before the lock takes effect; 1s clear LATE and MAJFIX where no late write falls in the same XC; any other word of configuration space is written by its access code, but in the fabric block after the lock by the firmware alone; an address of a hole is only logged, in the ring of Hearth core 0 (the model's choice, log entry 87).
A host write through a window with HOSTW is put before its port as requester 18, which stores its word; one without, or to another BAR, is discarded; BAR 0 takes doorbells, cancels and the staging block. A read gathers the bytes of its BAR, at most 4 096, those of the Shared Store through the ports, and returns them in completions of at most 128 B at the egress. -/
def Obligations.RegisterAndWindowAccessesFollowTheirCodes : Prop :=
  (∀ t req a v s, s.testMode = false → s.boot.phase ≠ .held → s.obs.halted = false →
    (ssBase ≤ a.toNat → a.toNat < ssBase + 0x2000000 →
      Completes (.registerWrite t req a v) s fun s' => rdWord s' (a.toNat / 4 * 4) = v ∧ OnlyBytes (a.toNat / 4 * 4) (a.toNat / 4 * 4 + 4) s s' ∧
        s' = { s with now := max s.now t, mem := s'.mem, ecc := s'.ecc }) ∧
    (∀ f m w, a.toNat = padAddr f m w → w < memWordsN m →
      Completes (.registerWrite t req a v) s fun s' =>
        if padOn (frond s f) m w = true then frond s' f = { frond s f with fwPend := (frond s f).fwPend ++ [.write none m w [some v]] } ∧
          (∀ h, f ≠ h → frond s' h = frond s h) ∧ s' = { s with now := max s.now t, fronds := s'.fronds }
        else s'.obs = (logEvent (atTime s t) (uFrond f) 0x06 0 (eccData m w false)).obs ∧ s' = { s with now := max s.now t, obs := s'.obs }) ∧
    (0x3000000000 ≤ a.toNat → a.toNat < 0x3002000000 → isLk (a.toNat - 0x3000000000) = true → locked s = true →
      Completes (.registerWrite t req a v) s fun s' =>
        (s.boot.late = true → s.boot.lateXC ≠ some (xcNow (atTime s t)) → s'.boot = { s.boot with lateThis := s'.boot.lateThis }) ∧
        (s.boot.late = false → s.boot.lateThis.all (fun x => x.1 != xcNow (atTime s t)) = true → s'.boot = { s.boot with
          late := true, lateAddr := BitVec.ofNat 40 a.toNat, lateReq := BitVec.ofNat 5 req.val, lateXC := s'.boot.lateXC, lateThis := s'.boot.lateThis }) ∧
        s' = { s with now := max s.now t, boot := s'.boot }) ∧
    (a = 0x3000010040 → s.boot.lateThis.all (fun x => x.1 != xcNow (atTime s t)) = true →
      exec (.registerWrite t req a v) s = .next { s with
        now := max s.now t, boot := { s.boot with late := s.boot.late && !bit v 1, majFix := s.boot.majFix && !bit v 2 } }) ∧
    (0x3000000000 ≤ a.toNat → a.toNat < 0x3002000000 → isLk (a.toNat - 0x3000000000) = true → locked s = false →
      exec (.registerWrite t req a v) s = .next (lkWrite (atTime s t) (a.toNat - 0x3000000000) v)) ∧
    (0x3000000000 ≤ a.toNat → a.toNat < 0x3002000000 → isLk (a.toNat - 0x3000000000) = false → (req = hearthReq ∨ locked s = false ∨ inFabricBlock a.toNat = false) →
      exec (.registerWrite t req a v) s = .next (rwWrite (atTime s t) req (a.toNat - 0x3000000000) v)) ∧
    (inFabricBlock a.toNat = true → isLk (a.toNat - 0x3000000000) = false → req ≠ hearthReq → locked s = true →
      exec (.registerWrite t req a v) s = .next { s with now := max s.now t }) ∧
    (∀ ch : ChanId, ∀ i : Fin 16, a.toNat = 0x3000080040 + 0x100 * ch.val + 4 * i.val → leEarly (atTime s t) ch = false → (s.le.get ch).late = [] →
      Completes (.registerWrite t req a v) s fun s' => OnlyChannel t ch s s' ∧ (s'.le.get ch).shadow.get i = v ∧ (s'.le.get ch).active = (s.le.get ch).active ∧
        (∀ j, i ≠ j → (s'.le.get ch).shadow.get j = (s.le.get ch).shadow.get j)) ∧
    (∀ f : FrondId, a.toNat = 0x3001000018 + 0x10000 * f.val →
      Completes (.registerWrite t req a v) s fun s' =>
        frond s' f = { frond s f with corr := BitVec.ofNat 16 (field v 15 0), uncorr := BitVec.ofNat 16 (field v 31 16) } ∧
        (∀ h, f ≠ h → frond s' h = frond s h) ∧ s' = { s with now := max s.now t, fronds := s'.fronds }) ∧
    (a = 0x3000070000 → bit v 0 = true → req = hearthReq →
      exec (.registerWrite t req a v) s = .next { s with now := max s.now t, obs := { s.obs with frz := true, frzAt := atCount (atTime s t) } }) ∧
    (a.toNat < 0x1000000000 ∨ (0x1008000000 ≤ a.toNat ∧ a.toNat < ssBase) ∨ (ssBase + 0x2000000 ≤ a.toNat ∧ a.toNat < 0x3000000000) ∨ 0x3002000000 ≤ a.toNat →
      Completes (.registerWrite t req a v) s fun s' => s'.obs = (logEvent (atTime s t) (uHearth 0) 0x05 0 (BitVec.ofNat 32 a.toNat)).obs ∧
        s' = { s with now := max s.now t, obs := s'.obs })) ∧
  (∀ t f m o w v rest s, SlotOf .ext t f m s → scrubTurn (atTime s t) (frond s f) m = false → (frond s f).fwPend = .write o m w [some v] :: rest →
      padOn (frond s f) m w = true →
    Completes (.scratchpadSlotAccess t f m []) s fun s' => rdWord s' (padAddr f m w) = v ∧ OnlyPad f m w 1 s s' ∧ (frond s' f).fwPend = rest ∧
      (∀ c, ctx s' f c = ctx s f c) ∧ (frond s' f).full = (frond s f).full ∧ (frond s' f).circ = (frond s f).circ ∧ OnlyFrondAndMemory t f s s') ∧
  (∀ t fn off data s, HostReaches s → operating s = true → (fn = 0 ∨ fnServed s fn = true) →
    let p := hostSees s t
    (∀ a pt, data.length = 4 → off % 4 = 0 → hostWriteAt p fn 2 off = some (a, pt) →
      exec (.hostWindowWrite t fn 2 off data) s = .next { p with
        nextId := p.nextId + 1
        fabric := { p.fabric with xfers := p.fabric.xfers ++ [{ id := p.nextId, req := pcieReq, part := pt, x := .hostLine false a [(bytesWord data, 0xFFFFFFFF)] }] } }) ∧
    ((∀ x ∈ writeWords off data, hostWriteAt p fn 2 x.1 = none) → exec (.hostWindowWrite t fn 2 off data) s = .next p) ∧
    (off < 0x8000 → exec (.hostWindowWrite t fn 0 off data) s = exec (.doorbellWrite t fn off data) s) ∧
    (0x8000 ≤ off → off < 0x9000 → exec (.hostWindowWrite t fn 0 off data) s = exec (.cancelLineWrite t fn off data) s) ∧
    (fn ≠ 0 → 0x9000 ≤ off → exec (.hostWindowWrite t fn 0 off data) s = .next p) ∧
    (fn = 0 → data.length = 4 → off = 0x10004 →
      exec (.hostWindowWrite t fn 0 off data) s = .next { p with stg := { p.stg with foff := BitVec.ofNat 27 (field (bytesWord data) 26 0) } })) ∧
  (∀ t port z ref rest a v mask s, PortServes t port z ref rest (.hostLine false a [(v, mask)]) s → ringWordAt s a = none → inNotice s a = false → replayKeeps s a = 0 →
      (∀ b, replayBlock s = some b → a < b ∨ b + 32 ≤ a) →
    Completes (.ssLineAccess t port []) s fun s' => rdWord s' a = (rdWord s a &&& ~~~mask) ||| (v &&& mask) ∧ OnlyBytes a (a + 4) s s' ∧
      s'.fabric.xfers = s.fabric.xfers.filter (·.id != ref) ∧ s' = { s with now := max s.now t, mem := s'.mem, ecc := s'.ecc, fabric := s'.fabric }) ∧
  (∀ t fn bar off data s, HostReaches s → bar ≠ 0 → bar ≠ 2 → exec (.hostWindowWrite t fn bar off data) s = .next (hostSees s t)) ∧
  (∀ t fn bar off n s, s.testMode = false → s.pcie.up = true → 0 < n → (fn ≠ 0 ∨ bar ≠ 4 ∨ off < 0x8000000) →
    let p := setPerturb (atTime s t)
    let k := min n 4096
    ((∀ i, i < (off + k + 3) / 4 - off / 4 → hostReadAt s fn bar (off / 4 * 4 + 4 * i) = none) →
      Completes (.hostWindowRead t fn bar off n) s fun s' =>
        (let bs := (upto k).map fun i => byteOf (hostWord (atTime s t) fn bar) (off + i)
         s'.fabric = { p.fabric with xfers := p.fabric.xfers ++ (upto ((k + 127) / 128)).map fun i =>
           { id := p.nextId + 1 + i, req := egressClass none, part := none, x := .completion fn p.nextId ((bs.drop (128 * i)).take 128) (i + 1 == (k + 127) / 128) } }) ∧
        s' = { p with nextId := p.nextId + 1 + (k + 127) / 128, pcie := s'.pcie, fabric := s'.fabric }) ∧
    (∀ a pt, n = 4 → off % 4 = 0 → hostReadAt s fn bar off = some (a, pt) →
      Completes (.hostWindowRead t fn bar off n) s fun s' =>
        (∃ r, s'.pcie = { p.pcie with reads := p.pcie.reads ++ [r] } ∧ r.id = p.nextId ∧ r.fn = fn ∧ r.part = pt ∧ r.waiting = [(0, a, 1)] ∧ r.skip = 0 ∧ r.len = 4 ∧ r.sent = []) ∧
        s'.fabric = { p.fabric with xfers := p.fabric.xfers ++ [{ id := p.nextId + 1, req := pcieReq, part := pt, x := .hostRead p.nextId a 1 }] } ∧
        s' = { p with nextId := p.nextId + 2, pcie := s'.pcie, fabric := s'.fabric })) ∧
  (∀ t port z ref rest rd a r s, PortServes t port z ref rest (.hostRead rd a 1) s → s.pcie.reads.find? (·.id == rd) = some r → r.waiting = [(0, a, 1)] → r.skip = 0 → r.len = 4 →
      r.bytes.length = 4 →
    Completes (.ssLineAccess t port []) s fun s' =>
      s'.fabric.xfers = s.fabric.xfers.filter (·.id != ref) ++
        [{ id := s.nextId, req := egressClass r.part, part := r.part, x := .completion r.fn r.id (wordBytes (rdWord s a)) true }] ∧
      s'.mem = s.mem ∧ s' = { s with now := max s.now t, nextId := s.nextId + 1, pcie := s'.pcie, fabric := s'.fabric }) ∧
  (∀ t e fn rd bytes r s, ContestAt t 16 s → NextTransfer s 16 e → e.part = none → e.x = .completion fn rd bytes true → s.pcie.reads.find? (·.id == rd) = some r →
    Completes (.lotteryContest t 16 [arrivalOf 16 e]) s fun s' => s'.pcie.readData = r.sent ++ bytes ∧ s'.pcie.reads = s.pcie.reads.filter (·.id != rd))

/-- RING_ENABLE, RING_DISABLE, RING_HEAD_WRITE, RING_RECORD_WRITE, TAIL_MIRROR_UPDATE, COALESCE_TIMEOUT (R65 to R68): a host's write of ENABLE latches BASE and SIZE and resets index and pass on a disabled ring; disabling keeps them; HEAD is stored, reduced to the slots of the ring (R9); a window without HOSTW keeps them all from the host (R478). The device keeps a view of HEAD, read at enable and again when the view shows too little space (R67; log entry 37). The oldest record of an enabled ring leaves with its phase bit when it fits, the digest's slots first, and the port reads its words from the buffer entry (R261); one that does not fit counts once in FULLCNT.
A record whose writes have left is mirrored in TAIL, its entry freed, and its vector signalled when it asks for it; COAL_T signals what was not. -/
def Obligations.RingsFollowTheirControlBlocks : Prop :=
  (∀ t r b s, HostReaches s → operating s = true → s.ecc = [] → ringBlock s r = some b → blockOpen s r = true →
    let p := hostSees s t
    Completes (.ringEnable t r) s (fun s' => rdWord s' (b + 8) = setBit (rdWord p (b + 8)) 8 true ∧ OnlyBytes (b + 8) (b + 12) p s' ∧
      s'.rings.get r = (if (p.rings.get r).enabled = true then p.rings.get r else { p.rings.get r with
        enabled := true, base := dword (setField (rdWord p b) 5 0 0) (rdWord p (b + 4)), size := BitVec.ofNat 5 (clampNat 4 16 (field (rdWord p (b + 8)) 4 0))
        wr := 0, oddPass := true, head := BitVec.ofNat 16 (blockHead p b % 2 ^ clampNat 4 16 (field (rdWord p (b + 8)) 4 0))
        out := (p.rings.get r).out.map fun q => { q with tail := 0 } }) ∧
      (∀ k, r ≠ k → s'.rings.get k = p.rings.get k) ∧ s' = { p with mem := s'.mem, ecc := s'.ecc, rings := s'.rings }) ∧
    Completes (.ringDisable t r) s (fun s' => rdWord s' (b + 8) = setBit (rdWord p (b + 8)) 8 false ∧ OnlyBytes (b + 8) (b + 12) p s' ∧
      s'.rings.get r = { p.rings.get r with enabled := false } ∧ (∀ k, r ≠ k → s'.rings.get k = p.rings.get k) ∧
      s' = { p with mem := s'.mem, ecc := s'.ecc, rings := s'.rings }) ∧
    (∀ head, Completes (.ringHeadWrite t r head) s (fun s' => rdWord s' (b + 16) = BitVec.ofNat 32 (head.toNat % headSlots p r) ∧ OnlyBytes (b + 16) (b + 20) p s' ∧
      s' = { p with mem := s'.mem, ecc := s'.ecc }))) ∧
  (∀ t r i head s, i ∈ [Instr.ringEnable t r, .ringDisable t r, .ringHeadWrite t r head] → HostReaches s → blockOpen s r = false → exec i s = .next (hostSees s t)) ∧
  (∀ t r b q rest s, s.testMode = false → s.obs.halted = false → s.ecc = [] → ringBlock s r = some b → takeFirst r.val s.ringQ = some (q, rest) →
      (s.rings.get r).enabled = true → q.replay = false →
    let x := s.rings.get r
    let view := BitVec.ofNat 16 (headView s r b q.slots)
    let pt := partOfRing s r.val
    let slot : Nat → Nat → List Word → Sent := fun id k ws =>
      { id := id, req := egressClass pt, part := pt, x := .tlp (ringOwner s r) ((x.base.toNat + 32 * k) % 2 ^ 64) (wordsBytes ws) (some r.val) }
    let read : List Nat → Nat → Sent := fun ids n =>
      { id := s.nextId + ids.length, req := pcieReq, part := pt, x := .recordRead ids (poolEntry s q.queue q.idx) n x.oddPass }
    (ringFits s r b q.slots = false → q.waited = false →
      Completes (.ringRecordWrite t r) s fun s' => field (rdWord s' (b + 28)) 15 0 = min (field (rdWord s (b + 28)) 15 0 + 1) 0xFFFF ∧
        OnlyBytes (b + 28) (b + 32) s s' ∧ s'.ringQ = s.ringQ.map (fun y => if y = q then { y with waited := true } else y) ∧
        s'.rings.get r = { x with head := view } ∧ (∀ k, r ≠ k → s'.rings.get k = s.rings.get k) ∧ s'.fabric = s.fabric) ∧
    (ringFits s r b q.slots = false → q.waited = true → exec (.ringRecordWrite t r) s = .next (lookHead { s with now := max s.now t } r b q.slots)) ∧
    (ringFits s r b q.slots = true → q.slots = 1 ∨ q.slots = 3 →
      Completes (.ringRecordWrite t r) s fun s' =>
        (∀ ws, q.direct = some ws → q.slots = 1 → s'.fabric = { s.fabric with xfers := s.fabric.xfers ++ [slot s.nextId x.wr.toNat (phased x.oddPass ws)] }) ∧
        (q.direct = none → s'.fabric = { s.fabric with xfers := s.fabric.xfers ++ if q.slots = 1 then [slot s.nextId x.wr.toNat [], read [s.nextId] 8]
          else [slot s.nextId ((x.wr.toNat + 1) % x.slots) [], slot (s.nextId + 1) ((x.wr.toNat + 2) % x.slots) [], slot (s.nextId + 2) x.wr.toNat [],
            read [s.nextId, s.nextId + 1, s.nextId + 2] 16] }) ∧
        (let next := (x.wr.toNat + q.slots) % x.slots
         s'.rings.get r = { x with
           head := view, wr := BitVec.ofNat 16 next, oddPass := if next < x.wr.toNat then !x.oddPass else x.oddPass, out := x.out ++ [{ q with tail := next }] }) ∧
        s'.ringQ = rest ∧ (∀ k, r ≠ k → s'.rings.get k = s.rings.get k) ∧ s'.mem = s.mem ∧ s'.pcie = s.pcie)) ∧
  (∀ t port z ref rest ids a n odd s, PortServes t port z ref rest (.recordRead ids a n odd) s →
    Completes (.ssLineAccess t port []) s fun s' =>
      (∀ e fn b bs ring ws, e ∈ s.fabric.xfers → e.id ≠ ref → e.x = .tlp fn b bs ring →
        (ids.zip (recordSlots s odd (n == 16) (rdWords s a n))).find? (·.1 == e.id) = some (e.id, ws) → { e with x := .tlp fn b (wordsBytes ws) ring } ∈ s'.fabric.xfers) ∧
      s'.fabric.xfers.length = (s.fabric.xfers.filter (·.id != ref)).length ∧ s' = { s with now := max s.now t, fabric := s'.fabric }) ∧
  (∀ t r b q rest s, s.testMode = false → s.obs.halted = false → s.ecc = [] → ringBlock s r = some b → (s.rings.get r).out = q :: rest → ringWrites s r.val ≤ (rest.map (·.slots)).sum →
    Completes (.tailMirrorUpdate t r) s fun s' => rdWord s' (b + 20) = setField (rdWord s (b + 20)) 15 0 q.tail ∧ (s'.rings.get r).out = rest ∧
      (q.direct = none → ∀ e, entryAt s' q.queue q.idx = some e → e.st = .freed) ∧ (q.direct.isSome = true → s'.entries = s.entries ∧ OnlyBytes (b + 20) (b + 24) s s') ∧
      (bit (rdWord s (b + 8)) 9 = false → s'.pcie = s.pcie ∧ s'.fabric = s.fabric ∧ (s'.rings.get r).unsig = (s.rings.get r).unsig + 1) ∧
      (bit (rdWord s (b + 8)) 9 = true → q.irq = true → Signalled s s' r b) ∧ (∀ k, r ≠ k → s'.rings.get k = s.rings.get k)) ∧
  (∀ t r b s, s.testMode = false → operating s = true → ringBlock s r = some b → bit (rdWord s (b + 8)) 9 = true → coalDue (atTime s t) r b = true →
    Completes (.coalesceTimeout t r) s fun s' => Signalled s s' r b ∧ s'.mem = s.mem ∧ (∀ k, r ≠ k → s'.rings.get k = s.rings.get k) ∧
      s' = { s with now := max s.now t, nextId := s'.nextId, rings := s'.rings, pcie := s'.pcie, fabric := s'.fabric })

/-- CTX_RUN, CTX_PREEMPT, CTX_ABORT, CTX_STOP, PWAIT_EXPIRY, WAIT_YIELD, CONTEXT_BOUNDARY (R286 to R289, R297, R298): each command has its effect in the states R297 lists and is discarded, with an event, in the others; a deferred pre-emption ends at PWAIT; a context blocked for WAITQ FC gives way; at a boundary a fault or a stop leads to TEARDOWN, a pre-emption to SAVING. General registers never change here. -/
def Obligations.ContextCommandsActByTheStateOfTheContext : Prop :=
  (∀ t f c s, s.testMode = false → operating s = true → groupActive s f = true →
    ((ctx s f c).st = .ready → (frond s f).cur = none →
      Completes (.ctxRun t f c) s fun s' => ctx s' f c = { ctx s f c with st := .running, cmd := 0, lastRun := some (max s.now t) } ∧ (frond s' f).cur = some c ∧
        (frond s' f).issueAt = ceilDiv (max s.now t) (8 * tFC s) * (8 * tFC s) ∧ (frond s' f).resumeAt = (frond s' f).issueAt ∧ (∀ d, c ≠ d → ctx s' f d = ctx s f d) ∧ (∀ h, f ≠ h → frond s' h = frond s h) ∧
        s'.mem = s.mem ∧ s'.jobs.map (·.id) = s.jobs.map (·.id) ∧ (∀ i, (ctx s f c).job = some i → ∀ j ∈ s'.jobs, j.id = i → j.started.isSome = true)) ∧
    ((ctx s f c).st = .saved → (frond s f).cur = none →
      Completes (.ctxRun t f c) s fun s' => ctx s' f c = { ctx s f c with st := .restoring, cmd := 0 } ∧
        frond s' f = { frond s f with cur := some c, ctxs := (frond s' f).ctxs } ∧ (∀ d, c ≠ d → ctx s' f d = ctx s f d) ∧ (∀ h, f ≠ h → frond s' h = frond s h) ∧
        s'.fabric = { s.fabric with xfers := s.fabric.xfers ++ (splitLines (saveLines s f c)).mapIdx fun i l =>
          { id := s.nextId + i, req := frondReq f, part := none, x := .restoreLine f c (saveArea f c + l.1) 32 } } ∧
        s' = { s with now := max s.now t, nextId := s'.nextId, fronds := s'.fronds, fabric := s'.fabric }) ∧
    ((ctx s f c).st ≠ .ready → (ctx s f c).st ≠ .saved → Completes (.ctxRun t f c) s (Discarded t f c 1 s)) ∧
    ((ctx s f c).st = .ready ∨ (ctx s f c).st = .saved → (frond s f).cur.isSome = true → exec (.ctxRun t f c) s = .next { s with now := max s.now t })) ∧
  (∀ t f c s, s.testMode = false → operating s = true →
    ((ctx s f c).st = .running → Completes (.ctxPreempt t f c) s fun s' =>
      (let p := progPwait s (ctx s f c).prog.toNat
       ctx s' f c = if p = 0 then { ctx s f c with preemptNow := true, cmd := 0 } else { ctx s f c with preq := true, pwaitAt := max s.now t + p * tFC s, cmd := 0 }) ∧
      OnlyContext t f c s s') ∧
    ((ctx s f c).st = .restoring → Completes (.ctxPreempt t f c) s fun s' => ctx s' f c = { ctx s f c with preemptNow := true, cmd := 0 } ∧ OnlyContext t f c s s') ∧
    ((ctx s f c).st ≠ .running → (ctx s f c).st ≠ .restoring → Completes (.ctxPreempt t f c) s (Discarded t f c 2 s)) ∧
    ((ctx s f c).st ∈ [.running, .saving, .restoring] →
      Completes (.ctxStop t f c) s (fun s' => ctx s' f c = { ctx s f c with stopReq := true, cmd := 0 } ∧ OnlyContext t f c s s') ∧
      Completes (.ctxAbort t f c) s fun s' =>
        (let x := ctx s f c
         ctx s' f c = { x with areq := true, noOutput := true, cmd := 0, stopReq := x.stopReq || x.delivering, preq := false, preemptNow := x.preemptNow && x.st != .running }) ∧
        OnlyContext t f c { s with jobs := s'.jobs } s' ∧ s'.jobs = s.jobs.map (fun j => if (ctx s f c).job = some j.id then markCancel (atTime s t) j else j)) ∧
    ((ctx s f c).st ∈ [.staging, .ready, .saved] →
      Completes (.ctxStop t f c) s (TearingDown t f c s) ∧
      Completes (.ctxAbort t f c) s fun s' => TearingDown t f c { s with jobs := s'.jobs } s' ∧
        s'.jobs = s.jobs.map (fun j => if (ctx s f c).job = some j.id then markCancel (atTime s t) j else j)) ∧
    ((ctx s f c).st ∈ [.idle, .teardown] → Completes (.ctxStop t f c) s (Discarded t f c 4 s) ∧
      Completes (.ctxAbort t f c) s fun s' => Discarded t f c 3 { s with jobs := s'.jobs } s')) ∧
  (∀ t f c s, s.testMode = false → operating s = true → (ctx s f c).preq = true → (ctx s f c).st = .running → (ctx s f c).pwaitAt ≤ max s.now t →
    Completes (.pwaitExpiry t f c) s fun s' => ctx s' f c = { ctx s f c with preq := false, preemptNow := true } ∧ OnlyContext t f c s s') ∧
  (∀ t f c d s, s.testMode = false → operating s = true → runningCtx s f = some c → (ctx s f c).waitq ≠ 0 → (ctx s f c).waitq.toNat ≤ waitFc (atTime s t) (ctx s f c) →
      d ≠ c → (ctx s f d).st = .ready ∨ (ctx s f d).st = .saved →
      ((ctx s f c).waitk = .tag → ∀ m w k, (ctx s f c).waitOn = some (m, w, k) → tagAccess (frond s f) m w k = none) →
    Completes (.waitYield t f c) s fun s' => ctx s' f c = { ctx s f c with yielded := true, preemptNow := true, cmd := (ctx s' f c).cmd } ∧
      (∀ d, c ≠ d → ctx s' f d = { ctx s f d with cmd := (ctx s' f d).cmd }) ∧ (∀ h, f ≠ h → frond s' h = frond s h) ∧ s' = { s with now := max s.now t, fronds := s'.fronds }) ∧
  (∀ t f c m w k s, s.testMode = false → (ctx s f c).waitk = .tag → (ctx s f c).waitOn = some (m, w, k) → (tagAccess (frond s f) m w k).isSome = true →
    exec (.waitYield t f c) s = .next { s with now := max s.now t }) ∧
  (∀ t f c s, s.testMode = false → operating s = true →
      (let x := ctx s f c
       x.fault.isSome = true ∧ x.st ∈ [.staging, .ready, .saved] ∨
       runningCtx s f = some c ∧ atBoundary s f c = true ∧ (faultNow x = true ∨
         x.fault = none ∧ (x.areq = true ∧ (x.atCheap.isSome = true ∨ x.completed = true) ∨ x.stopReq = true ∨ x.completed = true))) →
    Completes (.contextBoundary t f c) s (TearingDown t f c s)) ∧
  (∀ t f c s, s.testMode = false → operating s = true → runningCtx s f = some c → atBoundary s f c = true → (ctx s f c).fault = none → (ctx s f c).areq = false →
      (ctx s f c).stopReq = false → (ctx s f c).completed = false → ((ctx s f c).preemptNow = true ∨ (ctx s f c).preq = true ∧ (ctx s f c).atCheap.isSome = true) →
      settled s f c = true → actionPending s f c = false →
    Completes (.contextBoundary t f c) s fun s' => (ctx s' f c).st = .saving ∧ (ctx s' f c).kind = (ctx s f c).atCheap.isSome ∧ (ctx s' f c).npre = satInc (ctx s f c).npre ∧
      (ctx s' f c).stamp = stamp (atTime s t) ∧ (ctx s' f c).preq = false ∧ (ctx s' f c).preemptNow = false ∧ (ctx s' f c).g = (ctx s f c).g ∧ (ctx s' f c).pc = (ctx s f c).pc ∧
      (ctx s' f c).astat = (ctx s f c).astat ∧
      s'.fabric = { s.fabric with xfers := s.fabric.xfers ++ (splitLines (saveLines { s' with freeCtr := s.freeCtr } f c)).mapIdx fun i l =>
        { id := s.nextId + i, req := frondReq f, part := none, x := .saveLine f c (saveArea f c + l.1) l.2 } } ∧
      OnlyContext t f c { s with nextId := s'.nextId, freeCtr := s'.freeCtr, fabric := s'.fabric } s') ∧
  (∀ t f c s, s.testMode = false → runningCtx s f = some c → atBoundary s f c = false ∨ (ctx s f c).fault.isSome = true ∧ faultNow (ctx s f c) = false →
    exec (.contextBoundary t f c) s = .next { s with now := max s.now t })

/-- CONTEXT_STAGED, SAVE_COMPLETE, RESTORE_COMPLETE, ITERATE_DELIVERY, CONTEXT_TEARDOWN, TEARDOWN_COMPLETE (R197, R283, R290 to R293, R299): a context whose words stand in the memories of its Frond is ready; a save's lines hold its header and its live general registers, each written at its place by its port and nothing beside it; with the last the context leaves the Frond and is counted; a restore whose last line is read gives the registers back, with 0 for what was not live, and runs, and DLST shows an action time that has passed (R188); a diverted context starts at its delivery entry without its queued work;
teardown steps 1 to 6 discard that work, leave the Frond and form the record of the last context of a faulted job; steps 7 to 9 close its windows, reset its regions, clear the listed tags in EXT slots and leave it IDLE. -/
def Obligations.SavesRestoresAndTeardownsKeepTheirParts : Prop :=
  (∀ t f c s, s.testMode = false → operating s = true → (ctx s f c).st = .staging → (ctx s f c).fault = none → fwWaits (frond s f) c = false →
    Completes (.contextStaged t f c) s fun s' => ctx s' f c = { ctx s f c with st := .ready, cmd := (ctx s' f c).cmd } ∧
      (∀ d, c ≠ d → ctx s' f d = { ctx s f d with cmd := (ctx s' f d).cmd }) ∧ (∀ h, f ≠ h → frond s' h = frond s h) ∧ s' = { s with now := max s.now t, fronds := s'.fronds }) ∧
  (∀ t f c s, s.testMode = false → (ctx s f c).st = .staging → fwWaits (frond s f) c = true → exec (.contextStaged t f c) s = .next { s with now := max s.now t }) ∧
  (∀ f c s, let x := ctx s f c
    let hd := saveHeader f c x (((ctxJob s f c).map (·.queue)).getD 0)
    (0, hd) ∈ splitLines (saveLines s f c) ∧ wordAt hd 1 = BitVec.ofNat 32 x.pc.toNat ∧ bit (wordAt hd 0) 8 = x.kind ∧ field (wordAt hd 0) 15 10 = (liveMask x).toNat ∧
    (bit (liveMask x) 0 = true → (0x80, x.g.toList) ∈ splitLines (saveLines s f c)) ∧ ∀ l ∈ splitLines (saveLines s f c), l.1 + 128 ≤ 0x2000 ∧ l.2.length = 32) ∧
  (∀ t port z ref rest f c a ws s, PortServes t port z ref rest (.saveLine f c a ws) s →
    Completes (.ssLineAccess t port []) s fun s' => rdWords s' a ws.length = ws ∧ OnlyBytes a (a + 4 * ws.length) s s' ∧
      s'.fabric.xfers = s.fabric.xfers.filter (·.id != ref) ∧ s' = { s with now := max s.now t, mem := s'.mem, ecc := s'.ecc, fabric := s'.fabric }) ∧
  (∀ t port z ref rest f c a n s, PortServes t port z ref rest (.restoreLine f c a n) s →
    Completes (.ssLineAccess t port []) s fun s' => s'.fabric.xfers = s.fabric.xfers.filter (·.id != ref) ∧ s' = { s with now := max s.now t, fabric := s'.fabric }) ∧
  (∀ t f c s, s.testMode = false → operating s = true → (ctx s f c).st = .saving → linesUnderWay s f c = false →
      (ctx s f c).areq = false → (ctx s f c).stopReq = false → (ctx s f c).fault = none →
    Completes (.saveComplete t f c) s fun s' => ctx s' f c = { leftSaved (frond s f).arrMode (ctx s f c) with cmd := (ctx s' f c).cmd } ∧ (frond s' f).cur = none ∧
      (s'.obs.fcnt.get f).preempt = satInc (s.obs.fcnt.get f).preempt ∧ (∀ d, c ≠ d → ctx s' f d = { ctx s f d with cmd := (ctx s' f d).cmd }) ∧
      (∀ h, f ≠ h → frond s' h = frond s h) ∧ s'.jobs = s.jobs ∧ s'.mem = s.mem) ∧
  (∀ t f c i s, s.testMode = false → linesUnderWay s f c = true → i = .saveComplete t f c ∨ i = .restoreComplete t f c → exec i s = .next { s with now := max s.now t }) ∧
  (∀ t f c s, s.testMode = false → operating s = true → (ctx s f c).st = .restoring → linesUnderWay s f c = false →
      (ctx s f c).areq = false → (ctx s f c).stopReq = false → (ctx s f c).fault = none → (ctx s f c).divert = false →
    Completes (.restoreComplete t f c) s fun s' => (ctx s' f c).st = .running ∧ (frond s' f).cur = some c ∧
      (let w := fun (o : Nat) => rdWord s (saveArea f c + o)
       (ctx s' f c).pc = BitVec.ofNat 18 (w 4).toNat ∧ (ctx s' f c).kind = bit (w 0) 8 ∧
       (∀ i : Fin 32, (ctx s' f c).g.get i = if bit (w 0) 10 = true then w (0x80 + 4 * i.val) else 0) ∧
       (ctx s' f c).atCheap = (if bit (w 0) 8 = true then some (BitVec.ofNat 6 (field (w 0) 15 10)) else none) ∧
       (if (ctxJob s f c).any (·.fired) = true then (ctx s' f c).armed = false ∧ (ctx s' f c).fired = (bit (w 0x188) 1 || bit (w 0x188) 0)
        else (ctx s' f c).armed = bit (w 0x188) 0 ∧ (ctx s' f c).fired = bit (w 0x188) 1)) ∧
      (∀ i, ((ctx s' f c).tiles.get i).pendArgs.isSome = true ↔ ((ctx s f c).tiles.get i).valid = true ∨ ((ctx s f c).tiles.get i).pendArgs.isSome = true) ∧
      s'.mem = s.mem ∧ (∀ d, c ≠ d → ctx s' f d = ctx s f d) ∧ (∀ h, f ≠ h → frond s' h = frond s h)) ∧
  (∀ t f c s, s.testMode = false → operating s = true → (ctx s f c).st = .restoring → linesUnderWay s f c = false → (ctx s f c).fault = some .ecc →
    Completes (.restoreComplete t f c) s (TearingDown t f c s)) ∧
  (∀ t f c s, s.testMode = false → operating s = true → (ctx s f c).divert = true → (ctx s f c).st = .running → atBoundary s f c = true →
    Completes (.iterateDelivery t f c) s fun s' => (ctx s' f c).pc = BitVec.ofNat 18 (progDeliv s (ctx s f c).holdProg.toNat) ∧ (ctx s' f c).divert = false ∧
      (ctx s' f c).delivering = true ∧ (ctx s' f c).final = (ctx s f c).final ∧ (ctx s' f c).fetchQ = [] ∧ (ctx s' f c).drainQ = [] ∧ (ctx s' f c).load = none ∧
      (ctx s' f c).st = .running ∧ (ctx s' f c).g = (ctx s f c).g ∧ s'.mem = s.mem ∧ (∀ d, c ≠ d → ctx s' f d = ctx s f d) ∧ (∀ h, f ≠ h → frond s' h = frond s h)) ∧
  (∀ t f c s, s.testMode = false → operating s = true → (ctx s f c).st = .teardown → (ctx s f c).torn = false → ctxJob s f c = none →
    Completes (.contextTeardown t f c) s fun s' => (ctx s' f c).st = .teardown ∧ (ctx s' f c).torn = true ∧ (ctx s' f c).sbEn = false ∧ (ctx s' f c).fetchQ = [] ∧
      (ctx s' f c).drainQ = [] ∧ (frond s' f).cur ≠ some c ∧ (frond s' f).line = (if (frond s f).cur = some c then [] else (frond s f).line) ∧
      (ctx s' f c).g = (ctx s f c).g ∧ s'.mem = s.mem ∧ s'.jobs = s.jobs) ∧
  (∀ t f c j k e s, QueuesSound s → (ctx s f c).st = .teardown → (ctx s f c).torn = false → ctxJob s f c = some j → ctxsOf s j = [(f, c)] → j.shard = .none → spDig j.spore = false →
      j.fault = none → (ctx s f c).fault = some k → entryAt s j.queue j.idx = some e → (∀ i ∈ s.jobs, i.id = j.id → i = j) →
    Completes (.contextTeardown t f c) s fun s' => (ctx s' f c).torn = true ∧ (ctx s' f c).job = none ∧ (frond s' f).cur ≠ some c ∧ RecordFormed s s' j.queue j.idx k.status ∧
      (∀ i ∈ s'.jobs, i.id ≠ j.id) ∧ qRunning s' j.queue = false) ∧
  (∀ t f c s, s.testMode = false → operating s = true → (ctx s f c).st = .teardown → (ctx s f c).torn = true → (ctx s f c).job = none →
    let tags := progTagLines s (ctx s f c).holdProg.toNat
    let idle := { ctx s f c with
      swept := false, st := .idle, prog := 0, waitq := 0, stopReq := false, areq := false, torn := false, delivering := false, divert := false
      noOutput := false, fault := none, completed := false, yielded := false, atCheap := none }
    ((ctx s f c).swept = false →
      Completes (.teardownComplete t f c) s fun s' =>
        ctx s' f c = (if tags = [] ∧ fwWaits (frond s f) c = false then idle else { ctx s f c with swept := true }) ∧
        (frond s' f).fwPend = (frond s f).fwPend ++ tags.map (fun l => .clear (some c) l) ∧
        (∀ i, (frond s' f).fwin.get i = (let w := (frond s f).fwin.get i
          if w.ctx = c then { w with opened := false } else w)) ∧
        (∀ i, let r := (frond s f).circ.get i
          (frond s' f).circ.get i = if r.en = true ∧ r.ctx = c then { r with head := 0, tail := 0 } else r) ∧
        (∀ d, c ≠ d → ctx s' f d = { ctx s f d with cmd := (ctx s' f d).cmd }) ∧ (∀ h, f ≠ h → frond s' h = frond s h) ∧ s' = { s with now := max s.now t, fronds := s'.fronds }) ∧
    ((ctx s f c).swept = true → fwWaits (frond s f) c = false →
      Completes (.teardownComplete t f c) s fun s' => ctx s' f c = idle ∧ frond s' f = { frond s f with ctxs := (frond s' f).ctxs } ∧
        (∀ d, c ≠ d → ctx s' f d = { ctx s f d with cmd := (ctx s' f d).cmd }) ∧ (∀ h, f ≠ h → frond s' h = frond s h) ∧ s' = { s with now := max s.now t, fronds := s'.fronds })) ∧
  (∀ t f m o l rest s, SlotOf .ext t f m s → scrubTurn (atTime s t) (frond s f) m = false → (frond s f).fwPend = .clear o l :: rest → m = (if l < 1280 then .a else .p) →
    Completes (.scratchpadSlotAccess t f m []) s fun s' => (frond s' f).fwPend = rest ∧ (∀ j, l ≠ j → (j ∈ (frond s' f).full ↔ j ∈ (frond s f).full)) ∧
      (if l ∈ (frond s f).touched then (frond s' f).full = (frond s f).full else l ∉ (frond s' f).full) ∧ (∀ c, ctx s' f c = ctx s f c) ∧ s'.mem = s.mem ∧ OnlyFrondAndMemory t f s s')

/-- ADMISSION, PLACEMENT, DEADLINE_COMPARATOR_FIRE, DEADLINE_ACTION, SUBSTITUTE_COPY, DIGEST_COMPLETE (R58, R188 to R198, R282, R443): the oldest taken spore of a free queue is held by the first program of its chain that can meet the deadline, or, with none or in the XC of its action time (R203), is demoted to a substitute, or, for the null program, ends with status 0x20; placement makes every context of its program STAGING with the spore's words in its registers;
at the action time the comparator fires, a spore not placed or not started gets a substitute, one with a marked iterate is diverted to deliver it; the area is advanced before the first line of a substitute, which is copied line by line from it, and its record formed behind the last, or at its next line once it is cancelled; a digest that is complete is noted. -/
def Obligations.AdmissionPlacementAndSubstitutes : Prop :=
  (∀ t q i e s, QueuesSound s → s.popped.find? (·.1 == q) = some (q, i) → entryAt s q i = some e → e.st = .buffered → e.queue = q → e.idx = i →
      qRunning s q = false → (∀ j ∈ s.jobs, j.queue ≠ q) →
    let ws := (rdWords s (poolEntry s q i) 16).take 14 ++ [0, 0]
    let found := (fbChain s 3 [] (spProg ws)).find? fun p =>
      !reachedNow (atTime s t) (spDeadline ws - BitVec.ofNat 56 (progMargin s (spProg ws))) && passes (atTime s t) (spDeadline ws) (spInLen ws) p
    (e.toNull = true → Completes (.admission t q) s fun s' => RecordFormed s s' q i 0x20 ∧ s'.jobs = s.jobs ∧ (q, i) ∉ s'.popped) ∧
    (∀ p, e.toNull = false → found = some p → progShard s p = false →
      Completes (.admission t q) s fun s' => (∃ j, s'.jobs = s.jobs ++ [j] ∧ j.id = s.nextId ∧ j.queue = q ∧ j.idx = i ∧ j.part = e.part ∧ j.spore = ws ∧
          j.hold = BitVec.ofNat 12 p ∧ j.req = BitVec.ofNat 12 (spProg ws) ∧ j.demoted = (p != spProg ws) ∧ j.st = .admitted ∧
          j.tact = spDeadline ws - BitVec.ofNat 56 (progMargin s p)) ∧
        qRunning s' q = true ∧ entryAt s' q i = some { e with st := .taken } ∧ (q, i) ∉ s'.popped ∧ s'.fronds = s.fronds) ∧
    (e.toNull = false → found = none →
      Completes (.admission t q) s fun s' => (∃ j ∈ s'.jobs, j.queue = q ∧ j.idx = i ∧ j.st = .substitute ∧ j.demoted = true ∧ j.spore = ws) ∧
        qRunning s' q = true ∧ (s'.obs.pcnt.get e.part).demote = satInc (s.obs.pcnt.get e.part).demote ∧ s'.fronds = s.fronds)) ∧
  (∀ t q j s, QueuesSound s → s.jobs.find? (fun j => j.queue == q && placeable j) = some j → (∀ f ∈ jobFronds s j, groupActive s f = true ∧ (ctx s f (jobCtx s j)).st = .idle) →
      (∀ k ∈ s.jobs, k.id ≠ j.id → placeable k = true → jobCtx s k = jobCtx s j → (∃ f ∈ jobFronds s k, f ∈ jobFronds s j) → placedFirst k j = false) → primingElsewhere s j = false → j.fired = false →
    Completes (.placement t q) s fun s' => (∃ k ∈ s'.jobs, k.id = j.id ∧ k.st = .placed) ∧ (∀ f ∈ jobFronds s j, let x := ctx s' f (jobCtx s j)
        x.st = .staging ∧ x.job = some j.id ∧ x.prog = j.hold ∧ x.pc = BitVec.ofNat 18 (progEntry s j.hold.toNat) ∧ x.g.get 29 = wordAt j.spore 11 ∧
        x.g.get 30 = wordAt j.spore 12 ∧ x.g.get 31 = wordAt j.spore 13 ∧ x.ctxid = wordAt j.spore 8 ∧ x.astat = 0 ∧ x.trapen = progTrapen s j.hold.toNat ∧
        x.store = [] ∧ x.fault = none ∧ x.armed = true ∧ x.tact = j.tact ∧ x.sbEn = progSbmode s j.hold.toNat) ∧
      (∀ f d, d ≠ jobCtx s j ∨ f ∉ jobFronds s j → ctx s' f d = { ctx s f d with cmd := (ctx s' f d).cmd }) ∧ s'.entries = s.entries ∧ s'.ringQ = s.ringQ) ∧
  (∀ t q i j s, s.testMode = false → operating s = true → jobAt s q i = some j → armedJob j = true → j.fired = false → notLater j.tact (stamp (atTime s t)) = true →
    Completes (.deadlineComparatorFire t q i) s fun s' => s'.jobs = s.jobs.map (fun k => if k.id = j.id then { k with fired := true, dueAt := (reachedAt (atTime s t) k.tact).getD (max s.now t) } else k) ∧
      (∀ p ∈ ctxsOf s j, (ctx s' p.1 p.2).fired = ((ctx s p.1 p.2).fired || (ctx s p.1 p.2).armed) ∧ (ctx s' p.1 p.2).armed = false) ∧
      (∀ p, p ∉ ctxsOf s j → ctx s' p.1 p.2 = ctx s p.1 p.2) ∧ s' = { s with now := max s.now t, jobs := s'.jobs, fronds := s'.fronds }) ∧
  (∀ t q i j s, QueuesSound s → jobAt s q i = some j → j.fired = true → j.cancelled = false → j.st = .admitted → j.shard = .none →
    Completes (.deadlineAction t q i) s fun s' => (∃ k ∈ s'.jobs, k = { j with st := .substitute, line := 0, areaAt := false, outAt := false, begun := false }) ∧
      s'.fronds = s.fronds ∧ s'.ringQ = s.ringQ ∧ s'.entries = s.entries) ∧
  (∀ t q i j s, s.testMode = false → operating s = true → jobAt s q i = some j → j.fired = true → j.cancelled = false → j.st = .placed → ctxsOf s j ≠ [] →
      (∀ p ∈ ctxsOf s j, let x := ctx s p.1 p.2
        x.fault = none ∧ x.areq = false ∧ x.stopReq = false ∧ pastFinal x = false ∧
          (x.st = .running ∧ atBoundary s p.1 p.2 = true ∨ x.st ∈ [.ready, .staging, .saved])) →
    ((j.started = none ∨ markedIter s j = 0 ∨ ∃ p ∈ ctxsOf s j, (ctx s p.1 p.2).fdepth ≠ 0) → Completes (.deadlineAction t q i) s fun s' => (∃ k ∈ s'.jobs, k = { j with st := .stopping, iter := 0 }) ∧
      (∀ p ∈ ctxsOf s j, (ctx s' p.1 p.2).st = .teardown) ∧ s'.mem = s.mem) ∧
    (j.started.isSome = true → markedIter s j ≠ 0 → (∀ p ∈ ctxsOf s j, (ctx s p.1 p.2).fdepth = 0) →
      Completes (.deadlineAction t q i) s fun s' => (∃ k ∈ s'.jobs, k = { j with st := .delivering, iter := BitVec.ofNat 8 (markedIter s j) }) ∧
        (∀ p ∈ ctxsOf s j, (ctx s' p.1 p.2).divert = true ∧ (ctx s' p.1 p.2).delivering = true ∧ (ctx s' p.1 p.2).g = (ctx s p.1 p.2).g) ∧ s'.mem = s.mem)) ∧
  (∀ t j e s, QueuesSound s → nextCopy s = some j → j.cancelled = false → j.shard = .none → spDig j.spore = false → entryAt s j.queue j.idx = some e →
    let sp := copySpan s j j.line
    let n := areaWords s j.req.toNat
    let j1 := { j with begun := true, line := j.line + 1, outAt := true, finish := stamp (atTime s t) }
    (sp.2.1 < outLen s j → sp.1 ≤ sp.2.1 → j.begun = true ∨ progForm s j.req.toNat = 0 →
      Completes (.substituteCopy t) s fun s' =>
        (∀ i, i < sp.2.1 - sp.1 → rdWord s' (sp.2.2 + 4 * i) = if substituteStatus s j = 0x04 then 0
          else if sp.1 + i < n then rdWord s (areaAddr s j.queue + 4 * (sp.1 + i)) else Config.openWord s.freeCtr [BitVec.ofNat 32 (sp.1 + i)]) ∧
        OnlyBytes sp.2.2 (sp.2.2 + 4 * (sp.2.1 - sp.1)) s s' ∧ s'.ringQ = s.ringQ ∧ s'.fronds = s.fronds ∧
        s'.jobs = s.jobs.map (fun k => if k.id = j.id then j1 else k)) ∧
    (sp.2.1 < outLen s j → sp.1 ≤ sp.2.1 → j.begun = false → progForm s j.req.toNat ≠ 0 → substituteStatus s j = 0x03 → progExpen s j.req.toNat = false →
      Completes (.substituteCopy t) s fun s' =>
        (let area := shiftedArea s j.queue j.req.toNat
         (∀ i, i < sp.2.1 - sp.1 → rdWord s' (sp.2.2 + 4 * i) = if sp.1 + i < n then wordAt area (sp.1 + i) else Config.openWord s.freeCtr [BitVec.ofNat 32 (sp.1 + i)]) ∧
         (areaAddr s j.queue + 4 * n ≤ sp.2.2 ∨ sp.2.2 + 4 * (sp.2.1 - sp.1) ≤ areaAddr s j.queue → rdWords s' (areaAddr s j.queue) n = area)) ∧
        s'.ringQ = s.ringQ ∧ s'.fronds = s.fronds ∧
        s'.jobs = s.jobs.map (fun k => if k.id = j.id then { j1 with areaWas := some (rdWords s (areaAddr s j.queue) n) } else k)) ∧
    (outLen s j ≤ sp.2.1 → imageBase ≤ (s.le.get (progExpch s j.req.toNat)).iblk → Completes (.substituteCopy t) s fun s' => RecordFormed s s' j.queue j.idx (substituteStatus s j) ∧ (∀ k ∈ s'.jobs, k.id ≠ j.id) ∧
      qRunning s' j.queue = false ∧ s'.fronds = s.fronds)) ∧
  (∀ t j e s, QueuesSound s → nextCopy s = some j → j.cancelled = true → j.cancelStatus = 0x08 ∨ j.cancelStatus = 0x09 → j.shard = .none → entryAt s j.queue j.idx = some e →
    Completes (.substituteCopy t) s fun s' => RecordFormed s s' j.queue j.idx j.cancelStatus ∧ (∀ k ∈ s'.jobs, k.id ≠ j.id) ∧ s'.fronds = s.fronds) ∧
  (∀ t q i j s, s.testMode = false → operating s = true → jobAt s q i = some j → spDig j.spore = true → j.digestItems.isSome = true → (∀ k ∈ s.jobs, k.st ≠ .finishing) →
    Completes (.digestComplete t q i) s fun s' => s'.jobs = s.jobs.map (fun k => if k.id = j.id then { k with digestDone := true } else k) ∧
      s' = { s with now := max s.now t, jobs := s'.jobs })

/-- LINK_TRAINING, TRAINING_TIMEOUT, FRAME_LOCK, OFFSET_EXCHANGE, LINK_UP, LINK_DOWN, CTRL_FRAME, RESERVED_FRAME and data frames as such (R335 to R340): training starts anew from its first step, is counted when a bound is missed, opens the JOIN exchange at frame lock, keeps 64 exchanges, and ends UP or, with an identity that differs, REFUSED, with the best exchange's latency and offset; a link that goes down loses retry buffer and credits and trains again.
Control frames acknowledge, set credits and are answered by one while no data frame waits (log entry 100: the model's choice), a NAK sends every kept frame again from the lost one; a frame with a bad CRC is NAKed once, and others are only discarded while it is awaited; one with another number only shows life, one of a type its link does not carry is counted. -/
def Obligations.LinksTrainMeasureAndGoDown : Prop :=
  (∀ t l s, s.testMode = false → operating s = true → linkEn s l = true → rcdRole s ≠ 0 → (s.links.get l).st = .off ∨ (s.links.get l).st = .down →
    Completes (.linkTraining t l) s fun s' => s'.links.get l = trainingLink (max s.now t) (s.links.get l) ∧ otherLinks l s s' ∧ s' = { s with now := max s.now t, links := s'.links }) ∧
  (∀ t l s, s.testMode = false → operating s = true → (s.links.get l).st = .training → (s.links.get l).trainAt + trainBound (s.links.get l) * tUs < max s.now t →
    Completes (.trainingTimeout t l) s fun s' => s'.links.get l = trainingLink (max s.now t) { s.links.get l with retrain := satInc (s.links.get l).retrain } ∧
      otherLinks l s s' ∧ s'.mem = s.mem ∧ s'.tree = s.tree) ∧
  (∀ t l s, s.testMode = false → operating s = true → (s.links.get l).st = .training → (s.links.get l).frameLocked = false →
    Completes (.frameLock t l) s fun s' => s'.links.get l = ({ s.links.get l with frameLocked := true }).put
        (ctrlPacket (atTime s t) l none) { part := 0, snode := idx 127 (myNode s), dnode := 0, msg := .join (identity s) } ∧ otherLinks l s s' ∧ s' = { s with now := max s.now t, links := s'.links }) ∧
  (∀ t l t1 t2 t3 t4 s, s.testMode = false → operating s = true → (s.links.get l).st = .training → (s.links.get l).joined = true → (s.links.get l).samples.length < 64 →
    Completes (.offsetExchange t l t1 t2 t3 t4) s fun s' => s'.links.get l = { s.links.get l with
        samples := (s.links.get l).samples ++
          [((t4 - t1).toInt - (t3 - t2).toInt, Int.fdiv ((t2 - t1).toInt - (t4 - t3).toInt) 2)] } ∧
      otherLinks l s s' ∧ s' = { s with now := max s.now t, links := s'.links }) ∧
  (∀ t l rtt off s, s.testMode = false → operating s = true → (s.links.get l).st = .training → (s.links.get l).joined = true → (s.links.get l).samples.length = 64 →
      bestSample (s.links.get l).samples = some (rtt, off) →
    Completes (.linkUp t l) s fun s' => (s'.links.get l).lat = (rtt / 2).toNat ∧ (s'.links.get l).off = off ∧ (s'.links.get l).lastGood = max s.now t ∧ s'.mem = s.mem ∧
      ((s.links.get l).mismatch = true → (s'.links.get l).st = .refused ∧ otherLinks l s s' ∧ s'.tree = s.tree) ∧
      ((s.links.get l).mismatch = false → s.tree.role ≠ 2 → (s'.links.get l).st = .up ∧ s'.tree = s.tree) ∧
      ((s.links.get l).mismatch = false → s.tree.role = 2 → (s'.links.get l).st = .up ∨ (s'.links.get l).st = .refused)) ∧
  (∀ t l cause s, s.testMode = false → operating s = true → (s.links.get l).st ∈ [.up, .refused, .inService] → downHolds (atTime s t) (s.links.get l) cause = true → s.tree.role ≠ 2 →
    Completes (.linkDown t l cause) s fun s' => s'.links.get l = trainingLink (max s.now t) { s.links.get l with downs := satInc (s.links.get l).downs, credits := Vector.replicate 3 0 } ∧
      s'.mem = s.mem ∧ s'.tree = s.tree ∧ s'.fronds = s.fronds ∧ s'.jobs = s.jobs ∧ (∀ k, l ≠ k → (s.links.get k).st ≠ .inService → s'.links.get k = s.links.get k)) ∧
  (∀ t l i s, s.testMode = false → operating s = true → (s.links.get l).st ≠ .off → (s.links.get l).st ≠ .down →
    Completes (.ctrlFrame t l i true) s (fun s' =>
      (let k := s.links.get l
       let k1 := { k with
         lastGood := max s.now t, retry := unacked i.ack k.retry, echo := some (i.stamp, stamp (atTime s t)), credits := (s'.links.get l).credits
         nakFor := (s'.links.get l).nakFor, nakGot := (s'.links.get l).nakGot }
       let c : Packet := { part := 0, snode := idx 127 (myNode s), dnode := 0, msg := .ctrl {
         ack := k.rxCount, nak := none, credits := Vector.replicate 3 32, sentAt := stamp (atTime s t), echo := some (i.stamp, stamp (atTime s t)) } }
       s'.links.get l = match i.nak with
         | some n => goBack k1 c n
         | none => if k.outq = [] then { k1 with sent := k.sent ++ [c], sinceCtrl := 0 } else k1) ∧
      (∀ n, i.nak = some n → (s'.links.get l).nakFor = n ∧
        (s'.links.get l).nakGot = if n = (s.links.get l).nakFor then (s.links.get l).nakGot + 1 else 1) ∧
      ((s'.links.get l).credits.get 0 = min 32 i.credit0 ∧ (s'.links.get l).credits.get 1 = min 32 i.credit1 ∧ (s'.links.get l).credits.get 2 = min 32 i.credit2) ∧
      otherLinks l s s' ∧ s' = { s with now := max s.now t, links := s'.links }) ∧
    Completes (.ctrlFrame t l i false) s fun s' => s'.links.get l = { s.links.get l with crcErr := satInc (s.links.get l).crcErr } ∧
      otherLinks l s s' ∧ s' = { s with now := max s.now t, links := s'.links }) ∧
  (∀ t l f odd s, Expects s l f.num → f.crc = frameCrc (if odd = true then 15 else 14) f →
    Completes (.reservedFrame t l f odd) s fun s' =>
      s'.links.get l = { (rxState s t l).links.get l with badType := satInc (s.links.get l).badType } ∧ otherLinks l s s' ∧ s' = { s with now := max s.now t, links := s'.links }) ∧
  (∀ t l f s, Expects s l f.num → f.crc ≠ frameCrc 1 f → (s.links.get l).rxWait = false →
    Completes (.writeFrame t l f) s fun s' =>
      (let k := s.links.get l
       s'.links.get l = { k with
         crcErr := satInc k.crcErr, rxWait := true, nakNum := k.rxCount, nakRun := 1, naks := satInc k.naks
         sinceCtrl := 0
         sent := k.sent ++ [{ part := 0, snode := idx 127 (myNode s), dnode := 0, msg := .ctrl {
           ack := k.rxCount, nak := some k.rxCount, credits := Vector.replicate 3 32, sentAt := stamp (atTime s t), echo := k.echo } }] }) ∧
      otherLinks l s s' ∧ s' = { s with now := max s.now t, links := s'.links }) ∧
  (∀ t l f s, s.testMode = false → operating s = true → (s.links.get l).st = .inService → f.crc ≠ frameCrc 1 f → (s.links.get l).rxWait = true → f.num ≠ (s.links.get l).nakNum →
    Completes (.writeFrame t l f) s fun s' => s'.links.get l = { s.links.get l with crcErr := satInc (s.links.get l).crcErr } ∧
      otherLinks l s s' ∧ s' = { s with now := max s.now t, links := s'.links }) ∧
  (∀ t l f s, s.testMode = false → operating s = true → (s.links.get l).st = .inService → f.crc = frameCrc 1 f → f.num ≠ (s.links.get l).rxCount →
    Completes (.writeFrame t l f) s fun s' => s'.links.get l = { s.links.get l with lastGood := max s.now t } ∧ otherLinks l s s' ∧ s' = { s with now := max s.now t, links := s'.links }) ∧
  (∀ t l f s, s.testMode = false → operating s = true → (s.links.get l).st = .up ∨ (s.links.get l).st = .refused → f.crc = frameCrc 1 f → f.num = (s.links.get l).rxCount →
    Completes (.writeFrame t l f) s fun s' => s'.links.get l = { (rxState s t l).links.get l with badType := satInc (s.links.get l).badType } ∧
      otherLinks l s s' ∧ s' = { s with now := max s.now t, links := s'.links })

/-- WRITE_FRAME, WRITEW_FRAME, READ_FRAME, RDATA_FRAME, WACK_FRAME at their destination (R261, R335, R342, R343): a line for the image region goes to the port that owns it as a transfer of the link and of the frame's partition; the port writes it, a WRITEW only where its mask has a bit, and acknowledges; one outside it, or of a sending unit that does not exist, is refused in a WACK and nothing is written; a line for a scratchpad joins its Frond's inbound buffer. A READ answers, from the port, with its words in RDATA under its tag; RDATA ends the load that waits for the tag.
A WACK ends the oldest write to its sender, or hands a refusal to the sending context, whose store is done with. A frame for another node goes on by its route. -/
def Obligations.LinesCrossBetweenDevices : Prop :=
  (∀ t l f s, FrameArrives s l 1 f → f.space = true → f.sfrond.toNat < 0x82 → inImage (ssBase + 128 * f.line.toNat) 128 = true →
    exec (.writeFrame t l f) s = .next (withXfer (rxState s t l) (linkReq l) (some f.part) (.linkLine l f ((framePayload f).map some)))) ∧
  (∀ t l f s, FrameArrives s l 2 f → f.space = true → f.sfrond.toNat < 0x82 → inImage (ssBase + 128 * f.line.toNat) 128 = true →
    exec (.writewFrame t l f) s = .next (withXfer (rxState s t l) (linkReq l) (some f.part)
      (.linkLine l f (spreadWords (wordAt (framePayload f) 0) ((framePayload f).drop 1))))) ∧
  (∀ t port z ref rest l f ws s, PortServes t port z ref rest (.linkLine l f ws) s → ws.length = 32 →
      (f.sfrond.toNat < 0x80 → ∀ i, i < 32 → inHeader s (ssBase + 128 * f.line.toNat + 4 * i) = false) →
    Completes (.ssLineAccess t port []) s fun s' =>
      (let a := ssBase + 128 * f.line.toNat
       OnlyBytes a (a + 128) s s' ∧ ∀ i, i < 32 → match ws[i]? with
         | some (some x) => rdWord s' (a + 4 * i) = x
         | _ => rdWord s' (a + 4 * i) = rdWord s (a + 4 * i)) ∧
      SentTo s s' f.snode.val { part := f.part, snode := idx 127 (myNode s), dnode := f.snode, msg := .wack (mkFrame 5 f.part (myNode s) f.snode.val 0x80 false 0 0 [1, 0]) } ∧
      s'.fronds = s.fronds ∧ s'.tree = s.tree) ∧
  (∀ t l f i ty s, (i = .writeFrame t l f ∧ ty = 1 ∨ i = .writewFrame t l f ∧ ty = 2) → FrameArrives s l ty f →
      (0x82 ≤ f.sfrond.toNat ∨ f.space = true ∧ inImage (ssBase + 128 * f.line.toNat) 128 = false ∨ f.space = false ∧ padOf (128 * f.line.toNat % 0x100000) = none) →
    Completes i s fun s' => s'.mem = s.mem ∧ s'.fronds = s.fronds ∧ s'.jobs = s.jobs ∧ s'.tree = s.tree ∧ RefusedTo s s' f.part f.snode.val f.line f.sfrond) ∧
  (∀ t l f i ty s, (i = .readFrame t l f ∧ ty = 3 ∨ i = .rdataFrame t l f ∧ ty = 4 ∨ i = .wackFrame t l f ∧ ty = 5) → FrameArrives s l ty f → 0x82 ≤ f.sfrond.toNat →
    Completes i s fun s' => s'.mem = s.mem ∧ s'.fronds = s.fronds ∧ s'.jobs = s.jobs ∧ s'.tree = s.tree ∧ RefusedTo s s' f.part f.snode.val f.line f.sfrond) ∧
  (∀ t l f i ty m w s, (i = .writeFrame t l f ∧ ty = 1 ∨ i = .writewFrame t l f ∧ ty = 2) → FrameArrives s l ty f → f.space = false → f.sfrond.toNat < 0x82 →
      padOf (128 * f.line.toNat % 0x100000) = some (m, w) →
    let g := frondNo (128 * f.line.toNat / 0x100000)
    (frond s g).inbound.length < 16 → (∀ h ∈ (frond s g).held, h.1.sender.path.isSome = true → h.1.sender.node ≠ f.snode.val) →
    Completes i s fun s' => (∃ x, (frond s' g).inbound = (frond s g).inbound ++ [x] ∧ x.mem = m ∧ x.word = w ∧
        x.data = (if ty = 1 then (framePayload f).map some else spreadWords (wordAt (framePayload f) 0) ((framePayload f).drop 1)) ∧
        x.sender.unit = f.sfrond ∧ x.sender.part = f.part ∧ x.sender.path.isSome = true) ∧
      (∀ c, ctx s' g c = ctx s g c) ∧ (∀ h, g ≠ h → frond s' h = frond s h) ∧ s' = { rxState s t l with fronds := s'.fronds }) ∧
  (∀ t l f s, FrameArrives s l 3 f → f.sfrond.toNat < 0x82 →
    let w := wordAt (framePayload f) 0
    let n := min (field w 9 5 + 1) (32 - field w 4 0)
    let a := ssBase + 128 * f.line.toNat + 4 * field w 4 0
    (f.space = true → inImage a (4 * n) = true →
      exec (.readFrame t l f) s = .next (withXfer (rxState s t l) (linkReq l) (some f.part) (.linkRead l f a n))) ∧
    (f.space = false ∨ inImage a (4 * n) = false →
      Completes (.readFrame t l f) s fun s' => s'.mem = s.mem ∧ s'.fronds = s.fronds ∧ s'.tree = s.tree ∧ RefusedTo s s' f.part f.snode.val f.line f.sfrond)) ∧
  (∀ t port z ref rest l f a n s, PortServes t port z ref rest (.linkRead l f a n) s →
    Completes (.ssLineAccess t port []) s fun s' => s'.mem = s.mem ∧ s'.fronds = s.fronds ∧ s'.tree = s.tree ∧
      SentTo s s' f.snode.val { part := f.part, snode := idx 127 (myNode s), dnode := f.snode, msg := .rdata (mkFrame 4 f.part (myNode s) f.snode.val 0x80 false 0 f.tag.val (rdWords s a n)) }) ∧
  (∀ t l f o d rd s, FrameArrives s l 4 f → f.sfrond.toNat < 0x82 → s.tree.tags.find? (fun o => o.read && o.tag == f.tag.val) = some o → engAwaits s o.f o.c .fetch o.id = false →
      engAwaits s o.f o.c .drain o.id = false → (ctx s o.f o.c).load = some d → d.id = o.id → d.rd = some rd → 0 < o.words →
    Completes (.rdataFrame t l f) s fun s' => ctx s' o.f o.c = { ctx s o.f o.c with load := none, g := vset (ctx s o.f o.c).g rd (wordAt (framePayload f) 0) } ∧
      s'.tree = { s.tree with tags := s.tree.tags.erase o } ∧ (∀ d, o.c ≠ d → ctx s' o.f d = ctx s o.f d) ∧ (∀ h, o.f ≠ h → frond s' h = frond s h) ∧
      s' = { rxState s t l with fronds := s'.fronds, tree := s'.tree }) ∧
  (∀ t l f o s, FrameArrives s l 5 f → f.sfrond.toNat < 0x82 → wordAt (framePayload f) 0 = 1 → wordAt (framePayload f) 1 = 0 → oldestWrites s f.snode.val 1 = [o] →
      engAwaits s o.f o.c .fetch o.id = false → engAwaits s o.f o.c .drain o.id = false → (∀ j ∈ s.jobs, j.st ≠ .finishing) →
    Completes (.wackFrame t l f) s fun s' => s'.tree = { s.tree with tags := s.tree.tags.erase o } ∧
      (ctx s' o.f o.c).store = (ctx s o.f o.c).store.map (fun e => if e.sent = true ∧ e.id = o.id then { e with done := true } else e) ∧
      (∀ d, o.c ≠ d → ctx s' o.f d = ctx s o.f d) ∧ (∀ h, o.f ≠ h → frond s' h = frond s h) ∧ s'.mem = s.mem ∧ (s'.links.get l).wref = (s.links.get l).wref) ∧
  (∀ t l f o s, FrameArrives s l 5 f → f.sfrond.toNat < 0x82 → wordAt (framePayload f) 0 = 0 → wordAt (framePayload f) 1 = 1 →
      refusedOp s f.snode.val (wordAt (framePayload f) 2) (wordAt (framePayload f) 3) = some o → o.job.bind (jobOf s) = none → (∀ j ∈ s.jobs, j.st ≠ .finishing) →
    Completes (.wackFrame t l f) s fun s' => s'.tree = { s.tree with tags := s.tree.tags.erase o } ∧
      (frond s' o.f).refusals = (frond s o.f).refusals ++ [(o.c, o.job, BitVec.ofNat 32 o.line)] ∧ (s'.links.get l).wref = satAdd (s.links.get l).wref 1 ∧
      (ctx s' o.f o.c).store = (ctx s o.f o.c).store.map (fun e => if e.sent = true ∧ e.id = o.id then { e with done := true } else e) ∧
      (∀ d, o.c ≠ d → ctx s' o.f d = ctx s o.f d) ∧ (∀ h, o.f ≠ h → frond s' h = frond s h) ∧ s'.mem = s.mem) ∧
  (∀ t l f x s, Expects s l f.num → f.crc = frameCrc 1 f → f.dnode.val ≠ myNode s → linkTo s f.dnode.val = some x →
    Completes (.writeFrame t l f) s fun s' =>
      (s'.links.get x).outq = (s.links.get x).outq ++ [(s.nextId, { part := f.part, snode := f.snode, dnode := f.dnode, msg := .write f })] ∧
      s' = { withXfer (rxState s t l) (linkReq l) (some f.part) (.frame x) with links := s'.links } ∧ ∀ k, x ≠ k → s'.links.get k = (rxState s t l).links.get k)

/-- SPORE_FRAME, PDONE_FRAME, STOP_FRAME, EPOCH_FRAME, EPEND_FRAME, DONE_FRAME at their destination (R335, R347, R349, R353, R354): a holder takes its stretch as a job with the action time it was sent; the manager notes each outcome once, and forms the record when the last has come; a stopped stretch gets STOP or ABORT on its running contexts; a standby collects the pieces of an epoch, counts in EPSKIP a partial one that another overtakes, commits a complete copy that fits, and marks what a DONE notice names. Memory is unchanged but by a record. -/
def Obligations.StretchAndEpochFramesAreKept : Prop :=
  (∀ t l h m s, MessageArrives s l h →
    Completes (.sporeFrame t l h m) s fun s' => (∃ j, s'.jobs = j :: s.jobs ∧ j.id = s.nextId ∧ j.queue = spQueue m.spore ∧ j.part = h.part ∧ j.spore = m.spore ∧
        j.tact = m.action ∧ j.st = .admitted ∧ j.hold = BitVec.ofNat 12 (spProg m.spore) ∧ j.accept = stamp (atTime s t) ∧ j.shard = .stretch m.lo m.hi m.w m.k h.snode.val) ∧
      s' = { rxState s t l with jobs := s'.jobs, nextId := s.nextId + 1, power := s'.power }) ∧
  (∀ t l h m j hs outs halo s, MessageArrives s l h →
      s.jobs.find? (fun j => j.queue == m.queue && spTag j.spore == m.tag && (match j.shard with | .sharded _ _ _ => true | _ => false)) = some j →
      j.shard = .sharded hs outs halo → outs.any (·.1 == m.k) = false → m.k < hs.length →
    (outs.length + 1 < hs.length →
      Completes (.pdoneFrame t l h m) s fun s' => s' = { rxState s t l with jobs := s.jobs.map fun i =>
        if i.id = j.id then { j with shard := .sharded hs (outs ++ [(m.k, m.status, m.iter, m.flags, m.preempt)]) halo } else i }) ∧
    (∀ e, outs.length + 1 = hs.length → m.status = 0x00 → (∀ o ∈ outs, o.2.1 = 0x00) → j.peerLost = false → spDig j.spore = false → s.ecc = [] →
        entryAt s j.queue j.idx = some e → imageBase ≤ (s.le.get (progExpch s j.req.toNat)).iblk →
      Completes (.pdoneFrame t l h m) s fun s' => RecordFormed s s' j.queue j.idx 0x00 ∧ (∀ i ∈ s'.jobs, i.id ≠ j.id) ∧ qRunning s' j.queue = false ∧ s'.fronds = s.fronds)) ∧
  (∀ t l h x j s, MessageArrives s l h → s.jobs.find? (fun j => isStretch j && j.queue == x.queue && spTag j.spore == x.tag) = some j → j.st = .placed →
      (∀ a ∈ ctxsOf s j, (ctx s a.1 a.2).st = .running) →
    Completes (.stopFrame t l h [x]) s fun s' => (∀ a ∈ ctxsOf s j, (ctx s' a.1 a.2).st = .running ∧ (ctx s' a.1 a.2).g = (ctx s a.1 a.2).g ∧
        (if x.abort = true then (ctx s' a.1 a.2).areq = true ∧ (ctx s' a.1 a.2).noOutput = true else (ctx s' a.1 a.2).stopReq = true)) ∧
      s'.mem = s.mem ∧ s'.tree = s.tree ∧ s'.jobs.map (·.id) = s.jobs.map (·.id)) ∧
  (∀ t l h n cut m s, MessageArrives s l h → s.tree.role = 3 →
    Completes (.epochFrame t l h n cut m) s fun s' =>
      (∃ e, s'.tree.partialE = some e ∧ e.num = n ∧
        ((∃ o, s.tree.partialE = some o ∧ o.num = n ∧ e.items = o.items ++ [m] ∧ e.marked = o.marked ∧ e.cut = o.cut) ∨
         (∀ o, s.tree.partialE = some o → o.num ≠ n) ∧ e.items = [m] ∧ e.marked = [] ∧ e.cut = cut)) ∧
      s'.tree.highEpoch = (if s.tree.highEpoch.toNat < n.toNat then n else s.tree.highEpoch) ∧
      s'.tree.epSkip = (if s.tree.partialE.any (fun o => o.num != n) then satInc s.tree.epSkip else s.tree.epSkip) ∧
      s' = { rxState s t l with tree := { s.tree with
        partialE := s'.tree.partialE, highEpoch := s'.tree.highEpoch, epSkip := s'.tree.epSkip } }) ∧
  (∀ t l h n count e s, MessageArrives s l h → s.tree.role = 3 → s.tree.partialE = some e →
    Completes (.ependFrame t l h n count) s fun s' =>
      s' = if e.num = n ∧ e.items.length = count ∧ 128 * count ≤ 16384 * epSize s then { rxState s t l with tree := { s.tree with complete := some e, partialE := none, epoch := n } }
        else rxState s t l) ∧
  (∀ t l h xs e s, MessageArrives s l h → s.tree.complete = some e →
    Completes (.doneFrame t l h xs) s fun s' =>
      s' = { rxState s t l with tree := { s.tree with complete := some { e with marked := e.marked ++ (xs.take 15).filter e.holds } } })

/-- HEARTBEAT_SEND, HBEAT_FRAME, JOIN_FRAME, MEMBER_LOST, WORKER_ORPHAN (R331, R339, R341, R350, R351, R357): the manager beats every period; a member notes the beat and answers; the manager notes an answer; a manager with the lower epoch yields and discards its spores; a claim of no lower epoch binds node 0. An identity that differs marks the link; an admission gives a joining device its node, path and step. A member silent for HBMISS periods is lost, its number kept for two strobes; a worker without beats for twice as long drops its stretches and leaves. -/
def Obligations.HeartbeatsJoinsAndMembersAreKept : Prop :=
  (∀ t s, s.testMode = false → operating s = true → s.tree.role = 2 → s.tree.beatSent + hbPer s ≤ max s.now t →
    Completes (.heartbeatSend t) s fun s' => s'.tree = { s.tree with beatSent := max s.now t } ∧ s'.mem = s.mem ∧ s'.fronds = s.fronds ∧
      (∀ m, s.tree.members.filter (fun m => !m.lost && m.joinAt.isNone) = [m] → SentTo s s' m.node {
        part := 0, snode := idx 127 (myNode s), dnode := idx 127 m.node
        msg := .hbeat (.beat (stamp (atTime s t)) s.tree.epoch s.tree.wasActive s.tree.path) })) ∧
  (∀ t l h sent epoch active path s, MessageArrives s l h → s.tree.role ≠ 2 → s.tree.member = true →
    Completes (.hbeatFrame t l h (.beat sent epoch active path)) s fun s' =>
      s'.tree = { s.tree with beatAt := max s.now t, drift := s'.tree.drift } ∧
      (let d := (stamp (atTime s t) - sent).toInt - Int.ofNat (((memberOf s h.snode.val).map (·.oneWay)).getD 0)
       s'.tree.drift = if s.tree.offErr.toNat + 16 < d.natAbs then satInc s.tree.drift else s.tree.drift) ∧
      SentTo s s' h.snode.val { part := 0, snode := idx 127 (myNode s), dnode := h.snode, msg := .hbeat .answer } ∧ s'.mem = s.mem ∧ s'.jobs = s.jobs ∧ s'.fronds = s.fronds) ∧
  (∀ t l h s, MessageArrives s l h → s.tree.role = 2 →
    Completes (.hbeatFrame t l h .answer) s fun s' => s' = { rxState s t l with tree := { s.tree with
      members := s.tree.members.map fun x => if x.node = h.snode.val then { x with answeredAt := max s.now t } else x } }) ∧
  (∀ t l h sent epoch active path s, MessageArrives s l h → s.tree.role = 2 → s.tree.epoch.toNat < epoch.toNat →
    Completes (.hbeatFrame t l h (.beat sent epoch active path)) s fun s' => s'.tree.role = 3 ∧ s'.tree.member = false ∧ s'.tree.node = 0x7F ∧ s'.tree.yielded = true ∧
      s'.tree.members = [] ∧ s'.entries = [] ∧ s'.ringQ = [] ∧ s'.popped = [] ∧ s'.builder.list = [] ∧ s'.tree.epoch = s.tree.epoch ∧ s'.boot = s.boot) ∧
  (∀ t l h epoch path s, MessageArrives s l h → s.tree.role ≠ 2 → s.tree.member = true → s.tree.claimed.toNat ≤ epoch.toNat →
    Completes (.hbeatFrame t l h (.claim epoch path)) s fun s' => s'.tree.claimed = epoch ∧ s'.tree.claimPath = path ∧ s'.tree.beatAt = max s.now t ∧
      (∃ m, s'.tree.members = m :: s.tree.members.filter (fun x => x.node != 0 && x.path != path) ∧ m.node = 0 ∧ m.path = path ∧ m.role = 2 ∧ m.lost = false) ∧
      s'.mem = s.mem ∧ s'.jobs = s.jobs ∧ s'.tree.role = s.tree.role) ∧
  (∀ t l h treeId gen digest8 role held s, s.testMode = false → operating s = true → (s.links.get l).st = .training → (s.links.get l).frameLocked = true → h.good = true →
      h.num = (s.links.get l).rxCount →
    Completes (.joinFrame t l h (.identity treeId gen digest8 role held)) s fun s' =>
      s'.links.get l = { (rxState s t l).links.get l with
        joined := true, mismatch := !(treeId == treeW s 1 && gen == s.boot.imgGen && digest8 == BitVec.ofNat 64 (leNat (s.boot.progDigest.take 8)))
        peerRole := role, peerHeld := held.map (·.1) } ∧ otherLinks l s s' ∧
      s' = { s with now := max s.now t, links := s'.links, freeCtr := s.freeCtr + 1, obs := s'.obs }) ∧
  (∀ t l h node path role offSum nLinks oneWay strobe routes s, s.testMode = false → operating s = true → (s.links.get l).st = .up → h.good = true →
      h.num = (s.links.get l).rxCount → s.tree.member = false →
    Completes (.joinFrame t l h (.admission node path role offSum nLinks oneWay strobe routes)) s fun s' =>
      s'.tree = { s.tree with
        node := BitVec.ofNat 7 node.val, path := path, members := s'.tree.members, pendStep := some (offSum, strobe - BitVec.ofInt 56 offSum)
        beatAt := max s.now t, offErr := BitVec.ofNat 16 (min 0xFFFF (3 * nLinks)) } ∧
      s'.tree.members.map (fun m => (m.node, m.path, m.role, m.link)) = routes.map (fun r => (r.1.val, r.2.1, r.2.2.1, r.2.2.2)) ∧
      s'.links.get l = { (rxState s t l).links.get l with admitAt := some (strobe - BitVec.ofInt 56 offSum) } ∧ otherLinks l s s' ∧
      s' = { s with now := max s.now t, links := s'.links, tree := s'.tree }) ∧
  (∀ t node m s, s.testMode = false → operating s = true → s.tree.role = 2 → memberOf s node.val = some m →
      m.answeredAt + hbMiss s * hbPer s ≤ max s.now t ∨ routeLost s m.path = true → (∀ j ∈ s.jobs, ∀ hs os b, j.shard ≠ .sharded hs os b) →
    Completes (.memberLost t node) s fun s' =>
      s'.tree.members = s.tree.members.map (fun x => if x.node = node.val then { x with lost := true } else x) ∧ s'.tree.freeing = s.tree.freeing ++ [(node.val, 2)] ∧
      s' = { s with now := max s.now t, tree := { s.tree with members := s'.tree.members, freeing := s'.tree.freeing, rttMax := s'.tree.rttMax } }) ∧
  (∀ t s, s.testMode = false → operating s = true → s.tree.role = 1 → s.tree.member = true → s.tree.beatAt + 2 * hbMiss s * hbPer s ≤ max s.now t →
    Completes (.workerOrphan t) s fun s' => s'.tree = { s.tree with member := false } ∧ (∀ j, j ∈ s'.jobs → isStretch j = false) ∧
      (∀ j ∈ s.jobs, (∀ k ∈ s.jobs, isStretch k = true → k.id ≠ j.id) → j ∈ s'.jobs) ∧ s'.mem = s.mem ∧ s'.ringQ = s.ringQ ∧ s'.entries = s.entries)

/-- EPOCH_COPY, MANAGER_LOST, EPOCH_INSTALL, ROLE_NOTICE_WRITE (R353 to R356): once a strobe, behind its work list, the manager sends the next epoch to the standby, closed by its count; a standby that hears nothing for HBMISS periods declares the manager lost and claims the epoch behind the highest it has seen; the claimant becomes manager as node 0, with its stretches dropped; the notice of eight words is written where the window of a partition has room for it, its number one higher. -/
def Obligations.TheStandbyTakesOver : Prop :=
  (∀ t n s, s.testMode = false → operating s = true → s.tree.role = 2 → s.tree.epCount ≠ s.tree.strobes → s.builder.want = none → standbyNode s = some n → s.ecc = [] →
    Completes (.epochCopy t) s fun s' =>
      s'.tree = { s.tree with
        epoch := s.tree.epoch + 1, epCount := s.tree.strobes, wasActive := true
        epOver := if epspMax s < (epochSpores s).length then satInc s.tree.epOver else s.tree.epOver } ∧
      (∀ x, linkTo s n = some x → (s'.links.get x).outq.map (·.2) = (s.links.get x).outq.map (·.2) ++
        ((epochItems s).map (fun i => Msg.epoch (s.tree.epoch + 1) s.timing.stbStamp i) ++ [Msg.epend (s.tree.epoch + 1) (epochItems s).length]).map fun m =>
          { part := 0, snode := idx 127 (myNode s), dnode := idx 127 n, msg := m }) ∧ s'.mem = s.mem ∧ s'.jobs = s.jobs) ∧
  (∀ t s, s.testMode = false → operating s = true → s.tree.role = 3 → s.tree.member = true → s.tree.managerLost = false → s.tree.beatAt + hbMiss s * hbPer s ≤ max s.now t →
    Completes (.managerLost t) s fun s' =>
      s'.tree = { s.tree with managerLost := true, claimed := s.tree.highEpoch + 1, claimPath := s.tree.path, partialE := none } ∧ s'.mem = s.mem ∧ s'.jobs = s.jobs ∧
      (∀ m, s.tree.members.filter (fun m => m.node != 0 && !m.lost) = [m] → SentTo s s' m.node {
        part := 0, snode := idx 127 (myNode s), dnode := idx 127 m.node, msg := .hbeat (.claim (s.tree.highEpoch + 1) s.tree.path) })) ∧
  (∀ t s, s.testMode = false → operating s = true → s.tree.role = 3 → s.tree.managerLost = true →
    Completes (.epochInstall t) s fun s' => s'.tree.role = 2 ∧ s'.tree.node = 0 ∧ s'.tree.epoch = s.tree.claimed ∧ s'.tree.takeovers = satInc s.tree.takeovers ∧
      s'.tree.takeAt = stamp (atTime s t) ∧ s'.tree.managerLost = false ∧ s'.tree.noticeDue = true ∧ s'.tree.yielded = false ∧ s'.timing = s.timing ∧ s'.boot = s.boot ∧
      (s.tree.complete = none → (∀ j, j ∈ s'.jobs → isStretch j = false) ∧ s'.mem = s.mem ∧ s'.entries = s.entries)) ∧
  (∀ t p s, s.testMode = false → operating s = true → s.tree.noticeDue = true → (∀ j ∈ s.jobs, j.peerLost = true → j.st ≠ .substitute) →
      (∀ q, (part s q).en = true ↔ q = p) → rwOff s + 8 ≤ winSize ((part s p).win.get 0) →
    Completes (.roleNoticeWrite t) s fun s' =>
      (let a := winBase ((part s p).win.get 0) + 4 * rwOff s
       rdWords s' a 8 = noticeWords s ∧ OnlyBytes a (a + 32) s s') ∧
      s'.tree = { s.tree with noticeSeq := s.tree.noticeSeq + 1, noticeDue := false, installed := s.tree.installed && !drained s } ∧ s'.jobs = s.jobs ∧ s'.fronds = s.fronds)

/-- DBG_READ, DBG_WRITE, FUSE_PROGRAM and DUMP_READ (R415 to R419, R440, R441): a linked TAP that is not busy reads any address in OPEN and writes what is neither LK nor WO; a target in a Dormant group answers DORMANT, one in Proofing BUSY; in SEALED every access is DENIED and counted; one before its predecessor is done only shows BUSY; unlinked nothing happens. In Halted a write is refused. A fuse word takes its first write alone, and a revocation leaves an unrevoked slot with a hash. Where no dump exists or rights do not reach, the dump reads 0. -/
def Obligations.TapAccessesFusesAndTheDump : Prop :=
  (∀ t a x s, TapFree s t → curOf s = .opened → (s.boot.ready = true → groupStat s a.toNat = none) →
    (busNone s a.toNat = false → s.ecc = [] → (busRead (atTime s t) a.toNat).2 = x →
      exec (.dbgRead t a false) s = .next { s with now := max s.now t, tap := tapShows s t 0 x }) ∧
    (busNone s a.toNat = true → exec (.dbgRead t a false) s = .next { s with now := max s.now t, tap := tapShows s t 3 0 })) ∧
  (∀ t a v s, TapFree s t → curOf s = .opened → s.obs.halted = false → ssBase ≤ a.toNat → a.toNat < ssBase + 0x2000000 →
    Completes (.dbgWrite t a false v) s fun s' => rdWord s' (a.toNat / 4 * 4) = v ∧ OnlyBytes (a.toNat / 4 * 4) (a.toNat / 4 * 4 + 4) s s' ∧
      s' = { s with now := max s.now t, tap := tapShows s t 0 0, mem := s'.mem, ecc := s'.ecc }) ∧
  (∀ t a v s, TapFree s t → curOf s = .opened → s.obs.halted = false → 0x3000020000 ≤ a.toNat → a.toNat < 0x3000020018 →
    exec (.dbgWrite t a false v) s = .next { s with now := max s.now t, tap := tapShows s t 0 0 }) ∧
  (∀ t a v s, TapFree s t → curOf s = .opened → s.obs.halted = false → 0x3000020018 ≤ a.toNat → a.toNat < 0x300002001C →
    Completes (.dbgWrite t a false v) s fun s' => s' = { s with now := max s.now t, tap := tapShows s t 5 0, boot := s'.boot } ∧
      s'.boot = { s.boot with late := true, lateAddr := s'.boot.lateAddr, lateReq := s'.boot.lateReq, lateXC := s'.boot.lateXC, lateThis := s'.boot.lateThis }) ∧
  (∀ t a d v s, TapFree s t → curOf s = .opened → s.obs.halted = true →
    exec (.dbgWrite t a d v) s = .next { s with now := max s.now t, tap := tapShows s t 4 0 }) ∧
  (∀ t a v g s, TapFree s t → curOf s = .opened → s.boot.ready = true → s.obs.halted = false → targetGroup a.toNat = some g →
    ((group s g).st = .cold ∨ (group s g).st = .warm →
      exec (.dbgRead t a false) s = .next { s with now := max s.now t, tap := tapShows s t 2 0 } ∧
      exec (.dbgWrite t a false v) s = .next { s with now := max s.now t, tap := tapShows s t 2 0 }) ∧
    ((group s g).st = .proofUp ∨ (group s g).st = .proofDown →
      exec (.dbgRead t a false) s = .next { s with now := max s.now t, tap := tapShows s t 6 0 } ∧
      exec (.dbgWrite t a false v) s = .next { s with now := max s.now t, tap := tapShows s t 6 0 })) ∧
  (∀ t a d v w s, TapFree s t → curOf s = .sealed →
    Completes (.dbgRead t a d) s (TapRefused t s) ∧ Completes (.dbgWrite t a d v) s (TapRefused t s) ∧ Completes (.fuseProgram t w v) s (TapRefused t s)) ∧
  (∀ t a d v w s, s.testMode = false → s.tap.linked = true → s.tap.unlinkNext = false → max s.now t < s.tap.busyUntil →
    exec (.dbgRead t a d) s = .next { s with now := max s.now t, tap := { s.tap with stat := 6 } } ∧
    exec (.dbgWrite t a d v) s = .next { s with now := max s.now t, tap := { s.tap with stat := 6 } } ∧
    exec (.fuseProgram t w v) s = .next { s with now := max s.now t, tap := { s.tap with stat := 6 } }) ∧
  (∀ t a d v w s, s.testMode = false → s.tap.linked = false →
    exec (.dbgRead t a d) s = .next { s with now := max s.now t } ∧ exec (.dbgWrite t a d v) s = .next { s with now := max s.now t } ∧
    exec (.fuseProgram t w v) s = .next { s with now := max s.now t }) ∧
  (∀ t w v s, TapFree s t → curOf s = .opened → s.obs.halted = false → (∀ g, (group s g).st ≠ .proofUp ∧ (group s g).st ≠ .proofDown) →
      (∀ d, s.power.seq ≠ .uncore d) → (w.toNat ≤ 0x30 ∨ (w.toNat = 0x31 ∧ revokeOk s.fuses (BitVec.ofNat 4 v.toNat) = true)) →
    (w.toNat ∈ s.fuses.written →
      Completes (.fuseProgram t w v) s fun s' => s' = { s with now := max s.now t, tap := tapShows s t 5 0, boot := s'.boot }) ∧
    (w.toNat ∉ s.fuses.written →
      Completes (.fuseProgram t w v) s fun s' =>
        s' = { s with now := max s.now t, tap := tapShows s t 0 0, fuses := { s.fuses with
          hash := s'.fuses.hash, life := if w.toNat = 0x30 then Vector.replicate 3 true else s.fuses.life
          revoked := if w.toNat = 0x31 then s.fuses.revoked.map (· ||| BitVec.ofNat 4 v.toNat) else s.fuses.revoked, written := s'.fuses.written } } ∧
        (∀ x, x ∈ s'.fuses.written ↔ x = w.toNat ∨ x ∈ s.fuses.written) ∧
        ∀ (k : Fin 4) (j : Nat), (s.fuses.hash.get k).length = 48 → j < 48 → (s'.fuses.hash.get k).getD j 0 =
          if w.toNat = 12 * k.val + j / 4 then byteAt (wordBytes v) (j % 4) else (s.fuses.hash.get k).getD j 0)) ∧
  (∀ t v s, TapFree s t → curOf s ≠ .sealed → revokeOk s.fuses (BitVec.ofNat 4 v.toNat) = false → Completes (.fuseProgram t 0x31 v) s (TapRefused t s)) ∧
  (∀ t w v g s, TapFree s t → (group s g).st = .proofUp ∨ (group s g).st = .proofDown → Completes (.fuseProgram t w v) s (TapRefused t s)) ∧
  (∀ t tap off n s, s.testMode = false → (if tap = true then s.tap.linked = true else s.pcie.up = true) →
    (dumpExists s = false →
      exec (.dumpRead t tap off n) s = .next { s with now := max s.now t, obs := { s.obs with dumpData := List.replicate (min n 4096) 0 } }) ∧
    (dumpExists s = true →
      Completes (.dumpRead t tap off n) s fun s' =>
        s' = { s with now := max s.now t, obs := { s.obs with
          dumpData := s'.obs.dumpData, dumpRead := s.obs.dumpRead || (decide (0x100 < off + n) && decide (0 < n)) } } ∧
        s'.obs.dumpData.length = min n 4096 ∧
        ((if tap = true then tapRights s else apertureRights s).summary = false → 0 < n → off + n ≤ 0x200000 → ∀ b ∈ s'.obs.dumpData, b = 0) ∧
        ((if tap = true then tapRights s else apertureRights s).full = false → 0x200000 ≤ off → ∀ b ∈ s'.obs.dumpData, b = 0) ∧
        ((if tap = true then tapRights s else apertureRights s).summary = true → off = 0 → n = 8 →
          s'.obs.dumpData = [0x53, 0x57, 0x38, 0x38, 0x30, 0x44, 0x4D, 0x50]) ∧
        ((if tap = true then tapRights s else apertureRights s).full = true → n = 4 → off % 4 = 0 → 0x1000000 ≤ off → off < 0x3000000 →
          s'.obs.dumpData = wordBytes (rdWord s (ssBase + (off - 0x1000000))))))

/-- FRZ, COUNTER_FREEZE, UTILISATION_SAMPLE and SAMPLE_RECORD_WRITE (R423, R425, R426): a freeze asked for in an earlier AT, or at a multiple of FRZPER ms outside a replay, brings BUSY up to date and copies every live counter to the snapshot bank, with its cause, its edge and SEQ; live counters stay. At a multiple of SAMPLEN the U counters are captured in the record's order, and the record goes to the Shared Store at WIDX with its stamp and SEQ, then WIDX and SEQ advance. -/
def Obligations.CountersFreezeAndSamplesAreWritten : Prop :=
  (∀ t s, Works s → exec (.frz t) s = .next { s with now := max s.now t, obs := { s.obs with frz := true, frzAt := atCount (atTime s t) } }) ∧
  (∀ t s, Works s → (s.obs.seq = 0 ∨ s.obs.snapStamp ≠ edgeStamp (atTime s t)) →
    let per := frzper s ≠ 0 ∧ atCount (atTime s t) % (frzper s * 3840) = 0 ∧ replayRuns s = false
    ((s.obs.frz = true ∧ s.obs.frzAt ≠ atCount (atTime s t)) ∨ per) →
    Completes (.counterFreeze t) s fun s' => BusyUpToDate t s s' ∧
      s'.obs = { s.obs with
        fcnt := s'.obs.fcnt, snap := s'.obs.snap, frz := false, fsrc := s'.obs.fsrc, seq := s.obs.seq + 1, snapStamp := edgeStamp (atTime s t) } ∧
      (per → s'.obs.fsrc = 2) ∧ (¬ per → s'.obs.fsrc = 1) ∧
      (∀ o, 0x100 ≤ o → o < 0x1440 → o % 4 = 0 → counterRead s' (0x2000 + o) = counterRead s' o) ∧
      s' = { s with now := max s.now t, fronds := s'.fronds, obs := s'.obs }) ∧
  (∀ t s, s.testMode = false → s.obs.frz = false → frzper s = 0 → exec (.counterFreeze t) s = .next { s with now := max s.now t }) ∧
  (∀ t s, Works s → samplePeriod s ≠ 0 → atCount (atTime s t) % samplePeriod s = 0 → replayRuns s = false → s.obs.sampledAt ≠ some (edgeStamp (atTime s t)) →
    Completes (.utilisationSample t) s fun s' => BusyUpToDate t s s' ∧
      (∃ ws, s'.obs.sample = some (edgeStamp (atTime s t), ws) ∧ ws.length = 252 ∧
        (∀ f : Fin 128, wordAt ws f.val = (s'.obs.fcnt.get f).busy) ∧
        (∀ i : Fin 64, wordAt ws (128 + i.val) = pair16 (s.obs.fcnt.get ⟨2 * i.val, by omega⟩).done (s.obs.fcnt.get ⟨2 * i.val + 1, by omega⟩).done) ∧
        (∀ l : Fin 4, wordAt ws (192 + l.val) = (s.links.get l).txfr ∧ wordAt ws (196 + l.val) = (s.links.get l).rxfr) ∧
        (∀ p : Fin 21, wordAt ws (200 + p.val) = (s.fabric.ports.get p).grants) ∧
        (∀ p : Fin 8, wordAt ws (221 + p.val) = (s.obs.pcnt.get p).done) ∧ ∀ i, 229 ≤ i → wordAt ws i = 0) ∧
      s'.obs = { s.obs with fcnt := s'.obs.fcnt, sample := s'.obs.sample, sampledAt := some (edgeStamp (atTime s t)) } ∧
      s' = { s with now := max s.now t, fronds := s'.fronds, obs := s'.obs }) ∧
  (∀ t s, s.testMode = false → replayRuns s = true ∨ samplePeriod s = 0 → exec (.utilisationSample t) s = .next { s with now := max s.now t }) ∧
  (∀ t st ws s, Works s → s.obs.sample = some (st, ws) → ws.length = 252 →
    Completes (.sampleRecordWrite t) s fun s' =>
      let a := ssBase + 0x1520000 + 0x400 * s.obs.widx.toNat
      rdWord s' a = BitVec.ofNat 32 st.toNat ∧ rdWord s' (a + 4) = BitVec.ofNat 32 (st.toNat / 2 ^ 32) ∧ rdWord s' (a + 8) = s.obs.sampleSeq ∧
      rdWord s' (a + 12) = 0 ∧ (∀ i, i < 252 → rdWord s' (a + 16 + 4 * i) = wordAt ws i) ∧ OnlyBytes a (a + 0x400) s s' ∧
      s' = { s with
        now := max s.now t, mem := s'.mem, ecc := s'.ecc
        obs := { s.obs with sample := none, sampleSeq := s.obs.sampleSeq + 1, widx := s.obs.widx + 1 } }) ∧
  (∀ t s, s.testMode = false → s.obs.sample = none → exec (.sampleRecordWrite t) s = .next { s with now := max s.now t })

/-- CHECKPOINT_TICK, WATCHDOG_EXPIRY, TEARDOWN_HANG, OVERDUE, BACKLOG, WAIT_EVENT, WAIT_GRAPH_BUILD, GRAPH_TIMEOUT, CUT_NOTICE, GLOBAL_STOP_CUT, LINK_CAPTURE_END (R432 to R439): a checkpoint renews a core's watchdog; each cause on its condition freezes the counters with FSRC 3 and is recorded, a later one is logged only. The graph lands in its area with VALID and its builder, or 50 µs pass without it, and the stop is requested: the cut is the first AT edge at or after Q + 2 AT. A notice of another device declares NOTICE and is passed on; against a request of one's own it is logged, passed on and can only advance the cut. At the cut the device enters Halted. -/
def Obligations.HangsAreDeclaredAndTheDeviceStops : Prop :=
  (∀ t passed s, Works s →
    Completes (.checkpointTick t passed) s fun s' => s' = { s with now := max s.now t, obs := { s.obs with checkAt := s'.obs.checkAt, checkSeen := s'.obs.checkSeen } } ∧
      ∀ c : CoreId, s'.obs.checkAt.get c = (if c ∈ passed then max s.now t else s.obs.checkAt.get c) ∧
        s'.obs.checkSeen.get c = if c ∈ passed then 0 else s.obs.checkSeen.get c) ∧
  (∀ t core s, Works s → s.obs.hang = none → watchExpired (atTime s t) core = true → Completes (.watchdogExpiry t core) s (OnlyHangDeclared t 1 s)) ∧
  (∀ t core s, s.testMode = false → watchExpired (atTime s t) core = false → exec (.watchdogExpiry t core) s = .next { s with now := max s.now t }) ∧
  (∀ t f c s, Works s → s.obs.hang = none → (ctx s f c).st = .teardown → (ctx s f c).tearAt + 100 * tUs ≤ max s.now t →
    Completes (.teardownHang t f c) s (OnlyHangDeclared t 2 s)) ∧
  (∀ t q i e s, Works s → s.obs.hang = none → s.timing.stbSinceLock = true → entryAt s q i = some e → (e.st = .reserved ∨ e.st = .buffered ∨ e.st = .taken) →
      notLater (spDeadline e.spore + 98304) (stamp (atTime s t)) = true →
    Completes (.overdue t q i) s (OnlyHangDeclared t 3 s)) ∧
  (∀ t q i s, s.testMode = false → s.timing.stbSinceLock = false → exec (.overdue t q i) s = .next { s with now := max s.now t }) ∧
  (∀ t e s, Works s → s.obs.hang = none → e ∈ s.builder.list → e.born + 4 ≤ s.tree.strobes → Completes (.backlog t) s (OnlyHangDeclared t 4 s)) ∧
  (∀ t core x s, Works s → s.obs.hang = some x → watchExpired (atTime s t) core = true →
    Completes (.watchdogExpiry t core) s fun s' => s' = { s with now := max s.now t, obs := { s.obs with rings := s'.obs.rings, dcnt := s'.obs.dcnt } }) ∧
  (∀ t f c b s, Works s → (∀ e, (engQ (ctx s f c) e).head?.bind (·.blk) = none) → (ctx s f c).blk = some b → b.logged = false →
      b.since + waitEv s * 16 * tFC s ≤ max s.now t →
    Completes (.waitEvent t f c) s fun s' => ctx s' f c = { ctx s f c with blk := some { b with logged := true } } ∧
      s'.obs = (logEvent (atTime s t) (uFrond f) 0x0D c.val b.data).obs ∧ OnlyContext t f c s s') ∧
  (∀ t cause begun core s, Works s → s.obs.hang = some (cause, begun) → s.obs.stopReq = none → max s.now t ≤ begun + 50 * tUs →
      watchExpired (atTime s t) core = false → (∀ c : CoreId, c.val < core.val → watchExpired (atTime s t) c = true) →
    Completes (.waitGraphBuild t) s fun s' => bit (rdWord s' (ssBase + 0x1560000)) 0 = true ∧ field (rdWord s' (ssBase + 0x1560000)) 2 1 = core.val ∧
      rdWord s' (ssBase + 0x1560010) = BitVec.ofNat 32 (stamp (atTime s t)).toNat ∧ OnlyBytes (ssBase + 0x1560000) (ssBase + 0x1570000) s s' ∧
      s'.obs.graph = true ∧ StopAsked t s s' ∧
      s' = { s with
        now := max s.now t, mem := s'.mem, ecc := s'.ecc, links := s'.links
        obs := { s.obs with graph := true, stopReq := s'.obs.stopReq, cutDue := s'.obs.cutDue, origin := s'.obs.origin, sender := s'.obs.sender } }) ∧
  (∀ t cause begun s, Works s → s.obs.hang = some (cause, begun) → s.obs.stopReq = none → begun + 50 * tUs ≤ max s.now t →
    Completes (.graphTimeout t) s fun s' => StopAsked t s s' ∧ s' = { s with
      now := max s.now t, links := s'.links
      obs := { s.obs with stopReq := s'.obs.stopReq, cutDue := s'.obs.cutDue, origin := s'.obs.origin, sender := s'.obs.sender } }) ∧
  (∀ t l node c s, Works s → treeStop s = true → (s.links.get l).st = .up ∨ (s.links.get l).st = .inService → s.obs.cut = none →
    let e := edgeAfter (stamp (atTime s t))
    let cut := if notLater c e = true then e else c
    (s.obs.stopReq = none → s.obs.hang = none →
      Completes (.cutNotice t l node c) s fun s' => HangDeclared t 5 s s' ∧ s'.obs.stopReq = some (stamp (atTime s t)) ∧ s'.obs.cutDue = some cut ∧
        s'.obs.origin = BitVec.ofNat 8 node.val ∧ s' = { s with now := max s.now t, fronds := s'.fronds, links := s'.links, obs := s'.obs } ∧
        ∀ k : LinkId, if k ≠ l ∧ ((s.links.get k).st = .up ∨ (s.links.get k).st = .inService) then
            ∃ p, (s'.links.get k).sent = (s.links.get k).sent ++ [p] ∧ p.msg = .cut node cut
          else s'.links.get k = s.links.get k) ∧
    (∀ q own, s.obs.stopReq = some q → s.obs.cutDue = some own → bit s.obs.origin 7 = true → s.obs.hang ≠ none →
      Completes (.cutNotice t l node c) s fun s' => s'.obs.cutDue = some (if earlier cut own = true then cut else own) ∧
        (earlier cut own = true → s'.obs.origin = BitVec.ofNat 8 node.val) ∧ (earlier cut own = false → s'.obs.origin = s.obs.origin) ∧
        s' = { s with
          now := max s.now t, links := s'.links
          obs := { (logEvent (atTime s t) (uHearth 0) 0x14 0 5).obs with cutDue := s'.obs.cutDue, origin := s'.obs.origin, sender := s'.obs.sender } } ∧
        ∀ k : LinkId, if k ≠ l ∧ ((s.links.get k).st = .up ∨ (s.links.get k).st = .inService) then
            ∃ p, (s'.links.get k).sent = (s.links.get k).sent ++ [p] ∧ p.msg = .cut node cut
          else s'.links.get k = s.links.get k)) ∧
  (∀ t l node c s, s.testMode = false → treeStop s = false ∨ s.obs.cut ≠ none ∨ s.obs.halted = true →
    exec (.cutNotice t l node c) s = .next { s with now := max s.now t }) ∧
  (∀ t c s, Works s → s.obs.cutDue = some c → s.obs.cut = none → notLater c (stamp (atTime s t)) = true → (∀ f, (frond s f).mma = []) →
    Completes (.globalStopCut t) s fun s' => s'.obs.cut = some c ∧ s'.obs.halted = true ∧ (s.obs.fsrc.toNat ≤ 4 → s'.obs.fsrc = 4) ∧
      s'.obs.snapStamp = edgeStamp (atTime s t) ∧
      (∀ u : Fin 159, ∃ i rest, (s'.obs.rings.get u).slots = (i, eventWords 0x15 0 c (BitVec.ofNat 32 c.toNat)) :: rest) ∧
      (∀ k : ChanId, if (s.le.get k).st = .run then (s'.le.get k).st = .decay ∨ (s'.le.get k).st = .stopped else s'.le.get k = s.le.get k) ∧
      s'.fabric = { s.fabric with traceOn := false } ∧ s'.power.windowOpen = false ∧ s'.power.deferred = [] ∧
      (∀ f, frond s' f = { frond s f with busySince := max s.now t } ∨ frond s' f = frond s f) ∧
      s' = { s with
        now := max s.now t, fronds := s'.fronds, obs := s'.obs, fabric := s'.fabric, power := s'.power, le := s'.le, freeCtr := s.freeCtr + 1 }) ∧
  (∀ t c s, s.testMode = false → s.obs.cut = some c →
    exec (.linkCaptureEnd t) s = .next (if notLater (c + 1966) (stamp (atTime s t)) = true then
      { s with now := max s.now t, links := s.links.map fun k => { k with captureEnd := true } } else { s with now := max s.now t }))

/-- REPLAY_GO, REPLAY_PREP_DONE, REPLAY_STROBE, REPLAY_ENTRY_RELEASE, REPLAY_END and REPLAY_DONE (R446, R447): GO with REPLAY 1 starts a replay in PREP with START at a multiple of 38 400 AT at least 100 µs later, or is refused where a queue or a context is busy or the device is a member; preparation primes the caches and commits the fabric; each strobe counts, strobe 0 restarting the wheels; an entry whose strobe comes next enters its queue stamped one unit before it, or is skipped where the buffer is full or the order wrong; the last strobe's period ends in DRAIN, and the last record in DONE. Only the control block's bytes change in memory, but for queues. -/
def Obligations.ReplaysRunTheirScript : Prop :=
  (∀ t b s, HostReaches s → Works s → replayEn s = true → replayBlock s = some b → replayOpen s = true → s.pcie.sporeQ = [] → bit (rdWord s b) 0 = false → replayRuns s = false → s.deadQueues = [] →
      s.ecc = [] →
    (replayRefused s = true →
      Completes (.replayGo t) s fun s' => s'.obs.replay.st = .refused ∧ field (rdWord s' b) 3 1 = 5 ∧ bit (rdWord s' b) 0 = true ∧ OnlyReplay t b s s') ∧
    (replayRefused s = false →
      Completes (.replayGo t) s fun s' => s'.obs.replay.st = .prep ∧ field (rdWord s' b) 3 1 = 1 ∧ bit (rdWord s' b) 0 = true ∧
        s'.obs.replay.nstrobe = max 1 (field (rdWord s (b + 4)) 15 0) ∧ s'.obs.replay.sper = clampNat 240 3840 (field (rdWord s (b + 12)) 11 0) ∧
        (∃ n, s'.obs.replay.start = BitVec.ofNat 56 (256 * n) ∧ 38400 ∣ n ∧ (stamp (atTime s t)).toNat + 256 * 384 ≤ 256 * n ∧
          256 * n < (stamp (atTime s t)).toNat + 256 * (384 + 1 + 38400)) ∧
        OnlyBytes b (b + 32) s s' ∧ s' = { s with
          now := max s.now t, obs := { s.obs with replay := s'.obs.replay }, mem := s'.mem, ecc := s'.ecc, power := s'.power })) ∧
  (∀ t s, HostReaches s → replayBlock s = none ∨ replayOpen (hostSees s t) = false → s.pcie.sporeQ = [] → exec (.replayGo t) s = .next (hostSees s t)) ∧
  (∀ t b s, Works s → replayBlock s = some b → s.obs.replay.st = .prep → s.obs.replay.prepped = false → (∀ g, (group s g).st = .active) →
    Completes (.replayPrepDone t) s fun s' => s'.obs.replay = { s.obs.replay with prepped := true } ∧ s'.fabric.mode = 1 ∧ s'.fabric.live = s'.fabric.shadow ∧
      (∀ f p, p ∈ (frond s' f).cacheValid → p ∈ cachePrograms s f) ∧
      (∀ f, frond s' f = { frond s f with cacheValid := (frond s' f).cacheValid, cachePivb := (frond s' f).cachePivb, cacheSat := (frond s' f).cacheSat }) ∧
      OnlyBytes b (b + 32) s s' ∧ s' = { s with
        now := max s.now t, fronds := s'.fronds, fabric := s'.fabric, mem := s'.mem, ecc := s'.ecc, freeCtr := s'.freeCtr
        obs := { s.obs with replay := s'.obs.replay, rings := s'.obs.rings, dcnt := s'.obs.dcnt } }) ∧
  (∀ t s, Works s → ((s.obs.replay.st = .prep ∧ s.obs.replay.prepped = true) ∨ (s.obs.replay.st = .running ∧ s.obs.replay.k < s.obs.replay.nstrobe)) →
      s.tree.pendStep = none → notLater (replayStamp s s.obs.replay.k) (stamp (atTime s t)) = true →
    Completes (.replayStrobe t) s fun s' => s'.obs.replay = { s.obs.replay with
        st := .running, k := s.obs.replay.k + 1
        wheel0 := if s.obs.replay.k = 0 then fcNow (atTime s t) / 8 * 8 else s.obs.replay.wheel0 } ∧
      s'.timing.stbCnt = s.timing.stbCnt + 1 ∧ s'.timing.stbStamp = stamp (atTime s t) ∧ s'.builder.want ≠ none ∧ s'.boot = s.boot ∧ s'.sec = s.sec) ∧
  (∀ t b s, Works s → s.ecc = [] → replayBlock s = some b →
      ((s.obs.replay.st = .prep ∧ s.obs.replay.prepped = true) ∨ (s.obs.replay.st = .running ∧ s.obs.replay.k < s.obs.replay.nstrobe)) →
      notLater (replayStamp s s.obs.replay.k - BitVec.ofNat 56 (xcUnits 128)) (stamp (atTime s t)) = true →
    let r := s.obs.replay
    let ws := (scriptEntry s r.nextEnt).2
    let strobe := min (field (wordAt ws 14) 15 0) (r.nstrobe - 1)
    let c := checkSpore s 0 ws
    (r.nent ≤ r.nextEnt ∨ (r.nextEnt < r.nent ∧ r.k < strobe) → Completes (.replayEntryRelease t) s (OnlyReplay t b s)) ∧
    (r.nextEnt + 1 = r.nent → strobe < r.k → Completes (.replayEntryRelease t) s fun s' => OnlyReplay t b s s' ∧ s'.obs.replay.nextEnt = r.nent ∧
      s'.obs.replay.skip = satInc r.skip) ∧
    (r.nextEnt + 1 = r.nent → strobe = r.k → r.lastR ≤ r.k → c.refuse = false → qDepth s c.queue ≤ qCount s c.queue →
      Completes (.replayEntryRelease t) s fun s' => OnlyReplay t b s s' ∧ s'.obs.replay.nextEnt = r.nent ∧ s'.obs.replay.skip = satInc r.skip) ∧
    (r.nextEnt + 1 = r.nent → strobe = r.k → r.lastR ≤ r.k → c.refuse = false → qCount s c.queue < qDepth s c.queue →
      Completes (.replayEntryRelease t) s fun s' => s'.obs.replay.nextEnt = r.nent ∧ s'.obs.replay.skip = r.skip ∧
        (∃ e, s'.entries = s.entries ++ [e] ∧ e.queue = c.queue ∧ e.part = c.part ∧ e.spore = c.words ∧ e.st = .reserved ∧ e.accept = replayStamp s r.k - 1) ∧
        s' = { s with now := max s.now t, entries := s'.entries, obs := s'.obs, mem := s'.mem, ecc := s'.ecc })) ∧
  (∀ t b s, Works s → replayBlock s = some b → s.obs.replay.st = .running → s.obs.replay.k = s.obs.replay.nstrobe →
      notLater (replayStamp s s.obs.replay.nstrobe) (stamp (atTime s t)) = true →
    Completes (.replayEnd t) s fun s' => s'.obs.replay = { s.obs.replay with st := .drain } ∧ field (rdWord s' b) 3 1 = 3 ∧ OnlyReplay t b s s') ∧
  (∀ t b s, Works s → replayBlock s = some b → s.obs.replay.st = .drain → s.jobs = [] →
      (∀ e ∈ s.entries, replayHolds s e.queue e.idx = true ∨ e.st = .waiting ∨ e.st = .freed) →
    Completes (.replayDone t) s fun s' => s'.obs.replay = { s.obs.replay with st := .done, held := [] } ∧ field (rdWord s' b) 3 1 = 4 ∧
      OnlyBytes b (b + 32) s s' ∧ s'.ringQ = s.ringQ.map (fun q => { q with replay := false }) ∧
      s' = { s with now := max s.now t, obs := { s.obs with replay := s'.obs.replay }, mem := s'.mem, ecc := s'.ecc, ringQ := s'.ringQ })

/-- FUNCTION_LEVEL_RESET, PCIE_CORE_RESET, PCIE_LINK_UP, PE_PERST_N_RELEASE (R381, R452, R481, R488): a reset of a function clears ENABLE in the control block of every ring it owns, discards its waiting writes, messages and completions, the reads not yet answered, doorbell and cancel lines; a core reset does so for all and takes the link down. Neither stops a Frond, cancels a spore of a queue or changes a queue; memory outside the ring control blocks stays. The link comes up only with READY and PE_PERST_N released, and names the functions that software has enabled. Spores not yet accepted go with the doorbell lines (log entry 70). -/
def Obligations.PortResetsReturnRecordsAndDiscardWrites : Prop :=
  (∀ t fn s, s.testMode = false → s.pcie.up = true → s.obs.halted = false → BlocksApart s →
    Completes (.functionLevelReset t fn) s fun s' =>
      (∀ r b, ringBlock s r = some b → if ringOwner s r = fn then bit (rdWord s' (b + 8)) 8 = false ∧
          (bit (rdWord s (b + 8)) 8 = true → (s'.rings.get r).enabled = false) else s'.rings.get r = s.rings.get r ∧ rdWord s' (b + 8) = rdWord s (b + 8)) ∧
      (∀ a, (∀ r b, ringBlock s r = some b → a < b ∨ b + 32 ≤ a) → cellGet 0 s'.mem a = cellGet 0 s.mem a) ∧
      (∀ x ∈ s'.fabric.xfers, x ∈ s.fabric.xfers ∧ (∀ a ws r, x.x ≠ .tlp fn a ws r) ∧ (∀ v, x.x ≠ .message fn v) ∧ ∀ i bs l, x.x ≠ .completion fn i bs l) ∧
      s'.pcie.reads = s.pcie.reads.filter (fun x => !(x.fn == fn)) ∧
      (s'.pcie.fns.get fn).lines = [] ∧ (s'.pcie.fns.get fn).cancels = [] ∧ (∀ g, g ≠ fn → s'.pcie.fns.get g = s.pcie.fns.get g) ∧
      s'.pcie.sporeQ = s.pcie.sporeQ.filter (fun x => !(x.1 == fn)) ∧ s'.pcie.up = true ∧
      s' = { s with
        now := max s.now t, mem := s'.mem, ecc := s'.ecc, rings := s'.rings, ringQ := s'.ringQ, fabric := s'.fabric, pcie := s'.pcie
        obs := { s.obs with rings := s'.obs.rings, dcnt := s'.obs.dcnt } }) ∧
  (∀ t cause s, s.testMode = false → s.obs.halted = false → BlocksApart s →
    Completes (.pcieCoreReset t cause) s fun s' =>
      (∀ r b, ringBlock s r = some b → bit (rdWord s' (b + 8)) 8 = false) ∧
      (∀ a, (∀ r b, ringBlock s r = some b → a < b ∨ b + 32 ≤ a) → cellGet 0 s'.mem a = cellGet 0 s.mem a) ∧
      (∀ x ∈ s'.fabric.xfers, x ∈ s.fabric.xfers ∧ ∀ fn, (∀ a ws r, x.x ≠ .tlp fn a ws r) ∧ (∀ v, x.x ≠ .message fn v) ∧ ∀ i bs l, x.x ≠ .completion fn i bs l) ∧
      s'.pcie.reads = [] ∧ (∀ fn, (s'.pcie.fns.get fn).lines = [] ∧ (s'.pcie.fns.get fn).cancels = []) ∧
      s'.pcie.sporeQ = [] ∧ s'.pcie.up = false ∧ s'.pcie.perst = (s.pcie.perst || cause == .perst) ∧
      s' = { s with
        now := max s.now t, mem := s'.mem, ecc := s'.ecc, rings := s'.rings, ringQ := s'.ringQ, fabric := s'.fabric, pcie := s'.pcie
        obs := { s.obs with rings := s'.obs.rings, dcnt := s'.obs.dcnt } }) ∧
  (∀ t enabled s, s.testMode = false → s.boot.ready = true → s.pcie.perst = false → s.pcie.up = false →
    Completes (.pcieLinkUp t enabled) s fun s' => s'.pcie.up = true ∧
      (∀ fn, s'.pcie.fns.get fn = { s.pcie.fns.get fn with enabled := enabled.contains fn && fn != 0 }) ∧
      s' = { s with now := max s.now t, pcie := { s.pcie with up := true, fns := s'.pcie.fns } }) ∧
  (∀ t enabled s, s.testMode = false → s.boot.ready = false ∨ s.pcie.perst = true → exec (.pcieLinkUp t enabled) s = .next { s with now := max s.now t }) ∧
  (∀ t s, s.testMode = false → exec (.pePerstNRelease t) s = .next { s with now := max s.now t, pcie := { s.pcie with perst := false } })

end
end

