-- ==== Sys2Proof/Laws/Memory.lean ====
section
/-!
SUPPORT. The laws of memory: a read after a write, a write leaves every other byte alone, and every operation keeps the
canonical form. The read laws hold of any list of pairs, so statements need no premise about the form.
-/
namespace Sys2Proof.Laws
open Sys2Proof.Machine

/-! ### One byte -/

theorem cellGet_filter (d : Byte) (p : Nat → Bool) (m : List Host.Cell) (x : Nat) :
    cellGet d (m.filter fun c => p c.1) x = if p x then cellGet d m x else d := by
  induction m with
  | nil => simp [cellGet]
  | cons c m ih =>
    obtain ⟨k, v⟩ := c
    by_cases hk : p k = true
    · simp only [List.filter_cons, hk, if_true, cellGet]
      by_cases hx : x = k
      · subst hx; simp [hk]
      · simp [hx, ih]
    · simp only [List.filter_cons, hk, cellGet]
      by_cases hx : x = k
      · subst hx; simp [ih, hk]
      · simp [hx, ih]

theorem cellGet_put (d : Byte) (m : List Host.Cell) (a x : Nat) (b : Byte) :
    cellGet d (cellPut m a b) x = if x = a then b else cellGet d m x := by
  induction m with
  | nil => simp [cellPut, cellGet]
  | cons c m ih =>
    obtain ⟨k, v⟩ := c
    simp only [cellPut]
    split
    · rfl
    · split
      · subst k
        by_cases hx : x = a <;> simp [cellGet, hx]
      · simp only [cellGet, ih]
        by_cases hk : x = k
        · subst x; simp [Ne.symm ‹¬a = k›]
        · simp [hk]

/-- A read after a write gives the byte written; every other byte is as before. -/
@[simp] theorem cellGet_set (d : Byte) (m : List Host.Cell) (a x : Nat) (b : Byte) :
    cellGet d (cellSet d m a b) x = if x = a then b else cellGet d m x := by
  unfold cellSet
  split
  · subst b
    rw [cellGet_filter d (fun k => k != a) m x]
    by_cases hx : x = a <;> simp [hx]
  · exact cellGet_put d m a x b

/-! ### Ranges of bytes -/

theorem cellGet_write_out (d : Byte) (bs : List Byte) (m : List Host.Cell) (a x : Nat) (h : x < a ∨ a + bs.length ≤ x) :
    cellGet d (cellWrite d m a bs) x = cellGet d m x := by
  induction bs generalizing m a with
  | nil => rfl
  | cons b bs ih =>
    simp only [List.length_cons] at h
    rw [cellWrite, ih _ _ (by omega), cellGet_set, if_neg (by omega)]

theorem cellGet_write_in (d : Byte) (bs : List Byte) (m : List Host.Cell) (a i : Nat) (h : i < bs.length) :
    cellGet d (cellWrite d m a bs) (a + i) = bs[i] := by
  induction bs generalizing m a i with
  | nil => exact absurd h (Nat.not_lt_zero i)
  | cons b bs ih =>
    cases i with
    | zero => rw [cellWrite, Nat.add_zero, cellGet_write_out _ _ _ _ _ (by omega), cellGet_set]; simp
    | succ i =>
      have h' : i < bs.length := by simpa using h
      have := ih (cellSet d m a b) (a + 1) i h'
      rw [cellWrite, show a + (i + 1) = a + 1 + i by omega, this]; rfl

theorem cellGet_clear (d : Byte) (m : List Host.Cell) (a n x : Nat) :
    cellGet d (cellClear m a n) x = if a ≤ x ∧ x < a + n then d else cellGet d m x := by
  rw [cellClear, cellGet_filter d (fun k => !(decide (a ≤ k) && decide (k < a + n))) m x]
  by_cases h : a ≤ x ∧ x < a + n
  · simp [h]
  · rw [if_neg h, if_pos]; simp; omega

/-! ### The canonical form -/

theorem cellWf_of_lt {d : Byte} {lo : Nat} {m : List Host.Cell} (h : cellWf d (some lo) m = true) {hi : Nat} (hl : hi ≤ lo) :
    cellWf d (some hi) m = true := by
  cases m with
  | nil => rfl
  | cons c m =>
    obtain ⟨k, v⟩ := c
    simp only [cellWf, Bool.and_eq_true, decide_eq_true_eq] at h ⊢
    exact ⟨⟨by omega, h.1.2⟩, h.2⟩

theorem cellWf_filter (d : Byte) (p : Nat → Bool) (m : List Host.Cell) (lo : Option Nat) (h : cellWf d lo m = true) :
    cellWf d lo (m.filter fun c => p c.1) = true := by
  induction m generalizing lo with
  | nil => simpa using h
  | cons c m ih =>
    obtain ⟨k, v⟩ := c
    simp only [cellWf, Bool.and_eq_true] at h
    simp only [List.filter_cons]
    split
    · simp only [cellWf, Bool.and_eq_true]; exact ⟨h.1, ih _ h.2⟩
    · cases lo with
      | none =>
        have := ih _ h.2
        revert this
        cases m.filter (fun c => p c.1) with
        | nil => intro _; rfl
        | cons c' m' =>
          obtain ⟨k', v'⟩ := c'
          simp only [cellWf, Bool.and_eq_true]
          exact fun hh => ⟨⟨trivial, hh.1.2⟩, hh.2⟩
      | some l =>
        simp only [decide_eq_true_eq] at h
        exact cellWf_of_lt (ih _ h.2) (by omega)

theorem cellWf_put (d : Byte) (m : List Host.Cell) (a : Nat) (b : Byte) (hb : b ≠ d) (lo : Option Nat)
    (hlo : ∀ l, lo = some l → l < a) (h : cellWf d lo m = true) : cellWf d lo (cellPut m a b) = true := by
  induction m generalizing lo with
  | nil => cases lo <;> simp_all [cellPut, cellWf]
  | cons c m ih =>
    obtain ⟨k, v⟩ := c
    have h0 := h
    simp only [cellWf, Bool.and_eq_true] at h
    simp only [cellPut]
    split
    · have : cellWf d (some a) ((k, v) :: m) = true := by
        simp only [cellWf, Bool.and_eq_true, decide_eq_true_eq]; exact ⟨⟨by assumption, h.1.2⟩, h.2⟩
      cases lo <;> simp_all [cellWf]
    · split
      · subst a; cases lo <;> simp_all [cellWf]
      · have hk : cellWf d (some k) (cellPut m a b) = true := ih _ (by intro l hl; cases hl; omega) h.2
        simp only [cellWf, Bool.and_eq_true]; exact ⟨h.1, hk⟩

/-- A write keeps the canonical form. -/
theorem cellWf_set (d : Byte) (m : List Host.Cell) (a : Nat) (b : Byte) (h : cellWf d none m = true) :
    cellWf d none (cellSet d m a b) = true := by
  unfold cellSet
  split
  · exact cellWf_filter d (fun k => k != a) m none h
  · exact cellWf_put d m a b ‹_› none (by simp) h

theorem cellWf_write (d : Byte) (bs : List Byte) (m : List Host.Cell) (a : Nat) (h : cellWf d none m = true) :
    cellWf d none (cellWrite d m a bs) = true := by
  induction bs generalizing m a with
  | nil => exact h
  | cons b bs ih => exact ih _ _ (cellWf_set d m a b h)

theorem cellWf_clear (d : Byte) (m : List Host.Cell) (a n : Nat) (h : cellWf d none m = true) :
    cellWf d none (cellClear m a n) = true :=
  cellWf_filter d (fun k => !(decide (a ≤ k) && decide (k < a + n))) m none h

theorem memSetWord_wf (m : List Host.Cell) (a : Nat) (x : Word) (h : Memory.wf m = true) : Memory.wf (memSetWord m a x) = true :=
  cellWf_write 0 _ m a h

theorem memSetWords_wf (m : List Host.Cell) (a : Nat) (xs : List Word) (h : Memory.wf m = true) :
    Memory.wf (memSetWords m a xs) = true := by
  induction xs generalizing m a with
  | nil => exact h
  | cons x xs ih => exact ih _ _ (memSetWord_wf m a x h)

theorem wrWord_wf (s : State) (a : Nat) (x : Word) (h : Memory.wf s.mem = true) : Memory.wf (wrWord s a x).mem = true :=
  memSetWord_wf s.mem a x h

theorem wrWords_wf (s : State) (a : Nat) (xs : List Word) (h : Memory.wf s.mem = true) : Memory.wf (wrWords s a xs).mem = true := by
  induction xs generalizing s a with
  | nil => exact h
  | cons x xs ih => exact ih _ _ (wrWord_wf s a x h)

theorem reset_memory_wf : Memory.wf State.reset.mem = true := rfl

/-! ### Words -/

theorem leBytes_length (n v : Nat) : (leBytes n v).length = n := by
  induction n generalizing v with
  | zero => rfl
  | succ n ih => simp [leBytes, ih]

@[simp] theorem wordBytes_length (x : Word) : (wordBytes x).length = 4 := leBytes_length 4 x.toNat

theorem leNat_leBytes (n v : Nat) (h : v < 256 ^ n) : leNat (leBytes n v) = v := by
  induction n generalizing v with
  | zero => simp at h; simp [leBytes, leNat, h]
  | succ n ih =>
    have : v / 256 < 256 ^ n := by rw [Nat.div_lt_iff_lt_mul (by omega)]; rw [Nat.pow_succ] at h; omega
    simp only [leBytes, leNat, ih _ this, BitVec.toNat_ofNat]; omega

theorem memWord_setWord (m : List Host.Cell) (a : Nat) (x : Word) : memWord (memSetWord m a x) a = x := by
  have e : cellRead 0 (memSetWord m a x) a 4 = wordBytes x := by
    apply List.ext_getElem (by simp [cellRead, upto])
    intro i h1 h2
    have := cellGet_write_in 0 (wordBytes x) m a i (by simpa using h2)
    simpa [cellRead, upto, memSetWord] using this
  have hx : x.toNat < 256 ^ 4 := x.isLt
  have ht : (wordBytes x).take 4 = wordBytes x := List.take_of_length_le (by simp)
  rw [memWord, bytesWord, e, ht, wordBytes, leNat_leBytes 4 _ hx]
  exact BitVec.eq_of_toNat_eq (by simp)

theorem memWord_setWord_out (m : List Host.Cell) (a b : Nat) (x : Word) (h : b + 4 ≤ a ∨ a + 4 ≤ b) :
    memWord (memSetWord m a x) b = memWord m b := by
  have e : cellRead 0 (memSetWord m a x) b 4 = cellRead 0 m b 4 := by
    simp only [cellRead]
    apply List.map_congr_left
    intro i hi
    have : i < 4 := by simpa [upto] using hi
    exact cellGet_write_out 0 _ m a _ (by simp; omega)
  rw [memWord, memWord, e]

/-- The word at `a` after a write of a word: the word written; words that do not overlap it are as before. -/
theorem rdWord_wrWord (s : State) (a : Nat) (x : Word) : rdWord (wrWord s a x) a = x := memWord_setWord s.mem a x

theorem rdWord_wrWord_out (s : State) (a b : Nat) (x : Word) (h : b + 4 ≤ a ∨ a + 4 ≤ b) :
    rdWord (wrWord s a x) b = rdWord s b := memWord_setWord_out s.mem a b x h

end Sys2Proof.Laws
end

