-- ==== Sys2Proof/Laws/Ops.lean ====
section
/-!
SUPPORT. Once for each shared operation, what it does: the guards every command passes (`live`, `liveSession`), tables by
number, and what it is for a command to complete.
-/
namespace Sys2Proof.Laws
open Sys2Proof.Machine Sys2Proof.Safety

/-! ### Tables by number -/

@[simp] theorem vmod_get {α : Type} {n : Nat} (v : Vector α n) (i j : Fin n) (f : α → α) :
    (vmod v i f).get j = if i = j then f (v.get i) else v.get j := by
  show (vmod v i f)[j.val] = if i = j then f v[i.val] else v[j.val]
  simp only [vmod, Vector.getElem_set, Fin.ext_iff]
  rfl

@[simp] theorem vset_get {α : Type} {n : Nat} (v : Vector α n) (i j : Fin n) (x : α) :
    (vset v i x).get j = if i = j then x else v.get j := by
  show (vset v i x)[j.val] = if i = j then x else v[j.val]
  simp only [vset, Vector.getElem_set, Fin.ext_iff]

@[simp] theorem replicate_get {α : Type} {n : Nat} (x : α) (i : Fin n) : (Vector.replicate n x).get i = x := by
  show (Vector.replicate n x)[i.val] = x
  simp

@[simp] theorem map_get {α β : Type} {n : Nat} (v : Vector α n) (f : α → β) (i : Fin n) : (Vector.map f v).get i = f (v.get i) := by
  show (Vector.map f v)[i.val] = f v[i.val]
  simp

@[simp] theorem ofFn_get {α : Type} {n : Nat} (f : Fin n → α) (i : Fin n) : (Vector.ofFn f).get i = f i := by
  show (Vector.ofFn f)[i.val] = f i
  simp

/-! ### Guards -/

@[simp] theorem when_true (s : State) (f : State → State) : when_ true s f = f s := rfl
@[simp] theorem when_false (s : State) (f : State → State) : when_ false s f = s := rfl

theorem live_normal (t : Time) (s : State) (f : State → State) (h : s.testMode = false) :
    live t s f = .next { f (atTime s t) with pending := s.pending, session := s.session } := by
  simp [live, h]

theorem live_testMode (t : Time) (s : State) (f : State → State) (h : s.testMode = true) :
    live t s f = .fault .manufacturingTest := by
  simp [live, h]

theorem liveSession_normal (t : Time) (s : State) (f : State → State) (h : s.testMode = false) :
    liveSession t s f = .next { f (atTime s t) with pending := s.pending } := by
  simp [liveSession, h]

theorem liveSession_testMode (t : Time) (s : State) (f : State → State) (h : s.testMode = true) :
    liveSession t s f = .fault .manufacturingTest := by
  simp [liveSession, h]

/-- Whatever a guarded effect does, the security state and the queue are as before. -/
theorem live_keeps (t : Time) (s s' : State) (f : State → State) (h : live t s f = .next s') :
    s'.session = s.session ∧ s'.pending = s.pending := by
  unfold live at h
  split at h
  · cases h
  · cases h; exact ⟨rfl, rfl⟩

/-! ### Completion -/

/-- A command whose meaning is a guarded effect completes with that effect. -/
theorem completes_live {i : Instr} {s : State} {P : State → Prop} {t : Time} {f : State → State}
    (he : exec i s = live t s f) (h : s.testMode = false) :
    Completes i s P ↔ P { f (atTime s t) with pending := s.pending, session := s.session } := by
  simp [Completes, he, live_normal _ _ _ h]

theorem completes_liveSession {i : Instr} {s : State} {P : State → Prop} {t : Time} {f : State → State}
    (he : exec i s = liveSession t s f) (h : s.testMode = false) :
    Completes i s P ↔ P { f (atTime s t) with pending := s.pending } := by
  simp [Completes, he, liveSession_normal _ _ _ h]

@[simp] theorem atTime_now (s : State) (t : Time) : (atTime s t).now = max s.now t := rfl

end Sys2Proof.Laws
end

