-- ==== Sys2Proof/Laws/State.lean ====
section
/-!
SUPPORT. For every update of the state, the fields it leaves alone, each true by computation, so that no proof unfolds a record
update; and the field it writes, where that is one value.
-/
namespace Sys2Proof.Laws
open Sys2Proof.Machine

variable (s : State)

section
variable (t : Time)
@[simp] theorem atTime_tbAdj : (atTime s t).tbAdj = s.tbAdj := rfl
@[simp] theorem atTime_freeCtr : (atTime s t).freeCtr = s.freeCtr := rfl
@[simp] theorem atTime_nextId : (atTime s t).nextId = s.nextId := rfl
@[simp] theorem atTime_testMode : (atTime s t).testMode = s.testMode := rfl
@[simp] theorem atTime_part : (atTime s t).part = s.part := rfl
@[simp] theorem atTime_mem : (atTime s t).mem = s.mem := rfl
@[simp] theorem atTime_ecc : (atTime s t).ecc = s.ecc := rfl
@[simp] theorem atTime_flash : (atTime s t).flash = s.flash := rfl
@[simp] theorem atTime_boot : (atTime s t).boot = s.boot := rfl
@[simp] theorem atTime_stg : (atTime s t).stg = s.stg := rfl
@[simp] theorem atTime_stgBase : (atTime s t).stgBase = s.stgBase := rfl
@[simp] theorem atTime_stgSize : (atTime s t).stgSize = s.stgSize := rfl
@[simp] theorem atTime_fuses : (atTime s t).fuses = s.fuses := rfl
@[simp] theorem atTime_session : (atTime s t).session = s.session := rfl
@[simp] theorem atTime_sec : (atTime s t).sec = s.sec := rfl
@[simp] theorem atTime_tap : (atTime s t).tap = s.tap := rfl
@[simp] theorem atTime_power : (atTime s t).power = s.power := rfl
@[simp] theorem atTime_timing : (atTime s t).timing = s.timing := rfl
@[simp] theorem atTime_le : (atTime s t).le = s.le := rfl
@[simp] theorem atTime_fronds : (atTime s t).fronds = s.fronds := rfl
@[simp] theorem atTime_builder : (atTime s t).builder = s.builder := rfl
@[simp] theorem atTime_parts : (atTime s t).parts = s.parts := rfl
@[simp] theorem atTime_programs : (atTime s t).programs = s.programs := rfl
@[simp] theorem atTime_entries : (atTime s t).entries = s.entries := rfl
@[simp] theorem atTime_deadQueues : (atTime s t).deadQueues = s.deadQueues := rfl
@[simp] theorem atTime_popped : (atTime s t).popped = s.popped := rfl
@[simp] theorem atTime_jobs : (atTime s t).jobs = s.jobs := rfl
@[simp] theorem atTime_ringQ : (atTime s t).ringQ = s.ringQ := rfl
@[simp] theorem atTime_rings : (atTime s t).rings = s.rings := rfl
@[simp] theorem atTime_hearth : (atTime s t).hearth = s.hearth := rfl
@[simp] theorem atTime_fabric : (atTime s t).fabric = s.fabric := rfl
@[simp] theorem atTime_links : (atTime s t).links = s.links := rfl
@[simp] theorem atTime_tree : (atTime s t).tree = s.tree := rfl
@[simp] theorem atTime_obs : (atTime s t).obs = s.obs := rfl
@[simp] theorem atTime_pcie : (atTime s t).pcie = s.pcie := rfl
@[simp] theorem atTime_pending : (atTime s t).pending = s.pending := rfl
end

section
variable (a : Nat) (x : Option EccMark)
@[simp] theorem setMark_now : (setMark s a x).now = s.now := rfl
@[simp] theorem setMark_tbAdj : (setMark s a x).tbAdj = s.tbAdj := rfl
@[simp] theorem setMark_freeCtr : (setMark s a x).freeCtr = s.freeCtr := rfl
@[simp] theorem setMark_nextId : (setMark s a x).nextId = s.nextId := rfl
@[simp] theorem setMark_testMode : (setMark s a x).testMode = s.testMode := rfl
@[simp] theorem setMark_part : (setMark s a x).part = s.part := rfl
@[simp] theorem setMark_mem : (setMark s a x).mem = s.mem := rfl
@[simp] theorem setMark_flash : (setMark s a x).flash = s.flash := rfl
@[simp] theorem setMark_boot : (setMark s a x).boot = s.boot := rfl
@[simp] theorem setMark_stg : (setMark s a x).stg = s.stg := rfl
@[simp] theorem setMark_stgBase : (setMark s a x).stgBase = s.stgBase := rfl
@[simp] theorem setMark_stgSize : (setMark s a x).stgSize = s.stgSize := rfl
@[simp] theorem setMark_fuses : (setMark s a x).fuses = s.fuses := rfl
@[simp] theorem setMark_session : (setMark s a x).session = s.session := rfl
@[simp] theorem setMark_sec : (setMark s a x).sec = s.sec := rfl
@[simp] theorem setMark_tap : (setMark s a x).tap = s.tap := rfl
@[simp] theorem setMark_power : (setMark s a x).power = s.power := rfl
@[simp] theorem setMark_timing : (setMark s a x).timing = s.timing := rfl
@[simp] theorem setMark_le : (setMark s a x).le = s.le := rfl
@[simp] theorem setMark_fronds : (setMark s a x).fronds = s.fronds := rfl
@[simp] theorem setMark_builder : (setMark s a x).builder = s.builder := rfl
@[simp] theorem setMark_parts : (setMark s a x).parts = s.parts := rfl
@[simp] theorem setMark_programs : (setMark s a x).programs = s.programs := rfl
@[simp] theorem setMark_entries : (setMark s a x).entries = s.entries := rfl
@[simp] theorem setMark_deadQueues : (setMark s a x).deadQueues = s.deadQueues := rfl
@[simp] theorem setMark_popped : (setMark s a x).popped = s.popped := rfl
@[simp] theorem setMark_jobs : (setMark s a x).jobs = s.jobs := rfl
@[simp] theorem setMark_ringQ : (setMark s a x).ringQ = s.ringQ := rfl
@[simp] theorem setMark_rings : (setMark s a x).rings = s.rings := rfl
@[simp] theorem setMark_hearth : (setMark s a x).hearth = s.hearth := rfl
@[simp] theorem setMark_fabric : (setMark s a x).fabric = s.fabric := rfl
@[simp] theorem setMark_links : (setMark s a x).links = s.links := rfl
@[simp] theorem setMark_tree : (setMark s a x).tree = s.tree := rfl
@[simp] theorem setMark_obs : (setMark s a x).obs = s.obs := rfl
@[simp] theorem setMark_pcie : (setMark s a x).pcie = s.pcie := rfl
@[simp] theorem setMark_pending : (setMark s a x).pending = s.pending := rfl
end

section
variable (a : Nat) (x : Word)
@[simp] theorem wrWord_now : (wrWord s a x).now = s.now := rfl
@[simp] theorem wrWord_tbAdj : (wrWord s a x).tbAdj = s.tbAdj := rfl
@[simp] theorem wrWord_freeCtr : (wrWord s a x).freeCtr = s.freeCtr := rfl
@[simp] theorem wrWord_nextId : (wrWord s a x).nextId = s.nextId := rfl
@[simp] theorem wrWord_testMode : (wrWord s a x).testMode = s.testMode := rfl
@[simp] theorem wrWord_part : (wrWord s a x).part = s.part := rfl
@[simp] theorem wrWord_flash : (wrWord s a x).flash = s.flash := rfl
@[simp] theorem wrWord_boot : (wrWord s a x).boot = s.boot := rfl
@[simp] theorem wrWord_stg : (wrWord s a x).stg = s.stg := rfl
@[simp] theorem wrWord_stgBase : (wrWord s a x).stgBase = s.stgBase := rfl
@[simp] theorem wrWord_stgSize : (wrWord s a x).stgSize = s.stgSize := rfl
@[simp] theorem wrWord_fuses : (wrWord s a x).fuses = s.fuses := rfl
@[simp] theorem wrWord_session : (wrWord s a x).session = s.session := rfl
@[simp] theorem wrWord_sec : (wrWord s a x).sec = s.sec := rfl
@[simp] theorem wrWord_tap : (wrWord s a x).tap = s.tap := rfl
@[simp] theorem wrWord_power : (wrWord s a x).power = s.power := rfl
@[simp] theorem wrWord_timing : (wrWord s a x).timing = s.timing := rfl
@[simp] theorem wrWord_le : (wrWord s a x).le = s.le := rfl
@[simp] theorem wrWord_fronds : (wrWord s a x).fronds = s.fronds := rfl
@[simp] theorem wrWord_builder : (wrWord s a x).builder = s.builder := rfl
@[simp] theorem wrWord_parts : (wrWord s a x).parts = s.parts := rfl
@[simp] theorem wrWord_programs : (wrWord s a x).programs = s.programs := rfl
@[simp] theorem wrWord_entries : (wrWord s a x).entries = s.entries := rfl
@[simp] theorem wrWord_deadQueues : (wrWord s a x).deadQueues = s.deadQueues := rfl
@[simp] theorem wrWord_popped : (wrWord s a x).popped = s.popped := rfl
@[simp] theorem wrWord_jobs : (wrWord s a x).jobs = s.jobs := rfl
@[simp] theorem wrWord_ringQ : (wrWord s a x).ringQ = s.ringQ := rfl
@[simp] theorem wrWord_rings : (wrWord s a x).rings = s.rings := rfl
@[simp] theorem wrWord_hearth : (wrWord s a x).hearth = s.hearth := rfl
@[simp] theorem wrWord_fabric : (wrWord s a x).fabric = s.fabric := rfl
@[simp] theorem wrWord_links : (wrWord s a x).links = s.links := rfl
@[simp] theorem wrWord_tree : (wrWord s a x).tree = s.tree := rfl
@[simp] theorem wrWord_obs : (wrWord s a x).obs = s.obs := rfl
@[simp] theorem wrWord_pcie : (wrWord s a x).pcie = s.pcie := rfl
@[simp] theorem wrWord_pending : (wrWord s a x).pending = s.pending := rfl
end

section
variable (f : FrondId) (g : Frond → Frond)
@[simp] theorem modFrond_now : (modFrond s f g).now = s.now := rfl
@[simp] theorem modFrond_tbAdj : (modFrond s f g).tbAdj = s.tbAdj := rfl
@[simp] theorem modFrond_freeCtr : (modFrond s f g).freeCtr = s.freeCtr := rfl
@[simp] theorem modFrond_nextId : (modFrond s f g).nextId = s.nextId := rfl
@[simp] theorem modFrond_testMode : (modFrond s f g).testMode = s.testMode := rfl
@[simp] theorem modFrond_part : (modFrond s f g).part = s.part := rfl
@[simp] theorem modFrond_mem : (modFrond s f g).mem = s.mem := rfl
@[simp] theorem modFrond_ecc : (modFrond s f g).ecc = s.ecc := rfl
@[simp] theorem modFrond_flash : (modFrond s f g).flash = s.flash := rfl
@[simp] theorem modFrond_boot : (modFrond s f g).boot = s.boot := rfl
@[simp] theorem modFrond_stg : (modFrond s f g).stg = s.stg := rfl
@[simp] theorem modFrond_stgBase : (modFrond s f g).stgBase = s.stgBase := rfl
@[simp] theorem modFrond_stgSize : (modFrond s f g).stgSize = s.stgSize := rfl
@[simp] theorem modFrond_fuses : (modFrond s f g).fuses = s.fuses := rfl
@[simp] theorem modFrond_session : (modFrond s f g).session = s.session := rfl
@[simp] theorem modFrond_sec : (modFrond s f g).sec = s.sec := rfl
@[simp] theorem modFrond_tap : (modFrond s f g).tap = s.tap := rfl
@[simp] theorem modFrond_power : (modFrond s f g).power = s.power := rfl
@[simp] theorem modFrond_timing : (modFrond s f g).timing = s.timing := rfl
@[simp] theorem modFrond_le : (modFrond s f g).le = s.le := rfl
@[simp] theorem modFrond_builder : (modFrond s f g).builder = s.builder := rfl
@[simp] theorem modFrond_parts : (modFrond s f g).parts = s.parts := rfl
@[simp] theorem modFrond_programs : (modFrond s f g).programs = s.programs := rfl
@[simp] theorem modFrond_entries : (modFrond s f g).entries = s.entries := rfl
@[simp] theorem modFrond_deadQueues : (modFrond s f g).deadQueues = s.deadQueues := rfl
@[simp] theorem modFrond_popped : (modFrond s f g).popped = s.popped := rfl
@[simp] theorem modFrond_jobs : (modFrond s f g).jobs = s.jobs := rfl
@[simp] theorem modFrond_ringQ : (modFrond s f g).ringQ = s.ringQ := rfl
@[simp] theorem modFrond_rings : (modFrond s f g).rings = s.rings := rfl
@[simp] theorem modFrond_hearth : (modFrond s f g).hearth = s.hearth := rfl
@[simp] theorem modFrond_fabric : (modFrond s f g).fabric = s.fabric := rfl
@[simp] theorem modFrond_links : (modFrond s f g).links = s.links := rfl
@[simp] theorem modFrond_tree : (modFrond s f g).tree = s.tree := rfl
@[simp] theorem modFrond_obs : (modFrond s f g).obs = s.obs := rfl
@[simp] theorem modFrond_pcie : (modFrond s f g).pcie = s.pcie := rfl
@[simp] theorem modFrond_pending : (modFrond s f g).pending = s.pending := rfl
end

section
variable (f : FrondId) (c : CtxId) (g : Ctx → Ctx)
@[simp] theorem modCtx_now : (modCtx s f c g).now = s.now := rfl
@[simp] theorem modCtx_tbAdj : (modCtx s f c g).tbAdj = s.tbAdj := rfl
@[simp] theorem modCtx_freeCtr : (modCtx s f c g).freeCtr = s.freeCtr := rfl
@[simp] theorem modCtx_nextId : (modCtx s f c g).nextId = s.nextId := rfl
@[simp] theorem modCtx_testMode : (modCtx s f c g).testMode = s.testMode := rfl
@[simp] theorem modCtx_part : (modCtx s f c g).part = s.part := rfl
@[simp] theorem modCtx_mem : (modCtx s f c g).mem = s.mem := rfl
@[simp] theorem modCtx_ecc : (modCtx s f c g).ecc = s.ecc := rfl
@[simp] theorem modCtx_flash : (modCtx s f c g).flash = s.flash := rfl
@[simp] theorem modCtx_boot : (modCtx s f c g).boot = s.boot := rfl
@[simp] theorem modCtx_stg : (modCtx s f c g).stg = s.stg := rfl
@[simp] theorem modCtx_stgBase : (modCtx s f c g).stgBase = s.stgBase := rfl
@[simp] theorem modCtx_stgSize : (modCtx s f c g).stgSize = s.stgSize := rfl
@[simp] theorem modCtx_fuses : (modCtx s f c g).fuses = s.fuses := rfl
@[simp] theorem modCtx_session : (modCtx s f c g).session = s.session := rfl
@[simp] theorem modCtx_sec : (modCtx s f c g).sec = s.sec := rfl
@[simp] theorem modCtx_tap : (modCtx s f c g).tap = s.tap := rfl
@[simp] theorem modCtx_power : (modCtx s f c g).power = s.power := rfl
@[simp] theorem modCtx_timing : (modCtx s f c g).timing = s.timing := rfl
@[simp] theorem modCtx_le : (modCtx s f c g).le = s.le := rfl
@[simp] theorem modCtx_builder : (modCtx s f c g).builder = s.builder := rfl
@[simp] theorem modCtx_parts : (modCtx s f c g).parts = s.parts := rfl
@[simp] theorem modCtx_programs : (modCtx s f c g).programs = s.programs := rfl
@[simp] theorem modCtx_entries : (modCtx s f c g).entries = s.entries := rfl
@[simp] theorem modCtx_deadQueues : (modCtx s f c g).deadQueues = s.deadQueues := rfl
@[simp] theorem modCtx_popped : (modCtx s f c g).popped = s.popped := rfl
@[simp] theorem modCtx_jobs : (modCtx s f c g).jobs = s.jobs := rfl
@[simp] theorem modCtx_ringQ : (modCtx s f c g).ringQ = s.ringQ := rfl
@[simp] theorem modCtx_rings : (modCtx s f c g).rings = s.rings := rfl
@[simp] theorem modCtx_hearth : (modCtx s f c g).hearth = s.hearth := rfl
@[simp] theorem modCtx_fabric : (modCtx s f c g).fabric = s.fabric := rfl
@[simp] theorem modCtx_links : (modCtx s f c g).links = s.links := rfl
@[simp] theorem modCtx_tree : (modCtx s f c g).tree = s.tree := rfl
@[simp] theorem modCtx_obs : (modCtx s f c g).obs = s.obs := rfl
@[simp] theorem modCtx_pcie : (modCtx s f c g).pcie = s.pcie := rfl
@[simp] theorem modCtx_pending : (modCtx s f c g).pending = s.pending := rfl
end

section
variable (k : GroupId) (g : Group → Group)
@[simp] theorem modGroup_now : (modGroup s k g).now = s.now := rfl
@[simp] theorem modGroup_tbAdj : (modGroup s k g).tbAdj = s.tbAdj := rfl
@[simp] theorem modGroup_freeCtr : (modGroup s k g).freeCtr = s.freeCtr := rfl
@[simp] theorem modGroup_nextId : (modGroup s k g).nextId = s.nextId := rfl
@[simp] theorem modGroup_testMode : (modGroup s k g).testMode = s.testMode := rfl
@[simp] theorem modGroup_part : (modGroup s k g).part = s.part := rfl
@[simp] theorem modGroup_mem : (modGroup s k g).mem = s.mem := rfl
@[simp] theorem modGroup_ecc : (modGroup s k g).ecc = s.ecc := rfl
@[simp] theorem modGroup_flash : (modGroup s k g).flash = s.flash := rfl
@[simp] theorem modGroup_boot : (modGroup s k g).boot = s.boot := rfl
@[simp] theorem modGroup_stg : (modGroup s k g).stg = s.stg := rfl
@[simp] theorem modGroup_stgBase : (modGroup s k g).stgBase = s.stgBase := rfl
@[simp] theorem modGroup_stgSize : (modGroup s k g).stgSize = s.stgSize := rfl
@[simp] theorem modGroup_fuses : (modGroup s k g).fuses = s.fuses := rfl
@[simp] theorem modGroup_session : (modGroup s k g).session = s.session := rfl
@[simp] theorem modGroup_sec : (modGroup s k g).sec = s.sec := rfl
@[simp] theorem modGroup_tap : (modGroup s k g).tap = s.tap := rfl
@[simp] theorem modGroup_timing : (modGroup s k g).timing = s.timing := rfl
@[simp] theorem modGroup_le : (modGroup s k g).le = s.le := rfl
@[simp] theorem modGroup_fronds : (modGroup s k g).fronds = s.fronds := rfl
@[simp] theorem modGroup_builder : (modGroup s k g).builder = s.builder := rfl
@[simp] theorem modGroup_parts : (modGroup s k g).parts = s.parts := rfl
@[simp] theorem modGroup_programs : (modGroup s k g).programs = s.programs := rfl
@[simp] theorem modGroup_entries : (modGroup s k g).entries = s.entries := rfl
@[simp] theorem modGroup_deadQueues : (modGroup s k g).deadQueues = s.deadQueues := rfl
@[simp] theorem modGroup_popped : (modGroup s k g).popped = s.popped := rfl
@[simp] theorem modGroup_jobs : (modGroup s k g).jobs = s.jobs := rfl
@[simp] theorem modGroup_ringQ : (modGroup s k g).ringQ = s.ringQ := rfl
@[simp] theorem modGroup_rings : (modGroup s k g).rings = s.rings := rfl
@[simp] theorem modGroup_hearth : (modGroup s k g).hearth = s.hearth := rfl
@[simp] theorem modGroup_fabric : (modGroup s k g).fabric = s.fabric := rfl
@[simp] theorem modGroup_links : (modGroup s k g).links = s.links := rfl
@[simp] theorem modGroup_tree : (modGroup s k g).tree = s.tree := rfl
@[simp] theorem modGroup_obs : (modGroup s k g).obs = s.obs := rfl
@[simp] theorem modGroup_pcie : (modGroup s k g).pcie = s.pcie := rfl
@[simp] theorem modGroup_pending : (modGroup s k g).pending = s.pending := rfl
end

section
variable (k : ChanId) (g : LeChan → LeChan)
@[simp] theorem modLe_now : (modLe s k g).now = s.now := rfl
@[simp] theorem modLe_tbAdj : (modLe s k g).tbAdj = s.tbAdj := rfl
@[simp] theorem modLe_freeCtr : (modLe s k g).freeCtr = s.freeCtr := rfl
@[simp] theorem modLe_nextId : (modLe s k g).nextId = s.nextId := rfl
@[simp] theorem modLe_testMode : (modLe s k g).testMode = s.testMode := rfl
@[simp] theorem modLe_part : (modLe s k g).part = s.part := rfl
@[simp] theorem modLe_mem : (modLe s k g).mem = s.mem := rfl
@[simp] theorem modLe_ecc : (modLe s k g).ecc = s.ecc := rfl
@[simp] theorem modLe_flash : (modLe s k g).flash = s.flash := rfl
@[simp] theorem modLe_boot : (modLe s k g).boot = s.boot := rfl
@[simp] theorem modLe_stg : (modLe s k g).stg = s.stg := rfl
@[simp] theorem modLe_stgBase : (modLe s k g).stgBase = s.stgBase := rfl
@[simp] theorem modLe_stgSize : (modLe s k g).stgSize = s.stgSize := rfl
@[simp] theorem modLe_fuses : (modLe s k g).fuses = s.fuses := rfl
@[simp] theorem modLe_session : (modLe s k g).session = s.session := rfl
@[simp] theorem modLe_sec : (modLe s k g).sec = s.sec := rfl
@[simp] theorem modLe_tap : (modLe s k g).tap = s.tap := rfl
@[simp] theorem modLe_power : (modLe s k g).power = s.power := rfl
@[simp] theorem modLe_timing : (modLe s k g).timing = s.timing := rfl
@[simp] theorem modLe_fronds : (modLe s k g).fronds = s.fronds := rfl
@[simp] theorem modLe_builder : (modLe s k g).builder = s.builder := rfl
@[simp] theorem modLe_parts : (modLe s k g).parts = s.parts := rfl
@[simp] theorem modLe_programs : (modLe s k g).programs = s.programs := rfl
@[simp] theorem modLe_entries : (modLe s k g).entries = s.entries := rfl
@[simp] theorem modLe_deadQueues : (modLe s k g).deadQueues = s.deadQueues := rfl
@[simp] theorem modLe_popped : (modLe s k g).popped = s.popped := rfl
@[simp] theorem modLe_jobs : (modLe s k g).jobs = s.jobs := rfl
@[simp] theorem modLe_ringQ : (modLe s k g).ringQ = s.ringQ := rfl
@[simp] theorem modLe_rings : (modLe s k g).rings = s.rings := rfl
@[simp] theorem modLe_hearth : (modLe s k g).hearth = s.hearth := rfl
@[simp] theorem modLe_fabric : (modLe s k g).fabric = s.fabric := rfl
@[simp] theorem modLe_links : (modLe s k g).links = s.links := rfl
@[simp] theorem modLe_tree : (modLe s k g).tree = s.tree := rfl
@[simp] theorem modLe_obs : (modLe s k g).obs = s.obs := rfl
@[simp] theorem modLe_pcie : (modLe s k g).pcie = s.pcie := rfl
@[simp] theorem modLe_pending : (modLe s k g).pending = s.pending := rfl
end

section
variable (l : LinkId) (g : Link → Link)
@[simp] theorem modLink_now : (modLink s l g).now = s.now := rfl
@[simp] theorem modLink_tbAdj : (modLink s l g).tbAdj = s.tbAdj := rfl
@[simp] theorem modLink_freeCtr : (modLink s l g).freeCtr = s.freeCtr := rfl
@[simp] theorem modLink_nextId : (modLink s l g).nextId = s.nextId := rfl
@[simp] theorem modLink_testMode : (modLink s l g).testMode = s.testMode := rfl
@[simp] theorem modLink_part : (modLink s l g).part = s.part := rfl
@[simp] theorem modLink_mem : (modLink s l g).mem = s.mem := rfl
@[simp] theorem modLink_ecc : (modLink s l g).ecc = s.ecc := rfl
@[simp] theorem modLink_flash : (modLink s l g).flash = s.flash := rfl
@[simp] theorem modLink_boot : (modLink s l g).boot = s.boot := rfl
@[simp] theorem modLink_stg : (modLink s l g).stg = s.stg := rfl
@[simp] theorem modLink_stgBase : (modLink s l g).stgBase = s.stgBase := rfl
@[simp] theorem modLink_stgSize : (modLink s l g).stgSize = s.stgSize := rfl
@[simp] theorem modLink_fuses : (modLink s l g).fuses = s.fuses := rfl
@[simp] theorem modLink_session : (modLink s l g).session = s.session := rfl
@[simp] theorem modLink_sec : (modLink s l g).sec = s.sec := rfl
@[simp] theorem modLink_tap : (modLink s l g).tap = s.tap := rfl
@[simp] theorem modLink_power : (modLink s l g).power = s.power := rfl
@[simp] theorem modLink_timing : (modLink s l g).timing = s.timing := rfl
@[simp] theorem modLink_le : (modLink s l g).le = s.le := rfl
@[simp] theorem modLink_fronds : (modLink s l g).fronds = s.fronds := rfl
@[simp] theorem modLink_builder : (modLink s l g).builder = s.builder := rfl
@[simp] theorem modLink_parts : (modLink s l g).parts = s.parts := rfl
@[simp] theorem modLink_programs : (modLink s l g).programs = s.programs := rfl
@[simp] theorem modLink_entries : (modLink s l g).entries = s.entries := rfl
@[simp] theorem modLink_deadQueues : (modLink s l g).deadQueues = s.deadQueues := rfl
@[simp] theorem modLink_popped : (modLink s l g).popped = s.popped := rfl
@[simp] theorem modLink_jobs : (modLink s l g).jobs = s.jobs := rfl
@[simp] theorem modLink_ringQ : (modLink s l g).ringQ = s.ringQ := rfl
@[simp] theorem modLink_rings : (modLink s l g).rings = s.rings := rfl
@[simp] theorem modLink_hearth : (modLink s l g).hearth = s.hearth := rfl
@[simp] theorem modLink_fabric : (modLink s l g).fabric = s.fabric := rfl
@[simp] theorem modLink_tree : (modLink s l g).tree = s.tree := rfl
@[simp] theorem modLink_obs : (modLink s l g).obs = s.obs := rfl
@[simp] theorem modLink_pcie : (modLink s l g).pcie = s.pcie := rfl
@[simp] theorem modLink_pending : (modLink s l g).pending = s.pending := rfl
end

section
variable (r : RingId) (g : Ring → Ring)
@[simp] theorem modRing_now : (modRing s r g).now = s.now := rfl
@[simp] theorem modRing_tbAdj : (modRing s r g).tbAdj = s.tbAdj := rfl
@[simp] theorem modRing_freeCtr : (modRing s r g).freeCtr = s.freeCtr := rfl
@[simp] theorem modRing_nextId : (modRing s r g).nextId = s.nextId := rfl
@[simp] theorem modRing_testMode : (modRing s r g).testMode = s.testMode := rfl
@[simp] theorem modRing_part : (modRing s r g).part = s.part := rfl
@[simp] theorem modRing_mem : (modRing s r g).mem = s.mem := rfl
@[simp] theorem modRing_ecc : (modRing s r g).ecc = s.ecc := rfl
@[simp] theorem modRing_flash : (modRing s r g).flash = s.flash := rfl
@[simp] theorem modRing_boot : (modRing s r g).boot = s.boot := rfl
@[simp] theorem modRing_stg : (modRing s r g).stg = s.stg := rfl
@[simp] theorem modRing_stgBase : (modRing s r g).stgBase = s.stgBase := rfl
@[simp] theorem modRing_stgSize : (modRing s r g).stgSize = s.stgSize := rfl
@[simp] theorem modRing_fuses : (modRing s r g).fuses = s.fuses := rfl
@[simp] theorem modRing_session : (modRing s r g).session = s.session := rfl
@[simp] theorem modRing_sec : (modRing s r g).sec = s.sec := rfl
@[simp] theorem modRing_tap : (modRing s r g).tap = s.tap := rfl
@[simp] theorem modRing_power : (modRing s r g).power = s.power := rfl
@[simp] theorem modRing_timing : (modRing s r g).timing = s.timing := rfl
@[simp] theorem modRing_le : (modRing s r g).le = s.le := rfl
@[simp] theorem modRing_fronds : (modRing s r g).fronds = s.fronds := rfl
@[simp] theorem modRing_builder : (modRing s r g).builder = s.builder := rfl
@[simp] theorem modRing_parts : (modRing s r g).parts = s.parts := rfl
@[simp] theorem modRing_programs : (modRing s r g).programs = s.programs := rfl
@[simp] theorem modRing_entries : (modRing s r g).entries = s.entries := rfl
@[simp] theorem modRing_deadQueues : (modRing s r g).deadQueues = s.deadQueues := rfl
@[simp] theorem modRing_popped : (modRing s r g).popped = s.popped := rfl
@[simp] theorem modRing_jobs : (modRing s r g).jobs = s.jobs := rfl
@[simp] theorem modRing_ringQ : (modRing s r g).ringQ = s.ringQ := rfl
@[simp] theorem modRing_hearth : (modRing s r g).hearth = s.hearth := rfl
@[simp] theorem modRing_fabric : (modRing s r g).fabric = s.fabric := rfl
@[simp] theorem modRing_links : (modRing s r g).links = s.links := rfl
@[simp] theorem modRing_tree : (modRing s r g).tree = s.tree := rfl
@[simp] theorem modRing_obs : (modRing s r g).obs = s.obs := rfl
@[simp] theorem modRing_pcie : (modRing s r g).pcie = s.pcie := rfl
@[simp] theorem modRing_pending : (modRing s r g).pending = s.pending := rfl
end

section
variable (p : Fin 21) (g : Port → Port)
@[simp] theorem modPort_now : (modPort s p g).now = s.now := rfl
@[simp] theorem modPort_tbAdj : (modPort s p g).tbAdj = s.tbAdj := rfl
@[simp] theorem modPort_freeCtr : (modPort s p g).freeCtr = s.freeCtr := rfl
@[simp] theorem modPort_nextId : (modPort s p g).nextId = s.nextId := rfl
@[simp] theorem modPort_testMode : (modPort s p g).testMode = s.testMode := rfl
@[simp] theorem modPort_part : (modPort s p g).part = s.part := rfl
@[simp] theorem modPort_mem : (modPort s p g).mem = s.mem := rfl
@[simp] theorem modPort_ecc : (modPort s p g).ecc = s.ecc := rfl
@[simp] theorem modPort_flash : (modPort s p g).flash = s.flash := rfl
@[simp] theorem modPort_boot : (modPort s p g).boot = s.boot := rfl
@[simp] theorem modPort_stg : (modPort s p g).stg = s.stg := rfl
@[simp] theorem modPort_stgBase : (modPort s p g).stgBase = s.stgBase := rfl
@[simp] theorem modPort_stgSize : (modPort s p g).stgSize = s.stgSize := rfl
@[simp] theorem modPort_fuses : (modPort s p g).fuses = s.fuses := rfl
@[simp] theorem modPort_session : (modPort s p g).session = s.session := rfl
@[simp] theorem modPort_sec : (modPort s p g).sec = s.sec := rfl
@[simp] theorem modPort_tap : (modPort s p g).tap = s.tap := rfl
@[simp] theorem modPort_power : (modPort s p g).power = s.power := rfl
@[simp] theorem modPort_timing : (modPort s p g).timing = s.timing := rfl
@[simp] theorem modPort_le : (modPort s p g).le = s.le := rfl
@[simp] theorem modPort_fronds : (modPort s p g).fronds = s.fronds := rfl
@[simp] theorem modPort_builder : (modPort s p g).builder = s.builder := rfl
@[simp] theorem modPort_parts : (modPort s p g).parts = s.parts := rfl
@[simp] theorem modPort_programs : (modPort s p g).programs = s.programs := rfl
@[simp] theorem modPort_entries : (modPort s p g).entries = s.entries := rfl
@[simp] theorem modPort_deadQueues : (modPort s p g).deadQueues = s.deadQueues := rfl
@[simp] theorem modPort_popped : (modPort s p g).popped = s.popped := rfl
@[simp] theorem modPort_jobs : (modPort s p g).jobs = s.jobs := rfl
@[simp] theorem modPort_ringQ : (modPort s p g).ringQ = s.ringQ := rfl
@[simp] theorem modPort_rings : (modPort s p g).rings = s.rings := rfl
@[simp] theorem modPort_hearth : (modPort s p g).hearth = s.hearth := rfl
@[simp] theorem modPort_links : (modPort s p g).links = s.links := rfl
@[simp] theorem modPort_tree : (modPort s p g).tree = s.tree := rfl
@[simp] theorem modPort_obs : (modPort s p g).obs = s.obs := rfl
@[simp] theorem modPort_pcie : (modPort s p g).pcie = s.pcie := rfl
@[simp] theorem modPort_pending : (modPort s p g).pending = s.pending := rfl
end

section
variable (p : PartId) (g : Pcnt → Pcnt)
@[simp] theorem modPcnt_now : (modPcnt s p g).now = s.now := rfl
@[simp] theorem modPcnt_tbAdj : (modPcnt s p g).tbAdj = s.tbAdj := rfl
@[simp] theorem modPcnt_freeCtr : (modPcnt s p g).freeCtr = s.freeCtr := rfl
@[simp] theorem modPcnt_nextId : (modPcnt s p g).nextId = s.nextId := rfl
@[simp] theorem modPcnt_testMode : (modPcnt s p g).testMode = s.testMode := rfl
@[simp] theorem modPcnt_part : (modPcnt s p g).part = s.part := rfl
@[simp] theorem modPcnt_mem : (modPcnt s p g).mem = s.mem := rfl
@[simp] theorem modPcnt_ecc : (modPcnt s p g).ecc = s.ecc := rfl
@[simp] theorem modPcnt_flash : (modPcnt s p g).flash = s.flash := rfl
@[simp] theorem modPcnt_boot : (modPcnt s p g).boot = s.boot := rfl
@[simp] theorem modPcnt_stg : (modPcnt s p g).stg = s.stg := rfl
@[simp] theorem modPcnt_stgBase : (modPcnt s p g).stgBase = s.stgBase := rfl
@[simp] theorem modPcnt_stgSize : (modPcnt s p g).stgSize = s.stgSize := rfl
@[simp] theorem modPcnt_fuses : (modPcnt s p g).fuses = s.fuses := rfl
@[simp] theorem modPcnt_session : (modPcnt s p g).session = s.session := rfl
@[simp] theorem modPcnt_sec : (modPcnt s p g).sec = s.sec := rfl
@[simp] theorem modPcnt_tap : (modPcnt s p g).tap = s.tap := rfl
@[simp] theorem modPcnt_power : (modPcnt s p g).power = s.power := rfl
@[simp] theorem modPcnt_timing : (modPcnt s p g).timing = s.timing := rfl
@[simp] theorem modPcnt_le : (modPcnt s p g).le = s.le := rfl
@[simp] theorem modPcnt_fronds : (modPcnt s p g).fronds = s.fronds := rfl
@[simp] theorem modPcnt_builder : (modPcnt s p g).builder = s.builder := rfl
@[simp] theorem modPcnt_parts : (modPcnt s p g).parts = s.parts := rfl
@[simp] theorem modPcnt_programs : (modPcnt s p g).programs = s.programs := rfl
@[simp] theorem modPcnt_entries : (modPcnt s p g).entries = s.entries := rfl
@[simp] theorem modPcnt_deadQueues : (modPcnt s p g).deadQueues = s.deadQueues := rfl
@[simp] theorem modPcnt_popped : (modPcnt s p g).popped = s.popped := rfl
@[simp] theorem modPcnt_jobs : (modPcnt s p g).jobs = s.jobs := rfl
@[simp] theorem modPcnt_ringQ : (modPcnt s p g).ringQ = s.ringQ := rfl
@[simp] theorem modPcnt_rings : (modPcnt s p g).rings = s.rings := rfl
@[simp] theorem modPcnt_hearth : (modPcnt s p g).hearth = s.hearth := rfl
@[simp] theorem modPcnt_fabric : (modPcnt s p g).fabric = s.fabric := rfl
@[simp] theorem modPcnt_links : (modPcnt s p g).links = s.links := rfl
@[simp] theorem modPcnt_tree : (modPcnt s p g).tree = s.tree := rfl
@[simp] theorem modPcnt_pcie : (modPcnt s p g).pcie = s.pcie := rfl
@[simp] theorem modPcnt_pending : (modPcnt s p g).pending = s.pending := rfl
end

section
variable (f : FrondId) (g : Fcnt → Fcnt)
@[simp] theorem modFcnt_now : (modFcnt s f g).now = s.now := rfl
@[simp] theorem modFcnt_tbAdj : (modFcnt s f g).tbAdj = s.tbAdj := rfl
@[simp] theorem modFcnt_freeCtr : (modFcnt s f g).freeCtr = s.freeCtr := rfl
@[simp] theorem modFcnt_nextId : (modFcnt s f g).nextId = s.nextId := rfl
@[simp] theorem modFcnt_testMode : (modFcnt s f g).testMode = s.testMode := rfl
@[simp] theorem modFcnt_part : (modFcnt s f g).part = s.part := rfl
@[simp] theorem modFcnt_mem : (modFcnt s f g).mem = s.mem := rfl
@[simp] theorem modFcnt_ecc : (modFcnt s f g).ecc = s.ecc := rfl
@[simp] theorem modFcnt_flash : (modFcnt s f g).flash = s.flash := rfl
@[simp] theorem modFcnt_boot : (modFcnt s f g).boot = s.boot := rfl
@[simp] theorem modFcnt_stg : (modFcnt s f g).stg = s.stg := rfl
@[simp] theorem modFcnt_stgBase : (modFcnt s f g).stgBase = s.stgBase := rfl
@[simp] theorem modFcnt_stgSize : (modFcnt s f g).stgSize = s.stgSize := rfl
@[simp] theorem modFcnt_fuses : (modFcnt s f g).fuses = s.fuses := rfl
@[simp] theorem modFcnt_session : (modFcnt s f g).session = s.session := rfl
@[simp] theorem modFcnt_sec : (modFcnt s f g).sec = s.sec := rfl
@[simp] theorem modFcnt_tap : (modFcnt s f g).tap = s.tap := rfl
@[simp] theorem modFcnt_power : (modFcnt s f g).power = s.power := rfl
@[simp] theorem modFcnt_timing : (modFcnt s f g).timing = s.timing := rfl
@[simp] theorem modFcnt_le : (modFcnt s f g).le = s.le := rfl
@[simp] theorem modFcnt_fronds : (modFcnt s f g).fronds = s.fronds := rfl
@[simp] theorem modFcnt_builder : (modFcnt s f g).builder = s.builder := rfl
@[simp] theorem modFcnt_parts : (modFcnt s f g).parts = s.parts := rfl
@[simp] theorem modFcnt_programs : (modFcnt s f g).programs = s.programs := rfl
@[simp] theorem modFcnt_entries : (modFcnt s f g).entries = s.entries := rfl
@[simp] theorem modFcnt_deadQueues : (modFcnt s f g).deadQueues = s.deadQueues := rfl
@[simp] theorem modFcnt_popped : (modFcnt s f g).popped = s.popped := rfl
@[simp] theorem modFcnt_jobs : (modFcnt s f g).jobs = s.jobs := rfl
@[simp] theorem modFcnt_ringQ : (modFcnt s f g).ringQ = s.ringQ := rfl
@[simp] theorem modFcnt_rings : (modFcnt s f g).rings = s.rings := rfl
@[simp] theorem modFcnt_hearth : (modFcnt s f g).hearth = s.hearth := rfl
@[simp] theorem modFcnt_fabric : (modFcnt s f g).fabric = s.fabric := rfl
@[simp] theorem modFcnt_links : (modFcnt s f g).links = s.links := rfl
@[simp] theorem modFcnt_tree : (modFcnt s f g).tree = s.tree := rfl
@[simp] theorem modFcnt_pcie : (modFcnt s f g).pcie = s.pcie := rfl
@[simp] theorem modFcnt_pending : (modFcnt s f g).pending = s.pending := rfl
end

section
variable (g : Dcnt → Dcnt)
@[simp] theorem modDcnt_now : (modDcnt s g).now = s.now := rfl
@[simp] theorem modDcnt_tbAdj : (modDcnt s g).tbAdj = s.tbAdj := rfl
@[simp] theorem modDcnt_freeCtr : (modDcnt s g).freeCtr = s.freeCtr := rfl
@[simp] theorem modDcnt_nextId : (modDcnt s g).nextId = s.nextId := rfl
@[simp] theorem modDcnt_testMode : (modDcnt s g).testMode = s.testMode := rfl
@[simp] theorem modDcnt_part : (modDcnt s g).part = s.part := rfl
@[simp] theorem modDcnt_mem : (modDcnt s g).mem = s.mem := rfl
@[simp] theorem modDcnt_ecc : (modDcnt s g).ecc = s.ecc := rfl
@[simp] theorem modDcnt_flash : (modDcnt s g).flash = s.flash := rfl
@[simp] theorem modDcnt_boot : (modDcnt s g).boot = s.boot := rfl
@[simp] theorem modDcnt_stg : (modDcnt s g).stg = s.stg := rfl
@[simp] theorem modDcnt_stgBase : (modDcnt s g).stgBase = s.stgBase := rfl
@[simp] theorem modDcnt_stgSize : (modDcnt s g).stgSize = s.stgSize := rfl
@[simp] theorem modDcnt_fuses : (modDcnt s g).fuses = s.fuses := rfl
@[simp] theorem modDcnt_session : (modDcnt s g).session = s.session := rfl
@[simp] theorem modDcnt_sec : (modDcnt s g).sec = s.sec := rfl
@[simp] theorem modDcnt_tap : (modDcnt s g).tap = s.tap := rfl
@[simp] theorem modDcnt_power : (modDcnt s g).power = s.power := rfl
@[simp] theorem modDcnt_timing : (modDcnt s g).timing = s.timing := rfl
@[simp] theorem modDcnt_le : (modDcnt s g).le = s.le := rfl
@[simp] theorem modDcnt_fronds : (modDcnt s g).fronds = s.fronds := rfl
@[simp] theorem modDcnt_builder : (modDcnt s g).builder = s.builder := rfl
@[simp] theorem modDcnt_parts : (modDcnt s g).parts = s.parts := rfl
@[simp] theorem modDcnt_programs : (modDcnt s g).programs = s.programs := rfl
@[simp] theorem modDcnt_entries : (modDcnt s g).entries = s.entries := rfl
@[simp] theorem modDcnt_deadQueues : (modDcnt s g).deadQueues = s.deadQueues := rfl
@[simp] theorem modDcnt_popped : (modDcnt s g).popped = s.popped := rfl
@[simp] theorem modDcnt_jobs : (modDcnt s g).jobs = s.jobs := rfl
@[simp] theorem modDcnt_ringQ : (modDcnt s g).ringQ = s.ringQ := rfl
@[simp] theorem modDcnt_rings : (modDcnt s g).rings = s.rings := rfl
@[simp] theorem modDcnt_hearth : (modDcnt s g).hearth = s.hearth := rfl
@[simp] theorem modDcnt_fabric : (modDcnt s g).fabric = s.fabric := rfl
@[simp] theorem modDcnt_links : (modDcnt s g).links = s.links := rfl
@[simp] theorem modDcnt_tree : (modDcnt s g).tree = s.tree := rfl
@[simp] theorem modDcnt_pcie : (modDcnt s g).pcie = s.pcie := rfl
@[simp] theorem modDcnt_pending : (modDcnt s g).pending = s.pending := rfl
end

section
variable (g : Tree → Tree)
@[simp] theorem modTree_tree : (modTree s g).tree = g s.tree := rfl
@[simp] theorem modTree_now : (modTree s g).now = s.now := rfl
@[simp] theorem modTree_tbAdj : (modTree s g).tbAdj = s.tbAdj := rfl
@[simp] theorem modTree_freeCtr : (modTree s g).freeCtr = s.freeCtr := rfl
@[simp] theorem modTree_nextId : (modTree s g).nextId = s.nextId := rfl
@[simp] theorem modTree_testMode : (modTree s g).testMode = s.testMode := rfl
@[simp] theorem modTree_part : (modTree s g).part = s.part := rfl
@[simp] theorem modTree_mem : (modTree s g).mem = s.mem := rfl
@[simp] theorem modTree_ecc : (modTree s g).ecc = s.ecc := rfl
@[simp] theorem modTree_flash : (modTree s g).flash = s.flash := rfl
@[simp] theorem modTree_boot : (modTree s g).boot = s.boot := rfl
@[simp] theorem modTree_stg : (modTree s g).stg = s.stg := rfl
@[simp] theorem modTree_stgBase : (modTree s g).stgBase = s.stgBase := rfl
@[simp] theorem modTree_stgSize : (modTree s g).stgSize = s.stgSize := rfl
@[simp] theorem modTree_fuses : (modTree s g).fuses = s.fuses := rfl
@[simp] theorem modTree_session : (modTree s g).session = s.session := rfl
@[simp] theorem modTree_sec : (modTree s g).sec = s.sec := rfl
@[simp] theorem modTree_tap : (modTree s g).tap = s.tap := rfl
@[simp] theorem modTree_power : (modTree s g).power = s.power := rfl
@[simp] theorem modTree_timing : (modTree s g).timing = s.timing := rfl
@[simp] theorem modTree_le : (modTree s g).le = s.le := rfl
@[simp] theorem modTree_fronds : (modTree s g).fronds = s.fronds := rfl
@[simp] theorem modTree_builder : (modTree s g).builder = s.builder := rfl
@[simp] theorem modTree_parts : (modTree s g).parts = s.parts := rfl
@[simp] theorem modTree_programs : (modTree s g).programs = s.programs := rfl
@[simp] theorem modTree_entries : (modTree s g).entries = s.entries := rfl
@[simp] theorem modTree_deadQueues : (modTree s g).deadQueues = s.deadQueues := rfl
@[simp] theorem modTree_popped : (modTree s g).popped = s.popped := rfl
@[simp] theorem modTree_jobs : (modTree s g).jobs = s.jobs := rfl
@[simp] theorem modTree_ringQ : (modTree s g).ringQ = s.ringQ := rfl
@[simp] theorem modTree_rings : (modTree s g).rings = s.rings := rfl
@[simp] theorem modTree_hearth : (modTree s g).hearth = s.hearth := rfl
@[simp] theorem modTree_fabric : (modTree s g).fabric = s.fabric := rfl
@[simp] theorem modTree_links : (modTree s g).links = s.links := rfl
@[simp] theorem modTree_obs : (modTree s g).obs = s.obs := rfl
@[simp] theorem modTree_pcie : (modTree s g).pcie = s.pcie := rfl
@[simp] theorem modTree_pending : (modTree s g).pending = s.pending := rfl
end

section
variable (g : Fabric → Fabric)
@[simp] theorem modFabric_fabric : (modFabric s g).fabric = g s.fabric := rfl
@[simp] theorem modFabric_now : (modFabric s g).now = s.now := rfl
@[simp] theorem modFabric_tbAdj : (modFabric s g).tbAdj = s.tbAdj := rfl
@[simp] theorem modFabric_freeCtr : (modFabric s g).freeCtr = s.freeCtr := rfl
@[simp] theorem modFabric_nextId : (modFabric s g).nextId = s.nextId := rfl
@[simp] theorem modFabric_testMode : (modFabric s g).testMode = s.testMode := rfl
@[simp] theorem modFabric_part : (modFabric s g).part = s.part := rfl
@[simp] theorem modFabric_mem : (modFabric s g).mem = s.mem := rfl
@[simp] theorem modFabric_ecc : (modFabric s g).ecc = s.ecc := rfl
@[simp] theorem modFabric_flash : (modFabric s g).flash = s.flash := rfl
@[simp] theorem modFabric_boot : (modFabric s g).boot = s.boot := rfl
@[simp] theorem modFabric_stg : (modFabric s g).stg = s.stg := rfl
@[simp] theorem modFabric_stgBase : (modFabric s g).stgBase = s.stgBase := rfl
@[simp] theorem modFabric_stgSize : (modFabric s g).stgSize = s.stgSize := rfl
@[simp] theorem modFabric_fuses : (modFabric s g).fuses = s.fuses := rfl
@[simp] theorem modFabric_session : (modFabric s g).session = s.session := rfl
@[simp] theorem modFabric_sec : (modFabric s g).sec = s.sec := rfl
@[simp] theorem modFabric_tap : (modFabric s g).tap = s.tap := rfl
@[simp] theorem modFabric_power : (modFabric s g).power = s.power := rfl
@[simp] theorem modFabric_timing : (modFabric s g).timing = s.timing := rfl
@[simp] theorem modFabric_le : (modFabric s g).le = s.le := rfl
@[simp] theorem modFabric_fronds : (modFabric s g).fronds = s.fronds := rfl
@[simp] theorem modFabric_builder : (modFabric s g).builder = s.builder := rfl
@[simp] theorem modFabric_parts : (modFabric s g).parts = s.parts := rfl
@[simp] theorem modFabric_programs : (modFabric s g).programs = s.programs := rfl
@[simp] theorem modFabric_entries : (modFabric s g).entries = s.entries := rfl
@[simp] theorem modFabric_deadQueues : (modFabric s g).deadQueues = s.deadQueues := rfl
@[simp] theorem modFabric_popped : (modFabric s g).popped = s.popped := rfl
@[simp] theorem modFabric_jobs : (modFabric s g).jobs = s.jobs := rfl
@[simp] theorem modFabric_ringQ : (modFabric s g).ringQ = s.ringQ := rfl
@[simp] theorem modFabric_rings : (modFabric s g).rings = s.rings := rfl
@[simp] theorem modFabric_hearth : (modFabric s g).hearth = s.hearth := rfl
@[simp] theorem modFabric_links : (modFabric s g).links = s.links := rfl
@[simp] theorem modFabric_tree : (modFabric s g).tree = s.tree := rfl
@[simp] theorem modFabric_obs : (modFabric s g).obs = s.obs := rfl
@[simp] theorem modFabric_pcie : (modFabric s g).pcie = s.pcie := rfl
@[simp] theorem modFabric_pending : (modFabric s g).pending = s.pending := rfl
end

section
variable (g : Obs → Obs)
@[simp] theorem modObs_obs : (modObs s g).obs = g s.obs := rfl
@[simp] theorem modObs_now : (modObs s g).now = s.now := rfl
@[simp] theorem modObs_tbAdj : (modObs s g).tbAdj = s.tbAdj := rfl
@[simp] theorem modObs_freeCtr : (modObs s g).freeCtr = s.freeCtr := rfl
@[simp] theorem modObs_nextId : (modObs s g).nextId = s.nextId := rfl
@[simp] theorem modObs_testMode : (modObs s g).testMode = s.testMode := rfl
@[simp] theorem modObs_part : (modObs s g).part = s.part := rfl
@[simp] theorem modObs_mem : (modObs s g).mem = s.mem := rfl
@[simp] theorem modObs_ecc : (modObs s g).ecc = s.ecc := rfl
@[simp] theorem modObs_flash : (modObs s g).flash = s.flash := rfl
@[simp] theorem modObs_boot : (modObs s g).boot = s.boot := rfl
@[simp] theorem modObs_stg : (modObs s g).stg = s.stg := rfl
@[simp] theorem modObs_stgBase : (modObs s g).stgBase = s.stgBase := rfl
@[simp] theorem modObs_stgSize : (modObs s g).stgSize = s.stgSize := rfl
@[simp] theorem modObs_fuses : (modObs s g).fuses = s.fuses := rfl
@[simp] theorem modObs_session : (modObs s g).session = s.session := rfl
@[simp] theorem modObs_sec : (modObs s g).sec = s.sec := rfl
@[simp] theorem modObs_tap : (modObs s g).tap = s.tap := rfl
@[simp] theorem modObs_power : (modObs s g).power = s.power := rfl
@[simp] theorem modObs_timing : (modObs s g).timing = s.timing := rfl
@[simp] theorem modObs_le : (modObs s g).le = s.le := rfl
@[simp] theorem modObs_fronds : (modObs s g).fronds = s.fronds := rfl
@[simp] theorem modObs_builder : (modObs s g).builder = s.builder := rfl
@[simp] theorem modObs_parts : (modObs s g).parts = s.parts := rfl
@[simp] theorem modObs_programs : (modObs s g).programs = s.programs := rfl
@[simp] theorem modObs_entries : (modObs s g).entries = s.entries := rfl
@[simp] theorem modObs_deadQueues : (modObs s g).deadQueues = s.deadQueues := rfl
@[simp] theorem modObs_popped : (modObs s g).popped = s.popped := rfl
@[simp] theorem modObs_jobs : (modObs s g).jobs = s.jobs := rfl
@[simp] theorem modObs_ringQ : (modObs s g).ringQ = s.ringQ := rfl
@[simp] theorem modObs_rings : (modObs s g).rings = s.rings := rfl
@[simp] theorem modObs_hearth : (modObs s g).hearth = s.hearth := rfl
@[simp] theorem modObs_fabric : (modObs s g).fabric = s.fabric := rfl
@[simp] theorem modObs_links : (modObs s g).links = s.links := rfl
@[simp] theorem modObs_tree : (modObs s g).tree = s.tree := rfl
@[simp] theorem modObs_pcie : (modObs s g).pcie = s.pcie := rfl
@[simp] theorem modObs_pending : (modObs s g).pending = s.pending := rfl
end

section
variable (g : Boot → Boot)
@[simp] theorem modBoot_boot : (modBoot s g).boot = g s.boot := rfl
@[simp] theorem modBoot_now : (modBoot s g).now = s.now := rfl
@[simp] theorem modBoot_tbAdj : (modBoot s g).tbAdj = s.tbAdj := rfl
@[simp] theorem modBoot_freeCtr : (modBoot s g).freeCtr = s.freeCtr := rfl
@[simp] theorem modBoot_nextId : (modBoot s g).nextId = s.nextId := rfl
@[simp] theorem modBoot_testMode : (modBoot s g).testMode = s.testMode := rfl
@[simp] theorem modBoot_part : (modBoot s g).part = s.part := rfl
@[simp] theorem modBoot_mem : (modBoot s g).mem = s.mem := rfl
@[simp] theorem modBoot_ecc : (modBoot s g).ecc = s.ecc := rfl
@[simp] theorem modBoot_flash : (modBoot s g).flash = s.flash := rfl
@[simp] theorem modBoot_stg : (modBoot s g).stg = s.stg := rfl
@[simp] theorem modBoot_stgBase : (modBoot s g).stgBase = s.stgBase := rfl
@[simp] theorem modBoot_stgSize : (modBoot s g).stgSize = s.stgSize := rfl
@[simp] theorem modBoot_fuses : (modBoot s g).fuses = s.fuses := rfl
@[simp] theorem modBoot_session : (modBoot s g).session = s.session := rfl
@[simp] theorem modBoot_sec : (modBoot s g).sec = s.sec := rfl
@[simp] theorem modBoot_tap : (modBoot s g).tap = s.tap := rfl
@[simp] theorem modBoot_power : (modBoot s g).power = s.power := rfl
@[simp] theorem modBoot_timing : (modBoot s g).timing = s.timing := rfl
@[simp] theorem modBoot_le : (modBoot s g).le = s.le := rfl
@[simp] theorem modBoot_fronds : (modBoot s g).fronds = s.fronds := rfl
@[simp] theorem modBoot_builder : (modBoot s g).builder = s.builder := rfl
@[simp] theorem modBoot_parts : (modBoot s g).parts = s.parts := rfl
@[simp] theorem modBoot_programs : (modBoot s g).programs = s.programs := rfl
@[simp] theorem modBoot_entries : (modBoot s g).entries = s.entries := rfl
@[simp] theorem modBoot_deadQueues : (modBoot s g).deadQueues = s.deadQueues := rfl
@[simp] theorem modBoot_popped : (modBoot s g).popped = s.popped := rfl
@[simp] theorem modBoot_jobs : (modBoot s g).jobs = s.jobs := rfl
@[simp] theorem modBoot_ringQ : (modBoot s g).ringQ = s.ringQ := rfl
@[simp] theorem modBoot_rings : (modBoot s g).rings = s.rings := rfl
@[simp] theorem modBoot_hearth : (modBoot s g).hearth = s.hearth := rfl
@[simp] theorem modBoot_fabric : (modBoot s g).fabric = s.fabric := rfl
@[simp] theorem modBoot_links : (modBoot s g).links = s.links := rfl
@[simp] theorem modBoot_tree : (modBoot s g).tree = s.tree := rfl
@[simp] theorem modBoot_obs : (modBoot s g).obs = s.obs := rfl
@[simp] theorem modBoot_pcie : (modBoot s g).pcie = s.pcie := rfl
@[simp] theorem modBoot_pending : (modBoot s g).pending = s.pending := rfl
end

section
variable (g : Power → Power)
@[simp] theorem modPower_power : (modPower s g).power = g s.power := rfl
@[simp] theorem modPower_now : (modPower s g).now = s.now := rfl
@[simp] theorem modPower_tbAdj : (modPower s g).tbAdj = s.tbAdj := rfl
@[simp] theorem modPower_freeCtr : (modPower s g).freeCtr = s.freeCtr := rfl
@[simp] theorem modPower_nextId : (modPower s g).nextId = s.nextId := rfl
@[simp] theorem modPower_testMode : (modPower s g).testMode = s.testMode := rfl
@[simp] theorem modPower_part : (modPower s g).part = s.part := rfl
@[simp] theorem modPower_mem : (modPower s g).mem = s.mem := rfl
@[simp] theorem modPower_ecc : (modPower s g).ecc = s.ecc := rfl
@[simp] theorem modPower_flash : (modPower s g).flash = s.flash := rfl
@[simp] theorem modPower_boot : (modPower s g).boot = s.boot := rfl
@[simp] theorem modPower_stg : (modPower s g).stg = s.stg := rfl
@[simp] theorem modPower_stgBase : (modPower s g).stgBase = s.stgBase := rfl
@[simp] theorem modPower_stgSize : (modPower s g).stgSize = s.stgSize := rfl
@[simp] theorem modPower_fuses : (modPower s g).fuses = s.fuses := rfl
@[simp] theorem modPower_session : (modPower s g).session = s.session := rfl
@[simp] theorem modPower_sec : (modPower s g).sec = s.sec := rfl
@[simp] theorem modPower_tap : (modPower s g).tap = s.tap := rfl
@[simp] theorem modPower_timing : (modPower s g).timing = s.timing := rfl
@[simp] theorem modPower_le : (modPower s g).le = s.le := rfl
@[simp] theorem modPower_fronds : (modPower s g).fronds = s.fronds := rfl
@[simp] theorem modPower_builder : (modPower s g).builder = s.builder := rfl
@[simp] theorem modPower_parts : (modPower s g).parts = s.parts := rfl
@[simp] theorem modPower_programs : (modPower s g).programs = s.programs := rfl
@[simp] theorem modPower_entries : (modPower s g).entries = s.entries := rfl
@[simp] theorem modPower_deadQueues : (modPower s g).deadQueues = s.deadQueues := rfl
@[simp] theorem modPower_popped : (modPower s g).popped = s.popped := rfl
@[simp] theorem modPower_jobs : (modPower s g).jobs = s.jobs := rfl
@[simp] theorem modPower_ringQ : (modPower s g).ringQ = s.ringQ := rfl
@[simp] theorem modPower_rings : (modPower s g).rings = s.rings := rfl
@[simp] theorem modPower_hearth : (modPower s g).hearth = s.hearth := rfl
@[simp] theorem modPower_fabric : (modPower s g).fabric = s.fabric := rfl
@[simp] theorem modPower_links : (modPower s g).links = s.links := rfl
@[simp] theorem modPower_tree : (modPower s g).tree = s.tree := rfl
@[simp] theorem modPower_obs : (modPower s g).obs = s.obs := rfl
@[simp] theorem modPower_pcie : (modPower s g).pcie = s.pcie := rfl
@[simp] theorem modPower_pending : (modPower s g).pending = s.pending := rfl
end

section
variable (g : Pcie → Pcie)
@[simp] theorem modPcie_pcie : (modPcie s g).pcie = g s.pcie := rfl
@[simp] theorem modPcie_now : (modPcie s g).now = s.now := rfl
@[simp] theorem modPcie_tbAdj : (modPcie s g).tbAdj = s.tbAdj := rfl
@[simp] theorem modPcie_freeCtr : (modPcie s g).freeCtr = s.freeCtr := rfl
@[simp] theorem modPcie_nextId : (modPcie s g).nextId = s.nextId := rfl
@[simp] theorem modPcie_testMode : (modPcie s g).testMode = s.testMode := rfl
@[simp] theorem modPcie_part : (modPcie s g).part = s.part := rfl
@[simp] theorem modPcie_mem : (modPcie s g).mem = s.mem := rfl
@[simp] theorem modPcie_ecc : (modPcie s g).ecc = s.ecc := rfl
@[simp] theorem modPcie_flash : (modPcie s g).flash = s.flash := rfl
@[simp] theorem modPcie_boot : (modPcie s g).boot = s.boot := rfl
@[simp] theorem modPcie_stg : (modPcie s g).stg = s.stg := rfl
@[simp] theorem modPcie_stgBase : (modPcie s g).stgBase = s.stgBase := rfl
@[simp] theorem modPcie_stgSize : (modPcie s g).stgSize = s.stgSize := rfl
@[simp] theorem modPcie_fuses : (modPcie s g).fuses = s.fuses := rfl
@[simp] theorem modPcie_session : (modPcie s g).session = s.session := rfl
@[simp] theorem modPcie_sec : (modPcie s g).sec = s.sec := rfl
@[simp] theorem modPcie_tap : (modPcie s g).tap = s.tap := rfl
@[simp] theorem modPcie_power : (modPcie s g).power = s.power := rfl
@[simp] theorem modPcie_timing : (modPcie s g).timing = s.timing := rfl
@[simp] theorem modPcie_le : (modPcie s g).le = s.le := rfl
@[simp] theorem modPcie_fronds : (modPcie s g).fronds = s.fronds := rfl
@[simp] theorem modPcie_builder : (modPcie s g).builder = s.builder := rfl
@[simp] theorem modPcie_parts : (modPcie s g).parts = s.parts := rfl
@[simp] theorem modPcie_programs : (modPcie s g).programs = s.programs := rfl
@[simp] theorem modPcie_entries : (modPcie s g).entries = s.entries := rfl
@[simp] theorem modPcie_deadQueues : (modPcie s g).deadQueues = s.deadQueues := rfl
@[simp] theorem modPcie_popped : (modPcie s g).popped = s.popped := rfl
@[simp] theorem modPcie_jobs : (modPcie s g).jobs = s.jobs := rfl
@[simp] theorem modPcie_ringQ : (modPcie s g).ringQ = s.ringQ := rfl
@[simp] theorem modPcie_rings : (modPcie s g).rings = s.rings := rfl
@[simp] theorem modPcie_hearth : (modPcie s g).hearth = s.hearth := rfl
@[simp] theorem modPcie_fabric : (modPcie s g).fabric = s.fabric := rfl
@[simp] theorem modPcie_links : (modPcie s g).links = s.links := rfl
@[simp] theorem modPcie_tree : (modPcie s g).tree = s.tree := rfl
@[simp] theorem modPcie_obs : (modPcie s g).obs = s.obs := rfl
@[simp] theorem modPcie_pending : (modPcie s g).pending = s.pending := rfl
end

section
variable (n : FnId) (g : Fn → Fn)
@[simp] theorem modFn_now : (modFn s n g).now = s.now := rfl
@[simp] theorem modFn_tbAdj : (modFn s n g).tbAdj = s.tbAdj := rfl
@[simp] theorem modFn_freeCtr : (modFn s n g).freeCtr = s.freeCtr := rfl
@[simp] theorem modFn_nextId : (modFn s n g).nextId = s.nextId := rfl
@[simp] theorem modFn_testMode : (modFn s n g).testMode = s.testMode := rfl
@[simp] theorem modFn_part : (modFn s n g).part = s.part := rfl
@[simp] theorem modFn_mem : (modFn s n g).mem = s.mem := rfl
@[simp] theorem modFn_ecc : (modFn s n g).ecc = s.ecc := rfl
@[simp] theorem modFn_flash : (modFn s n g).flash = s.flash := rfl
@[simp] theorem modFn_boot : (modFn s n g).boot = s.boot := rfl
@[simp] theorem modFn_stg : (modFn s n g).stg = s.stg := rfl
@[simp] theorem modFn_stgBase : (modFn s n g).stgBase = s.stgBase := rfl
@[simp] theorem modFn_stgSize : (modFn s n g).stgSize = s.stgSize := rfl
@[simp] theorem modFn_fuses : (modFn s n g).fuses = s.fuses := rfl
@[simp] theorem modFn_session : (modFn s n g).session = s.session := rfl
@[simp] theorem modFn_sec : (modFn s n g).sec = s.sec := rfl
@[simp] theorem modFn_tap : (modFn s n g).tap = s.tap := rfl
@[simp] theorem modFn_power : (modFn s n g).power = s.power := rfl
@[simp] theorem modFn_timing : (modFn s n g).timing = s.timing := rfl
@[simp] theorem modFn_le : (modFn s n g).le = s.le := rfl
@[simp] theorem modFn_fronds : (modFn s n g).fronds = s.fronds := rfl
@[simp] theorem modFn_builder : (modFn s n g).builder = s.builder := rfl
@[simp] theorem modFn_parts : (modFn s n g).parts = s.parts := rfl
@[simp] theorem modFn_programs : (modFn s n g).programs = s.programs := rfl
@[simp] theorem modFn_entries : (modFn s n g).entries = s.entries := rfl
@[simp] theorem modFn_deadQueues : (modFn s n g).deadQueues = s.deadQueues := rfl
@[simp] theorem modFn_popped : (modFn s n g).popped = s.popped := rfl
@[simp] theorem modFn_jobs : (modFn s n g).jobs = s.jobs := rfl
@[simp] theorem modFn_ringQ : (modFn s n g).ringQ = s.ringQ := rfl
@[simp] theorem modFn_rings : (modFn s n g).rings = s.rings := rfl
@[simp] theorem modFn_hearth : (modFn s n g).hearth = s.hearth := rfl
@[simp] theorem modFn_fabric : (modFn s n g).fabric = s.fabric := rfl
@[simp] theorem modFn_links : (modFn s n g).links = s.links := rfl
@[simp] theorem modFn_tree : (modFn s n g).tree = s.tree := rfl
@[simp] theorem modFn_obs : (modFn s n g).obs = s.obs := rfl
@[simp] theorem modFn_pending : (modFn s n g).pending = s.pending := rfl
end

section
variable (id : Nat) (g : Job → Job)
@[simp] theorem modJob_now : (modJob s id g).now = s.now := rfl
@[simp] theorem modJob_tbAdj : (modJob s id g).tbAdj = s.tbAdj := rfl
@[simp] theorem modJob_freeCtr : (modJob s id g).freeCtr = s.freeCtr := rfl
@[simp] theorem modJob_nextId : (modJob s id g).nextId = s.nextId := rfl
@[simp] theorem modJob_testMode : (modJob s id g).testMode = s.testMode := rfl
@[simp] theorem modJob_part : (modJob s id g).part = s.part := rfl
@[simp] theorem modJob_mem : (modJob s id g).mem = s.mem := rfl
@[simp] theorem modJob_ecc : (modJob s id g).ecc = s.ecc := rfl
@[simp] theorem modJob_flash : (modJob s id g).flash = s.flash := rfl
@[simp] theorem modJob_boot : (modJob s id g).boot = s.boot := rfl
@[simp] theorem modJob_stg : (modJob s id g).stg = s.stg := rfl
@[simp] theorem modJob_stgBase : (modJob s id g).stgBase = s.stgBase := rfl
@[simp] theorem modJob_stgSize : (modJob s id g).stgSize = s.stgSize := rfl
@[simp] theorem modJob_fuses : (modJob s id g).fuses = s.fuses := rfl
@[simp] theorem modJob_session : (modJob s id g).session = s.session := rfl
@[simp] theorem modJob_sec : (modJob s id g).sec = s.sec := rfl
@[simp] theorem modJob_tap : (modJob s id g).tap = s.tap := rfl
@[simp] theorem modJob_power : (modJob s id g).power = s.power := rfl
@[simp] theorem modJob_timing : (modJob s id g).timing = s.timing := rfl
@[simp] theorem modJob_le : (modJob s id g).le = s.le := rfl
@[simp] theorem modJob_fronds : (modJob s id g).fronds = s.fronds := rfl
@[simp] theorem modJob_builder : (modJob s id g).builder = s.builder := rfl
@[simp] theorem modJob_parts : (modJob s id g).parts = s.parts := rfl
@[simp] theorem modJob_programs : (modJob s id g).programs = s.programs := rfl
@[simp] theorem modJob_entries : (modJob s id g).entries = s.entries := rfl
@[simp] theorem modJob_deadQueues : (modJob s id g).deadQueues = s.deadQueues := rfl
@[simp] theorem modJob_popped : (modJob s id g).popped = s.popped := rfl
@[simp] theorem modJob_ringQ : (modJob s id g).ringQ = s.ringQ := rfl
@[simp] theorem modJob_rings : (modJob s id g).rings = s.rings := rfl
@[simp] theorem modJob_hearth : (modJob s id g).hearth = s.hearth := rfl
@[simp] theorem modJob_fabric : (modJob s id g).fabric = s.fabric := rfl
@[simp] theorem modJob_links : (modJob s id g).links = s.links := rfl
@[simp] theorem modJob_tree : (modJob s id g).tree = s.tree := rfl
@[simp] theorem modJob_obs : (modJob s id g).obs = s.obs := rfl
@[simp] theorem modJob_pcie : (modJob s id g).pcie = s.pcie := rfl
@[simp] theorem modJob_pending : (modJob s id g).pending = s.pending := rfl
end

section
variable (q : QueueId) (i : Fin 64) (g : Entry → Entry)
@[simp] theorem modEntry_now : (modEntry s q i g).now = s.now := rfl
@[simp] theorem modEntry_tbAdj : (modEntry s q i g).tbAdj = s.tbAdj := rfl
@[simp] theorem modEntry_freeCtr : (modEntry s q i g).freeCtr = s.freeCtr := rfl
@[simp] theorem modEntry_nextId : (modEntry s q i g).nextId = s.nextId := rfl
@[simp] theorem modEntry_testMode : (modEntry s q i g).testMode = s.testMode := rfl
@[simp] theorem modEntry_part : (modEntry s q i g).part = s.part := rfl
@[simp] theorem modEntry_mem : (modEntry s q i g).mem = s.mem := rfl
@[simp] theorem modEntry_ecc : (modEntry s q i g).ecc = s.ecc := rfl
@[simp] theorem modEntry_flash : (modEntry s q i g).flash = s.flash := rfl
@[simp] theorem modEntry_boot : (modEntry s q i g).boot = s.boot := rfl
@[simp] theorem modEntry_stg : (modEntry s q i g).stg = s.stg := rfl
@[simp] theorem modEntry_stgBase : (modEntry s q i g).stgBase = s.stgBase := rfl
@[simp] theorem modEntry_stgSize : (modEntry s q i g).stgSize = s.stgSize := rfl
@[simp] theorem modEntry_fuses : (modEntry s q i g).fuses = s.fuses := rfl
@[simp] theorem modEntry_session : (modEntry s q i g).session = s.session := rfl
@[simp] theorem modEntry_sec : (modEntry s q i g).sec = s.sec := rfl
@[simp] theorem modEntry_tap : (modEntry s q i g).tap = s.tap := rfl
@[simp] theorem modEntry_power : (modEntry s q i g).power = s.power := rfl
@[simp] theorem modEntry_timing : (modEntry s q i g).timing = s.timing := rfl
@[simp] theorem modEntry_le : (modEntry s q i g).le = s.le := rfl
@[simp] theorem modEntry_fronds : (modEntry s q i g).fronds = s.fronds := rfl
@[simp] theorem modEntry_builder : (modEntry s q i g).builder = s.builder := rfl
@[simp] theorem modEntry_parts : (modEntry s q i g).parts = s.parts := rfl
@[simp] theorem modEntry_programs : (modEntry s q i g).programs = s.programs := rfl
@[simp] theorem modEntry_deadQueues : (modEntry s q i g).deadQueues = s.deadQueues := rfl
@[simp] theorem modEntry_popped : (modEntry s q i g).popped = s.popped := rfl
@[simp] theorem modEntry_jobs : (modEntry s q i g).jobs = s.jobs := rfl
@[simp] theorem modEntry_ringQ : (modEntry s q i g).ringQ = s.ringQ := rfl
@[simp] theorem modEntry_rings : (modEntry s q i g).rings = s.rings := rfl
@[simp] theorem modEntry_hearth : (modEntry s q i g).hearth = s.hearth := rfl
@[simp] theorem modEntry_fabric : (modEntry s q i g).fabric = s.fabric := rfl
@[simp] theorem modEntry_links : (modEntry s q i g).links = s.links := rfl
@[simp] theorem modEntry_tree : (modEntry s q i g).tree = s.tree := rfl
@[simp] theorem modEntry_obs : (modEntry s q i g).obs = s.obs := rfl
@[simp] theorem modEntry_pcie : (modEntry s q i g).pcie = s.pcie := rfl
@[simp] theorem modEntry_pending : (modEntry s q i g).pending = s.pending := rfl
end

end Sys2Proof.Laws
end

