-- ==== Sys2Proof/Laws/Shared.lean ====
section
/-!
SUPPORT. Once for each operation that many commands share, everything it can do: which parts of the state it touches, and
when a guarded operation runs its body.
-/
namespace Sys2Proof.Laws
open Sys2Proof.Machine Sys2Proof.Safety

/-! ### Events, counters, memory -/

theorem logEvent_only (s : State) (unit code sub : Nat) (data : Word) :
    logEvent s unit code sub data = { s with obs := (logEvent s unit code sub data).obs } := by
  unfold logEvent; dsimp only; split <;> rfl

theorem wrWords_only (s : State) (a : Nat) (xs : List Word) :
    wrWords s a xs = { s with mem := (wrWords s a xs).mem, ecc := (wrWords s a xs).ecc } := by
  induction xs generalizing s a with
  | nil => rfl
  | cons x xs ih => rw [wrWords, ih]; rfl

theorem rdWord_wrWords_out (s : State) (a b : Nat) (xs : List Word) (h : b + 4 ≤ a ∨ a + 4 * xs.length ≤ b) :
    rdWord (wrWords s a xs) b = rdWord s b := by
  induction xs generalizing s a with
  | nil => rfl
  | cons x xs ih =>
    simp only [List.length_cons] at h
    rw [wrWords, ih _ _ (by omega), rdWord_wrWord_out _ _ _ _ (by omega)]

theorem rdWord_wrWords_in (s : State) (a i : Nat) (xs : List Word) (h : i < xs.length) :
    rdWord (wrWords s a xs) (a + 4 * i) = wordAt xs i := by
  induction xs generalizing s a i with
  | nil => simp at h
  | cons x xs ih =>
    cases i with
    | zero => rw [wrWords, rdWord_wrWords_out _ _ _ _ (by omega), Nat.mul_zero, Nat.add_zero, rdWord_wrWord]; rfl
    | succ n =>
      have e : a + 4 * (n + 1) = (a + 4) + 4 * n := by omega
      rw [wrWords, e, ih _ _ _ (by simpa using h)]; rfl

theorem lateWrite_only (s : State) (req : Fin 32) (a : Nat) : lateWrite s req a = { s with boot := (lateWrite s req a).boot } := by
  unfold lateWrite; dsimp only; split <;> rfl

theorem accrueBusy_only (s : State) (f : FrondId) :
    accrueBusy s f = { s with fronds := (accrueBusy s f).fronds, obs := (accrueBusy s f).obs } := by
  unfold accrueBusy; dsimp only; repeat (first | rfl | split)

theorem modCtx_only (s : State) (f : FrondId) (c : CtxId) (g : Ctx → Ctx) :
    modCtx s f c g = { s with fronds := (modCtx s f c g).fronds } := rfl

theorem logWaitEnd_only (s : State) (f : FrondId) (c : CtxId) (b : Option Blk) :
    logWaitEnd s f c b = { s with obs := (logWaitEnd s f c b).obs } := by
  unfold logWaitEnd
  split
  · split
    · exact logEvent_only ..
    · rfl
  · rfl

theorem unblockCtx_only (s : State) (f : FrondId) (c : CtxId) :
    unblockCtx s f c = { s with fronds := (unblockCtx s f c).fronds, obs := (unblockCtx s f c).obs } := by
  unfold unblockCtx; dsimp only
  split
  · exact modCtx_only ..
  · rw [modCtx_only, logWaitEnd_only, accrueBusy_only, modCtx_only]

theorem modFcnt_only (s : State) (f : FrondId) (g : Fcnt → Fcnt) : modFcnt s f g = { s with obs := (modFcnt s f g).obs } := rfl

theorem logPivots_only (s : State) (f : FrondId) (c : CtxId) (cnt rec0 rec1 : Word) :
    logPivots s f c cnt rec0 rec1 = { s with obs := (logPivots s f c cnt rec0 rec1).obs } := by
  unfold logPivots
  split
  · rfl
  · simp only [List.foldl_cons, List.foldl_nil]
    rw [logEvent_only, logEvent_only s, logEvent_only { s with obs := _ }]

/-! ### Scratchpads: slots and checks (R211, R214, R236) -/

theorem takeSlot_only (s : State) (f : FrondId) (m : Mem) : takeSlot s f m = { s with fronds := (takeSlot s f m).fronds } := rfl

/-- A slot that carries an access carries no other (R214). -/
theorem takeSlot_taken (s : State) (f : FrondId) (m : Mem) : slotFree (takeSlot s f m) f m = false := by
  have hk : slotCount (takeSlot s f m) m = slotCount s m := rfl
  simp only [slotFree, hk]
  simp [takeSlot, frond, modFrond]

/-- The check of a word without an error mark changes nothing and finds nothing. -/
@[simp] theorem padCheck_clean (s : State) (f : FrondId) (sub : Nat) (m : Mem) (w : Nat) (scrub : Bool) (h : markAt s (padAddr f m w) = none) :
    padCheck s f sub m w scrub = (s, false) := by
  simp [padCheck, h]

/-- The check of a word touches its Frond's records and the counters and event rings alone. -/
theorem padCheck_only (s : State) (f : FrondId) (sub : Nat) (m : Mem) (w : Nat) (scrub : Bool) :
    (padCheck s f sub m w scrub).1 =
      { s with fronds := (padCheck s f sub m w scrub).1.fronds, obs := (padCheck s f sub m w scrub).1.obs } := by
  unfold padCheck; dsimp only
  split
  · rfl
  · dsimp only; rw [logEvent_only]; rfl
  · dsimp only; rw [logEvent_only]; rfl

/-- It finds an error exactly where the mark says uncorrectable. -/
theorem padCheck_bad (s : State) (f : FrondId) (sub : Nat) (m : Mem) (w : Nat) (scrub : Bool) :
    (padCheck s f sub m w scrub).2 = decide (markAt s (padAddr f m w) = some .uncorrectable) := by
  unfold padCheck; dsimp only
  split <;> simp [*]

theorem setCopy_only (s : State) (f : FrondId) (p : Nat) (piv sat : Bool) :
    setCopy s f p piv sat = { s with fronds := (setCopy s f p piv sat).fronds } := rfl

theorem setCopy_others (s : State) (f g : FrondId) (p : Nat) (piv sat : Bool) (h : f ≠ g) :
    frond (setCopy s f p piv sat) g = frond s g := by
  simp [setCopy, frond, modFrond, h]

theorem fetchCheck_clean (s s1 : State) (f : FrondId) (c : CtxId) (ia : CodeAddr) (h : markAt s (padAddr f .w (ia.toNat / 4)) = none) :
    fetchCheck s f c ia s1 = s1 := by
  simp [fetchCheck, h]

theorem fwPush_only (s : State) (f : FrondId) (x : FwAccess) : fwPush s f x = { s with fronds := (fwPush s f x).fronds } := rfl

/-! ### The fabric (R23, R258, R261) -/

/-- A transfer enters the fabric under the id it is given, behind every transfer under way; nothing else changes. -/
theorem putXfer_only (s : State) (req : Fin 32) (part : Option PartId) (x : Nat → Xfer) :
    putXfer s req part x = (s.nextId, { s with
      nextId := s.nextId + 1
      fabric := { s.fabric with xfers := s.fabric.xfers ++ [{ id := s.nextId, req := req, part := part, x := x s.nextId }] } }) := rfl

theorem usePort_only (s : State) (p : Fin 21) : usePort s p = { s with fabric := (usePort s p).fabric } := rfl

/-- A port that has moved a line in an XC moves no other in it (R23). -/
theorem usePort_used (s : State) (p : Fin 21) : portUsed (usePort s p) p = true := by
  have hx : xcNow (usePort s p) = xcNow s := rfl
  simp only [portUsed, hx]
  simp [usePort, modPort]

/-- A data frame takes the link's next number; it is sent last but for a control frame behind it, and is kept until acknowledged. -/
theorem put_numbers (k : Link) (c p : Packet) :
    (k.put c p).txCount = k.txCount + 1 ∧ (k.put c p).retry = k.retry ++ [(k.txCount, p)] ∧
    ((k.put c p).sent = k.sent ++ [p] ∨ (k.put c p).sent = k.sent ++ [p] ++ [c]) := by
  by_cases h : k.sinceCtrl + 1 < 180
  · exact ⟨by simp [Link.put, Link.data, h], by simp [Link.put, Link.data, h], .inl (by simp [Link.put, Link.data, h])⟩
  · exact ⟨by simp [Link.put, Link.data, h, Link.ctrl], by simp [Link.put, Link.data, h, Link.ctrl],
      .inr (by simp [Link.put, Link.data, h, Link.ctrl])⟩

/-! ### Crumb instructions (R20, R88, R484) -/

/-- An instruction whose turn has come runs its body, which ends in one of three ways. -/
theorem issue_runs (k : Issue) (regs : List Reg) (s : State) (c : CtxId) (body : CtxId → State → Issued) (h : CanIssue k regs s c) :
    crumb k regs s body = .next { (
      match body c (modCtx (atTime s k.t) k.f c fun x => { x with atCheap := none }) with
      | .done s1 => useFc (advance (unblockCtx s1 k.f c) k c) k.f
      | .held s1 => useFc (modCtx s1 k.f c fun y => { y with atCheap := (ctx s k.f c).atCheap }) k.f
      | .trap t s1 => useFc (raiseFault (unblockCtx s1 k.f c) k.f c t) k.f) with pending := s.pending, session := s.session } := by
  obtain ⟨h1, h2, h3, h4, h5, h6⟩ := h
  have h2' : runningCtx (atTime s k.t) k.f = some c := h2
  have h5' : fetchOk (frond (atTime s k.t) k.f) k.ia = true := h5
  have h6' : markAt (atTime s k.t) (padAddr k.f .w (k.ia.toNat / 4)) = none := h6
  have hc : ctx (atTime s k.t) k.f c = ctx s k.f c := rfl
  rw [crumb, live_normal _ _ _ h1, issue, h2']
  dsimp only
  simp only [hc, h3, h4, h5', fetchBad, fetchCheck, h6']
  rfl

/-! ### Frames (R337) -/

/-- A sound frame that arrives at its destination is counted, and acts. -/
theorem message_acts (t : Time) (l : LinkId) (h : Hdr) (m : Msg) (s : State) (body : State → State) (a : MessageArrives s l h) :
    onMessage t l h m s body = .next { body (rxState s t l) with pending := s.pending, session := s.session } := by
  obtain ⟨⟨h1, h2, h3, h4⟩, h5, h6, h7⟩ := a
  have ho : operating (atTime s t) = true := h2
  have hh : (atTime s t).obs.halted = false := by
    have := h2; simp only [operating, Bool.and_eq_true, Bool.not_eq_true'] at this; exact this.1.1.1.2
  have hs : ((atTime s t).links.get l).st = .inService := h3
  have hn : ((atTime s t).links.get l).rxCount = h.num := h4.symm
  have hm : h.dnode.val = myNode (modLink (atTime s t) l fun k =>
      { k with rxCount := k.rxCount + 1, rxfr := k.rxfr + 1, rxWait := false, nakRun := 0, lastGood := (atTime s t).now }) := h6
  have hu : neverSent h.sfrond = false := by simp only [neverSent, decide_eq_false_iff_not]; omega
  rw [onMessage, live_normal _ _ _ h1]
  simp only [receive, hh, ho, hs, hn, h5, atNode, ← hm, hu]
  simp [rxState]

/-! ### The host (R437) -/

/-- A write of the host that reaches the device is taken once the spores of every earlier write have been accepted (R44). -/
theorem hostWrite_reaches (s : State) (t : Time) (f : State → State) (h : HostReaches s) :
    hostWrite (atTime s t) f = f (hostSees s t) := by
  obtain ⟨-, h2, h3⟩ := h
  have h2' : (atTime s t).obs.halted = false := h2
  have h3' : (atTime s t).pcie.up = true := h3
  simp only [hostWrite, h2', h3']
  rfl

theorem hostSees_idle (s : State) (t : Time) (h : s.pcie.sporeQ = []) : hostSees s t = setPerturb (atTime s t) := by
  simp [hostSees, h, acceptAll]

theorem setPerturb_idle (s : State) (h : replayRuns s = false) : setPerturb s = s := by
  simp [setPerturb, h]

/-! ### Freezes and hangs (R426, R435) -/

theorem accrue_fold_only (fs : List FrondId) (s : State) :
    fs.foldl accrueBusy s = { s with fronds := (fs.foldl accrueBusy s).fronds, obs := (fs.foldl accrueBusy s).obs } := by
  induction fs generalizing s with
  | nil => rfl
  | cons f fs ih => rw [List.foldl_cons, ih, accrueBusy_only s f]

theorem freeze_only (s : State) (n : Nat) : freeze s n = { s with fronds := (freeze s n).fronds, obs := (freeze s n).obs } := by
  unfold freeze accrueAll
  split
  · rfl
  · dsimp only; rw [accrue_fold_only]; rfl

theorem declareHang_only (s : State) (core : CoreId) (cause : Nat) :
    declareHang s core cause = { s with fronds := (declareHang s core cause).fronds, obs := (declareHang s core cause).obs } := by
  unfold declareHang; dsimp only
  split
  · rw [logEvent_only]
  · rw [freeze_only, logEvent_only]; rfl

end Sys2Proof.Laws
end

