-- ==== Sys2Proof/WellFormed.lean ====
section
/-!
DEFINITION. Which commands a sender can spell: the ranges that the manual gives the operands of its operations and events and
that the operand types do not already hold. The machine is total all the same.
-/
namespace Sys2Proof

/-- No element twice. -/
def distinct {α : Type} [BEq α] : List α → Bool
  | [] => true
  | x :: xs => !xs.contains x && distinct xs

/-- Registers are words (R473). -/
def wordAddr (a : Addr) : Bool := decide (a.toNat % 4 = 0)

/-- Flash contents given as bytes at offsets of at most 128 MiB (R363). -/
def flashCells (xs : List (Nat × Byte)) : Bool := xs.all fun x => decide (x.1 < 0x8000000)

/-- The functions have 64-bit base address registers at 0, 2 and 4 (R478). -/
def hostBar (bar : Fin 6) : Bool := bar.val % 2 == 0

/-- The accessed bytes lie in the largest base address range, 2 GiB (R478). -/
def inBar (off n : Nat) : Bool := decide (off + n ≤ 0x80000000)

/-- Two flips strike two bits (R236, R482). -/
def Upset.wf (u : Upset) : Bool := u.second != some u.first && decide (u.addr.toNat % 4 = 0)

/-- A data frame carries 32 words (R334). -/
def Frame.wf (f : Frame) : Bool := decide (f.payload.length = 32)

/-- A stretch: 16 words of spore, stages in ascending order, and a part number k below W (R347). -/
def SporeMsg.wf (m : SporeMsg) : Bool := decide (m.spore.length = 16) && decide (m.lo ≤ m.hi) && decide (m.k < m.w)

/-- The pieces of an epoch: a spore has 16 words and its descriptor 4; a piece at most 32 words (R353). -/
def EpochItem.wf : EpochItem → Bool
  | .member _ _ _ => true
  | .spore _ _ _ ws ds => decide (ws.length = 16) && decide (ds.length = 4)
  | .prior _ ws => decide (ws.length ≤ 32)
  | .block _ ws => decide (ws.length ≤ 32)
  | .ring _ _ _ => true

/-- A well-formed command. -/
def Instr.wf : Instr → Bool
  | .registerWrite _ req addr _ => wordAddr addr && decide (req.val < 26)
  | .majorityCheck .. => true
  | .powerOnReset .. => true
  | .resetInput .. => true
  | .resetRelease _ _ _ _ flash => flashCells flash
  | .bootPllLock .. => true
  | .sfdpRead .. => true
  | .octalModeEntry .. => true
  | .dqsCalibration _ reads => decide (reads.length = 32)
  | .headerRead .. => true
  | .verifyPass .. => true
  | .loadPass _ reread _ => flashCells reread
  | .firmwareReady .. => true
  | .fwStartTimeout .. => true
  | .programSetDigest .. => true
  | .lockSequence .. => true
  | .bootReady .. => true
  | .stgBegin .. => true
  | .stgErase .. => true
  | .stgProgram .. => true
  | .stgReadback .. => true
  | .stgFinalize .. => true
  | .stgAbort .. => true
  | .stagingCommandDone .. => true
  | .hostWindowWrite _ _ bar off data => hostBar bar && inBar off data.length && decide (0 < data.length)
  | .hostWindowRead _ _ bar off n => hostBar bar && inBar off n && decide (0 < n) && decide (n ≤ 4096)
  | .doorbellWrite _ _ off data => decide (0 < data.length) && decide (off + data.length ≤ 0x8000)
  | .sporeAccept .. => true
  | .sporeBufferWrite .. => true
  | .cancelLineWrite _ _ off data => decide (0 < data.length) && decide (off + data.length ≤ 0x1000)
  | .cancel .. => true
  | .slotStrobe .. => true
  | .worklistBuild .. => true
  | .bitmapReadAndClear .. => true
  | .bitmapLineReturn .. => true
  | .worklistPop .. => true
  | .admission .. => true
  | .placement .. => true
  | .contextStaged .. => true
  | .mma .. => true
  | .mmaRetire .. => true
  | .tileLoad .. => true
  | .tileLoadComplete .. => true
  | .cvt .. => true
  | .rmaxclr .. => true
  | .mul .. => true
  | .mulh .. => true
  | .mulhu .. => true
  | .multiplyComplete .. => true
  | .fadd .. => true
  | .fsub .. => true
  | .fmul .. => true
  | .fmin .. => true
  | .fmax .. => true
  | .fcmp .. => true
  | .fcvt .. => true
  | .fdiv .. => true
  | .fsqrt .. => true
  | .div .. => true
  | .divu .. => true
  | .rem .. => true
  | .remu .. => true
  | .xrcp .. => true
  | .xgiv .. => true
  | .dividerComplete .. => true
  | .xrhs .. => true
  | .xrelax .. => true
  | .xproj .. => true
  | .fbeg .. => true
  | .fend .. => true
  | .itmark .. => true
  | .outmark .. => true
  | .cheap .. => true
  | .tset .. => true
  | .tclr .. => true
  | .creset .. => true
  | .wopen .. => true
  | .wclose .. => true
  | .fenceSl .. => true
  | .fenceE .. => true
  | .fenceAll .. => true
  | .amoswap .. => true
  | .amoadd .. => true
  | .amocas .. => true
  | .integerAluOp .. => true
  | .scratchpadLoad .. => true
  | .scratchpadStore .. => true
  | .sharedStoreLoad .. => true
  | .sharedStoreStore .. => true
  | .remoteLoad .. => true
  | .remoteStore .. => true
  | .configAliasLoad .. => true
  | .configAliasStore .. => true
  | .storeVisible .. => true
  | .fetchCommand .. => true
  | .drainCommand .. => true
  | .rangeRetire .. => true
  | .stridedRead .. => true
  | .transposedRead .. => true
  | .circAppend _ _ _ _ _ data => decide (data.length = 32)
  | .circTake .. => true
  | .circPeek .. => true
  | .circRelease .. => true
  | .scratchpadSlotAccess _ _ _ upsets => upsets.all Upset.wf
  | .scratchpadAccessDone .. => true
  | .inboundLine .. => true
  | .inboundRetry .. => true
  | .refusalAtSender .. => true
  | .scratchpadScrub _ _ _ upsets => upsets.all Upset.wf
  | .scrubWriteback .. => true
  | .lotteryContest _ port arrivals => distinct (arrivals.map (·.ref)) && arrivals.all fun a => decide (a.id.val < if port.val = 16 then 9 else 26)
  | .regulatorAccrual .. => true
  | .ticketCommit .. => true
  | .fabmodeWrite .. => true
  | .ssLineAccess _ _ upsets => upsets.all Upset.wf
  | .ssEccWriteback .. => true
  | .ssScrub _ _ upsets => upsets.all Upset.wf
  | .tracePacketSend .. => true
  | .traceFrame .. => true
  | .ctxRun .. => true
  | .ctxPreempt .. => true
  | .ctxAbort .. => true
  | .ctxStop .. => true
  | .contextBoundary .. => true
  | .pwaitExpiry .. => true
  | .waitYield .. => true
  | .saveComplete .. => true
  | .restoreComplete .. => true
  | .contextTeardown .. => true
  | .teardownComplete .. => true
  | .ringRecordWrite .. => true
  | .tailMirrorUpdate .. => true
  | .ringEnable .. => true
  | .ringDisable .. => true
  | .ringHeadWrite .. => true
  | .coalesceTimeout .. => true
  | .deadlineComparatorFire .. => true
  | .deadlineAction .. => true
  | .iterateDelivery .. => true
  | .substituteCopy .. => true
  | .digestComplete .. => true
  | .leSampleBoundary .. => true
  | .leStart .. => true
  | .leStop .. => true
  | .leRezero .. => true
  | .leInputRead .. => true
  | .leInputReturn .. => true
  | .leQuadratureSample .. => true
  | .leDecoderWindow .. => true
  | .lePwmPeriod .. => true
  | .leOntimeWindow .. => true
  | .leOntimeLimit .. => true
  | .leShadowWrite .. => true
  | .leBankCommit .. => true
  | .linkTraining .. => true
  | .trainingTimeout .. => true
  | .offsetExchange .. => true
  | .linkUp .. => true
  | .linkDown .. => true
  | .ctrlFrame .. => true
  | .writeFrame _ _ f => f.wf
  | .writewFrame _ _ f => f.wf
  | .readFrame _ _ f => f.wf
  | .rdataFrame _ _ f => f.wf
  | .wackFrame _ _ f => f.wf
  | .sporeFrame _ _ _ m => m.wf
  | .pdoneFrame _ _ _ m => decide (m.k < 128)
  | .epochFrame _ _ _ _ _ m => m.wf
  | .ependFrame .. => true
  | .doneFrame _ _ _ xs => decide (xs.length ≤ 15)
  | .hbeatFrame .. => true
  | .joinFrame .. => true
  | .stopFrame .. => true
  | .reservedFrame _ _ f _ => f.wf
  | .cutNotice .. => true
  | .heartbeatSend .. => true
  | .memberLost .. => true
  | .managerLost .. => true
  | .epochInstall .. => true
  | .roleNoticeWrite .. => true
  | .workerOrphan .. => true
  | .epochCopy .. => true
  | .pllLock .. => true
  | .sequencerTake .. => true
  | .clockStepDone .. => true
  | .rampComplete .. => true
  | .proofHoldDone .. => true
  | .idleCountExpiry .. => true
  | .haltedRamp .. => true
  | .thermalCheck _ temps => decide (temps.length = 17)
  | .referenceLoss .. => true
  | .referenceReturn .. => true
  | .token _ bytes => decide (bytes.length = 144)
  | .tokenBlockGo .. => true
  | .tokenCheckDone .. => true
  | .remainTick .. => true
  | .serviceExpiry .. => true
  | .svcexit .. => true
  | .extest .. => true
  | .samplePreload .. => true
  | .idcode .. => true
  | .clamp .. => true
  | .highz .. => true
  | .bootstat .. => true
  | .chal .. => true
  | .dbgsel .. => true
  | .bypass .. => true
  | .testLogicReset .. => true
  | .dbgRead .. => true
  | .dbgWrite .. => true
  | .fuseProgram _ word _ => decide (word.toNat ≤ 0x31)
  | .dumpRead _ _ off n => decide (0 < n) && decide (n ≤ 4096) && decide (off + n ≤ 0x8000000)
  | .frz .. => true
  | .counterFreeze .. => true
  | .utilisationSample .. => true
  | .sampleRecordWrite .. => true
  | .checkpointTick _ passed => distinct passed
  | .watchdogExpiry .. => true
  | .teardownHang .. => true
  | .overdue .. => true
  | .backlog .. => true
  | .waitEvent .. => true
  | .waitGraphBuild .. => true
  | .graphTimeout .. => true
  | .globalStopCut .. => true
  | .linkCaptureEnd .. => true
  | .replayGo .. => true
  | .replayPrepDone .. => true
  | .replayStrobe .. => true
  | .replayEntryRelease .. => true
  | .replayEnd .. => true
  | .replayDone .. => true
  | .functionLevelReset .. => true
  | .pcieCoreReset .. => true
  | .ppsEdge .. => true
  | .pcieLinkUp _ enabled => distinct enabled && !enabled.contains 0
  | .pePerstNRelease .. => true
  | .frameLock .. => true
  | .uncoreRampComplete .. => true

end Sys2Proof
end

