-- ==== Sys2Proof/Tests/Slice0.lean ====
section
/-!
SUPPORT. This author's own tests: one ill-formed command for each check of WellFormed.lean, the numbers of the manual's worked
examples, and for every statement of Obligations.lean that has hypotheses one theorem that gives, clause by clause, a state and
operands that meet them all together.
-/
namespace Sys2Proof.Tests
-- One theorem at a time: a thread for each would ask for more memory than the compile may have.
set_option Elab.async false
set_option synthInstance.maxSize 1000
open Sys2Proof.Machine Sys2Proof.Safety

/-- The device after READY. -/
def up : State := { State.reset with boot := { Boot.reset with
  phase := .ready, ready := true, lock0 := true, lock1 := true, lock2 := true, porHeld := false, resetPin := false, bootDone := true } }

/-- The same with every group Active. -/
def upOn : State := { up with power := { Power.reset with groups := Vector.replicate 16 { Group.reset with st := .active, cur := 520 } } }

/-- A device at a phase of its boot. -/
def boot (p : BootPhase) : State := { State.reset with boot := { Boot.reset with phase := p, porHeld := false, resetPin := false } }

/-- A SERVICE session on a sealed device. -/
def serviceDev : State := { up with session := { Session.reset with
  sLife := Vector.replicate 3 true, cur0 := .service, cur1 := .service, cur2 := .service } }

/-- A sealed device. -/
def sealedDev : State := { up with
  session := { Session.reset with sLife := Vector.replicate 3 true, cur0 := .sealed, cur1 := .sealed, cur2 := .sealed }
  fuses := { Fuses.reset with life := Vector.replicate 3 true } }

/-- A device with words of its OBSERVE record given. -/
def observed (i : Fin 9) (x : Word) (s : State) : State := modObs s fun o => { o with rcd := vset o.rcd i x }

/-- A device whose trace port runs. -/
def traced : State := observed 2 1 up

/-- A flash with a header that passes R365 and one empty record, written from R365 and R366: magic, version 1, every part, a
generation, a body of 256 bytes, one record; the rest erased; the CRC over the first 248 bytes. -/
def goodHeader : List Byte :=
  imgMagic ++ [1, 0] ++ List.replicate 6 0xFF ++ [1] ++ List.replicate 7 0 ++ [0, 1, 0, 0, 1, 0, 0, 0] ++ List.replicate 216 0xFF
def goodFlash : List Host.Cell :=
  (goodHeader ++ wordBytes (crc32 goodHeader)).mapIdx (fun i b => (i, b)) ++
    [1, 0, 0, 0, 16, 0, 0, 0, 0, 0, 0, 0, 0, 0, 0, 0].mapIdx (fun i b => (0x1000 + i, b))

/-- Channel 0 of the Loop Engine enabled, in a state, every period 1. -/
def loop (g : LeChan → LeChan) : State :=
  modLe up 0 fun c => g { c with cfg := Vector.ofFn fun (i : Fin 5) => if i.val = 0 then 1 else if i.val = 1 then 0x00010001 else 1 }

/-- Context 0 of Frond 0 runs; the code region is the whole of W and every region is powered. -/
def runs (x : Ctx → Ctx) (g : Frond → Frond) : State :=
  modCtx (modFrond upOn 0 fun f => g { f with cur := some 0, codelen := BitVec.ofNat _ 0x3FFFC, pwrmap := BitVec.allOnes _ }) 0 0 fun c =>
    x { c with st := .running }
def run0 : State := runs id id
/-- The instruction at address 0 of Frond 0. -/
def at0 : Issue := ⟨0, 0, 0, 4, false⟩

/-- The staging aperture is served, with a buffer; the second inside a session. -/
def staged : State := { up with pcie := { Pcie.reset with up := true }, stgSize := 1 }
def inSession : State := { staged with stg := { Staging.reset with session := true } }

/-- A member 1 behind link 2. -/
def peered (s : State) : State :=
  modTree (modLink s 2 fun k => { k with st := .inService }) fun t => { t with
    rcd := vset t.rcd 0 1, role := 2, member := true, node := 0, path := 0x03FFFF
    members := [{ node := 1, path := 0x13FFFF, role := 1, link := 2, nLinks := 1, oneWay := 0, offSum := 0, answeredAt := 0, lost := false, joinAt := none }] }
/-- The slot of W that belongs to the Crumb's data, in grid ticks. -/
def crdW : Time := 72

/-- A transfer granted at port 0. -/
def granted (x : Xfer) (s : State) : State :=
  modPort (modFabric s fun f => { f with xfers := [{ id := 5, req := 18, part := none, x := x }] }) 0 fun p => { p with granted := [(0, 5)] }
/-- Transfers under way to their ports, a read of the Shared Store's first line by a requester, and a packet for a link. -/
def sent (es : List Sent) (s : State) : State := modFabric s fun f => { f with xfers := es }
def reads0 (id : Nat) (req : Fin 32) : Sent := { id := id, req := req, part := none, x := .load 0 0 id ssBase }
def sent0 : Packet := { part := 0, snode := 0, dnode := 1, msg := .read (mkFrame 3 0 0 1 0 true 0 0 [0]) }
/-- A host read of one word of the Shared Store. -/
def hostRead0 : HostRead :=
  { id := 9, fn := 0, part := none, bytes := [0, 0, 0, 0], skip := 0, len := 4, waiting := [(0, imageBase, 1)], sent := [] }
/-- Program 1 with one state block at the image region's first bytes (R131). -/
def stateful : Nat × List Word := (1, List.replicate 16 0 ++ [8, 0, 0, 0x1000])
/-- A copy of a line from W to A. -/
def copyW : EngArgs := ⟨.addr 0x1000000000 .plain, .addr 0x1000040000 .plain, 32⟩
/-- Region 0 of Frond 0 enabled for context 0, with one owner on both sides, and one line in it. -/
def region (who : BitVec 3) : State :=
  runs id fun f => { f with circ := vset f.circ 0 { Circ.reset with en := true, prod := who, cons := who, size := 2, tail := 1 } }
/-- A full line from Frond 1 of this device for the first words of a memory. -/
def lineIn (m : Mem) : InLine := ⟨⟨0, 1, none, 0, 0, 0, none⟩, m, 0, List.replicate 32 (some 7)⟩
/-- The line for W waits at Frond 0, whose window 0 in a mode covers it. -/
def inward (mode : BitVec 2) : State :=
  runs id fun f => { f with
    inbound := [lineIn .w], fwin := vset f.fwin 0 { FWin.reset with opened := true, mode := mode, limit := 31, srcf := 0xFF, srcdev := 0xFFFFFF } }
/-- The line for A waits at Frond 0, whose window 0 appends to region 0. -/
def inwardCirc : State :=
  runs id fun f => { f with
    inbound := [lineIn .a], circ := vset f.circ 0 { Circ.reset with en := true, prod := 2, size := 2 }
    fwin := vset f.fwin 0 { FWin.reset with opened := true, mem := 1, mode := 2, limit := 31, srcf := 0xFF, srcdev := 0xFFFFFF } }

/-- The link to the host is up; partition 0 is enabled, with a window of 4 096 words, one ring with its block at the window's
first words, and two queues. -/
def hosted : State := { upOn with
  pcie := { Pcie.reset with up := true }
  parts := vset (Vector.replicate 8 Partition.reset) 0 { Partition.reset with
    en := true, qcount := 2, rcount := 1, win := vset (Vector.replicate 16 Win.reset) 0 ⟨0, true, true, 0x1000⟩ } }
/-- A buffered spore of queue 0 and a job that its spore makes, held by program 1. -/
def entry0 : Entry := ⟨0, 0, .buffered, 0, 0, 0, false, false, List.replicate 16 0⟩
def job0 : Job :=
  { id := 3, queue := 0, idx := 0, part := 0, spore := List.replicate 16 0, accept := 0, clamp := false, req := 1, hold := 1
    demoted := false, st := .admitted, tact := 0, fired := false, started := none, fault := none, status := 0, iter := 0
    pivb := false, sat := false, nanrec := false, preempt := 0, finish := 0, line := 0, dueAt := 0, cancelled := false, primes := []
    stateK := 1, digestItems := none, digestDone := false, shard := .none, peerLost := false, areaAt := false, stateAt := false, outAt := false, cancelStatus := 0x08
    begun := false, hdrAt := false, areaWas := none }
/-- Queue 0 enabled with one buffer entry that is counted, and what its buffer and the jobs hold. -/
def queued (es : List Entry) (js : List Job) : State :=
  { wrWord hosted (descAddr 0) 0x101 with entries := es, jobs := js, programs := [(1, List.replicate 30 0)] }
/-- The same with job 0 in context 0 of Frond 0. -/
def placed (j : Job) (es : List Entry) (x : Ctx → Ctx) : State := modCtx (queued es [j]) 0 0 fun c => x { c with job := some 3 }
/-- A completion record of the ring, of a number of slots. -/
def rec0 (n : Nat) : RingRec := ⟨0, 0, 0, 0, false, n, false, none, false, 0⟩
/-- Ring 0 enabled, with 16 slots and a record that waits for it. -/
def ringed (q : RingRec) : State :=
  { hosted with ringQ := [q], rings := vset (Vector.replicate 2048 Ring.reset) 0 { Ring.reset with enabled := true } }
/-- A context of Frond 0 in a state. -/
def ctxIn (st : CtxState) (x : Ctx → Ctx) : State := modCtx upOn 0 0 fun c => x { c with st := st }
/-- Link 2 in service of a worker that is a member, and of a standby and a manager. -/
def linked (role : BitVec 2) : State := modTree (peered up) fun t => { t with role := role }
/-- The header of a message from node 1 that arrives here. -/
def hdr0 : Hdr := ⟨0, 1, 0, 0, 0, true⟩
/-- A frame from node 1, for the Shared Store or for a Frond. -/
def frameOf (ty : Nat) (space : Bool) (line : BitVec 20) (ws : List Word) : Frame := mkFrame ty 0 1 0 0 space line 0 ws
/-- The line of the image region's first bytes. -/
def line0 : BitVec 20 := BitVec.ofNat 20 ((imageBase - ssBase) / 128)
/-- A remote access outstanding: a read, or writes. -/
def op0 (read : Bool) : RemoteOp := ⟨5, 0, 0, 1, read, 0, 9, 1, none⟩

/-- A device with word 0 of its tree record given. -/
def observedTree (x : Word) (s : State) : State := modTree s fun t => { t with rcd := vset t.rcd 0 x }
/-- A device of a role that awaits the answer to its access of node 1. -/
def awaiting (read : Bool) : State := modTree (linked 1) fun t => { t with tags := [op0 read] }
/-- The register load of that access. -/
def remoteLoad : LoadWait := { home := .remote 1, addr := 0, rd := some 2, id := 5, amo := false }
/-- A job of queue 0 that this manager sharded over holders, and a stretch that this device holds. -/
def spread (n : Nat) : Job := { job0 with st := .placed, shard := .sharded (List.range n) [] false }
def stretch0 : Job := { job0 with st := .placed, shard := .stretch 0 1 1 0 0 }
/-- An empty epoch. -/
def epoch0 : Epoch := ⟨0, 0, [], []⟩
/-- The test access port of a device is linked. -/
def tapped (s : State) : State := { s with tap := { Tap.reset with linked := true } }
/-- A device whose replay block is the first of window 0, with a script of some entries, in a state of its replay. -/
def replaying (st : ReplaySt) (n : Nat) : State :=
  modObs (observed 2 0x02000000 hosted) fun o => { o with replay := { o.replay with st := st, nent := n } }
/-- A token of R409 for DEVID 0, challenge 0 and scope 1, signed (R412) with private key 1 and nonce 1, so the service key is the
generator; the signature was computed outside this model. -/
def tokenBody : List Byte := [0x54, 0x43, 0x56, 0x53, 1] ++ List.replicate 19 0 ++ [1] ++ List.replicate 23 0
def token0 : List Byte := tokenBody ++ beBytes 48 p384gx ++ beBytes 48 0xd6b38391979d989f58d8a2af22f2d9984a2234156eea57abdf6861649aba8628ee8cfc06ee5b532240e09e533a0f6cba
def svcKey0 : List Byte := 4 :: beBytes 48 p384gx ++ beBytes 48 p384gy
/-- A sealed device that checks that token. -/
def tokened : State := { sealedDev with sec := { Security.reset with checking := [(token0, 0, 0)], svcKey := svcKey0, secpol := 0x101 } }
/-- The hosted device has the control block of one ring. -/
theorem hosted_one_ring : ∀ r : RingId, (ringBlock hosted r).isSome = true → r = 0 := by decide +kernel
theorem hosted_apart : BlocksApart hosted := fun r q a b ha hb h =>
  absurd ((hosted_one_ring r (by rw [ha]; rfl)).trans (hosted_one_ring q (by rw [hb]; rfl)).symm) h
/-- A frame without its payload. -/
def short (ty : Nat) : Frame := frameOf ty true 0 []

/-- A device without windows has no replay block. -/
theorem up_no_replay (b : Nat) : replayBlock up ≠ some b := by
  have e : replayBlock up = none := by decide +kernel
  rw [e]; nofun

/-- Nothing is under way on the Frond of `run0`. -/
theorem no_flight0 : (frond run0 0).flight = [] := by decide +kernel

/-! ### Ill-formed commands, one for each check of WellFormed.lean -/

theorem smoke_register_address : (Instr.registerWrite 0 0 2 0).wf = false := by decide
theorem smoke_register_requester : (Instr.registerWrite 0 26 0 0).wf = false := by decide
theorem smoke_flash_offset : (Instr.resetRelease 0 true true false [(0x8000000, 0)]).wf = false := by decide
theorem smoke_calibration_reads : (Instr.dqsCalibration 0 [true]).wf = false := by decide
theorem smoke_reread_offset : (Instr.loadPass 0 [(0x8000000, 0)] false).wf = false := by decide
theorem smoke_write_bar : (Instr.hostWindowWrite 0 0 1 0 [0]).wf = false := by decide
theorem smoke_write_end : (Instr.hostWindowWrite 0 0 2 0x80000000 [0]).wf = false := by decide
theorem smoke_write_empty : (Instr.hostWindowWrite 0 0 2 0 []).wf = false := by decide
theorem smoke_read_bar : (Instr.hostWindowRead 0 0 3 0 1).wf = false := by decide
theorem smoke_read_end : (Instr.hostWindowRead 0 0 2 0x7FFFFFFF 2).wf = false := by decide
theorem smoke_read_empty : (Instr.hostWindowRead 0 0 2 0 0).wf = false := by decide
theorem smoke_read_long : (Instr.hostWindowRead 0 0 2 0 4097).wf = false := by decide
theorem smoke_doorbell_empty : (Instr.doorbellWrite 0 0 0 []).wf = false := by decide
theorem smoke_doorbell_end : (Instr.doorbellWrite 0 0 0x7FFF [0, 0]).wf = false := by decide
theorem smoke_cancel_empty : (Instr.cancelLineWrite 0 0 0 []).wf = false := by decide
theorem smoke_cancel_end : (Instr.cancelLineWrite 0 0 0x1000 [0]).wf = false := by decide
theorem smoke_append_line : (Instr.circAppend 0 0 0 .crumb 0 [1]).wf = false := by decide
theorem smoke_slot_upset_bits : (Instr.scratchpadSlotAccess 0 0 .w [⟨0, 3, some 3⟩]).wf = false := by decide
theorem smoke_scrub_upset_address : (Instr.scratchpadScrub 0 0 .w [⟨2, 3, none⟩]).wf = false := by decide
theorem smoke_arrivals_twice : (Instr.lotteryContest 0 0 [⟨0, none, 0, 7⟩, ⟨1, none, 0, 7⟩]).wf = false := by decide
theorem smoke_arrival_requester : (Instr.lotteryContest 0 0 [⟨26, none, 0, 7⟩]).wf = false := by decide
theorem smoke_arrival_class : (Instr.lotteryContest 0 16 [⟨9, none, 0, 7⟩]).wf = false := by decide
theorem smoke_line_upset_bits : (Instr.ssLineAccess 0 0 [⟨0, 3, some 3⟩]).wf = false := by decide
theorem smoke_store_upset_address : (Instr.ssScrub 0 0 [⟨1, 0, none⟩]).wf = false := by decide
theorem smoke_write_payload : (Instr.writeFrame 0 0 (short 1)).wf = false := by decide
theorem smoke_writew_payload : (Instr.writewFrame 0 0 (short 2)).wf = false := by decide
theorem smoke_read_payload : (Instr.readFrame 0 0 (short 3)).wf = false := by decide
theorem smoke_rdata_payload : (Instr.rdataFrame 0 0 (short 4)).wf = false := by decide
theorem smoke_wack_payload : (Instr.wackFrame 0 0 (short 5)).wf = false := by decide
theorem smoke_reserved_payload : (Instr.reservedFrame 0 0 (short 15) true).wf = false := by decide
theorem smoke_stretch_words : (Instr.sporeFrame 0 0 hdr0 ⟨[], 0, 1, 1, 0, 0⟩).wf = false := by decide
theorem smoke_stretch_order : (Instr.sporeFrame 0 0 hdr0 ⟨List.replicate 16 0, 2, 1, 1, 0, 0⟩).wf = false := by decide
theorem smoke_stretch_number : (Instr.sporeFrame 0 0 hdr0 ⟨List.replicate 16 0, 0, 1, 1, 1, 0⟩).wf = false := by decide
theorem smoke_outcome_number : (Instr.pdoneFrame 0 0 hdr0 ⟨0, 0, 128, 0, 0, 0, 0⟩).wf = false := by decide
theorem smoke_epoch_spore : (Instr.epochFrame 0 0 hdr0 0 0 (.spore 0 0 false [] [0, 0, 0, 0])).wf = false := by decide
theorem smoke_epoch_descriptor : (Instr.epochFrame 0 0 hdr0 0 0 (.spore 0 0 false (List.replicate 16 0) [])).wf = false := by decide
theorem smoke_epoch_prior : (Instr.epochFrame 0 0 hdr0 0 0 (.prior 0 (List.replicate 33 0))).wf = false := by decide
theorem smoke_epoch_block : (Instr.epochFrame 0 0 hdr0 0 0 (.block 0 (List.replicate 33 0))).wf = false := by decide
theorem smoke_done_long : (Instr.doneFrame 0 0 hdr0 (List.replicate 16 (0, 0))).wf = false := by decide
theorem smoke_sensors : (Instr.thermalCheck 0 [20]).wf = false := by decide
theorem smoke_token_length : (Instr.token 0 [0]).wf = false := by decide
theorem smoke_fuse_word : (Instr.fuseProgram 0 0x32 0).wf = false := by decide
theorem smoke_dump_empty : (Instr.dumpRead 0 true 0 0).wf = false := by decide
theorem smoke_dump_long : (Instr.dumpRead 0 true 0 4097).wf = false := by decide
theorem smoke_dump_end : (Instr.dumpRead 0 true 0x8000000 1).wf = false := by decide
theorem smoke_cores_twice : (Instr.checkpointTick 0 [1, 1]).wf = false := by decide
theorem smoke_functions_twice : (Instr.pcieLinkUp 0 [1, 1]).wf = false := by decide
theorem smoke_function_zero : (Instr.pcieLinkUp 0 [0]).wf = false := by decide
theorem smoke_well_formed : (Instr.fuseProgram 0 0x31 1).wf = true := by decide

/-! ### Numbers of the manual's worked examples -/

/-- A context with the pivot registers of the example of chapter 4. -/
def pivots : Ctx := { (ctx up 0 0) with piveps := 0xED400000, pivrcp := 21, xexp := 0x00060000, pivcnt := 0x00C50000 }
/-- Channel 3 of the example of chapter 12. -/
def tilt : LeChan := { (up.le.get 3) with
  cfg := Vector.ofFn fun (i : Fin 5) => [0xF804411B, 0x00C00180, 0x0080A004, 0x0034800A, 0x00120000].getD i.val 0
  bank0 := Vector.ofFn fun (i : Fin 16) => [0, 0x3000, 0x3000, 0x400000, 0x400000].getD i.val 0
  inputs := [0x320000], count := 1480 }
/-- The groups of the example of chapter 15: group 4 warm, groups 5 to 7 cold, all four with a wake request. -/
def waking : State := [4, 5, 6, 7].foldl requestWake { up with power := { Power.reset with
  cfg0 := 0x08020020
  groups := Vector.ofFn fun (i : Fin 16) =>
    if i.val = 4 then { Group.reset with st := .warm, cur := 120, pll := true }
    else if 5 ≤ i.val ∧ i.val ≤ 7 then { Group.reset with st := .cold, cur := 16 } else { Group.reset with st := .active, cur := 760 } } }
/-- A conversion of one vector. -/
def conv (tgt : BitVec 3) (scl : Bool) : CvtArgs :=
  { solver := false, fromA := false, tgt := tgt, scl := scl, rc := true, count := 1, src := 0, srcTag := .plain, dst := .word .p 0 .plain }
/-- The record of the example of chapter 2. -/
def tracked : CompRecord :=
  { queue := 0x04A31, idx := 0, part := 2, tag := 0xB7C70001, status := 0, iter := 4, pivb := false, sat := false, clamp := false
    demoted := false, nanrec := false, preempt := 1, finish := 0x12343D40, progRan := 0xA7, wait := 0x485F, outWords := 512
    digest := some [], irq := true, deadline := 0 }
/-- A contender of a device-class requester. -/
def asks (i : Nat) : Contender := ⟨i, none, 0, 0, none, i, false, 0⟩

/-- Chapter 3: 5.12 enters F19 truncated and to nearest. -/
theorem test_ingest_truncated : (ingestB32 false 0x40A3D70A).bits = 0x2051E := by decide +kernel
theorem test_ingest_nearest : (ingestB32 true 0x40A3D70A).bits = 0x2051F := by decide +kernel
/-- Chapter 3: the F19 pair of 5.12. -/
theorem test_f19_pair : let l := tensorLane (conv 4 false) 4 0 (decodeNum .a32 0x40A3D70A) 0 0 0
    l.hi = 0x2051F ∧ l.lo = 0x5D47B := by decide +kernel
/-- Chapter 3: rows 0 and 5 of the layer output converted to M8, at the first scale and at the next. -/
theorem test_m8_row0 : let l := tensorLane (conv 0 true) 0 0 (decodeNum .a32 0xC2170000) 0x1F000 0 0
    l.hi = 0xC9 ∧ l.rmax = 0x40970000 ∧ l.bits = 0 := by decide +kernel
theorem test_m8_row5 : let l := tensorLane (conv 0 true) 0 0 (decodeNum .a32 0x45802000) 0x1F000 0 0
    l.hi = 0x7E ∧ l.rmax = 0x44002000 ∧ l.bits = aM8SAT := by decide +kernel
theorem test_m8_rescaled : (tensorLane (conv 0 true) 0 0 (decodeNum .a32 0xC2170000) 0x1F400 0 0).hi = 0xD1 ∧
    (tensorLane (conv 0 true) 0 0 (decodeNum .a32 0x45802000) 0x1EC00 0 0).hi = 0x78 := by decide +kernel
/-- Chapter 3: a solver-mode product, and the accumulator's two conversions. -/
theorem test_solver_product : nearestAt (0x400000 * 0x600000) 0 (2 + -1 - 6 + 17) = 0x0180000000000000 := by decide +kernel
theorem test_solver_x24 : (solverLane 5 6 0 0x017FFFFFFFEDCC00 0 0).hi = 0x00600000 := by decide +kernel
theorem test_solver_pair : let l := solverLane 4 6 0 0x017FFFFFFFEDCC00 0 0
    l.hi = 0x00600000 ∧ l.lo = 0xFFFFFB73 := by decide +kernel
/-- Chapter 3: the multiplier's FC for 100 and for −300, and R106's signs of a division. -/
theorem test_multiplier_fc : mulFc true 100 = 2 ∧ mulFc true 0xFFFFFED4 = 3 := by decide +kernel
theorem test_division_signs : divRun (-7) 2 = (-3, -1, 0) ∧ divRun 7 (-2) = (-3, 1, 0) := by decide +kernel
/-- Chapter 4: the replaced pivot 197 of block 6; ER 18 becomes 21. -/
theorem test_pivot_replaced : let r := xrcpRun pivots 0 0xC00000000 5
    r.1 = 0x00400000 ∧ r.2.1 = aPIVB ∧ field r.2.2.pivcnt 15 0 = 1 ∧ r.2.2.pivrec0 = 0x00C50001 := by decide +kernel
theorem test_reciprocal_floor : (pivWrite pivots 0 4 18).pivrcp = 21 := by decide +kernel
/-- Chapter 2: words 2, 4, 5 and 6 of the completion record, before the pass bit. -/
theorem test_record_words : tracked.words = [0xB7C70001, 0, 0x00300400, 0x12343D40, 0x01000000, 0x0A704A31, 0x0000485F, 0x00000200] := by
  decide +kernel
/-- Chapter 10: a draw of 40 at Shared Store port 5 grants requester 18. -/
theorem test_lottery_draw : ((0xA3C1 * 64) >>> 16 = 40) ∧
    (drawAt (fun c => ticketsOf up.fabric 5 c.id) 40 0 (byId [asks 21, asks 4, asks 18, asks 16])).map (·.id) = some 18 := by decide +kernel
/-- Chapter 10: default ages of a Shared Store port, a link and the PCI Express egress. -/
theorem test_default_ages : portAge up.fabric 5 = 255 ∧ portAge up.fabric 17 = 223 ∧ portAge up.fabric 16 = 1407 := by decide +kernel
/-- Chapter 11: a full save has twelve lines, and one after CHEAP with mask 0x01 five. -/
theorem test_full_save : ((saveLines run0 0 0).map (·.2.length)).sum = 12 * 32 := by decide +kernel
theorem test_cheap_save : ((saveLines (runs (fun x => { x with kind := true, atCheap := some 1 }) id) 0 0).map (·.2.length)).sum = 5 * 32 := by decide +kernel
/-- Chapter 12: bands of 6 counts, duties of 96 AT, an error of 120 counts that drives forward, and −1 that stops. -/
theorem test_tilt_units : tilt.band 1 = 6 ∧ tilt.band 2 = 6 ∧ tilt.duty 3 = 96 ∧ tilt.duty 4 = 96 := by decide +kernel
theorem test_tilt_direction : tilt.error = 120 ∧ tilt.newDir 120 = .fwd ∧
    ({ tilt with dir := .fwd } : LeChan).newDir 8 = .fwd ∧ ({ tilt with dir := .fwd } : LeChan).newDir (-1) = .none := by decide +kernel
/-- Chapter 15: the four groups are ready 4.50, 9.65, 14.80 and 19.95 µs after the requests. -/
theorem test_wake_order : (projected waking).map (fun x => (x.1, x.2 * 100 / tUs)) = [(4, 450), (5, 965), (6, 1480), (7, 1995)] := by
  decide +kernel
/-- Chapter 17: the cut tick of a stop requested at 0x5200_1080. -/
theorem test_cut_tick : edgeAfter (0x52001080 + 512) = 0x52001300 := by decide +kernel
/-- Chapter 19: PIVREC of context 2 of Frond 37. -/
theorem test_pivrec_address : (busRead (modCtx up 37 2 fun x => { x with pivrec0 := 0x1234 }) 0x300125320C).2 = 0x1234 := by decide +kernel
/-- R412, on the service key of private key 1, against a digest and a signature computed outside this model. -/
theorem test_token_signature : tokenGood tokened token0 0 = true := by decide +kernel

/-! ### The queue -/

theorem test_reset_idles : step State.reset = .next State.reset := rfl
theorem test_front_first : (step { State.reset with pending := [.frz 3, .frz 5] }) = exec (.frz 3) { State.reset with pending := [.frz 5] } := by rfl

/-! ### Witnesses -/

theorem witness_StepRunsTheFrontCommand :
    (∃ (c : Instr), ∃ (rest : List Instr), ∃ (s : State), s.pending = c :: rest) ∧
    (∃ (s : State), s.pending = []) :=
  ⟨⟨.rmaxclr ⟨0, 0, 0, 4, false⟩, [], { up with pending := [.rmaxclr ⟨0, 0, 0, 4, false⟩] }, by rfl⟩,
   ⟨up, by rfl⟩⟩

theorem witness_EveryCommandCompletesAndLeavesTheQueue :
    (∃ (s : State), s.testMode = false) ∧
    (∃ (c : Instr), ∃ (s : State), s.testMode = true ∧ (∀ t r, c ≠ .powerOnReset t r)) :=
  ⟨⟨up, by decide +kernel⟩,
   ⟨.frz 0, { up with testMode := true }, by exact ⟨rfl, fun _ _ h => by cases h⟩⟩⟩

theorem witness_SequencerMovesOneGroupThroughItsSteps :
    (∃ (t : Time), ∃ (g : GroupId), ∃ (s : State), s.testMode = false ∧ (group s g).st = .cold ∧ (∃ r, (group s g).req = some (.wake, r)) ∧ (group s g).pll = false ∧ (group s g).pllAt ≤ max s.now t) ∧
    (∃ (s : State), ∃ (g : GroupId), ∃ (target : PState), s.testMode = false ∧ s.power.seq = .idle ∧ s.power.resetting = false ∧ s.obs.halted = false ∧ nextRequest s.power.groups = some (g, target)) ∧
    (∃ (t : Time), ∃ (s : State), ∃ (g : GroupId), ∃ (target : PState), s.testMode = false ∧ s.power.seq = .clock g target ∧ s.power.stepAt ≤ max s.now t) ∧
    (∃ (t : Time), ∃ (s : State), ∃ (g : GroupId), ∃ (target : PState), s.testMode = false ∧ s.power.seq = .ramp g target ∧ s.power.stepAt ≤ max s.now t ∧ s.power.resetting = false ∧ (target = .active ∨ target = .warm)) ∧
    (∃ (t : Time), ∃ (s : State), ∃ (g : GroupId), s.testMode = false ∧ s.power.seq = .ramp g .cold ∧ s.power.stepAt ≤ max s.now t ∧ s.power.resetting = false ∧ s.power.rampFrom = 120 ∧ (group s g).rewake = false) ∧
    (∃ (t : Time), ∃ (s : State), ∃ (g : GroupId), s.testMode = false ∧ s.power.seq = .hold g .active ∧ s.power.stepAt ≤ max s.now t) ∧
    (∃ (t : Time), ∃ (s : State), ∃ (g : GroupId), ∃ (target : PState), s.testMode = false ∧ s.power.seq = .hold g target ∧ s.power.stepAt ≤ max s.now t ∧ (target = .warm ∨ target = .cold) ∧ (group s g).rewake = false) :=
  ⟨⟨9, 0, modGroup up 0 fun x => { x with st := .cold, req := some (.wake, 3), pllAt := 9 }, by exact ⟨rfl, rfl, ⟨3, rfl⟩, rfl, by decide⟩⟩,
   ⟨modGroup up 0 fun x => { x with st := .warm, pll := true, req := some (.wake, 0) }, 0, .active, by decide +kernel⟩,
   ⟨5, modPower up fun p => { p with seq := .clock 0 .active, stepAt := 5 }, 0, .active, by decide +kernel⟩,
   ⟨5, modPower up fun p => { p with seq := .ramp 0 .active, stepAt := 5 }, 0, .active, by decide +kernel⟩,
   ⟨5, modPower up fun p => { p with seq := .ramp 0 .cold, stepAt := 5, rampFrom := 120 }, 0, by decide +kernel⟩,
   ⟨5, modPower up fun p => { p with seq := .hold 0 .active, stepAt := 5 }, 0, by decide +kernel⟩,
   ⟨5, modPower up fun p => { p with seq := .hold 0 .warm, stepAt := 5 }, 0, .warm, by decide +kernel⟩⟩

theorem witness_IdleGroupsAndHaltedGroupsGoDown :
    (∃ (g : GroupId), ∃ (s : State), s.testMode = false ∧ operating s = true ∧ replayRuns s = false ∧ keepAwake s g = false ∧ (group s g).req = none ∧ s.power.windowOpen = false ∧ s.power.resetting = false ∧ groupIdle s g = true ∧ (group s g).st = .active ∧ twarm s ≤ (group s g).idle.toNat) ∧
    (∃ (g : GroupId), ∃ (s : State), s.testMode = false ∧ operating s = true ∧ replayRuns s = false ∧ keepAwake s g = false ∧ (group s g).req = none ∧ s.power.windowOpen = false ∧ s.power.resetting = false ∧ groupIdle s g = true ∧ (group s g).st = .warm ∧ tcold s ≠ 0 ∧ tcold s ≤ (group s g).idle.toNat) ∧
    (∃ (g : GroupId), ∃ (s : State), s.testMode = false ∧ (keepAwake s g = true ∨ groupIdle s g = false)) ∧
    (∃ (s : State), ∃ (g : GroupId), s.testMode = false ∧ s.obs.halted = true ∧ s.power.seq = .idle ∧ s.power.resetting = false ∧ (allFin 16).find? (fun g => (group s g).st != .halted && (group s g).st != .off) = some g) :=
  ⟨⟨0, modGroup up 0 fun x => { x with st := .active, idle := BitVec.ofNat _ (twarm up) }, by decide +kernel⟩,
   ⟨0, modGroup up 0 fun x => { x with st := .warm, idle := BitVec.ofNat _ (tcold up) }, by decide +kernel⟩,
   ⟨0, modCtx up 0 0 fun x => { x with st := .ready }, by decide +kernel⟩,
   ⟨modObs upOn fun o => { o with halted := true }, 0, by decide +kernel⟩⟩

theorem witness_DropsPutEveryGroupOffAndRecordTheirCause :
    (∃ (temps : List Int), ∃ (x : Int), ∃ (s : State), s.testMode = false ∧ hottest temps = some x ∧ tripPoint s ≤ x ∧ s.boot.phase ≠ .held ∧ s.power.thermLatch = false) ∧
    (∃ (temps : List Int), ∃ (x : Int), ∃ (s : State), s.testMode = false ∧ hottest temps = some x ∧ x < tripPoint s) ∧
    (∃ (s : State), s.testMode = false ∧ s.timing.refLost = false ∧ s.boot.porHeld = false) ∧
    (∃ (t : Nat), ∃ (s : State), s.testMode = false ∧ s.timing.refLost = true ∧ s.timing.lostAt + 10 * tMs ≤ max s.now t ∧ s.boot.resetPin = false ∧ s.power.thermLatch = false ∧ s.boot.released = none) :=
  ⟨⟨[tripPoint up], tripPoint up, up, by decide +kernel⟩,
   ⟨[tripPoint up - 1], tripPoint up - 1, up, by decide +kernel⟩,
   ⟨up, by decide +kernel⟩,
   ⟨10 * tMs, { up with timing := { Timing.reset with refLost := true } }, by decide +kernel⟩⟩

theorem witness_ResetInputIsGovernedAndReleaseBoots :
    (∃ (s : State), ∃ (g : GroupId), s.testMode = false ∧ s.power.resetting = false ∧ s.boot.phase ≠ .held ∧ s.power.seq = .idle ∧ (allFin 16).find? (fun g => decide (0 < (group s g).cur)) = some g) ∧
    (∃ (t : Time), ∃ (s : State), s.testMode = false ∧ s.power.seq = .uncore true ∧ s.power.stepAt ≤ max s.now t ∧ s.boot.released = none) ∧
    (∃ (t : Time), ∃ (s : State), s.testMode = false ∧ s.power.seq = .uncore false ∧ s.power.stepAt ≤ max s.now t) ∧
    (∃ (s : State), s.testMode = false ∧ s.boot.resetPin = true ∧ s.power.resetting = false ∧ s.timing.refLost = false ∧ s.power.thermLatch = false) ∧
    (∃ (s : State), s.testMode = false ∧ s.boot.resetPin = true ∧ s.boot.porHeld = true) :=
  ⟨⟨upOn, 0, by decide +kernel⟩,
   ⟨5, modPower up fun p => { p with seq := .uncore true, stepAt := 5 }, by decide +kernel⟩,
   ⟨5, modPower up fun p => { p with seq := .uncore false, stepAt := 5 }, by decide +kernel⟩,
   ⟨State.reset, by decide +kernel⟩,
   ⟨State.reset, by decide +kernel⟩⟩

theorem witness_MajorityCheckVotesAndRewrites :
    (∃ (s : State), s.testMode = false ∧ disagreeing s = []) ∧
    (∃ (s : State), s.testMode = false) :=
  ⟨⟨up, by decide +kernel⟩,
   ⟨up, by decide +kernel⟩⟩

theorem witness_EveryStepKeepsTheSecurityInvariant :
    ∃ (s : State), ∃ (s' : State), SecurityInv s ∧ step s = .next s' :=
  ⟨up, up, by exact ⟨⟨⟨rfl, rfl⟩, by unfold openIffLifeOpen; decide⟩, rfl⟩⟩

theorem witness_SealedNeverBecomesOpen :
    ∃ (s : State), ∃ (s' : State), SecurityInv s ∧ curOf s ≠ .opened ∧ ((s.fuses.life[0] && s.fuses.life[1]) || (s.fuses.life[0] && s.fuses.life[2]) || (s.fuses.life[1] && s.fuses.life[2])) = true ∧ step s = .next s' :=
  ⟨sealedDev, sealedDev, by exact ⟨⟨⟨rfl, rfl⟩, by unfold openIffLifeOpen; decide⟩, by decide, rfl, rfl⟩⟩

theorem witness_TokensRenewTheChallengeAndAreCheckedOrRefused :
    (∃ (s : State), s.testMode = false ∧ s.sec.svcexitAt = none ∧ operating s = true ∧ s.sec.tokLock = false) ∧
    (∃ (s : State), s.testMode = false ∧ s.sec.svcexitAt = none ∧ (operating s = false ∨ s.sec.tokLock = true)) ∧
    (∃ (s : State), s.testMode = false ∧ s.pcie.up = true ∧ s.sec.svcexitAt = none ∧ operating s = true ∧ s.sec.tokLock = false) ∧
    (∃ (b : List Byte), ∃ (chal : BitVec 64), ∃ (at0 : Time), ∃ (rest : List (List Byte × BitVec 64 × Time)), ∃ (s : State), s.testMode = false ∧ s.sec.checking = (b, chal, at0) :: rest ∧ operating s = true ∧ lifeSealed s = true ∧ curOf s ≠ .opened ∧ svcEn s = true ∧ s.sec.tokLock = false ∧ tokenGood s b chal = true ∧ BitVec.ofNat 8 (byteAt b 0x18).toNat &&& BitVec.ofNat 8 (field s.sec.secpol 15 8) ≠ 0) ∧
    (∃ (b : List Byte), ∃ (chal : BitVec 64), ∃ (at0 : Time), ∃ (rest : List (List Byte × BitVec 64 × Time)), ∃ (s : State), s.testMode = false ∧ s.sec.checking = (b, chal, at0) :: rest ∧ operating s = true ∧ (lifeSealed s = false ∨ svcEn s = false ∨ s.sec.tokLock = true ∨ tokenGood s b chal = false)) :=
  ⟨⟨up, by decide +kernel⟩,
   ⟨State.reset, by decide +kernel⟩,
   ⟨{ up with pcie := { Pcie.reset with up := true } }, by decide +kernel⟩,
   ⟨token0, 0, 0, [], tokened, by decide +kernel⟩,
   ⟨[], 0, 0, [], { up with sec := { Security.reset with checking := [([], 0, 0)] } }, by decide +kernel⟩⟩

theorem witness_ServiceCountsDownAndEndsInFiveSteps :
    (∃ (t : Time), ∃ (s : State), s.testMode = false ∧ curOf s = .service ∧ s.session.remain ≠ 0 ∧ s.session.remainAt + tSecond ≤ max s.now t) ∧
    (∃ (s : State), s.testMode = false ∧ curOf s = .service ∧ s.session.remain = 0) ∧
    (∃ (s : State), s.testMode = false ∧ curOf s = .service) ∧
    (∃ (s : State), s.testMode = false ∧ curOf s ≠ .service) :=
  ⟨⟨tSecond, { serviceDev with session := { serviceDev.session with remain := 1 } }, by decide +kernel⟩,
   ⟨serviceDev, by decide +kernel⟩,
   ⟨serviceDev, by decide +kernel⟩,
   ⟨up, by decide +kernel⟩⟩

theorem witness_PublicTapInstructionsCaptureOrAreBypassed :
    (∃ (s : State), s.testMode = false ∧ tapDriveOk s = true) ∧
    (∃ (s : State), s.testMode = false ∧ tapDriveOk s = false) ∧
    (∃ (s : State), s.testMode = false) :=
  ⟨⟨up, by decide +kernel⟩,
   ⟨serviceDev, by decide +kernel⟩,
   ⟨up, by decide +kernel⟩⟩

theorem witness_TracePortSendsPacketsInOrder :
    (∃ (t : Time), ∃ (r : Fin 16), ∃ (p : List (List Word)), ∃ (ps : List (List (List Word))), ∃ (s : State), s.testMode = false ∧ traceRuns s = true ∧ s.fabric.traceAt + 61 * tXC ≤ max s.now t ∧ (s.fabric.coll.get r).packets = p :: ps) ∧
    (∃ (t : Time), ∃ (r : Fin 16), ∃ (t0 : Time), ∃ (w : List Word), ∃ (rs : List (Time × List Word)), ∃ (s : State), s.testMode = false ∧ traceRuns s = true ∧ s.fabric.traceAt + 61 * tXC ≤ max s.now t ∧ (s.fabric.coll.get r).packets = [] ∧ (s.fabric.coll.get r).recs = (t0, w) :: rs ∧ rs.length < 8 ∧ t0 + tUs ≤ max s.now t) ∧
    (∃ (s : State), s.testMode = false ∧ traceRuns s = true ∧ (s.fabric.traceOn = false ∨ s.fabric.stepDue = true ∨ 256 ≤ s.fabric.sinceSync)) ∧
    (∃ (p : List (List Word)), ∃ (ps : List (List (List Word))), ∃ (s : State), s.testMode = false ∧ traceRuns s = true ∧ s.fabric.traceOn = true ∧ s.fabric.stepDue = false ∧ s.fabric.sinceSync < 256 ∧ s.fabric.traceQ = p :: ps) ∧
    (∃ (s : State), s.testMode = false ∧ traceRuns s = false) :=
  ⟨⟨61 * tXC, 0, [], [], modFabric traced fun f => { f with coll := Vector.replicate 16 { Collector.reset with packets := [[]] } }, by decide +kernel⟩,
   ⟨61 * tXC + tUs, 0, 0, [], [], modFabric traced fun f => { f with coll := Vector.replicate 16 { Collector.reset with recs := [(0, [])] } }, by decide +kernel⟩,
   ⟨traced, by decide +kernel⟩,
   ⟨[], [], modFabric traced fun f => { f with traceOn := true, traceQ := [[]] }, by decide +kernel⟩,
   ⟨State.reset, by decide +kernel⟩⟩

theorem witness_FlashDiscoveryLeadsToTheHeadersOrStops :
    (∃ (s : State), s.testMode = false ∧ s.boot.phase = .pllWait) ∧
    (∃ (t : Nat), ∃ (r : Sfdp), ∃ (s : State), s.testMode = false ∧ s.boot.phase = .sfdp ∧ s.boot.phaseAt + tMs ≤ max s.now t ∧ r.signature = true ∧ 8 ≤ r.minorRev.toNat ∧ r.basicTable = true ∧ r.profileTable = true ∧ r.read8D = true ∧ r.addr4 = true ∧ r.erase4K = true ∧ 2 ^ 28 ≤ r.bytes) ∧
    (∃ (t : Nat), ∃ (r : Sfdp), ∃ (s : State), s.testMode = false ∧ s.boot.phase = .sfdp ∧ s.boot.phaseAt + tMs ≤ max s.now t ∧ (r.signature = false ∨ r.minorRev.toNat < 8 ∨ r.basicTable = false ∨ r.profileTable = false ∨ r.read8D = false ∨ r.addr4 = false ∨ r.erase4K = false ∨ r.bytes < 2 ^ 28)) ∧
    (∃ (s : State), s.testMode = false ∧ s.boot.phase = .octal) ∧
    (∃ (reads : List Bool), ∃ (s : State), s.testMode = false ∧ s.boot.phase = .calib ∧ reads.length = 32 ∧ (∀ r ∈ reads, r = true)) ∧
    (∃ (reads : List Bool), ∃ (s : State), s.testMode = false ∧ s.boot.phase = .calib ∧ false ∈ reads) :=
  ⟨⟨boot .pllWait, by decide +kernel⟩,
   ⟨tMs, ⟨true, 8, true, true, true, true, true, true, 2 ^ 28⟩, boot .sfdp, by decide +kernel⟩,
   ⟨tMs, ⟨true, 7, true, true, true, true, true, true, 2 ^ 28⟩, boot .sfdp, by decide +kernel⟩,
   ⟨boot .octal, by decide +kernel⟩,
   ⟨List.replicate 32 true, boot .calib, by decide +kernel⟩,
   ⟨[false], boot .calib, by decide +kernel⟩⟩

theorem witness_ImageSelectionJudgesEachSlot :
    (∃ (s : State), s.testMode = false ∧ s.boot.phase = .headers ∧ frontReason s .a = 7 ∧ frontReason s .b ≠ 7) ∧
    (∃ (s : State), s.testMode = false ∧ s.boot.phase = .headers ∧ frontReason s .a ≠ 7 ∧ frontReason s .b = 7) ∧
    (∃ (s : State), s.testMode = false ∧ s.boot.phase = .headers ∧ frontReason s .a = 7 ∧ frontReason s .b = 7) ∧
    (∃ (s : State), s.testMode = false ∧ s.boot.phase = .headers ∧ frontReason s .a ≠ 7 ∧ frontReason s .b ≠ 7) ∧
    (∃ (sl : Slot), ∃ (s : State), s.testMode = false ∧ s.boot.phase = .verify ∧ s.boot.cand = [sl] ∧ s.boot.verified = []) ∧
    (∃ (x : Slot), ∃ (y : Slot), ∃ (s : State), s.testMode = false ∧ s.boot.phase = .verify ∧ s.boot.cand = [x, y] ∧ x ≠ y ∧ slotGen s .a ≠ slotGen s .b ∧ s.boot.verified = []) ∧
    (∃ (x : Slot), ∃ (y : Slot), ∃ (v : Verified), ∃ (s : State), s.testMode = false ∧ s.boot.phase = .verify ∧ s.boot.cand = [x, y] ∧ x ≠ y ∧ slotGen s .a ≠ slotGen s .b ∧ s.boot.verified = [v] ∧ v.slot = x) ∧
    (∃ (s : State), s.testMode = false ∧ s.boot.phase = .verify ∧ s.boot.cand = [.a, .b] ∧ slotGen s .a = slotGen s .b ∧ s.boot.verified = []) ∧
    (∃ (v : Verified), ∃ (s : State), s.testMode = false ∧ s.boot.phase = .verify ∧ s.boot.cand = [.a, .b] ∧ slotGen s .a = slotGen s .b ∧ s.boot.verified = [v] ∧ v.slot = .a) ∧
    (∃ (rr : List (Nat × Byte)), ∃ (s : State), s.testMode = false ∧ s.boot.phase = .load ∧ loadAwake s rr) :=
  ⟨⟨{ boot .headers with flash := goodFlash }, by decide +kernel⟩,
   ⟨{ boot .headers with flash := goodFlash.map fun x => (x.1 + 0x8000000, x.2) }, by decide +kernel⟩,
   ⟨{ boot .headers with flash := goodFlash ++ goodFlash.map fun x => (x.1 + 0x8000000, x.2) }, by decide +kernel⟩,
   ⟨boot .headers, by decide +kernel⟩,
   ⟨.a, modBoot (boot .verify) fun b => { b with cand := [.a] }, by decide +kernel⟩,
   ⟨.a, .b, { modBoot (boot .verify) fun b => { b with cand := [.a, .b] } with flash := goodFlash }, by decide +kernel⟩,
   ⟨.a, .b, ⟨.a, [], true⟩, { modBoot (boot .verify) fun b => { b with cand := [.a, .b], verified := [⟨.a, [], true⟩] } with flash := goodFlash }, by decide +kernel⟩,
   ⟨modBoot (boot .verify) fun b => { b with cand := [.a, .b] }, by decide +kernel⟩,
   ⟨⟨.a, [], true⟩, modBoot (boot .verify) fun b => { b with cand := [.a, .b], verified := [⟨.a, [], true⟩] }, by decide +kernel⟩,
   ⟨[], { upOn with boot := (boot .load).boot }, by decide +kernel, by decide +kernel, .inr (by decide +kernel)⟩⟩

theorem witness_LockSequenceLocksAndReadyEndsTheBoot :
    (∃ (t : Nat), ∃ (s : State), s.testMode = false ∧ s.boot.phase = .fwStart ∧ max s.now t ≤ s.boot.phaseAt + 100 * tMs) ∧
    (∃ (t : Nat), ∃ (s : State), s.testMode = false ∧ s.boot.phase = .fwStart ∧ s.boot.phaseAt + 100 * tMs ≤ max s.now t) ∧
    (∃ (s : State), s.testMode = false ∧ s.boot.phase = .digest) ∧
    (∃ (s : State), s.testMode = false ∧ s.boot.phase = .lock) ∧
    (∃ (s : State), s.testMode = false ∧ s.boot.phase = .priming ∧ s.power.resetting = false ∧ s.obs.halted = false) :=
  ⟨⟨100 * tMs, boot .fwStart, by decide +kernel⟩,
   ⟨100 * tMs, boot .fwStart, by decide +kernel⟩,
   ⟨boot .digest, by decide +kernel⟩,
   ⟨boot .lock, by decide +kernel⟩,
   ⟨boot .priming, by decide +kernel⟩⟩

theorem witness_StagingCommandsStartOrAnswerAtOnce :
    (∃ (t : Time), ∃ (c : Instr), ∃ (s : State), s.testMode = false ∧ stagingServed s = true ∧ s.stg.busy = true ∧ (∃ foff len boff, c ∈ [Instr.stgBegin t, .stgErase t foff len, .stgProgram t foff len boff, .stgReadback t foff len boff, .stgFinalize t, .stgAbort t])) ∧
    (∃ (t : Time), ∃ (c : Instr), ∃ (s : State), s.testMode = false ∧ stagingServed s = true ∧ s.stg.busy = false ∧ stagingOk s = false ∧ (∃ foff len boff, c ∈ [Instr.stgBegin t, .stgErase t foff len, .stgProgram t foff len boff, .stgReadback t foff len boff, .stgFinalize t, .stgAbort t])) ∧
    (∃ (s : State), s.testMode = false ∧ stagingServed s = true ∧ s.stg.busy = false ∧ stagingOk s = true) ∧
    (∃ (foff : BitVec 27), ∃ (len : BitVec 27), ∃ (s : State), s.testMode = false ∧ stagingServed s = true ∧ s.stg.busy = false ∧ stagingOk s = true ∧ s.stg.session = true ∧ min len.toNat (slotSize - foff.toNat / 4096 * 4096) ≠ 0) ∧
    (∃ (foff : BitVec 27), ∃ (len : BitVec 27), ∃ (boff : BitVec 24), ∃ (s : State), s.testMode = false ∧ stagingServed s = true ∧ s.stg.busy = false ∧ stagingOk s = true ∧ s.stg.session = true ∧ (stgOperands s 256 true foff len boff).2.1 ≠ 0) ∧
    (∃ (foff : BitVec 27), ∃ (len : BitVec 27), ∃ (boff : BitVec 24), ∃ (s : State), s.testMode = false ∧ stagingServed s = true ∧ s.stg.busy = false ∧ stagingOk s = true ∧ (stgOperands s 256 true foff len boff).2.1 ≠ 0) ∧
    (∃ (s : State), s.testMode = false ∧ stagingServed s = true ∧ s.stg.busy = false ∧ stagingOk s = true ∧ s.stg.session = true) ∧
    (∃ (t : Time), ∃ (c : Instr), ∃ (s : State), s.testMode = false ∧ stagingServed s = true ∧ s.stg.busy = false ∧ stagingOk s = true ∧ s.stg.session = false ∧ (c = .stgFinalize t ∨ c = .stgAbort t)) :=
  ⟨⟨0, .stgBegin 0, { staged with stg := { Staging.reset with busy := true } }, by exact ⟨rfl, rfl, rfl, 0, 0, 0, by simp⟩⟩,
   ⟨0, .stgBegin 0, { staged with stgSize := 0 }, by exact ⟨rfl, rfl, rfl, rfl, 0, 0, 0, by simp⟩⟩,
   ⟨staged, by decide +kernel⟩,
   ⟨0, 4096, inSession, by decide +kernel⟩,
   ⟨0, 4096, 0, inSession, by decide +kernel⟩,
   ⟨0, 4096, 0, staged, by decide +kernel⟩,
   ⟨inSession, by decide +kernel⟩,
   ⟨0, .stgAbort 0, staged, by decide +kernel⟩⟩

theorem witness_StagingWorkWritesTheFlashItNames :
    (∃ (s : State), s.testMode = false ∧ operating s = true ∧ s.stg.busy = true ∧ s.stg.cmdReg = 1 ∧ s.stg.pendResult = 0) ∧
    (∃ (s : State), s.testMode = false ∧ operating s = true ∧ s.stg.busy = true ∧ s.stg.cmdReg = 2 ∧ s.stg.pendResult = 0) ∧
    (∃ (s : State), s.testMode = false ∧ operating s = true ∧ s.stg.busy = true ∧ s.stg.cmdReg = 3 ∧ s.stg.pendResult = 0) ∧
    (∃ (s : State), s.testMode = false ∧ operating s = true ∧ s.stg.busy = true ∧ s.stg.cmdReg = 4 ∧ s.stg.pendResult = 0) ∧
    (∃ (s : State), s.testMode = false ∧ operating s = true ∧ s.stg.busy = true ∧ s.stg.cmdReg = 5 ∧ s.stg.pendResult ≠ 0) ∧
    (∃ (s : State), s.testMode = false ∧ operating s = true ∧ s.stg.busy = true ∧ (s.stg.cmdReg = 1 ∨ s.stg.cmdReg = 2 ∨ s.stg.cmdReg = 3)) :=
  ⟨⟨{ staged with stg := { Staging.reset with busy := true, cmdReg := 1 } }, by decide +kernel⟩,
   ⟨{ staged with stg := { Staging.reset with busy := true, cmdReg := 2 } }, by decide +kernel⟩,
   ⟨{ staged with stg := { Staging.reset with busy := true, cmdReg := 3 } }, by decide +kernel⟩,
   ⟨{ staged with stg := { Staging.reset with busy := true, cmdReg := 4 } }, by decide +kernel⟩,
   ⟨{ staged with stg := { Staging.reset with busy := true, cmdReg := 5, pendResult := 1 } }, by decide +kernel⟩,
   ⟨{ staged with stg := { Staging.reset with busy := true, cmdReg := 2 } }, by decide +kernel⟩⟩

theorem witness_LotteryGrantsByAgeThenByTickets :
    (∃ (t : Time), ∃ (p : Fin 21), ∃ (e : Sent), ∃ (s : State), ContestAt t p s ∧ portClass p = 0 ∧ NextTransfer s p e ∧ e.part = none) ∧
    (∃ (t : Time), ∃ (e : Sent), ∃ (fn : FnId), ∃ (v : Nat), ∃ (s : State), ContestAt t 16 s ∧ NextTransfer s 16 e ∧ e.part = none ∧ e.x = .message fn v) ∧
    (∃ (t : Time), ∃ (l : LinkId), ∃ (e : Sent), ∃ (q : Packet), ∃ (s : State), ContestAt t (linkPort l) s ∧ NextTransfer s (linkPort l) e ∧ e.part = none ∧ e.x = .frame l ∧ (s.links.get l).outq.find? (·.1 == e.id) = some (e.id, q) ∧ hasCredit (s.links.get l) q.msg = true ∧ (s.links.get l).sinceCtrl < 179) ∧
    (∃ (t : Time), ∃ (p : Fin 21), ∃ (a : Sent), ∃ (b : Sent), ∃ (s : State), ContestAt t p s ∧ portClass p = 0 ∧ NextTransfer s p a ∧ NextTransfer s p b ∧ a.part = none ∧ b.part = none ∧ a.id ≠ b.id ∧ a.req < b.req ∧ inputOf a.req.val p ≠ inputOf b.req.val p ∧ 0 < portAge (inForce (atTime s t)) p) ∧
    (∃ (t : Time), ∃ (p : Fin 21), ∃ (a : Sent), ∃ (b : Sent), ∃ (s : State), ContestAt t p s ∧ portClass p = 0 ∧ NextTransfer s p a ∧ NextTransfer s p b ∧ a.part = none ∧ b.part = none ∧ a.id ≠ b.id ∧ inputOf a.req.val p ≠ inputOf b.req.val p ∧ 0 < portAge (inForce (atTime s t)) p ∧ ticketsOf (inForce (atTime s t)) p a.req.val = 0 ∧ ticketsOf (inForce (atTime s t)) p b.req.val ≠ 0) ∧
    (∃ (t : Time), ∃ (p : Fin 21), ∃ (s : State), ContestAt t p s) ∧
    (∃ (t : Time), ∃ (p : Fin 21), ∃ (s : State), s.testMode = false ∧ contestDue (atTime s t) p = false) :=
  ⟨⟨0, 0, reads0 5 0, sent [reads0 5 0] up, by simp only [ContestAt, NextTransfer]; decide +kernel⟩,
   ⟨0, ⟨5, 8, none, .message 0 3⟩, 0, 3, sent [⟨5, 8, none, .message 0 3⟩] staged, by simp only [ContestAt, NextTransfer]; decide +kernel⟩,
   ⟨0, 2, ⟨5, 20, none, .frame 2⟩, sent0, modLink (sent [⟨5, 20, none, .frame 2⟩] (peered up)) 2 fun k => { k with outq := [(5, sent0)], credits := Vector.replicate 3 1 }, by simp only [ContestAt, NextTransfer]; decide +kernel⟩,
   ⟨0, 0, reads0 5 0, reads0 6 1, sent [reads0 5 0, reads0 6 1] up, by simp only [ContestAt, NextTransfer]; decide +kernel⟩,
   ⟨0, 0, reads0 5 0, reads0 6 1, modFabric (sent [reads0 5 0, reads0 6 1] up) fun f => { f with live := { f.live with ss := vset f.live.ss 0 0 } }, by simp only [ContestAt, NextTransfer]; decide +kernel⟩,
   ⟨0, 0, up, by simp only [ContestAt, NextTransfer]; decide +kernel⟩,
   ⟨0, 0, modPort up 0 fun p => { p with lastAt := some 0 }, by decide +kernel⟩⟩

theorem witness_RegulatorsAccrueAndTicketsCommit :
    (∃ (t : Time), ∃ (s : State), s.testMode = false ∧ s.obs.halted = false ∧ operating s = true ∧ s.fabric.accruedXC ≠ some (xcNow (atTime s t))) ∧
    (∃ (t : Time), ∃ (s : State), s.testMode = false ∧ s.fabric.accruedXC = some (xcNow (atTime s t))) ∧
    (∃ (s : State), s.testMode = false ∧ s.fabric.mode ≠ 1 ∧ s.obs.halted = false ∧ s.boot.phase ≠ .held) ∧
    (∃ (s : State), s.testMode = false ∧ s.fabric.mode = 1) ∧
    (∃ (m : BitVec 2), ∃ (s : State), s.testMode = false ∧ s.obs.halted = false ∧ s.boot.phase ≠ .held ∧ modeAllowed s m = true ∧ m ≠ s.fabric.mode) ∧
    (∃ (s : State), s.testMode = false ∧ locked s = true) :=
  ⟨⟨0, up, by decide +kernel⟩,
   ⟨0, modFabric up fun f => { f with accruedXC := some 0 }, by decide +kernel⟩,
   ⟨boot .lock, by decide +kernel⟩,
   ⟨modFabric up fun f => { f with mode := 1 }, by decide +kernel⟩,
   ⟨1, up, by decide +kernel⟩,
   ⟨up, by decide +kernel⟩⟩

theorem witness_LoopEngineOutputsNeverDriveBoth :
    (∃ (s : State), ∃ (ch : ChanId), ((s.le.get ch).period.any fun p => decide (atCount s < p + (s.le.get ch).dead)) = true) ∧
    (∃ (s : State), ∃ (ch : ChanId), (s.le.get ch).st ≠ .run ∧ (s.le.get ch).st ≠ .decay) ∧
    (∃ (s : State), ∃ (ch : ChanId), ((s.le.get ch).elim = true ∨ (s.le.get ch).blank = true ∨ (s.le.get ch).pdir = .none)) :=
  ⟨⟨loop fun c => { c with period := some 0, cfg := c.cfg.set 2 1 }, 0, by decide +kernel⟩,
   ⟨up, 0, by decide +kernel⟩,
   ⟨up, 0, by decide +kernel⟩⟩

theorem witness_SampleBoundaryRunsItsFourSteps :
    (∃ (t : Time), ∃ (ch : Fin 16), ∃ (s : State), let n := atCount (atTime s t); let c := (s.le.get ch).quadAhead n; s.testMode = false ∧ leRuns s ch = true ∧ n % c.sdiv = 0 ∧ c.sampleAt ≠ some n ∧ c.st = .run ∧ c.pend = false ∧ c.returned = none ∧ c.late = [] ∧ field (wordAt c.inputs 16) 3 0 = 0) ∧
    (∃ (t : Time), ∃ (ch : ChanId), ∃ (s : State), s.testMode = false ∧ leRuns s ch = true ∧ atCount (atTime s t) % (s.le.get ch).sdiv = 0 ∧ (s.le.get ch).sampleAt ≠ some (atCount (atTime s t)) ∧ (s.le.get ch).pend = true ∧ (s.le.get ch).late = []) ∧
    (∃ (t : Time), ∃ (ch : ChanId), ∃ (ws : List Word), ∃ (s : State), s.testMode = false ∧ leRuns s ch = true ∧ atCount (atTime s t) % (s.le.get ch).sdiv = 0 ∧ (s.le.get ch).sampleAt ≠ some (atCount (atTime s t)) ∧ (s.le.get ch).returned = some ws) ∧
    (∃ (t : Time), ∃ (ch : ChanId), ∃ (s : State), s.testMode = false ∧ leRuns s ch = true ∧ (atCount (atTime s t) + 2) % (s.le.get ch).sdiv = 0 ∧ (s.le.get ch).readAt ≠ some (atCount (atTime s t))) ∧
    (∃ (ch : ChanId), ∃ (ws : List Word), ∃ (s : State), s.testMode = false ∧ leRuns s ch = true ∧ (s.le.get ch).inTransit = some (ws, false) ∧ (s.le.get ch).awaiting = true) :=
  ⟨⟨0, 0, loop fun c => { c with st := .run }, by decide +kernel⟩,
   ⟨0, 0, loop fun c => { c with st := .stopped, pend := true }, by decide +kernel⟩,
   ⟨0, 0, [1], loop fun c => { c with returned := some [1] }, by decide +kernel⟩,
   ⟨0, 0, loop id, by decide +kernel⟩,
   ⟨0, [1], loop fun c => { c with inTransit := some ([1], false), awaiting := true }, by decide +kernel⟩⟩

theorem witness_LoopEngineCommandsMoveTheChannel :
    (∃ (ch : ChanId), ∃ (seq : BitVec 8), ∃ (s : State), s.testMode = false ∧ leRuns s ch = true ∧ seq ≠ (s.le.get ch).cmdSeq ∧ (s.le.get ch).st = .stopped) ∧
    (∃ (ch : ChanId), ∃ (seq : BitVec 8), ∃ (s : State), s.testMode = false ∧ leRuns s ch = true ∧ seq ≠ (s.le.get ch).cmdSeq ∧ (s.le.get ch).st = .run) ∧
    (∃ (ch : ChanId), ∃ (seq : BitVec 8), ∃ (s : State), s.testMode = false ∧ leRuns s ch = true ∧ seq ≠ (s.le.get ch).cmdSeq ∧ ((s.le.get ch).st = .stopped ∨ (s.le.get ch).st = .efault)) ∧
    (∃ (ch : ChanId), ∃ (s : State), s.testMode = false ∧ leRuns s ch = true) ∧
    (∃ (t : Time), ∃ (ch : ChanId), ∃ (s : State), s.testMode = false ∧ operating s = true ∧ leEarly (atTime s t) ch = false ∧ (s.le.get ch).late = []) :=
  ⟨⟨0, 1, loop fun c => { c with st := .stopped }, by decide +kernel⟩,
   ⟨0, 1, loop fun c => { c with st := .run }, by decide +kernel⟩,
   ⟨0, 1, loop fun c => { c with st := .efault }, by decide +kernel⟩,
   ⟨0, loop id, by decide +kernel⟩,
   ⟨0, 0, up, by decide +kernel⟩⟩

theorem witness_QuadratureCountsAndOnTimeLimits :
    (∃ (t : Time), ∃ (ch : ChanId), ∃ (a : Bool), ∃ (b : Bool), ∃ (s : State), s.testMode = false ∧ leRuns s ch = true ∧ (s.le.get ch).msrc = false ∧ (s.le.get ch).st = .run ∧ (s.le.get ch).qfilt = 0 ∧ (s.le.get ch).pinsAt ≠ some (atCount (atTime s t)) ∧ (s.le.get ch).quadAt ≠ some (atCount (atTime s t)) ∧ (s.le.get ch).sync.getD 1 (false, false) = (a, b) ∧ quadStep (s.le.get ch).pair (a, b) = .fwd) ∧
    (∃ (t : Time), ∃ (ch : ChanId), ∃ (a : Bool), ∃ (b : Bool), ∃ (s : State), s.testMode = false ∧ leRuns s ch = true ∧ (s.le.get ch).msrc = false ∧ (s.le.get ch).st = .stopped ∧ (s.le.get ch).qfilt = 0 ∧ (s.le.get ch).pinsAt ≠ some (atCount (atTime s t)) ∧ (s.le.get ch).quadAt ≠ some (atCount (atTime s t)) ∧ (s.le.get ch).sync.getD 1 (false, false) = (a, b) ∧ quadStep (s.le.get ch).pair (a, b) = .double ∧ atCount (atTime s t) % 3840 ≠ 0) ∧
    (∃ (t : Time), ∃ (ch : ChanId), ∃ (s : State), s.testMode = false ∧ leRuns s ch = true ∧ (s.le.get ch).msrc = false ∧ (s.le.get ch).pinsAt ≠ some (atCount (atTime s t)) ∧ (s.le.get ch).quadAt = some (atCount (atTime s t))) ∧
    (∃ (t : Time), ∃ (s : State), s.testMode = false ∧ operating s = true ∧ atCount (atTime s t) % 3840 = 0) ∧
    (∃ (t : Time), ∃ (ch : ChanId), ∃ (s : State), s.testMode = false ∧ leRuns s ch = true ∧ atCount (atTime s t) % (s.le.get ch).pper = 0 ∧ (s.le.get ch).period ≠ some (atCount (atTime s t)) ∧ (s.le.get ch).st = .run ∧ (s.le.get ch).sampleAt ≠ some (atCount (atTime s t))) ∧
    (∃ (t : Time), ∃ (ch : ChanId), ∃ (s : State), s.testMode = false ∧ leRuns s ch = true ∧ atCount (atTime s t) % (s.le.get ch).pper = 0 ∧ (s.le.get ch).period ≠ some (atCount (atTime s t)) ∧ (s.le.get ch).st = .decay) ∧
    (∃ (t : Time), ∃ (ch : ChanId), ∃ (s : State), s.testMode = false ∧ leRuns s ch = true ∧ atCount (atTime s t) % ((s.le.get ch).ewin * 3840) = 0) ∧
    (∃ (t : Time), ∃ (ch : ChanId), ∃ (s : State), s.testMode = false ∧ leRuns s ch = true ∧ (s.le.get ch).elim = false ∧ atCount (atTime s t) % ((s.le.get ch).ewin * 3840) ≠ 0 ∧ (s.le.get ch).onmax ≤ (s.le.get ch).onCntAt (atCount (atTime s t))) :=
  ⟨⟨0, 0, true, false, loop fun c => { c with st := .run, sync := [(true, false), (true, false)] }, by decide +kernel⟩,
   ⟨19200, 0, true, true, loop fun c => { c with st := .stopped, sync := [(true, true), (true, true)] }, by decide +kernel⟩,
   ⟨0, 0, loop fun c => { c with quadAt := some 0 }, by decide +kernel⟩,
   ⟨0, up, by decide +kernel⟩,
   ⟨0, 0, loop fun c => { c with st := .run }, by decide +kernel⟩,
   ⟨0, 0, loop fun c => { c with st := .decay }, by decide +kernel⟩,
   ⟨0, 0, loop id, by decide +kernel⟩,
   ⟨19200, 0, loop fun c => { c with onCnt := 1 }, by decide +kernel⟩⟩

theorem witness_ScalarInstructionsWriteOneRegister :
    (∃ (k : Issue), ∃ (a : Src), ∃ (b : Src), ∃ (c : CtxId), ∃ (s : State), CanIssue k (srcRegs a ++ srcRegs b) s c) ∧
    (∃ (k : Issue), ∃ (ra : Reg), ∃ (rb : Reg), ∃ (c : CtxId), ∃ (s : State), CanIssue k [ra, rb] s c) ∧
    (∃ (k : Issue), ∃ (ra : Reg), ∃ (rb : Reg), ∃ (c : CtxId), ∃ (s : State), CanIssue k [ra, rb] s c ∧ trapOf (ctx s k.f c).trapen (faddRun (regVal s k.f c ra) (regVal s k.f c rb)).2 false = none) ∧
    (∃ (k : Issue), ∃ (ra : Reg), ∃ (rb : Reg), ∃ (c : CtxId), ∃ (s : State), CanIssue k [ra, rb] s c ∧ trapOf (ctx s k.f c).trapen (fsubRun (regVal s k.f c ra) (regVal s k.f c rb)).2 false = none) ∧
    (∃ (k : Issue), ∃ (ra : Reg), ∃ (rb : Reg), ∃ (c : CtxId), ∃ (s : State), CanIssue k [ra, rb] s c ∧ trapOf (ctx s k.f c).trapen (fmulRun (regVal s k.f c ra) (regVal s k.f c rb)).2 false = none) ∧
    (∃ (k : Issue), ∃ (dir : FcvtDir), ∃ (ra : Reg), ∃ (c : CtxId), ∃ (s : State), CanIssue k [ra] s c ∧ trapOf (ctx s k.f c).trapen (fcvtRun dir (regVal s k.f c ra)).2 false = none) :=
  ⟨⟨at0, .imm 1, .reg 2, 0, run0, by simp only [CanIssue]; decide +kernel⟩,
   ⟨at0, 2, 3, 0, run0, by simp only [CanIssue]; decide +kernel⟩,
   ⟨at0, 2, 3, 0, run0, by simp only [CanIssue]; decide +kernel⟩,
   ⟨at0, 2, 3, 0, run0, by simp only [CanIssue]; decide +kernel⟩,
   ⟨at0, 2, 3, 0, run0, by simp only [CanIssue]; decide +kernel⟩,
   ⟨at0, .toInt, 2, 0, run0, by simp only [CanIssue]; decide +kernel⟩⟩

theorem witness_TrappingInstructionsKeepTheirDestination :
    (∃ (k : Issue), ∃ (ra : Reg), ∃ (rb : Reg), ∃ (c : CtxId), ∃ (e : FaultKind), ∃ (s : State), CanIssue k [ra, rb] s c ∧ trapOf (ctx s k.f c).trapen (faddRun (regVal s k.f c ra) (regVal s k.f c rb)).2 false = some e) ∧
    (∃ (k : Issue), ∃ (ra : Reg), ∃ (rb : Reg), ∃ (c : CtxId), ∃ (e : FaultKind), ∃ (s : State), CanIssue k [ra, rb] s c ∧ trapOf (ctx s k.f c).trapen (fsubRun (regVal s k.f c ra) (regVal s k.f c rb)).2 false = some e) ∧
    (∃ (k : Issue), ∃ (ra : Reg), ∃ (rb : Reg), ∃ (c : CtxId), ∃ (e : FaultKind), ∃ (s : State), CanIssue k [ra, rb] s c ∧ trapOf (ctx s k.f c).trapen (fmulRun (regVal s k.f c ra) (regVal s k.f c rb)).2 false = some e) ∧
    (∃ (k : Issue), ∃ (dir : FcvtDir), ∃ (ra : Reg), ∃ (c : CtxId), ∃ (e : FaultKind), ∃ (s : State), CanIssue k [ra] s c ∧ trapOf (ctx s k.f c).trapen (fcvtRun dir (regVal s k.f c ra)).2 false = some e) ∧
    (∃ (k : Issue), ∃ (a : Src), ∃ (b : Src), ∃ (c : CtxId), ∃ (s : State), s.testMode = false ∧ runningCtx s k.f = some c ∧ mayIssue (atTime s k.t) k c = true ∧ (srcRegs a ++ srcRegs b).any (regBusy (atTime s k.t) k.f (ctx s k.f c)) = false ∧ fetchOk (frond s k.f) k.ia = false) ∧
    (∃ (k : Issue), ∃ (a : Src), ∃ (b : Src), ∃ (c : CtxId), ∃ (s : State), s.testMode = false ∧ runningCtx s k.f = some c ∧ mayIssue (atTime s k.t) k c = true ∧ (srcRegs a ++ srcRegs b).any (regBusy (atTime s k.t) k.f (ctx s k.f c)) = false ∧ fetchOk (frond s k.f) k.ia = true ∧ markAt s (padAddr k.f .w (k.ia.toNat / 4)) = some .uncorrectable) :=
  ⟨⟨at0, 2, 3, 0, .nv, runs (fun x => { x with trapen := 0xFF, g := vset (vset x.g 2 0x7F800000) 3 0xFF800000 }) id, by simp only [CanIssue]; decide +kernel⟩,
   ⟨at0, 2, 3, 0, .nv, runs (fun x => { x with trapen := 0xFF, g := vset (vset x.g 2 0x7F800000) 3 0x7F800000 }) id, by simp only [CanIssue]; decide +kernel⟩,
   ⟨at0, 2, 3, 0, .nv, runs (fun x => { x with trapen := 0xFF, g := vset x.g 2 0x7F800000 }) id, by simp only [CanIssue]; decide +kernel⟩,
   ⟨at0, .toInt, 2, 0, .nv, runs (fun x => { x with trapen := 0xFF, g := vset x.g 2 0x7FC00000 }) id, by simp only [CanIssue]; decide +kernel⟩,
   ⟨at0, .imm 1, .imm 2, 0, runs id fun f => { f with codelen := 0 }, by decide +kernel⟩,
   ⟨at0, .imm 1, .imm 2, 0, setMark run0 (padAddr 0 .w 0) (some .uncorrectable), by decide +kernel⟩⟩

theorem witness_MultiplyAndDivideUnitsHoldTheirResults :
    (∃ (k : Issue), ∃ (rd : Reg), ∃ (ra : Reg), ∃ (rb : Reg), ∃ (c : CtxId), ∃ (s : State), ∃ (i : Instr), ∃ (v : Word), ∃ (n : Nat), CanIssue k [ra, rb] s c ∧ (frond s k.f).mul = none ∧ (i = .mul k rd ra rb ∧ v = mulRun (regVal s k.f c ra) (regVal s k.f c rb) ∧ n = mulFc true (regVal s k.f c rb) ∨ i = .mulh k rd ra rb ∧ v = mulhRun (regVal s k.f c ra) (regVal s k.f c rb) ∧ n = mulFc true (regVal s k.f c rb) ∨ i = .mulhu k rd ra rb ∧ v = mulhuRun (regVal s k.f c ra) (regVal s k.f c rb) ∧ n = mulFc false (regVal s k.f c rb))) ∧
    (∃ (k : Issue), ∃ (rd : Reg), ∃ (ra : Reg), ∃ (rb : Reg), ∃ (c : CtxId), ∃ (s : State), ∃ (i : Instr), ∃ (v : Word), ∃ (e : BitVec 8), ∃ (n : Time), CanIssue k [ra, rb] s c ∧ (frond s k.f).div = none ∧ (let a := regVal s k.f c ra; let b := regVal s k.f c rb; i = .fdiv k rd ra rb ∧ v = (fdivRun a b).1 ∧ e = (fdivRun a b).2 ∧ n = 12 ∨ i = .div k rd ra rb ∧ v = (divRun a b).1 ∧ e = (divRun a b).2.2 ∧ n = 19 ∨ i = .divu k rd ra rb ∧ v = (divuRun a b).1 ∧ e = (divuRun a b).2.2 ∧ n = 19 ∨ i = .rem k rd ra rb ∧ v = (divRun a b).2.1 ∧ e = (divRun a b).2.2 ∧ n = 19 ∨ i = .remu k rd ra rb ∧ v = (divuRun a b).2.1 ∧ e = (divuRun a b).2.2 ∧ n = 19)) ∧
    (∃ (k : Issue), ∃ (ra : Reg), ∃ (c : CtxId), ∃ (s : State), CanIssue k [ra] s c ∧ (frond s k.f).div = none) ∧
    (∃ (k : Issue), ∃ (rlo : Reg), ∃ (rhi : Reg), ∃ (c : CtxId), ∃ (s : State), CanIssue k [rlo, rhi] s c ∧ (frond s k.f).div = none) ∧
    (∃ (k : Issue), ∃ (ra : Reg), ∃ (rb : Reg), ∃ (c : CtxId), ∃ (s : State), CanIssue k [ra, rb] s c ∧ (frond s k.f).div = none) ∧
    (∃ (k : Issue), ∃ (rd : Reg), ∃ (ra : Reg), ∃ (rb : Reg), ∃ (c : CtxId), ∃ (s : State), ∃ (i : Instr), CanIssue k [ra, rb] s c ∧ ((frond s k.f).mul.isSome = true ∧ (i = .mul k rd ra rb ∨ i = .mulh k rd ra rb ∨ i = .mulhu k rd ra rb) ∨ (frond s k.f).div.isSome = true ∧ (i = .fdiv k rd ra rb ∨ i = .div k rd ra rb ∨ i = .divu k rd ra rb ∨ i = .rem k rd ra rb ∨ i = .remu k rd ra rb ∨ i = .xrcp k rd ra rb ∨ ∃ rs rr, i = .xgiv k rd rs rr ra rb))) ∧
    (∃ (k : Issue), ∃ (ra : Reg), ∃ (c : CtxId), ∃ (s : State), CanIssue k [ra] s c ∧ (frond s k.f).div.isSome = true) ∧
    (∃ (t : Time), ∃ (f : FrondId), ∃ (c : CtxId), ∃ (rd : Reg), ∃ (v : Word), ∃ (e : BitVec 8), ∃ (at0 : Time), ∃ (s : State), s.testMode = false ∧ operating s = true ∧ (frond s f).mul = some { ctx := c, outs := [(rd, v)], astat := e, trap := none, ready := at0 } ∧ at0 ≤ max s.now t) ∧
    (∃ (t : Time), ∃ (f : FrondId), ∃ (c : CtxId), ∃ (rd : Reg), ∃ (v : Word), ∃ (e : BitVec 8), ∃ (at0 : Time), ∃ (s : State), s.testMode = false ∧ operating s = true ∧ (frond s f).div = some { ctx := c, outs := [(rd, v)], astat := e, trap := none, ready := at0 } ∧ at0 ≤ max s.now t) ∧
    (∃ (t : Time), ∃ (f : FrondId), ∃ (c : CtxId), ∃ (outs : List (Reg × Word)), ∃ (v : BitVec 8), ∃ (e : FaultKind), ∃ (at0 : Time), ∃ (s : State), s.testMode = false ∧ operating s = true ∧ (frond s f).div = some { ctx := c, outs := outs, astat := v, trap := some e, ready := at0 } ∧ at0 ≤ max s.now t ∧ (ctx s f c).fault = none) :=
  ⟨⟨at0, 1, 2, 3, 0, run0, .mul at0 1 2 3, mulRun 0 0, mulFc true 0, by simp only [CanIssue]; decide +kernel⟩,
   ⟨at0, 1, 2, 3, 0, run0, .fdiv at0 1 2 3, (fdivRun 0 0).1, (fdivRun 0 0).2, 12, by simp only [CanIssue]; decide +kernel⟩,
   ⟨at0, 2, 0, run0, by simp only [CanIssue]; decide +kernel⟩,
   ⟨at0, 2, 3, 0, run0, by simp only [CanIssue]; decide +kernel⟩,
   ⟨at0, 2, 3, 0, run0, by simp only [CanIssue]; decide +kernel⟩,
   ⟨at0, 1, 2, 3, 0, runs id fun f => { f with mul := some { ctx := 0, outs := [], astat := 0, trap := none, ready := 9 } }, .mul at0 1 2 3, by refine ⟨by simp only [CanIssue]; decide +kernel, .inl ⟨by decide +kernel, .inl rfl⟩⟩⟩,
   ⟨at0, 2, 0, runs id fun f => { f with div := some { ctx := 0, outs := [], astat := 0, trap := none, ready := 9 } }, by simp only [CanIssue]; decide +kernel⟩,
   ⟨9, 0, 0, 1, 7, 0, 9, modFrond up 0 fun f => { f with mul := some { ctx := 0, outs := [(1, 7)], astat := 0, trap := none, ready := 9 } }, by decide +kernel⟩,
   ⟨9, 0, 0, 1, 7, 0, 9, modFrond up 0 fun f => { f with div := some { ctx := 0, outs := [(1, 7)], astat := 0, trap := none, ready := 9 } }, by decide +kernel⟩,
   ⟨9, 0, 0, [(1, 7)], 0, .dz, 9, modFrond up 0 fun f => { f with div := some { ctx := 0, outs := [(1, 7)], astat := 0, trap := some .dz, ready := 9 } }, by decide +kernel⟩⟩

theorem witness_DivisionAndProductsAreExact :
    (∃ (a : Word), ∃ (b : Word), b ≠ 0 ∧ ¬(a = 0x80000000 ∧ b = 0xFFFFFFFF)) ∧
    (∃ (a : Word), ∃ (b : Word), b ≠ 0 ∧ ¬(a = 0x80000000 ∧ b = 0xFFFFFFFF) ∧ 0 ≤ a.toInt) ∧
    (∃ (a : Word), ∃ (b : Word), b ≠ 0 ∧ ¬(a = 0x80000000 ∧ b = 0xFFFFFFFF) ∧ a.toInt ≤ 0) ∧
    (∃ (b : Word), b ≠ 0) ∧
    (∃ (a : Word), ∃ (b : Word), ((a32In a).isNan = true ∨ (a32In b).isNan = true)) :=
  ⟨⟨0x80000000, 1, by decide +kernel⟩,
   ⟨5, 2, by decide⟩,
   ⟨0xFFFFFFFB, 2, by decide⟩,
   ⟨1, by decide +kernel⟩,
   ⟨0x7F800001, 0, by decide +kernel⟩⟩

theorem witness_MarkersChangeTheContextAlone :
    (∃ (k : Issue), ∃ (c : CtxId), ∃ (s : State), CanIssue k [] s c) ∧
    (∃ (k : Issue), ∃ (c : CtxId), ∃ (s : State), CanIssue k [] s c ∧ (ctx s k.f c).fdepth ≠ 1) ∧
    (∃ (k : Issue), ∃ (c : CtxId), ∃ (s : State), CanIssue k [] s c ∧ k.last = false) :=
  ⟨⟨at0, 0, run0, by simp only [CanIssue]; decide +kernel⟩,
   ⟨at0, 0, run0, by simp only [CanIssue]; decide +kernel⟩,
   ⟨at0, 0, run0, by simp only [CanIssue]; decide +kernel⟩⟩

theorem witness_TilesAreLoadedAndMultiplied :
    (∃ (k : Issue), ∃ (a : TileArgs), ∃ (c : CtxId), ∃ (s : State), CanIssue k [] s c ∧ (ctx s k.f c).sbEn = false ∧ (frond s k.f).mma = [] ∧ (∀ i, ((ctx s k.f c).tiles.get i).pendArgs = none) ∧ Powered s k.f .w a.waddr.toNat (tileWordsN a)) ∧
    (∃ (t : Time), ∃ (f : FrondId), ∃ (c : CtxId), ∃ (i : Fin 2), ∃ (a : TileArgs), ∃ (s : State), SlotOf .arr t f .w s ∧ Runs t f c s ∧ (frond s f).arrLines.find? (·.m == .w) = none ∧ tileLoading s f = some (c, i, a)) ∧
    (∃ (t : Time), ∃ (f : FrondId), ∃ (c : CtxId), ∃ (i : Fin 2), ∃ (at0 : Time), ∃ (a : TileArgs), ∃ (s : State), s.testMode = false ∧ runningCtx s f = some c ∧ ((ctx s f c).tiles.get i).loadAt = some at0 ∧ ((ctx s f c).tiles.get i).pendArgs = some a ∧ at0 ≤ max s.now t ∧ ((ctx s f c).tiles.get i).bad = false) ∧
    (∃ (t : Time), ∃ (f : FrondId), ∃ (c : CtxId), ∃ (i : Fin 2), ∃ (at0 : Time), ∃ (a : TileArgs), ∃ (s : State), s.testMode = false ∧ runningCtx s f = some c ∧ ((ctx s f c).tiles.get i).loadAt = some at0 ∧ ((ctx s f c).tiles.get i).pendArgs = some a ∧ at0 ≤ max s.now t ∧ ((ctx s f c).tiles.get i).bad = true ∧ (ctx s f c).fault = none) ∧
    (∃ (k : Issue), ∃ (a : MmaArgs), ∃ (w : BitVec 16), ∃ (tag : TagKind), ∃ (c : CtxId), ∃ (s : State), ArrayReady k a.solver s c ∧ a.src = .word w tag ∧ a.dstCirc = none ∧ ((ctx s k.f c).tiles.get a.tile).pendArgs = none ∧ bit (ctx s k.f c).trapen 0 = false ∧ Reaches s k.f ([⟨.a, w.toNat, countOf a.count * vecWords a.solver a.fmt, readKind tag⟩] ++ (if a.acc then [⟨.p, a.dst.toNat, countOf a.count * accWords a.solver, readKind a.accTag⟩] else []) ++ [mmaSpan a])) ∧
    (∃ (t : Time), ∃ (f : FrondId), ∃ (m : Mem), ∃ (l : ArrLine), ∃ (s : State), SlotOf .arr t f m s ∧ (frond s f).arrLines.find? (·.m == m) = some l ∧ l.circ = none) ∧
    (∃ (t : Time), ∃ (f : FrondId), ∃ (o : MmaOp), ∃ (rest : List MmaOp), ∃ (s : State), s.testMode = false ∧ (frond s f).mma = o :: rest ∧ o.ready ≤ max s.now t ∧ o.args.dstCirc = none ∧ ownSlot (atTime s t) f .p .arr = true ∧ (rest ≠ [] ∨ (∀ l ∈ (frond s f).arrLines, l.mma = false))) :=
  ⟨⟨at0, ⟨0, 0x4000, false, 0, false⟩, 0, run0, by simp only [CanIssue, Powered]; decide +kernel⟩,
   ⟨0, 0, 0, 1, ⟨1, 0, true, 0, false⟩, runs (fun x => { x with tiles := vset x.tiles 1 { Tile.reset with pendArgs := some ⟨1, 0, true, 0, false⟩ } }) id, by simp only [SlotOf, Runs]; decide +kernel⟩,
   ⟨9, 0, 0, 1, 9, ⟨1, 0, true, 0, false⟩, runs (fun x => { x with tiles := vset x.tiles 1 { Tile.reset with loadAt := some 9, pendArgs := some ⟨1, 0, true, 0, false⟩ } }) id, by decide +kernel⟩,
   ⟨9, 0, 0, 1, 9, ⟨1, 0, true, 0, false⟩, runs (fun x => { x with tiles := vset x.tiles 1 { Tile.reset with loadAt := some 9, pendArgs := some ⟨1, 0, true, 0, false⟩, bad := true } }) id, by decide +kernel⟩,
   ⟨at0, ⟨false, 0, false, false, 63, 1, .word 0 .plain, 0, none, .plain, .plain⟩, 0, .plain, 0, run0, by simp only [ArrayReady, Reaches, CanIssue]; decide +kernel⟩,
   ⟨0, 0, .w, ⟨0, .w, 0, .plain, none, false⟩, modFrond upOn 0 fun f => { f with arrLines := [⟨0, .w, 0, .plain, none, false⟩] }, by simp only [SlotOf]; decide +kernel⟩,
   ⟨12, 0, ⟨0, ⟨true, 0, false, false, 0, 0, .word 0 .plain, 0, none, .plain, .plain⟩, [], 9, []⟩, [], modFrond up 0 fun f => { f with mma := [⟨0, ⟨true, 0, false, false, 0, 0, .word 0 .plain, 0, none, .plain, .plain⟩, [], 9, []⟩] }, by decide +kernel⟩⟩

theorem witness_ConversionsAndVectorInstructionsWriteTheirSpan :
    (∃ (k : Issue), ∃ (a : CvtArgs), ∃ (m : Mem), ∃ (w : BitVec 16), ∃ (tag : TagKind), ∃ (c : CtxId), ∃ (s : State), ArrayReady k a.solver s c ∧ a.dst = .word m w tag ∧ bit (ctx s k.f c).trapen 0 = false ∧ (∀ p ∈ (frond s k.f).flight, ∀ ws, p.2 ≠ .scale c ws) ∧ (let fromA := a.fromA && !a.solver; Reaches s k.f [⟨if fromA then .a else .p, a.src.toNat, countOf a.count * if fromA then 32 else accWords a.solver, readKind a.srcTag⟩, ⟨m, w.toNat, countOf a.count * cvtWords a.solver (tgtOf a.solver a.tgt), writeKind tag⟩])) ∧
    (∃ (k : Issue), ∃ (a : XrhsArgs), ∃ (c : CtxId), ∃ (s : State), ArrayReady k true s c ∧ Reaches s k.f ([xIn a.x, xIn a.q] ++ (match a.w with | some b => [xIn b] | none => []) ++ [⟨.p, a.dst.toNat, 64, writeKind a.dstTag⟩])) ∧
    (∃ (k : Issue), ∃ (a : XrelaxArgs), ∃ (c : CtxId), ∃ (s : State), ArrayReady k true s c ∧ Reaches s k.f [xIn a.xt, xIn a.x, xOut a.dst]) ∧
    (∃ (k : Issue), ∃ (a : XprojArgs), ∃ (c : CtxId), ∃ (s : State), ArrayReady k true s c ∧ Reaches s k.f ([a.zh, a.z, a.y, a.l, a.u].map xIn ++ [⟨.w, a.mask.toNat, 1, .plain⟩] ++ [a.dz, a.dy, a.dw].map xOut) ∧ [a.dz, a.dy, a.dw].Pairwise (fun b d => b.word.toNat + 32 ≤ d.word.toNat ∨ d.word.toNat + 32 ≤ b.word.toNat)) :=
  ⟨⟨at0, ⟨false, false, 0, false, false, 0, 0, .plain, .word .a 0x8000 .plain⟩, .a, 0x8000, .plain, 0, run0, by exact ⟨by simp only [ArrayReady, CanIssue]; decide +kernel, rfl, by decide +kernel, (fun p hp => by have hq : p ∈ (frond run0 0).flight := hp; rw [no_flight0] at hq; cases hq), by simp only [Reaches]; decide +kernel⟩⟩,
   ⟨at0, ⟨⟨0, .ea, .plain⟩, ⟨32, .eb, .plain⟩, some ⟨64, .eacc, .plain⟩, 0, .plain⟩, 0, run0, by simp only [ArrayReady, Reaches, CanIssue]; decide +kernel⟩,
   ⟨at0, ⟨⟨0, .ea, .plain⟩, ⟨32, .eb, .plain⟩, ⟨64, .eout, .plain⟩⟩, 0, run0, by simp only [ArrayReady, Reaches, CanIssue]; decide +kernel⟩,
   ⟨at0, ⟨⟨0, .ea, .plain⟩, ⟨32, .ea, .plain⟩, ⟨64, .eb, .plain⟩, ⟨96, .ea, .plain⟩, ⟨128, .ea, .plain⟩, 160, ⟨192, .eout, .plain⟩, ⟨224, .eout, .plain⟩, ⟨256, .eout, .plain⟩⟩, 0, run0, by simp only [ArrayReady, Reaches, CanIssue]; decide +kernel⟩⟩

theorem witness_StoresEnterTheBufferAndReachTheirHome :
    (∃ (k : Issue), ∃ (rs : Reg), ∃ (addr : Addr), ∃ (tag : TagKind), ∃ (home : Home), ∃ (a : Nat), ∃ (i : Instr), ∃ (c : CtxId), ∃ (s : State), ∃ (e : StoreEnt), ∃ (l : List StoreEnt), CanIssue k [rs] s c ∧ StoreGoes s k.f addr home a ∧ (ctx s k.f c).load = none ∧ (ctx s k.f c).store = e :: l ∧ e.sent = true ∧ (ctx s k.f c).store.getLast?.map (·.home) = some home ∧ l.length < 7 ∧ (i = .scratchpadStore k rs addr tag ∧ writeKind tag = .plain ∨ i = .sharedStoreStore k rs addr ∨ i = .remoteStore k rs addr ∨ i = .configAliasStore k rs addr)) ∧
    (∃ (k : Issue), ∃ (rs : Reg), ∃ (addr : Addr), ∃ (tag : TagKind), ∃ (home : Home), ∃ (a : Nat), ∃ (i : Instr), ∃ (c : CtxId), ∃ (s : State), CanIssue k [rs] s c ∧ StoreGoes s k.f addr home a ∧ (ctx s k.f c).load = none ∧ (ctx s k.f c).store = [] ∧ (home = .scratch ∨ home = .config) ∧ (i = .scratchpadStore k rs addr tag ∧ writeKind tag = .plain ∨ i = .configAliasStore k rs addr)) ∧
    (∃ (k : Issue), ∃ (rs : Reg), ∃ (addr : Addr), ∃ (a : Nat), ∃ (c : CtxId), ∃ (s : State), CanIssue k [rs] s c ∧ StoreGoes s k.f addr .shared a ∧ (ctx s k.f c).load = none ∧ (ctx s k.f c).store = []) ∧
    (∃ (k : Issue), ∃ (rs : Reg), ∃ (addr : Addr), ∃ (n : Nat), ∃ (a : Nat), ∃ (l : LinkId), ∃ (c : CtxId), ∃ (s : State), CanIssue k [rs] s c ∧ StoreGoes s k.f addr (.remote n) a ∧ (ctx s k.f c).load = none ∧ (ctx s k.f c).store = [] ∧ linkTo s n = some l) ∧
    (∃ (t : Time), ∃ (f : FrondId), ∃ (m : Mem), ∃ (w : Nat), ∃ (c : CtxId), ∃ (e : StoreEnt), ∃ (l : List StoreEnt), ∃ (s : State), SlotOf .crd t f m s ∧ Runs t f c s ∧ (ctx s f c).store = e :: l ∧ e.home = .scratch ∧ e.sent = false ∧ padOf (e.addr - frondBase f) = some (m, w) ∧ sbConflict (ctx s f c) .crumb m w w true = false) ∧
    (∃ (t : Time), ∃ (f : FrondId), ∃ (m : Mem), ∃ (w : Nat), ∃ (c : CtxId), ∃ (e : StoreEnt), ∃ (l : List StoreEnt), ∃ (s : State), SlotOf .crd t f m s ∧ Runs t f c s ∧ (ctx s f c).store = e :: l ∧ e.home = .scratch ∧ e.sent = false ∧ padOf (e.addr - frondBase f) = some (m, w) ∧ sbConflict (ctx s f c) .crumb m w w true = true) ∧
    (∃ (t : Time), ∃ (f : FrondId), ∃ (c : CtxId), ∃ (e : StoreEnt), ∃ (l : List StoreEnt), ∃ (at0 : Time), ∃ (s : State), s.testMode = false ∧ (frond s f).flight = [(at0, .storeAck c)] ∧ at0 ≤ max s.now t ∧ (ctx s f c).store = e :: l ∧ e.home = .scratch ∧ e.sent = true ∧ e.done = false) ∧
    (∃ (f : FrondId), ∃ (c : CtxId), ∃ (e : StoreEnt), ∃ (s : State), s.testMode = false ∧ operating s = true ∧ (ctx s f c).store = [e] ∧ e.home ≠ .config ∧ e.done = true) ∧
    (∃ (f : FrondId), ∃ (c : CtxId), ∃ (e : StoreEnt), ∃ (s : State), s.testMode = false ∧ operating s = true ∧ (ctx s f c).store = [e] ∧ e.home = .config ∧ e.addr = 0x3000F00000 + 0x18) :=
  ⟨⟨at0, 2, 0x1000000000, .plain, .scratch, 0x1000000000, .scratchpadStore at0 2 0x1000000000 .plain, 0, runs (fun x => { x with store := [⟨.scratch, 0x1000000004, 0, true, false, 0⟩] }) id, ⟨.scratch, 0x1000000004, 0, true, false, 0⟩, [], by refine ⟨by simp only [CanIssue]; decide +kernel, ⟨by decide +kernel, .w, 0, by decide +kernel⟩, by decide +kernel⟩⟩,
   ⟨at0, 2, 0x1000000000, .plain, .scratch, 0x1000000000, .scratchpadStore at0 2 0x1000000000 .plain, 0, run0, by refine ⟨by simp only [CanIssue]; decide +kernel, ⟨by decide +kernel, .w, 0, by decide +kernel⟩, by decide +kernel⟩⟩,
   ⟨at0, 2, 0x2001600000, 0x2001600000, 0, run0, by refine ⟨by simp only [CanIssue]; decide +kernel, ⟨by decide +kernel, by decide +kernel⟩, by decide +kernel⟩⟩,
   ⟨at0, 2, 0x8110000000, 1, ssBase, 2, 0, peered run0, by refine ⟨by simp only [CanIssue]; decide +kernel, ⟨by decide +kernel, by decide +kernel⟩, by decide +kernel⟩⟩,
   ⟨crdW, 0, .w, 0, 0, ⟨.scratch, 0x1000000000, 7, false, false, 0⟩, [], runs (fun x => { x with store := [⟨.scratch, 0x1000000000, 7, false, false, 0⟩] }) id, by simp only [SlotOf, Runs]; decide +kernel⟩,
   ⟨crdW, 0, .w, 0, 0, ⟨.scratch, 0x1000000000, 7, false, false, 0⟩, [], runs (fun x => { x with store := [⟨.scratch, 0x1000000000, 7, false, false, 0⟩], sbEn := true, sb := vset x.sb 0 (some ⟨0, .w, false, 1⟩) }) id, by simp only [SlotOf, Runs]; decide +kernel⟩,
   ⟨9, 0, 0, ⟨.scratch, 0x1000000000, 7, true, false, 0⟩, [], 9, runs (fun x => { x with store := [⟨.scratch, 0x1000000000, 7, true, false, 0⟩] }) fun f => { f with flight := [(9, .storeAck 0)] }, by decide +kernel⟩,
   ⟨0, 0, ⟨.shared, ssBase, 7, true, true, 0⟩, runs (fun x => { x with store := [⟨.shared, ssBase, 7, true, true, 0⟩] }) id, by decide +kernel⟩,
   ⟨0, 0, ⟨.config, 0x3000F00018, 7, false, false, 0⟩, runs (fun x => { x with store := [⟨.config, 0x3000F00018, 7, false, false, 0⟩] }) id, by decide +kernel⟩⟩

theorem witness_LoadsReturnTheirWord :
    (∃ (k : Issue), ∃ (dst : LoadDst), ∃ (addr : Addr), ∃ (m : Mem), ∃ (w : Nat), ∃ (c : CtxId), ∃ (s : State), CanIssue k [] s c ∧ viaFrondWindow addr.toNat = false ∧ placeOf s k.f addr.toNat = .pad m w ∧ padsOn (frond s k.f) m (loadWords dst w).1 (loadWords dst w).2 = true ∧ (ctx s k.f c).load = none) ∧
    (∃ (t : Time), ∃ (f : FrondId), ∃ (m : Mem), ∃ (q : SlotWait), ∃ (rd : Reg), ∃ (c : CtxId), ∃ (fr : Frond), ∃ (s : State), SlotOf .crd t f m s ∧ Runs t f c s ∧ storeReady (ctx s f c) f m = none ∧ (ctx s f c).slotWait = some q ∧ q.m = m ∧ q.issue.f = f ∧ waitReady (ctx s f c) f q = true ∧ q.put = none ∧ q.rd = .reg rd ∧ sbConflict (ctx s f c) .crumb m q.word q.word false = false ∧ tagAccess (frond s f) m q.word q.tag = some fr) ∧
    (∃ (t : Time), ∃ (f : FrondId), ∃ (m : Mem), ∃ (q : SlotWait), ∃ (c : CtxId), ∃ (fr : Frond), ∃ (s : State), SlotOf .crd t f m s ∧ Runs t f c s ∧ storeReady (ctx s f c) f m = none ∧ (ctx s f c).slotWait = some q ∧ q.m = m ∧ q.issue.f = f ∧ waitReady (ctx s f c) f q = true ∧ q.put = none ∧ q.rd = .scale ∧ sbConflict (ctx s f c) .crumb m q.word (q.word + 31) false = false ∧ tagAccess (frond s f) m q.word q.tag = some fr) ∧
    (∃ (t : Time), ∃ (f : FrondId), ∃ (m : Mem), ∃ (q : SlotWait), ∃ (v : Word), ∃ (c : CtxId), ∃ (fr : Frond), ∃ (s : State), SlotOf .crd t f m s ∧ Runs t f c s ∧ (ctx s f c).slotWait = some q ∧ q.m = m ∧ q.issue.f = f ∧ waitReady (ctx s f c) f q = true ∧ q.put = some v ∧ sbConflict (ctx s f c) .crumb m q.word q.word true = false ∧ tagAccess (frond s f) m q.word q.tag = some fr) ∧
    (∃ (t : Time), ∃ (f : FrondId), ∃ (c : CtxId), ∃ (rd : Reg), ∃ (v : Word), ∃ (at0 : Time), ∃ (s : State), s.testMode = false ∧ (frond s f).flight = [(at0, .load c (some rd) v)] ∧ at0 ≤ max s.now t) ∧
    (∃ (t : Time), ∃ (f : FrondId), ∃ (c : CtxId), ∃ (ws : List Word), ∃ (at0 : Time), ∃ (s : State), s.testMode = false ∧ (frond s f).flight = [(at0, .scale c ws)] ∧ at0 ≤ max s.now t) ∧
    (∃ (k : Issue), ∃ (addr : Addr), ∃ (a : Nat), ∃ (c : CtxId), ∃ (s : State), ∃ v, CanIssue k [] s c ∧ viaFrondWindow addr.toNat = false ∧ placeOf s k.f addr.toNat = .shared a ∧ inImage a 4 = true ∧ (ctx s k.f c).load = none ∧ forwarded (ctx s k.f c) .shared a = some v) ∧
    (∃ (k : Issue), ∃ (addr : Addr), ∃ (a : Nat), ∃ (c : CtxId), ∃ (s : State), CanIssue k [] s c ∧ viaFrondWindow addr.toNat = false ∧ placeOf s k.f addr.toNat = .shared a ∧ inImage a 4 = true ∧ (ctx s k.f c).load = none ∧ forwarded (ctx s k.f c) .shared a = none) ∧
    (∃ (t : Time), ∃ (port : Fin 16), ∃ (f : FrondId), ∃ (c : CtxId), ∃ (i : Nat), ∃ (a : Nat), ∃ (l : LoadWait), ∃ (d : Reg), ∃ (q : Nat), ∃ (ref : Nat), ∃ (rest : List (Nat × Nat)), ∃ (s : State), PortServes t port q ref rest (.load f c i a) s ∧ (ctx s f c).load = some l ∧ l.id = i ∧ l.rd = some d) ∧
    (∃ (k : Issue), ∃ (addr : Addr), ∃ (n : Nat), ∃ (a : Nat), ∃ (tg : Nat), ∃ (l : LinkId), ∃ (c : CtxId), ∃ (s : State), CanIssue k [] s c ∧ viaFrondWindow addr.toNat = false ∧ placeOf s k.f addr.toNat = .remoteSS n a ∧ (ctx s k.f c).load = none ∧ forwarded (ctx s k.f c) (.remote n) a = none ∧ freeTag s = some tg ∧ linkTo s n = some l) ∧
    (∃ (k : Issue), ∃ (addr : Addr), ∃ (a : Nat), ∃ (c : CtxId), ∃ (s : State), CanIssue k [] s c ∧ viaFrondWindow addr.toNat = false ∧ placeOf s k.f addr.toNat = .cfg a ∧ 0x3000F00000 ≤ addr.toNat / 4 * 4 ∧ addr.toNat / 4 * 4 < 0x3000F01000 ∧ (ctx s k.f c).load = none ∧ forwarded (ctx s k.f c) .config (addr.toNat / 4 * 4) = none) :=
  ⟨⟨at0, .reg 1, 0x1000000000, .w, 0, 0, run0, by simp only [CanIssue]; decide +kernel⟩,
   ⟨crdW, 0, .w, ⟨.w, 0, .plain, .reg 1, none, at0⟩, 1, 0, frond (runs (fun x => { x with slotWait := some ⟨.w, 0, .plain, .reg 1, none, at0⟩ }) id) 0, runs (fun x => { x with slotWait := some ⟨.w, 0, .plain, .reg 1, none, at0⟩ }) id, by simp only [SlotOf, Runs]; decide +kernel⟩,
   ⟨crdW, 0, .w, ⟨.w, 0, .plain, .scale, none, at0⟩, 0, frond (runs (fun x => { x with slotWait := some ⟨.w, 0, .plain, .scale, none, at0⟩ }) id) 0, runs (fun x => { x with slotWait := some ⟨.w, 0, .plain, .scale, none, at0⟩ }) id, by simp only [SlotOf, Runs]; decide +kernel⟩,
   ⟨168, 0, .a, ⟨.a, 0, .put, .reg 1, some 7, at0⟩, 7, 0, (tagAccess (frond (runs (fun x => { x with slotWait := some ⟨.a, 0, .put, .reg 1, some 7, at0⟩ }) id) 0) .a 0 .put).get (by decide +kernel), runs (fun x => { x with slotWait := some ⟨.a, 0, .put, .reg 1, some 7, at0⟩ }) id, by simp only [SlotOf, Runs]; decide +kernel⟩,
   ⟨9, 0, 0, 1, 7, 9, modFrond up 0 fun f => { f with flight := [(9, .load 0 (some 1) 7)] }, by decide +kernel⟩,
   ⟨9, 0, 0, [], 9, runs id fun f => { f with flight := [(9, .scale 0 [])] }, by decide +kernel⟩,
   ⟨at0, 0x2001600000, 0x2001600000, 0, runs (fun x => { x with store := [⟨.shared, 0x2001600000, 7, true, false, 0⟩] }) id, 7, by simp only [CanIssue]; decide +kernel⟩,
   ⟨at0, 0x2001600000, 0x2001600000, 0, run0, by simp only [CanIssue]; decide +kernel⟩,
   ⟨0, 0, 0, 0, 5, ssBase, ⟨.shared, ssBase, some 1, 5, false⟩, 1, 0, 5, [], granted (.load 0 0 5 ssBase) (runs (fun x => { x with load := some ⟨.shared, ssBase, some 1, 5, false⟩ }) id), by simp only [PortServes]; decide +kernel⟩,
   ⟨at0, 0x8110000000, 1, ssBase, 0, 2, 0, peered run0, by simp only [CanIssue]; decide +kernel⟩,
   ⟨at0, 0x3000F00000, 0x3000F00000, 0, run0, by simp only [CanIssue]; decide +kernel⟩⟩

theorem witness_FencesWaitAndAtomicsAreOneAccess :
    (∃ (k : Issue), ∃ (i : Instr), ∃ (c : CtxId), ∃ (s : State), CanIssue k [] s c ∧ (i = .fenceSl k ∧ (ctx s k.f c).store = [] ∨ i = .fenceE k ∧ enginesRetired (ctx s k.f c) = true ∨ i = .fenceAll k ∧ (ctx s k.f c).store = [] ∧ enginesRetired (ctx s k.f c) = true)) ∧
    (∃ (k : Issue), ∃ (i : Instr), ∃ (c : CtxId), ∃ (s : State), CanIssue k [] s c ∧ ((i = .fenceSl k ∨ i = .fenceAll k) ∧ (ctx s k.f c).store ≠ [] ∨ (i = .fenceE k ∨ i = .fenceAll k) ∧ enginesRetired (ctx s k.f c) = false)) ∧
    (∃ (k : Issue), ∃ (i : Instr), ∃ (op : AmoOp), ∃ (rd : Reg), ∃ (addr : Addr), ∃ (x : Reg), ∃ (y : Reg), ∃ (a : Nat), ∃ (c : CtxId), ∃ (s : State), (i = .amoswap k rd addr x ∧ op = .swap ∧ y = x ∨ i = .amoadd k rd addr x ∧ op = .add ∧ y = x ∨ i = .amocas k rd addr x y ∧ op = .cas) ∧ CanIssue k [x, y] s c ∧ placeOf s k.f addr.toNat = .shared a ∧ inImage a 4 = true ∧ addr.toNat < 0x8000000000 ∧ (ctx s k.f c).store = [] ∧ (ctx s k.f c).load = none) ∧
    (∃ (t : Time), ∃ (port : Fin 16), ∃ (f : FrondId), ∃ (c : CtxId), ∃ (i : Nat), ∃ (a : Nat), ∃ (op : AmoOp), ∃ (u : Word), ∃ (v : Word), ∃ (l : LoadWait), ∃ (d : Reg), ∃ (q : Nat), ∃ (ref : Nat), ∃ (rest : List (Nat × Nat)), ∃ (s : State), PortServes t port q ref rest (.amo f c i a op u v) s ∧ inHeader s a = false ∧ (ctx s f c).load = some l ∧ l.id = i ∧ l.rd = some d) ∧
    (∃ (t : Time), ∃ (port : Fin 16), ∃ (f : FrondId), ∃ (c : CtxId), ∃ (i : Nat), ∃ (a : Nat), ∃ (v : Word), ∃ (q : Nat), ∃ (ref : Nat), ∃ (rest : List (Nat × Nat)), ∃ (s : State), PortServes t port q ref rest (.store f c i a v) s ∧ inHeader s a = true) ∧
    (∃ (t : Time), ∃ (port : Fin 16), ∃ (f : FrondId), ∃ (c : CtxId), ∃ (i : Nat), ∃ (a : Nat), ∃ (v : Word), ∃ (q : Nat), ∃ (ref : Nat), ∃ (rest : List (Nat × Nat)), ∃ (s : State), PortServes t port q ref rest (.store f c i a v) s ∧ inHeader s a = false) :=
  ⟨⟨at0, .fenceAll at0, 0, run0, by simp only [CanIssue]; decide +kernel⟩,
   ⟨at0, .fenceSl at0, 0, runs (fun x => { x with store := [⟨.shared, ssBase, 7, true, false, 0⟩] }) id, by simp only [CanIssue]; decide +kernel⟩,
   ⟨at0, .amocas at0 1 0x2001600000 2 3, .cas, 1, 0x2001600000, 2, 3, 0x2001600000, 0, run0, by simp only [CanIssue]; decide +kernel⟩,
   ⟨0, 0, 0, 0, 5, ssBase, .add, 1, 0, ⟨.shared, ssBase, some 1, 5, true⟩, 1, 0, 5, [], granted (.amo 0 0 5 ssBase .add 1 0) (runs (fun x => { x with load := some ⟨.shared, ssBase, some 1, 5, true⟩ }) id), by simp only [PortServes]; decide +kernel⟩,
   ⟨0, 0, 0, 0, 5, imageBase, 7, 0, 5, [], { granted (.store 0 0 5 imageBase 7) run0 with programs := [stateful] }, by simp only [PortServes]; decide +kernel⟩,
   ⟨0, 0, 0, 0, 5, ssBase, 7, 0, 5, [], granted (.store 0 0 5 ssBase 7) run0, by simp only [PortServes]; decide +kernel⟩⟩

theorem witness_TagsRegionsAndWindowsAreTheOwnersToChange :
    (∃ (k : Issue), ∃ (m : Mem), ∃ (line : BitVec 11), ∃ (b : Bool), ∃ (i : Instr), ∃ (c : CtxId), ∃ (s : State), (i = .tset k m line ∧ b = true ∨ i = .tclr k m line ∧ b = false) ∧ CanIssue k [] s c ∧ m ≠ .w ∧ padOn (frond s k.f) m (32 * line.toNat) = true ∧ ownSlot (atTime s k.t) k.f m .crd = true ∧ (ctx s k.f c).store = []) ∧
    (∃ (k : Issue), ∃ (line : BitVec 11), ∃ (i : Instr), ∃ (c : CtxId), ∃ (s : State), (i = .tset k .w line ∨ i = .tclr k .w line) ∧ CanIssue k [] s c) ∧
    (∃ (k : Issue), ∃ (i : Fin 8), ∃ (c : CtxId), ∃ (s : State), CanIssue k [] s c ∧ ((frond s k.f).circ.get i).en = true ∧ ((frond s k.f).circ.get i).ctx = c ∧ (ctx s k.f c).sbEn = false ∧ ownSlot (atTime s k.t) k.f ((frond s k.f).circ.get i).mem' .crd = true ∧ (ctx s k.f c).store = [] ∧ (ctx s k.f c).cresetAt + 32 < ((frond s k.f).circ.get i).lines) ∧
    (∃ (k : Issue), ∃ (i : Fin 8), ∃ (c : CtxId), ∃ (s : State), CanIssue k [] s c ∧ ((frond s k.f).circ.get i).en = true ∧ ((frond s k.f).circ.get i).ctx = c ∧ (ctx s k.f c).sbEn = false ∧ ownSlot (atTime s k.t) k.f ((frond s k.f).circ.get i).mem' .crd = true ∧ (ctx s k.f c).store = [] ∧ ((frond s k.f).circ.get i).lines ≤ (ctx s k.f c).cresetAt + 32) ∧
    (∃ (k : Issue), ∃ (i : Fin 8), ∃ (c : CtxId), ∃ (s : State), CanIssue k [] s c ∧ (((frond s k.f).circ.get i).en = false ∨ ((frond s k.f).circ.get i).ctx ≠ c ∨ (ctx s k.f c).sbEn = true)) ∧
    (∃ (k : Issue), ∃ (i : Fin 16), ∃ (w0 : BitVec 32), ∃ (c : CtxId), ∃ (s : State), CanIssue k [] s c ∧ (((frond s k.f).fwin.get i).opened = false ∨ ((frond s k.f).fwin.get i).ctx = c) ∧ ((ctx s k.f c).sbEn = false ∨ field w0 4 3 ≠ 2)) ∧
    (∃ (k : Issue), ∃ (i : Fin 16), ∃ (c : CtxId), ∃ (s : State), CanIssue k [] s c ∧ ((frond s k.f).fwin.get i).opened = true ∧ ((frond s k.f).fwin.get i).ctx ≠ c) ∧
    (∃ (k : Issue), ∃ (c : CtxId), ∃ (s : State), CanIssue k [] s c) :=
  ⟨⟨⟨42, 0, 0, 4, false⟩, .p, 767, true, .tset ⟨42, 0, 0, 4, false⟩ .p 767, 0, run0, by exact ⟨.inl ⟨rfl, rfl⟩, by simp only [CanIssue]; decide +kernel, by decide +kernel⟩⟩,
   ⟨at0, 0, .tset at0 .w 0, 0, run0, by exact ⟨.inl rfl, by simp only [CanIssue]; decide +kernel⟩⟩,
   ⟨⟨168, 0, 0, 4, false⟩, 0, 0, runs id fun f => { f with circ := vset f.circ 0 { Circ.reset with en := true, size := 40 } }, by simp only [CanIssue]; decide +kernel⟩,
   ⟨⟨168, 0, 0, 4, false⟩, 0, 0, runs id fun f => { f with circ := vset f.circ 0 { Circ.reset with en := true, size := 2 } }, by simp only [CanIssue]; decide +kernel⟩,
   ⟨⟨42, 0, 0, 4, false⟩, 0, 0, run0, by simp only [CanIssue]; decide +kernel⟩,
   ⟨⟨42, 0, 0, 4, false⟩, 0, 0, 0, run0, by simp only [CanIssue]; decide +kernel⟩,
   ⟨⟨42, 0, 0, 4, false⟩, 0, 0, runs id fun f => { f with fwin := vset f.fwin 0 { FWin.reset with opened := true, ctx := 1 } }, by simp only [CanIssue]; decide +kernel⟩,
   ⟨⟨42, 0, 0, 4, false⟩, 0, run0, by simp only [CanIssue]; decide +kernel⟩⟩

theorem witness_EngineCommandsQueueMoveLinesAndRetire :
    (∃ (k : Issue), ∃ (a : EngArgs), ∃ (i : Instr), ∃ (e : Engine), ∃ (c : CtxId), ∃ (s : State), (i = .fetchCommand k a ∧ e = .fetch ∨ i = .drainCommand k a ∧ e = .drain) ∧ CanIssue k [] s c ∧ srcOk s k.f c e a = true ∧ dstOk s k.f c e a = true ∧ (ctx s k.f c).store = [] ∧ (ctx s k.f c).sbEn = false ∧ 0 < engWords a ∧ engQ (ctx s k.f c) e = [] ∧ (∀ b tag, a.src = .addr b tag → ∃ m w, placeOf s k.f (b.toNat / 4 * 4) = .pad m w)) ∧
    (∃ (k : Issue), ∃ (a : EngArgs), ∃ (i : Instr), ∃ (e : Engine), ∃ (c : CtxId), ∃ (s : State), ∃ b, ∃ tag, ∃ p, (i = .fetchCommand k a ∧ e = .fetch ∨ i = .drainCommand k a ∧ e = .drain) ∧ CanIssue k [] s c ∧ srcOk s k.f c e a = true ∧ dstOk s k.f c e a = true ∧ (ctx s k.f c).store = [] ∧ (ctx s k.f c).sbEn = false ∧ 0 < engWords a ∧ engQ (ctx s k.f c) e = [] ∧ a.src = .addr b tag ∧ placeOf s k.f (b.toNat / 4 * 4) = .shared p) ∧
    (∃ (k : Issue), ∃ (a : EngArgs), ∃ (i : Instr), ∃ (e : Engine), ∃ (c : CtxId), ∃ (s : State), ∃ q, ∃ l, (i = .fetchCommand k a ∧ e = .fetch ∨ i = .drainCommand k a ∧ e = .drain) ∧ CanIssue k [] s c ∧ srcOk s k.f c e a = true ∧ dstOk s k.f c e a = true ∧ (ctx s k.f c).store = [] ∧ (ctx s k.f c).sbEn = false ∧ 0 < engWords a ∧ engQ (ctx s k.f c) e = q :: l ∧ q.busy.isSome = true ∧ l.length < 7) ∧
    (∃ (k : Issue), ∃ (a : EngArgs), ∃ (i : Instr), ∃ (e : Engine), ∃ (c : CtxId), ∃ (s : State), (i = .fetchCommand k a ∧ e = .fetch ∨ i = .drainCommand k a ∧ e = .drain) ∧ CanIssue k [] s c ∧ srcOk s k.f c e a = true ∧ dstOk s k.f c e a = true ∧ (ctx s k.f c).store = [] ∧ (ctx s k.f c).sbEn = false ∧ 0 < engWords a ∧ 8 ≤ (engQ (ctx s k.f c) e).length) ∧
    (∃ (t : Time), ∃ (f : FrondId), ∃ (m : Mem), ∃ (e : Engine), ∃ (c : CtxId), ∃ (q : EngCmd), ∃ (l : List EngCmd), ∃ (b : Addr), ∃ (tag : TagKind), ∃ (w : Nat), ∃ (fr : Frond), ∃ (s : State), SlotOf (ownerSlot (engOwner e)) t f m s ∧ Runs t f c s ∧ engQ (ctx s f c) e = q :: l ∧ stopsHere (ctx s f c) = false ∧ q.busy = none ∧ q.poison = false ∧ q.buf = none ∧ q.args.src = .addr b tag ∧ placeOf s f (b.toNat / 4 * 4 + 4 * q.done) = .pad m w ∧ (let n := min (engWords q.args - q.done) (32 - w % 32); sbConflict (ctx s f c) (engOwner e) m w (w + n - 1) false = false) ∧ tagAccess (frond s f) m w (readKind tag) = some fr) ∧
    (∃ (t : Time), ∃ (f : FrondId), ∃ (c : CtxId), ∃ (e : Engine), ∃ (q : EngCmd), ∃ (l : List EngCmd), ∃ (ws : List Word), ∃ (at0 : Time), ∃ (s : State), s.testMode = false ∧ (frond s f).flight = [(at0, .engRead c e ws false)] ∧ at0 ≤ max s.now t ∧ engQ (ctx s f c) e = q :: l ∧ ((∃ i, q.args.dst = .circ i) ∨ ∃ b tag m w, q.args.dst = .addr b tag ∧ placeOf s f (b.toNat / 4 * 4 + 4 * q.done) = .pad m w)) ∧
    (∃ (t : Time), ∃ (f : FrondId), ∃ (m : Mem), ∃ (e : Engine), ∃ (c : CtxId), ∃ (q : EngCmd), ∃ (l : List EngCmd), ∃ (ws : List Word), ∃ (b : Addr), ∃ (tag : TagKind), ∃ (w : Nat), ∃ (fr : Frond), ∃ (s : State), SlotOf (ownerSlot (engOwner e)) t f m s ∧ Runs t f c s ∧ engQ (ctx s f c) e = q :: l ∧ q.busy = none ∧ q.poison = false ∧ q.buf = some ws ∧ q.args.dst = .addr b tag ∧ placeOf s f (b.toNat / 4 * 4 + 4 * q.done) = .pad m w ∧ (let n := min ws.length (32 - w % 32); sbConflict (ctx s f c) (engOwner e) m w (w + n - 1) true = false) ∧ tagAccess (frond s f) m w (writeKind tag) = some fr) ∧
    (∃ (t : Time), ∃ (f : FrondId), ∃ (c : CtxId), ∃ (e : Engine), ∃ (q : EngCmd), ∃ (n : Nat), ∃ (at0 : Time), ∃ (s : State), s.testMode = false ∧ (frond s f).flight = [(at0, .engAck c e n)] ∧ at0 ≤ max s.now t ∧ engQ (ctx s f c) e = [q] ∧ engWords q.args ≤ q.done + n) ∧
    (∃ (t : Time), ∃ (f : FrondId), ∃ (c : CtxId), ∃ (e : Engine), ∃ (q : EngCmd), ∃ (l : List EngCmd), ∃ (m : Mem), ∃ (a0 : BitVec 16), ∃ (st : BitVec 16), ∃ (tag : TagKind), ∃ (s : State), SlotOf (ownerSlot (engOwner e)) t f m s ∧ Runs t f c s ∧ engQ (ctx s f c) e = q :: l ∧ stopsHere (ctx s f c) = false ∧ q.busy = none ∧ q.poison = false ∧ q.buf = none ∧ q.args.src = .strided m a0 st tag ∧ (∀ lo hi, sbConflict (ctx s f c) (engOwner e) m lo hi false = false) ∧ (let ws := (stridedWords a0 st (engWords q.args)).map (·.toNat); q.slots + 1 < gatherSlots m ws ∨ tagBlocks (frond s f) m (readKind tag) (linesOfWords ws) = none)) ∧
    (∃ (t : Time), ∃ (f : FrondId), ∃ (c : CtxId), ∃ (e : Engine), ∃ (q : EngCmd), ∃ (l : List EngCmd), ∃ (m : Mem), ∃ (a0 : BitVec 16), ∃ (fmt : BitVec 2), ∃ (tag : TagKind), ∃ (fr : Frond), ∃ (s : State), SlotOf (ownerSlot (engOwner e)) t f m s ∧ Runs t f c s ∧ engQ (ctx s f c) e = q :: l ∧ stopsHere (ctx s f c) = false ∧ q.busy = none ∧ q.poison = false ∧ q.buf = none ∧ q.args.src = .transposed m a0 fmt tag ∧ (∀ lo hi, sbConflict (ctx s f c) (engOwner e) m lo hi false = false) ∧ tagAccess (frond s f) m (a0.toNat / 32 * 32 + q.part.length) (readKind tag) = some fr) ∧
    (∃ (s : State), s.testMode = false) ∧
    (∃ (t : Time), ∃ (port : Fin 16), ∃ (f : FrondId), ∃ (c : CtxId), ∃ (e : Engine), ∃ (a : Nat), ∃ (n : Nat), ∃ (q : EngCmd), ∃ (l : List EngCmd), ∃ (z : Nat), ∃ (ref : Nat), ∃ (rest : List (Nat × Nat)), ∃ (s : State), PortServes t port z ref rest (.engRead f c e a n) s ∧ engQ (ctx s f c) e = q :: l ∧ q.busy = some ref ∧ (∃ b tag m w, q.args.dst = .addr b tag ∧ placeOf s f (b.toNat / 4 * 4 + 4 * q.done) = .pad m w)) ∧
    (∃ (t : Time), ∃ (port : Fin 16), ∃ (f : FrondId), ∃ (c : CtxId), ∃ (e : Engine), ∃ (a : Nat), ∃ (ws : List Word), ∃ (o : Bool), ∃ (j : Option Nat), ∃ (q : EngCmd), ∃ (z : Nat), ∃ (ref : Nat), ∃ (rest : List (Nat × Nat)), ∃ (s : State), PortServes t port z ref rest (.engWrite f c e a ws o j) s ∧ engQ (ctx s f c) e = [q] ∧ q.busy = some ref ∧ engWords q.args ≤ q.done + ws.length ∧ (∀ i, i < ws.length → inHeader s (a + 4 * i) = false) ∧ (∀ id x, j = some id → jobOf s id = some x → isStretch x = false ∧ (inOutput s x a = true → x.begun = true))) :=
  ⟨⟨at0, copyW, .fetchCommand at0 copyW, .fetch, 0, run0, by refine ⟨.inl ⟨rfl, rfl⟩, by simp only [CanIssue]; decide +kernel, by decide +kernel, by decide +kernel, rfl, rfl, by decide, rfl,  fun b t h => ⟨.w, 0, ?_⟩⟩; cases h; decide +kernel⟩,
   ⟨at0, ⟨.addr 0x2001600000 .plain, .addr 0x1000040000 .plain, 32⟩, .fetchCommand at0 ⟨.addr 0x2001600000 .plain, .addr 0x1000040000 .plain, 32⟩, .fetch, 0, run0, 0x2001600000, .plain, 0x2001600000, by refine ⟨.inl ⟨rfl, rfl⟩, by simp only [CanIssue]; decide +kernel, by decide +kernel, by decide +kernel, rfl, rfl, by decide, rfl,  rfl, by decide +kernel⟩⟩,
   ⟨at0, copyW, .fetchCommand at0 copyW, .fetch, 0, runs (fun x => { x with fetchQ := [⟨copyW, 0, none, some 5, false, 0, [], [], none⟩] }) id, ⟨copyW, 0, none, some 5, false, 0, [], [], none⟩, [], by exact ⟨.inl ⟨rfl, rfl⟩, by simp only [CanIssue]; decide +kernel, by decide +kernel⟩⟩,
   ⟨at0, copyW, .fetchCommand at0 copyW, .fetch, 0, runs (fun x => { x with fetchQ := List.replicate 8 ⟨copyW, 0, none, some 5, false, 0, [], [], none⟩ }) id, by exact ⟨.inl ⟨rfl, rfl⟩, by simp only [CanIssue]; decide +kernel, by decide +kernel⟩⟩,
   ⟨120, 0, .w, .fetch, 0, ⟨copyW, 0, none, none, false, 0, [], [], none⟩, [], 0x1000000000, .plain, 0, frond (runs (fun x => { x with fetchQ := [⟨copyW, 0, none, none, false, 0, [], [], none⟩] }) id) 0, runs (fun x => { x with fetchQ := [⟨copyW, 0, none, none, false, 0, [], [], none⟩] }) id, by simp only [SlotOf, Runs]; decide +kernel⟩,
   ⟨9, 0, 0, .fetch, ⟨copyW, 0, none, none, false, 0, [], [], none⟩, [], [7], 9, runs (fun x => { x with fetchQ := [⟨copyW, 0, none, none, false, 0, [], [], none⟩] }) fun f => { f with flight := [(9, .engRead 0 .fetch [7] false)] }, by exact ⟨rfl, by decide +kernel, by decide, by decide +kernel, .inr ⟨0x1000040000, .plain, .a, 0, by decide +kernel⟩⟩⟩,
   ⟨24, 0, .a, .fetch, 0, ⟨copyW, 0, some [7], none, false, 0, [], [], none⟩, [], [7], 0x1000040000, .plain, 0, frond (runs (fun x => { x with fetchQ := [⟨copyW, 0, some [7], none, false, 0, [], [], none⟩] }) id) 0, runs (fun x => { x with fetchQ := [⟨copyW, 0, some [7], none, false, 0, [], [], none⟩] }) id, by simp only [SlotOf, Runs]; decide +kernel⟩,
   ⟨9, 0, 0, .fetch, ⟨copyW, 0, none, none, false, 0, [], [], none⟩, 32, 9, runs (fun x => { x with fetchQ := [⟨copyW, 0, none, none, false, 0, [], [], none⟩] }) fun f => { f with flight := [(9, .engAck 0 .fetch 32)] }, by decide +kernel⟩,
   ⟨120, 0, 0, .fetch, ⟨⟨.strided .w 0 2 .plain, .addr 0x1000040000 .plain, 32⟩, 0, none, none, false, 0, [], [], none⟩, [], .w, 0, 2, .plain, runs (fun x => { x with fetchQ := [⟨⟨.strided .w 0 2 .plain, .addr 0x1000040000 .plain, 32⟩, 0, none, none, false, 0, [], [], none⟩] }) id, by exact ⟨by simp only [SlotOf]; decide +kernel, by simp only [Runs]; decide +kernel, by decide +kernel, by decide +kernel, rfl, rfl, rfl, rfl, fun lo hi => rfl,  .inr (by decide +kernel)⟩⟩,
   ⟨120, 0, 0, .fetch, ⟨⟨.transposed .w 0 0 .plain, .addr 0x1000040000 .plain, 32⟩, 0, none, none, false, 0, [], [], none⟩, [], .w, 0, 0, .plain, frond (runs (fun x => { x with fetchQ := [⟨⟨.transposed .w 0 0 .plain, .addr 0x1000040000 .plain, 32⟩, 0, none, none, false, 0, [], [], none⟩] }) id) 0, runs (fun x => { x with fetchQ := [⟨⟨.transposed .w 0 0 .plain, .addr 0x1000040000 .plain, 32⟩, 0, none, none, false, 0, [], [], none⟩] }) id, by exact ⟨by simp only [SlotOf]; decide +kernel, by simp only [Runs]; decide +kernel, by decide +kernel, by decide +kernel, rfl, rfl, rfl, rfl, fun lo hi => rfl,  by decide +kernel⟩⟩,
   ⟨run0, by decide +kernel⟩,
   ⟨0, 0, 0, 0, .fetch, ssBase, 32, ⟨⟨.addr 0x2000000000 .plain, .addr 0x1000040000 .plain, 32⟩, 0, none, some 5, false, 0, [], [], none⟩, [], 0, 5, [], granted (.engRead 0 0 .fetch ssBase 32) (runs (fun x => { x with fetchQ := [⟨⟨.addr 0x2000000000 .plain, .addr 0x1000040000 .plain, 32⟩, 0, none, some 5, false, 0, [], [], none⟩] }) id), by exact ⟨by simp only [PortServes]; decide +kernel, by decide +kernel, rfl, 0x1000040000, .plain, .a, 0, by decide +kernel⟩⟩,
   ⟨0, 0, 0, 0, .drain, ssBase, [7], false, none, ⟨⟨.addr 0x1000068000 .plain, .addr 0x2000000000 .plain, 1⟩, 0, none, some 5, false, 0, [], [], none⟩, 0, 5, [], granted (.engWrite 0 0 .drain ssBase [7] false none) (runs (fun x => { x with drainQ := [⟨⟨.addr 0x1000068000 .plain, .addr 0x2000000000 .plain, 1⟩, 0, none, some 5, false, 0, [], [], none⟩] }) id), by exact ⟨by simp only [PortServes]; decide +kernel, by decide +kernel, rfl, by decide +kernel, by decide +kernel, fun _ _ h => by cases h⟩⟩⟩

theorem witness_RegionOperationsMoveOneLine :
    (∃ (t : Time), ∃ (f : FrondId), ∃ (c : CtxId), ∃ (who : Owner), ∃ (i : Fin 8), ∃ (data : List Word), ∃ (s : State), RegionTurn t f c who i true ((frond s f).circ.get i).tail.toNat 1 s ∧ who ≠ .fetch ∧ who ≠ .drain ∧ data.length ≤ 32) ∧
    (∃ (t : Time), ∃ (f : FrondId), ∃ (c : CtxId), ∃ (e : Engine), ∃ (i : Fin 8), ∃ (q : EngCmd), ∃ (l : List EngCmd), ∃ (ws : List Word), ∃ (s : State), RegionTurn t f c (engOwner e) i true ((frond s f).circ.get i).tail.toNat 1 s ∧ Runs t f c s ∧ engQ (ctx s f c) e = q :: l ∧ q.busy = none ∧ q.poison = false ∧ q.buf = some ws ∧ q.args.dst = .circ i) ∧
    (∃ (t : Time), ∃ (f : FrondId), ∃ (c : CtxId), ∃ (who : Owner), ∃ (i : Fin 8), ∃ (s : State), RegionTurn t f c who i false ((frond s f).circ.get i).head.toNat 1 s ∧ who ≠ .fetch ∧ who ≠ .drain) ∧
    (∃ (t : Time), ∃ (f : FrondId), ∃ (c : CtxId), ∃ (who : Owner), ∃ (i : Fin 8), ∃ (d : BitVec 11), ∃ (s : State), (let r := (frond s f).circ.get i; RegionTurn t f c who i false (r.head.toNat + min d.toNat (r.lines - 1)) 1 s ∧ min d.toNat (r.lines - 1) < r.count) ∧ who ≠ .fetch ∧ who ≠ .drain) ∧
    (∃ (t : Time), ∃ (f : FrondId), ∃ (c : CtxId), ∃ (e : Engine), ∃ (i : Fin 8), ∃ (d : BitVec 11), ∃ (op : Instr), ∃ (p : Nat), ∃ (q : EngCmd), ∃ (l : List EngCmd), ∃ (s : State), (let r := (frond s f).circ.get i; (op = .circTake t f c (engOwner e) i ∧ p = r.head.toNat ∧ r.count ≠ 0 ∨ op = .circPeek t f c (engOwner e) i d ∧ p = r.head.toNat + min d.toNat (r.lines - 1) ∧ min d.toNat (r.lines - 1) < r.count)) ∧ RegionTurn t f c (engOwner e) i false p 1 s ∧ Runs t f c s ∧ engQ (ctx s f c) e = q :: l ∧ stopsHere (ctx s f c) = false ∧ q.busy = none ∧ q.poison = false ∧ q.buf = none ∧ q.args.src = .circ i) ∧
    (∃ (t : Time), ∃ (f : FrondId), ∃ (c : CtxId), ∃ (who : Owner), ∃ (i : Fin 8), ∃ (s : State), RegionTurn t f c who i false ((frond s f).circ.get i).head.toNat 0 s) ∧
    (∃ (t : Time), ∃ (f : FrondId), ∃ (ws : List Word), ∃ (at0 : Time), ∃ (s : State), s.testMode = false ∧ (frond s f).flight = [(at0, .line ws)] ∧ at0 ≤ max s.now t) ∧
    (∃ (t : Time), ∃ (f : FrondId), ∃ (c : CtxId), ∃ (who : Owner), ∃ (i : Fin 8), ∃ (data : List Word), ∃ (d : BitVec 11), ∃ (n : BitVec 11), ∃ (b : Bool), ∃ (p : Nat), ∃ (m : Nat), ∃ (op : Instr), ∃ (s : State), (let r := (frond s f).circ.get i; (op = .circAppend t f c who i data ∧ b = true ∧ p = r.tail.toNat ∧ m = 1 ∨ op = .circTake t f c who i ∧ b = false ∧ p = r.head.toNat ∧ m = 1 ∨ op = .circPeek t f c who i d ∧ b = false ∧ p = r.head.toNat + min d.toNat (r.lines - 1) ∧ m = 1 ∨ op = .circRelease t f c who i n ∧ b = false ∧ p = r.head.toNat ∧ m = 0)) ∧ s.testMode = false ∧ runningCtx s f = some c ∧ operating s = true ∧ groupActive s f = true ∧ (circAllowed (frond s f) c who i b = false ∨ circOn (frond s f) i p m = false) ∧ (ctx s f c).fault = none) :=
  ⟨⟨168, 0, 0, .crumb, 0, [7], region 3, by simp only [RegionTurn, SlotOf]; decide +kernel⟩,
   ⟨24, 0, 0, .fetch, 0, ⟨⟨.addr 0x1000000000 .plain, .circ 0, 32⟩, 0, some [7], none, false, 0, [], [], none⟩, [], [7], modCtx (region 0) 0 0 fun x => { x with fetchQ := [⟨⟨.addr 0x1000000000 .plain, .circ 0, 32⟩, 0, some [7], none, false, 0, [], [], none⟩] }, by simp only [RegionTurn, SlotOf, Runs]; decide +kernel⟩,
   ⟨168, 0, 0, .crumb, 0, region 3, by simp only [RegionTurn, SlotOf]; decide +kernel⟩,
   ⟨168, 0, 0, .crumb, 0, 0, region 3, by simp only [RegionTurn, SlotOf]; decide +kernel⟩,
   ⟨24, 0, 0, .fetch, 0, 0, .circTake 24 0 0 .fetch 0, 0, ⟨⟨.circ 0, .addr 0x1000068000 .plain, 32⟩, 0, none, none, false, 0, [], [], none⟩, [], modCtx (region 0) 0 0 fun x => { x with fetchQ := [⟨⟨.circ 0, .addr 0x1000068000 .plain, 32⟩, 0, none, none, false, 0, [], [], none⟩] }, by exact ⟨.inl ⟨rfl, by decide +kernel, by decide +kernel⟩, by simp only [RegionTurn, SlotOf]; decide +kernel, by simp only [Runs]; decide +kernel, by decide +kernel⟩⟩,
   ⟨168, 0, 0, .crumb, 0, region 3, by simp only [RegionTurn, SlotOf]; decide +kernel⟩,
   ⟨9, 0, [7], 9, modFrond up 0 fun f => { f with flight := [(9, .line [7])] }, by decide +kernel⟩,
   ⟨0, 0, 0, .crumb, 0, [7], 0, 0, false, 0, 1, .circTake 0 0 0 .crumb 0, run0, by exact ⟨.inr (.inl ⟨rfl, rfl, by decide +kernel, rfl⟩), by decide +kernel⟩⟩⟩

theorem witness_InboundLinesAreWrittenOrRefused :
    (∃ (t : Time), ∃ (f : FrondId), ∃ (l : InLine), ∃ (rest : List InLine), ∃ (i : Fin 16), ∃ (fr : Frond), ∃ (s : State), SlotOf .ext t f l.mem s ∧ scrubTurn (atTime s t) (frond s f) l.mem = false ∧ fwReady (frond s f) l.mem = false ∧ (frond s f).inbound = l :: rest ∧ l.data.length = 32 ∧ (allFin 16).find? (fun i => windowFits s (frond s f) ((frond s f).fwin.get i) l) = some i ∧ ((frond s f).fwin.get i).mode ≠ 2 ∧ tagAccess (frond s f) l.mem l.word (if ((frond s f).fwin.get i).mode = 1 then .put else .plain) = some fr ∧ l.sender.path = none ∧ (ctx s (frondNo l.sender.unit.toNat) l.sender.ctx).drainQ = []) ∧
    (∃ (t : Time), ∃ (f : FrondId), ∃ (l : InLine), ∃ (rest : List InLine), ∃ (i : Fin 16), ∃ (s : State), SlotOf .ext t f l.mem s ∧ scrubTurn (atTime s t) (frond s f) l.mem = false ∧ fwReady (frond s f) l.mem = false ∧ (frond s f).inbound = l :: rest ∧ (allFin 16).find? (fun i => windowFits s (frond s f) ((frond s f).fwin.get i) l) = some i ∧ (let w := (frond s f).fwin.get i; let r := (frond s f).circ.get w.circ; w.mode = 2 ∧ circAllowed (frond s f) w.ctx .inbound w.circ true = true ∧ circOn (frond s f) w.circ r.tail.toNat 1 = true ∧ r.count ≠ r.lines) ∧ l.sender.path = none ∧ (ctx s (frondNo l.sender.unit.toNat) l.sender.ctx).drainQ = []) ∧
    (∃ (t : Time), ∃ (f : FrondId), ∃ (l : InLine), ∃ (rest : List InLine), ∃ (s : State), SlotOf .ext t f l.mem s ∧ scrubTurn (atTime s t) (frond s f) l.mem = false ∧ fwReady (frond s f) l.mem = false ∧ (frond s f).inbound = l :: rest ∧ (∀ i, windowFits s (frond s f) ((frond s f).fwin.get i) l = false) ∧ l.sender.path = none) ∧
    (∃ (t : Time), ∃ (f : FrondId), ∃ (l : InLine), ∃ (at0 : Time), ∃ (rest : List (InLine × Time)), ∃ (s : State), s.testMode = false ∧ operating s = true ∧ (frond s f).held = (l, at0) :: rest ∧ at0 ≤ max s.now t) ∧
    (∃ (f : FrondId), ∃ (c : CtxId), ∃ (r : CtxId × Option Nat × Word), ∃ (s : State), s.testMode = false ∧ (frond s f).refusals.find? (·.1 == c) = some r) :=
  ⟨⟨360, 0, lineIn .w, [], 0, frond (inward 0) 0, inward 0, by simp only [SlotOf]; decide +kernel⟩,
   ⟨360, 0, lineIn .a, [], 0, inwardCirc, by simp only [SlotOf]; decide +kernel⟩,
   ⟨360, 0, lineIn .w, [], modFrond (inward 0) 0 fun f => { f with fwin := Vector.replicate 16 FWin.reset }, by simp only [SlotOf]; decide +kernel⟩,
   ⟨9, 0, lineIn .w, 9, [], modFrond up 0 fun f => { f with held := [(lineIn .w, 9)] }, by decide +kernel⟩,
   ⟨0, 0, (0, none, 7), modFrond up 0 fun f => { f with refusals := [(0, none, 7)] }, by decide +kernel⟩⟩

theorem witness_ScrubReadsEveryLineAndCorrects :
    (∃ (t : Time), ∃ (f : FrondId), ∃ (m : Mem), ∃ (s : State), s.testMode = false ∧ operating s = true ∧ groupActive s f = true ∧ (frond s f).scrubEn = true ∧ scrubSlot (atTime s t) f m = true ∧ writebackOf (frond s f) f m = none ∧ s.ecc = [] ∧ (let l := nextPowered (frond s f) m (scrubPtr (frond s f) m) (memWordsN m / 32); padOn (frond s f) m (32 * l) = true)) ∧
    (∃ (t : Time), ∃ (f : FrondId), ∃ (m : Mem), ∃ (i : Nat), ∃ (b : Fin 39), ∃ (s : State), s.testMode = false ∧ operating s = true ∧ groupActive s f = true ∧ (frond s f).scrubEn = true ∧ scrubSlot (atTime s t) f m = true ∧ writebackOf (frond s f) f m = none ∧ i < 32 ∧ (let l := nextPowered (frond s f) m (scrubPtr (frond s f) m) (memWordsN m / 32); padOn (frond s f) m (32 * l) = true ∧ s.ecc = [(padAddr f m (32 * l + i), .single b)] ∧ padAddr f m (32 * l + i) ∉ (frond s f).wback)) ∧
    (∃ (t : Time), ∃ (f : FrondId), ∃ (m : Mem), ∃ (a : Nat), ∃ (s : State), s.testMode = false ∧ operating s = true ∧ groupActive s f = true ∧ (frond s f).scrubEn = true ∧ ([Mem.w, .a, .p].findSome? fun m => if scrubSlot (atTime s t) f m = true then (writebackOf (frond s f) f m).map fun a => (m, a) else none) = some (m, a)) ∧
    (∃ (t : Time), ∃ (port : Fin 16), ∃ (s : State), s.testMode = false ∧ operating s = true ∧ portIdle (atTime s t) (ssPortNo port) = true ∧ (s.fabric.ports.get (ssPortNo port)).wback = [] ∧ s.ecc = []) ∧
    (∃ (t : Time), ∃ (port : Fin 16), ∃ (a : Nat), ∃ (rest : List Nat), ∃ (s : State), s.testMode = false ∧ operating s = true ∧ portIdle (atTime s t) (ssPortNo port) = true ∧ (s.fabric.ports.get (ssPortNo port)).wback = a :: rest) :=
  ⟨⟨0, 0, .p, runs id fun f => { f with scrubEn := true }, by decide +kernel⟩,
   ⟨0, 0, .p, 0, 3, { runs id fun f => { f with scrubEn := true } with ecc := [(padAddr 0 .p (32 * nextPowered (frond run0 0) .p (scrubPtr (frond run0 0) .p) 768), .single 3)] }, by decide +kernel⟩,
   ⟨0, 0, .w, padAddr 0 .w 0, runs id fun f => { f with scrubEn := true, wback := [padAddr 0 .w 0] }, by decide +kernel⟩,
   ⟨0, 0, up, by decide +kernel⟩,
   ⟨0, 0, 0, [], modPort up 0 fun p => { p with wback := [0] }, by decide +kernel⟩⟩

theorem witness_StrobesAndPpsEdgesAreStamped :
    (∃ (s : State), s.testMode = false ∧ (s.boot.phase = .held ∨ s.obs.halted = true ∨ strobesHeld s = true)) ∧
    (∃ (t : Time), ∃ (a : Time), ∃ (s : State), s.testMode = false ∧ s.boot.phase ≠ .held ∧ s.obs.halted = false ∧ strobesHeld s = false ∧ s.timing.stbAt = some a ∧ max s.now t < a + 160 * tAT) ∧
    (∃ (t : Time), ∃ (s : State), s.testMode = false ∧ s.boot.phase ≠ .held ∧ s.obs.halted = false ∧ strobesHeld s = false ∧ (∀ a, s.timing.stbAt = some a → a + 160 * tAT ≤ max s.now t) ∧ operating s = false) ∧
    (∃ (t : Time), ∃ (s : State), s.testMode = false ∧ s.boot.phase ≠ .held ∧ s.obs.halted = false ∧ strobesHeld s = false ∧ (∀ a, s.timing.stbAt = some a → a + 160 * tAT ≤ max s.now t) ∧ operating s = true) ∧
    (∃ (s : State), s.testMode = false ∧ (s.boot.phase = .held ∨ s.obs.halted = true)) ∧
    (∃ (s : State), s.testMode = false ∧ s.boot.phase ≠ .held ∧ s.obs.halted = false) :=
  ⟨⟨State.reset, by decide +kernel⟩,
   ⟨160 * tAT - 1, 0, { up with timing := { Timing.reset with stbAt := some 0 } }, by decide +kernel⟩,
   ⟨0, boot .lock, by exact ⟨rfl, by decide, rfl, rfl, (fun a h => by cases h), rfl⟩⟩,
   ⟨0, up, by exact ⟨rfl, by decide, rfl, rfl, (fun a h => by cases h), rfl⟩⟩,
   ⟨State.reset, by decide +kernel⟩,
   ⟨up, by decide +kernel⟩⟩

theorem witness_DoorbellsBecomeBufferedSpores :
    (∃ (fn : FnId), ∃ (l : Nat), ∃ (data : List Byte), ∃ (s : State), HostReaches s ∧ deviceReady s = true ∧ fnServed s fn = true ∧ data.length = 64 ∧ 64 * l + 64 ≤ 0x8000) ∧
    (∃ (fn : FnId), ∃ (l : Nat), ∃ (o : Nat), ∃ (data : List Byte), ∃ (s : State), HostReaches s ∧ deviceReady s = true ∧ fnServed s fn = true ∧ 0 < data.length ∧ o + data.length < 64 ∧ 64 * l + 64 ≤ 0x8000) ∧
    (∃ (s : State), s.testMode = false ∧ s.obs.halted = false ∧ s.pcie.up = false) ∧
    (∃ (s : State), s.testMode = false ∧ s.obs.halted = true) ∧
    (∃ (t : Time), ∃ (fn : FnId), ∃ (bytes : List Byte), ∃ (at0 : Time), ∃ (rest : List (FnId × List Byte × Time)), ∃ (s : State), QueuesSound s ∧ s.pcie.sporeQ = (fn, bytes, at0) :: rest ∧ at0 ≤ max s.now t ∧ anyPartition s = true ∧ s.tree.yielded = false) ∧
    (∃ (q : QueueId), ∃ (i : Fin 64), ∃ (e : Entry), ∃ (s : State), QueuesSound s ∧ entryAt s q i = some e ∧ e.st = .reserved ∧ e.spore.length = 16) :=
  ⟨⟨0, 511, List.replicate 64 (0 : Byte), hosted, by simp only [HostReaches]; decide +kernel⟩,
   ⟨0, 511, 0, List.replicate 8 (0 : Byte), hosted, by simp only [HostReaches]; decide +kernel⟩,
   ⟨up, by decide +kernel⟩,
   ⟨modObs up fun o => { o with halted := true }, by decide +kernel⟩,
   ⟨0, 0, [], 0, [], { hosted with pcie := { hosted.pcie with sporeQ := [(0, [], 0)] } }, by simp only [QueuesSound]; decide +kernel⟩,
   ⟨0, 0, { entry0 with st := .reserved }, queued [{ entry0 with st := .reserved }] [], by simp only [QueuesSound]; decide +kernel⟩⟩

theorem witness_CancelsReachEveryMatchingSpore :
    (∃ (fn : FnId), ∃ (l : Nat), ∃ (data : List Byte), ∃ (s : State), HostReaches s ∧ deviceReady s = true ∧ fnServed s fn = true ∧ anyPartition s = true ∧ s.ecc = [] ∧ data.length = 16 ∧ 16 * l + 16 ≤ 0x1000) ∧
    (∃ (p : PartId), ∃ (q : QueueId), ∃ (tag : BitVec 64), ∃ (rest : List (PartId × QueueId × BitVec 64)), ∃ (s : State), s.testMode = false ∧ operating s = true ∧ s.pcie.cancelQ = (p, q, tag) :: rest ∧ (∀ e ∈ queueEntries s q, e.st = .buffered ∨ e.st = .reserved → spTag e.spore ≠ tag) ∧ (∀ j ∈ s.jobs, j.queue = q → spTag j.spore ≠ tag)) ∧
    (∃ (p : PartId), ∃ (q : QueueId), ∃ (tag : BitVec 64), ∃ (rest : List (PartId × QueueId × BitVec 64)), ∃ (e : Entry), ∃ (s : State), QueuesSound s ∧ s.pcie.cancelQ = (p, q, tag) :: rest ∧ (queueEntries s q).filter (fun e => (e.st == .buffered || e.st == .reserved) && spTag e.spore == tag) = [e] ∧ entryAt s q e.idx = some e ∧ e.queue = q ∧ (∀ j ∈ s.jobs, j.queue = q → spTag j.spore ≠ tag) ∧ s.deadQueues = []) ∧
    (∃ (p : PartId), ∃ (q : QueueId), ∃ (tag : BitVec 64), ∃ (rest : List (PartId × QueueId × BitVec 64)), ∃ (j : Job), ∃ (s : State), s.testMode = false ∧ operating s = true ∧ s.pcie.cancelQ = (p, q, tag) :: rest ∧ (∀ e ∈ queueEntries s q, e.st = .buffered ∨ e.st = .reserved → spTag e.spore ≠ tag) ∧ s.jobs.filter (fun j => j.queue == q && spTag j.spore == tag) = [j] ∧ j.shard = .none ∧ j.st = .placed ∧ (∀ k ∈ s.jobs, k.id = j.id → k = j)) :=
  ⟨⟨0, 255, List.replicate 16 (0 : Byte), { hosted with pcie := { hosted.pcie with cancelQ := [(0, 0, 0)] } }, by simp only [HostReaches]; decide +kernel⟩,
   ⟨0, 0, 0, [], { hosted with pcie := { hosted.pcie with cancelQ := [(0, 0, 0)] } }, by decide +kernel⟩,
   ⟨0, 0, 0, [], entry0, { queued [entry0] [] with pcie := { hosted.pcie with cancelQ := [(0, 0, 0)] } }, by simp only [QueuesSound]; decide +kernel⟩,
   ⟨0, 0, 0, [], { job0 with st := .placed }, { queued [] [{ job0 with st := .placed }] with pcie := { hosted.pcie with cancelQ := [(0, 0, 0)] } }, by decide +kernel⟩⟩

theorem witness_WorkListIsBuiltLineByLineAndConsumed :
    (∃ (edge : Stamp), ∃ (s : State), s.testMode = false ∧ operating s = true ∧ s.builder.want = some edge ∧ s.builder.active = false ∧ (∀ e ∈ s.entries, e.st = .reserved → earlier e.accept edge = false)) ∧
    (∃ (edge : Stamp), ∃ (e : Entry), ∃ (s : State), s.testMode = false ∧ s.builder.want = some edge ∧ e ∈ s.entries ∧ e.st = .reserved ∧ earlier e.accept edge = true) ∧
    (∃ (t : Time), ∃ (p : Fin 21), ∃ (q : Nat), ∃ (ref : Nat), ∃ (rest : List (Nat × Nat)), ∃ (l : Nat), ∃ (s : State), s.testMode = false ∧ operating s = true ∧ bitmapPort (atTime s t) = some p ∧ (s.fabric.ports.get p).granted = (q, ref) :: rest ∧ xferOf s ref = some (.bitmapLine l) ∧ s.ecc = []) ∧
    (∃ (l : Fin 1024), ∃ (k : Nat), ∃ (ws : List Word), ∃ (rest : List (Nat × Option (List Word))), ∃ (s : State), s.testMode = false ∧ operating s = true ∧ s.builder.issued = (l.val, none) :: (k, none) :: rest ∧ k ≠ l.val ∧ (s.builder.lineAt.find? (·.1 == l.val)).map (·.2) = some ws) ∧
    (∃ (l : Fin 1024), ∃ (k : Nat), ∃ (ws : List Word), ∃ (rest : List (Nat × Option (List Word))), ∃ (s : State), s.testMode = false ∧ operating s = true ∧ s.builder.issued = (k, none) :: rest ∧ k ≠ l.val ∧ (l.val, none) ∈ rest ∧ (s.builder.lineAt.find? (·.1 == l.val)).map (·.2) = some ws) ∧
    (∃ (l : Fin 1024), ∃ (ws : List Word), ∃ (s : State), s.testMode = false ∧ operating s = true ∧ s.builder.issued = [(l.val, none)] ∧ s.builder.toIssue = [] ∧ (s.builder.lineAt.find? (·.1 == l.val)).map (·.2) = some ws) ∧
    (∃ (e : WorkEntry), ∃ (rest : List WorkEntry), ∃ (b : Nat), ∃ (s : State), QueuesSound s ∧ s.builder.list = e :: rest ∧ b < 64 ∧ e.mask = BitVec.ofNat 64 (2 ^ b)) :=
  ⟨⟨256, { up with builder := { Builder.reset with want := some 256 } }, by decide +kernel⟩,
   ⟨256, { entry0 with st := .reserved }, { up with builder := { Builder.reset with want := some 256 }, entries := [{ entry0 with st := .reserved }] }, by decide +kernel⟩,
   ⟨0, 0, 0, 5, [], 0, granted (.bitmapLine 0) up, by decide +kernel⟩,
   ⟨0, 4, [7], [], { up with builder := { Builder.reset with issued := [(0, none), (4, none)], lineAt := [(0, [7])] } }, by decide +kernel⟩,
   ⟨0, 4, [7], [(0, none)], { up with builder := { Builder.reset with issued := [(4, none), (0, none)], lineAt := [(0, [7])] } }, by decide +kernel⟩,
   ⟨0, [7], { up with builder := { Builder.reset with issued := [(0, none)], lineAt := [(0, [7])] } }, by decide +kernel⟩,
   ⟨⟨0, 2 ^ 63, 0⟩, [], 63, { up with builder := { Builder.reset with list := [⟨0, 2 ^ 63, 0⟩] } }, by simp only [QueuesSound]; decide +kernel⟩⟩

theorem witness_RegisterAndWindowAccessesFollowTheirCodes :
    (∃ (a : Addr), ∃ (s : State), s.testMode = false ∧ s.boot.phase ≠ .held ∧ s.obs.halted = false ∧ ssBase ≤ a.toNat ∧ a.toNat < ssBase + 0x2000000) ∧
    (∃ (a : Addr), ∃ (s : State), ∃ (f : FrondId), ∃ m, ∃ w, s.testMode = false ∧ s.boot.phase ≠ .held ∧ s.obs.halted = false ∧ a.toNat = padAddr f m w ∧ w < memWordsN m) ∧
    (∃ (a : Addr), ∃ (s : State), s.testMode = false ∧ s.boot.phase ≠ .held ∧ s.obs.halted = false ∧ 0x3000000000 ≤ a.toNat ∧ a.toNat < 0x3002000000 ∧ isLk (a.toNat - 0x3000000000) = true ∧ locked s = true) ∧
    (∃ (t : Time), ∃ (a : Addr), ∃ (s : State), s.testMode = false ∧ s.boot.phase ≠ .held ∧ s.obs.halted = false ∧ a = 0x3000010040 ∧ s.boot.lateThis.all (fun x => x.1 != xcNow (atTime s t)) = true) ∧
    (∃ (a : Addr), ∃ (s : State), s.testMode = false ∧ s.boot.phase ≠ .held ∧ s.obs.halted = false ∧ 0x3000000000 ≤ a.toNat ∧ a.toNat < 0x3002000000 ∧ isLk (a.toNat - 0x3000000000) = true ∧ locked s = false) ∧
    (∃ (req : Fin 32), ∃ (a : Addr), ∃ (s : State), s.testMode = false ∧ s.boot.phase ≠ .held ∧ s.obs.halted = false ∧ 0x3000000000 ≤ a.toNat ∧ a.toNat < 0x3002000000 ∧ isLk (a.toNat - 0x3000000000) = false ∧ (req = hearthReq ∨ locked s = false ∨ inFabricBlock a.toNat = false)) ∧
    (∃ (req : Fin 32), ∃ (a : Addr), ∃ (s : State), s.testMode = false ∧ s.boot.phase ≠ .held ∧ s.obs.halted = false ∧ inFabricBlock a.toNat = true ∧ isLk (a.toNat - 0x3000000000) = false ∧ req ≠ hearthReq ∧ locked s = true) ∧
    (∃ (t : Time), ∃ (a : Addr), ∃ (s : State), ∃ (ch : ChanId), ∃ (i : Fin 16), s.testMode = false ∧ s.boot.phase ≠ .held ∧ s.obs.halted = false ∧ a.toNat = 0x3000080040 + 0x100 * ch.val + 4 * i.val ∧ leEarly (atTime s t) ch = false ∧ (s.le.get ch).late = []) ∧
    (∃ (a : Addr), ∃ (s : State), ∃ (f : FrondId), s.testMode = false ∧ s.boot.phase ≠ .held ∧ s.obs.halted = false ∧ a.toNat = 0x3001000018 + 0x10000 * f.val) ∧
    (∃ (req : Fin 32), ∃ (a : Addr), ∃ (v : Word), ∃ (s : State), s.testMode = false ∧ s.boot.phase ≠ .held ∧ s.obs.halted = false ∧ a = 0x3000070000 ∧ bit v 0 = true ∧ req = hearthReq) ∧
    (∃ (a : Addr), ∃ (s : State), s.testMode = false ∧ s.boot.phase ≠ .held ∧ s.obs.halted = false ∧ (a.toNat < 0x1000000000 ∨ (0x1008000000 ≤ a.toNat ∧ a.toNat < ssBase) ∨ (ssBase + 0x2000000 ≤ a.toNat ∧ a.toNat < 0x3000000000) ∨ 0x3002000000 ≤ a.toNat)) ∧
    (∃ (t : Time), ∃ (f : FrondId), ∃ (m : Mem), ∃ (o : Option CtxId), ∃ (w : Nat), ∃ (v : Word), ∃ (rest : List FwAccess), ∃ (s : State), SlotOf .ext t f m s ∧ scrubTurn (atTime s t) (frond s f) m = false ∧ (frond s f).fwPend = .write o m w [some v] :: rest ∧ padOn (frond s f) m w = true) ∧
    (∃ (t : Time), ∃ (fn : FnId), ∃ (off : Nat), ∃ (data : List Byte), ∃ (s : State), ∃ a, ∃ pt, let p := hostSees s t; HostReaches s ∧ operating s = true ∧ (fn = 0 ∨ fnServed s fn = true) ∧ data.length = 4 ∧ off % 4 = 0 ∧ hostWriteAt p fn 2 off = some (a, pt)) ∧
    (∃ (t : Time), ∃ (fn : FnId), ∃ (off : Nat), ∃ (data : List Byte), ∃ (s : State), let p := hostSees s t; HostReaches s ∧ operating s = true ∧ (fn = 0 ∨ fnServed s fn = true) ∧ (∀ x ∈ writeWords off data, hostWriteAt p fn 2 x.1 = none)) ∧
    (∃ (fn : FnId), ∃ (off : Nat), ∃ (s : State), HostReaches s ∧ operating s = true ∧ (fn = 0 ∨ fnServed s fn = true) ∧ off < 0x8000) ∧
    (∃ (fn : FnId), ∃ (off : Nat), ∃ (s : State), HostReaches s ∧ operating s = true ∧ (fn = 0 ∨ fnServed s fn = true) ∧ 0x8000 ≤ off ∧ off < 0x9000) ∧
    (∃ (fn : FnId), ∃ (off : Nat), ∃ (s : State), HostReaches s ∧ operating s = true ∧ (fn = 0 ∨ fnServed s fn = true) ∧ fn ≠ 0 ∧ 0x9000 ≤ off) ∧
    (∃ (fn : FnId), ∃ (off : Nat), ∃ (data : List Byte), ∃ (s : State), HostReaches s ∧ operating s = true ∧ (fn = 0 ∨ fnServed s fn = true) ∧ fn = 0 ∧ data.length = 4 ∧ off = 0x10004) ∧
    (∃ (t : Time), ∃ (port : Fin 16), ∃ (z : Nat), ∃ (ref : Nat), ∃ (rest : List (Nat × Nat)), ∃ (a : Nat), ∃ (v : Word), ∃ (mask : Word), ∃ (s : State), PortServes t port z ref rest (.hostLine false a [(v, mask)]) s ∧ ringWordAt s a = none ∧ inNotice s a = false ∧ replayKeeps s a = 0 ∧ (∀ b, replayBlock s = some b → a < b ∨ b + 32 ≤ a)) ∧
    (∃ (bar : Fin 6), ∃ (s : State), HostReaches s ∧ bar ≠ 0 ∧ bar ≠ 2) ∧
    (∃ (fn : FnId), ∃ (bar : Fin 6), ∃ (off : Nat), ∃ (n : Nat), ∃ (s : State), let k := min n 4096; s.testMode = false ∧ s.pcie.up = true ∧ 0 < n ∧ (fn ≠ 0 ∨ bar ≠ 4 ∨ off < 0x8000000) ∧ (∀ i, i < (off + k + 3) / 4 - off / 4 → hostReadAt s fn bar (off / 4 * 4 + 4 * i) = none)) ∧
    (∃ (fn : FnId), ∃ (bar : Fin 6), ∃ (off : Nat), ∃ (n : Nat), ∃ (s : State), ∃ a, ∃ pt, s.testMode = false ∧ s.pcie.up = true ∧ 0 < n ∧ (fn ≠ 0 ∨ bar ≠ 4 ∨ off < 0x8000000) ∧ n = 4 ∧ off % 4 = 0 ∧ hostReadAt s fn bar off = some (a, pt)) ∧
    (∃ (t : Time), ∃ (port : Fin 16), ∃ (z : Nat), ∃ (ref : Nat), ∃ (rest : List (Nat × Nat)), ∃ (rd : Nat), ∃ (a : Nat), ∃ (r : HostRead), ∃ (s : State), PortServes t port z ref rest (.hostRead rd a 1) s ∧ s.pcie.reads.find? (·.id == rd) = some r ∧ r.waiting = [(0, a, 1)] ∧ r.skip = 0 ∧ r.len = 4 ∧ r.bytes.length = 4) ∧
    (∃ (t : Time), ∃ (e : Sent), ∃ (fn : FnId), ∃ (rd : Nat), ∃ (bytes : List Byte), ∃ (r : HostRead), ∃ (s : State), ContestAt t 16 s ∧ NextTransfer s 16 e ∧ e.part = none ∧ e.x = .completion fn rd bytes true ∧ s.pcie.reads.find? (·.id == rd) = some r) :=
  ⟨⟨0x2001FFFFFF, up, by decide +kernel⟩,
   ⟨0x100003FFFC, up, 0, .w, 65535, by decide +kernel⟩,
   ⟨0x3000050100, up, by decide +kernel⟩,
   ⟨0, 0x3000010040, up, by decide +kernel⟩,
   ⟨0x3000020018, boot .fwStart, by decide +kernel⟩,
   ⟨3, 0x3000020000, up, by decide +kernel⟩,
   ⟨3, 0x3000050000, up, by decide +kernel⟩,
   ⟨0, 0x3000080040, up, 0, 0, by decide +kernel⟩,
   ⟨0x3001000018, up, 0, by decide +kernel⟩,
   ⟨16, 0x3000070000, 1, up, by decide +kernel⟩,
   ⟨0x0FFFFFFFFF, up, by decide +kernel⟩,
   ⟨360, 0, .w, none, 0, 7, [], runs id fun f => { f with fwPend := [.write none .w 0 [some 7]] }, by simp only [SlotOf]; decide +kernel⟩,
   ⟨0, 0, 0x100, [1, 2, 3, 4], hosted, imageBase + 0x100, some 0, by simp only [HostReaches]; decide +kernel⟩,
   ⟨0, 0, 0x100, [1, 2, 3, 4], { hosted with parts := hosted.parts.map fun p => { p with win := p.win.map fun w => { w with hostw := false } } }, by simp only [HostReaches]; decide +kernel⟩,
   ⟨0, 0, hosted, by simp only [HostReaches]; decide +kernel⟩,
   ⟨0, 0x8000, hosted, by simp only [HostReaches]; decide +kernel⟩,
   ⟨1, 0x9000, hosted, by simp only [HostReaches]; decide +kernel⟩,
   ⟨0, 0x10004, [0, 0, 0, 0], hosted, by simp only [HostReaches]; decide +kernel⟩,
   ⟨0, 0, 0, 5, [], imageBase, 7, 0xFFFFFFFF, granted (.hostLine false imageBase [(7, 0xFFFFFFFF)]) up, by exact ⟨by simp only [PortServes]; decide +kernel, by decide +kernel, by decide +kernel, by decide +kernel, fun b h => absurd (show replayBlock up = some b from h) (up_no_replay b)⟩⟩,
   ⟨1, hosted, by simp only [HostReaches]; decide +kernel⟩,
   ⟨0, 1, 0, 4, hosted, by decide +kernel⟩,
   ⟨0, 2, 0x100, 4, hosted, imageBase + 0x100, some 0, by decide +kernel⟩,
   ⟨0, 0, 0, 5, [], 9, imageBase, hostRead0, modPcie (granted (.hostRead 9 imageBase 1) up) fun p => { p with reads := [hostRead0] }, by simp only [PortServes]; decide +kernel⟩,
   ⟨0, ⟨5, 8, none, .completion 0 9 [] true⟩, 0, 9, [], hostRead0, modPcie (sent [⟨5, 8, none, .completion 0 9 [] true⟩] staged) fun p => { p with reads := [hostRead0] }, by simp only [ContestAt, NextTransfer]; decide +kernel⟩⟩

theorem witness_RingsFollowTheirControlBlocks :
    (∃ (r : RingId), ∃ (b : Nat), ∃ (s : State), HostReaches s ∧ operating s = true ∧ s.ecc = [] ∧ ringBlock s r = some b ∧ blockOpen s r = true) ∧
    (∃ (t : Time), ∃ (r : RingId), ∃ (i : Instr), ∃ (head : BitVec 16), ∃ (s : State), i ∈ [Instr.ringEnable t r, .ringDisable t r, .ringHeadWrite t r head] ∧ HostReaches s ∧ blockOpen s r = false) ∧
    (∃ (r : RingId), ∃ (b : Nat), ∃ (q : RingRec), ∃ (rest : List RingRec), ∃ (s : State), s.testMode = false ∧ s.obs.halted = false ∧ s.ecc = [] ∧ ringBlock s r = some b ∧ takeFirst r.val s.ringQ = some (q, rest) ∧ (s.rings.get r).enabled = true ∧ q.replay = false ∧ ringFits s r b q.slots = false ∧ q.waited = false) ∧
    (∃ (r : RingId), ∃ (b : Nat), ∃ (q : RingRec), ∃ (rest : List RingRec), ∃ (s : State), s.testMode = false ∧ s.obs.halted = false ∧ s.ecc = [] ∧ ringBlock s r = some b ∧ takeFirst r.val s.ringQ = some (q, rest) ∧ (s.rings.get r).enabled = true ∧ q.replay = false ∧ ringFits s r b q.slots = false ∧ q.waited = true) ∧
    (∃ (r : RingId), ∃ (b : Nat), ∃ (q : RingRec), ∃ (rest : List RingRec), ∃ (s : State), s.testMode = false ∧ s.obs.halted = false ∧ s.ecc = [] ∧ ringBlock s r = some b ∧ takeFirst r.val s.ringQ = some (q, rest) ∧ (s.rings.get r).enabled = true ∧ q.replay = false ∧ ringFits s r b q.slots = true ∧ (q.slots = 1 ∨ q.slots = 3)) ∧
    (∃ (t : Time), ∃ (port : Fin 16), ∃ (z : Nat), ∃ (ref : Nat), ∃ (rest : List (Nat × Nat)), ∃ (ids : List Nat), ∃ (a : Nat), ∃ (n : Nat), ∃ (odd : Bool), ∃ (s : State), PortServes t port z ref rest (.recordRead ids a n odd) s) ∧
    (∃ (r : RingId), ∃ (b : Nat), ∃ (q : RingRec), ∃ (rest : List RingRec), ∃ (s : State), s.testMode = false ∧ s.obs.halted = false ∧ s.ecc = [] ∧ ringBlock s r = some b ∧ (s.rings.get r).out = q :: rest ∧ ringWrites s r.val ≤ (rest.map (·.slots)).sum) ∧
    (∃ (t : Time), ∃ (r : RingId), ∃ (b : Nat), ∃ (s : State), s.testMode = false ∧ operating s = true ∧ ringBlock s r = some b ∧ bit (rdWord s (b + 8)) 9 = true ∧ coalDue (atTime s t) r b = true) :=
  ⟨⟨0, imageBase, ringed (rec0 1), by simp only [HostReaches]; decide +kernel⟩,
   ⟨0, 0, .ringEnable 0 0, 0, { hosted with parts := hosted.parts.map fun p => { p with win := p.win.map fun w => { w with hostw := false } } }, by exact ⟨by simp, by simp only [HostReaches]; decide +kernel, by decide +kernel⟩⟩,
   ⟨0, imageBase, rec0 16, [], ringed (rec0 16), by decide +kernel⟩,
   ⟨0, imageBase, { rec0 16 with waited := true }, [], ringed { rec0 16 with waited := true }, by decide +kernel⟩,
   ⟨0, imageBase, rec0 1, [], ringed (rec0 1), by decide +kernel⟩,
   ⟨0, 0, 0, 5, [], [], imageBase, 1, false, granted (.recordRead [] imageBase 1 false) up, by simp only [PortServes]; decide +kernel⟩,
   ⟨0, imageBase, rec0 1, [], modRing hosted 0 fun x => { x with out := [rec0 1] }, by decide +kernel⟩,
   ⟨tAT, 0, imageBase, modRing (wrWord (wrWord hosted (imageBase + 8) 0x200) (imageBase + 24) 0x100) 0 fun x => { x with unsig := 1 }, by decide +kernel⟩⟩

theorem witness_ContextCommandsActByTheStateOfTheContext :
    (∃ (f : FrondId), ∃ (c : CtxId), ∃ (s : State), s.testMode = false ∧ operating s = true ∧ groupActive s f = true ∧ (ctx s f c).st = .ready ∧ (frond s f).cur = none) ∧
    (∃ (f : FrondId), ∃ (c : CtxId), ∃ (s : State), s.testMode = false ∧ operating s = true ∧ groupActive s f = true ∧ (ctx s f c).st = .saved ∧ (frond s f).cur = none) ∧
    (∃ (f : FrondId), ∃ (c : CtxId), ∃ (s : State), s.testMode = false ∧ operating s = true ∧ groupActive s f = true ∧ (ctx s f c).st ≠ .ready ∧ (ctx s f c).st ≠ .saved) ∧
    (∃ (f : FrondId), ∃ (c : CtxId), ∃ (s : State), s.testMode = false ∧ operating s = true ∧ groupActive s f = true ∧ ((ctx s f c).st = .ready ∨ (ctx s f c).st = .saved) ∧ (frond s f).cur.isSome = true) ∧
    (∃ (f : FrondId), ∃ (c : CtxId), ∃ (s : State), s.testMode = false ∧ operating s = true ∧ (ctx s f c).st = .running) ∧
    (∃ (f : FrondId), ∃ (c : CtxId), ∃ (s : State), s.testMode = false ∧ operating s = true ∧ (ctx s f c).st = .restoring) ∧
    (∃ (f : FrondId), ∃ (c : CtxId), ∃ (s : State), s.testMode = false ∧ operating s = true ∧ (ctx s f c).st ≠ .running ∧ (ctx s f c).st ≠ .restoring) ∧
    (∃ (f : FrondId), ∃ (c : CtxId), ∃ (s : State), s.testMode = false ∧ operating s = true ∧ (ctx s f c).st ∈ [.running, .saving, .restoring]) ∧
    (∃ (f : FrondId), ∃ (c : CtxId), ∃ (s : State), s.testMode = false ∧ operating s = true ∧ (ctx s f c).st ∈ [.staging, .ready, .saved]) ∧
    (∃ (f : FrondId), ∃ (c : CtxId), ∃ (s : State), s.testMode = false ∧ operating s = true ∧ (ctx s f c).st ∈ [.idle, .teardown]) ∧
    (∃ (t : Time), ∃ (f : FrondId), ∃ (c : CtxId), ∃ (s : State), s.testMode = false ∧ operating s = true ∧ (ctx s f c).preq = true ∧ (ctx s f c).st = .running ∧ (ctx s f c).pwaitAt ≤ max s.now t) ∧
    (∃ (t : Time), ∃ (f : FrondId), ∃ (c : CtxId), ∃ (d : CtxId), ∃ (s : State), s.testMode = false ∧ operating s = true ∧ runningCtx s f = some c ∧ (ctx s f c).waitq ≠ 0 ∧ (ctx s f c).waitq.toNat ≤ waitFc (atTime s t) (ctx s f c) ∧ d ≠ c ∧ ((ctx s f d).st = .ready ∨ (ctx s f d).st = .saved) ∧ ((ctx s f c).waitk = .tag → ∀ m w k, (ctx s f c).waitOn = some (m, w, k) → tagAccess (frond s f) m w k = none)) ∧
    (∃ (f : FrondId), ∃ (c : CtxId), ∃ (m : Mem), ∃ (w : Nat), ∃ (k : TagKind), ∃ (s : State), s.testMode = false ∧ (ctx s f c).waitk = .tag ∧ (ctx s f c).waitOn = some (m, w, k) ∧ (tagAccess (frond s f) m w k).isSome = true) ∧
    (∃ (f : FrondId), ∃ (c : CtxId), ∃ (s : State), s.testMode = false ∧ operating s = true ∧ (let x := ctx s f c; x.fault.isSome = true ∧ x.st ∈ [.staging, .ready, .saved] ∨ runningCtx s f = some c ∧ atBoundary s f c = true ∧ (faultNow x = true ∨ x.fault = none ∧ (x.areq = true ∧ (x.atCheap.isSome = true ∨ x.completed = true) ∨ x.stopReq = true ∨ x.completed = true)))) ∧
    (∃ (f : FrondId), ∃ (c : CtxId), ∃ (s : State), s.testMode = false ∧ operating s = true ∧ runningCtx s f = some c ∧ atBoundary s f c = true ∧ (ctx s f c).fault = none ∧ (ctx s f c).areq = false ∧ (ctx s f c).stopReq = false ∧ (ctx s f c).completed = false ∧ ((ctx s f c).preemptNow = true ∨ (ctx s f c).preq = true ∧ (ctx s f c).atCheap.isSome = true) ∧ settled s f c = true ∧ actionPending s f c = false) ∧
    (∃ (f : FrondId), ∃ (c : CtxId), ∃ (s : State), s.testMode = false ∧ runningCtx s f = some c ∧ (atBoundary s f c = false ∨ (ctx s f c).fault.isSome = true ∧ faultNow (ctx s f c) = false)) :=
  ⟨⟨0, 0, ctxIn .ready id, by decide +kernel⟩,
   ⟨0, 0, ctxIn .saved id, by decide +kernel⟩,
   ⟨0, 0, ctxIn .idle id, by decide +kernel⟩,
   ⟨0, 0, modFrond (ctxIn .ready id) 0 fun f => { f with cur := some 1 }, by decide +kernel⟩,
   ⟨0, 0, ctxIn .running id, by decide +kernel⟩,
   ⟨0, 0, ctxIn .restoring id, by decide +kernel⟩,
   ⟨0, 0, ctxIn .idle id, by decide +kernel⟩,
   ⟨0, 0, ctxIn .saving id, by decide +kernel⟩,
   ⟨0, 0, ctxIn .staging id, by decide +kernel⟩,
   ⟨0, 0, ctxIn .teardown id, by decide +kernel⟩,
   ⟨9, 0, 0, ctxIn .running fun x => { x with preq := true, pwaitAt := 9 }, by decide +kernel⟩,
   ⟨tFC up, 0, 0, 1, modCtx (runs (fun x => { x with waitq := 1, waitk := .region, blk := some ⟨0, 0, false⟩ }) id) 0 1 fun x => { x with st := .saved }, by exact ⟨by decide +kernel, by decide +kernel, by decide +kernel, by decide +kernel, by decide +kernel, by decide, by decide +kernel, fun h => absurd h (by decide +kernel)⟩⟩,
   ⟨0, 0, .w, 0, .plain, runs (fun x => { x with waitk := .tag, waitOn := some (.w, 0, .plain) }) id, by decide +kernel⟩,
   ⟨0, 0, runs (fun x => { x with completed := true }) id, by decide +kernel⟩,
   ⟨0, 0, runs (fun x => { x with preemptNow := true }) id, by decide +kernel⟩,
   ⟨0, 0, runs (fun x => { x with store := [⟨.shared, ssBase, 7, true, false, 0⟩] }) id, by decide +kernel⟩⟩

theorem witness_SavesRestoresAndTeardownsKeepTheirParts :
    (∃ (f : FrondId), ∃ (c : CtxId), ∃ (s : State), s.testMode = false ∧ operating s = true ∧ (ctx s f c).st = .staging ∧ (ctx s f c).fault = none ∧ fwWaits (frond s f) c = false) ∧
    (∃ (f : FrondId), ∃ (c : CtxId), ∃ (s : State), s.testMode = false ∧ (ctx s f c).st = .staging ∧ fwWaits (frond s f) c = true) ∧
    (∃ (f : FrondId), ∃ (c : CtxId), ∃ (s : State), let x := ctx s f c; bit (liveMask x) 0 = true) ∧
    (∃ (t : Time), ∃ (port : Fin 16), ∃ (z : Nat), ∃ (ref : Nat), ∃ (rest : List (Nat × Nat)), ∃ (f : FrondId), ∃ (c : CtxId), ∃ (a : Nat), ∃ (ws : List Word), ∃ (s : State), PortServes t port z ref rest (.saveLine f c a ws) s) ∧
    (∃ (t : Time), ∃ (port : Fin 16), ∃ (z : Nat), ∃ (ref : Nat), ∃ (rest : List (Nat × Nat)), ∃ (f : FrondId), ∃ (c : CtxId), ∃ (a : Nat), ∃ (n : Nat), ∃ (s : State), PortServes t port z ref rest (.restoreLine f c a n) s) ∧
    (∃ (f : FrondId), ∃ (c : CtxId), ∃ (s : State), s.testMode = false ∧ operating s = true ∧ (ctx s f c).st = .saving ∧ linesUnderWay s f c = false ∧ (ctx s f c).areq = false ∧ (ctx s f c).stopReq = false ∧ (ctx s f c).fault = none) ∧
    (∃ (t : Time), ∃ (f : FrondId), ∃ (c : CtxId), ∃ (i : Instr), ∃ (s : State), s.testMode = false ∧ linesUnderWay s f c = true ∧ (i = .saveComplete t f c ∨ i = .restoreComplete t f c)) ∧
    (∃ (f : FrondId), ∃ (c : CtxId), ∃ (s : State), s.testMode = false ∧ operating s = true ∧ (ctx s f c).st = .restoring ∧ linesUnderWay s f c = false ∧ (ctx s f c).areq = false ∧ (ctx s f c).stopReq = false ∧ (ctx s f c).fault = none ∧ (ctx s f c).divert = false) ∧
    (∃ (f : FrondId), ∃ (c : CtxId), ∃ (s : State), s.testMode = false ∧ operating s = true ∧ (ctx s f c).st = .restoring ∧ linesUnderWay s f c = false ∧ (ctx s f c).fault = some .ecc) ∧
    (∃ (f : FrondId), ∃ (c : CtxId), ∃ (s : State), s.testMode = false ∧ operating s = true ∧ (ctx s f c).divert = true ∧ (ctx s f c).st = .running ∧ atBoundary s f c = true) ∧
    (∃ (f : FrondId), ∃ (c : CtxId), ∃ (s : State), s.testMode = false ∧ operating s = true ∧ (ctx s f c).st = .teardown ∧ (ctx s f c).torn = false ∧ ctxJob s f c = none) ∧
    (∃ (f : FrondId), ∃ (c : CtxId), ∃ (j : Job), ∃ (k : FaultKind), ∃ (e : Entry), ∃ (s : State), QueuesSound s ∧ (ctx s f c).st = .teardown ∧ (ctx s f c).torn = false ∧ ctxJob s f c = some j ∧ ctxsOf s j = [(f, c)] ∧ j.shard = .none ∧ spDig j.spore = false ∧ j.fault = none ∧ (ctx s f c).fault = some k ∧ entryAt s j.queue j.idx = some e ∧ (∀ i ∈ s.jobs, i.id = j.id → i = j)) ∧
    (∃ (f : FrondId), ∃ (c : CtxId), ∃ (s : State), s.testMode = false ∧ operating s = true ∧ (ctx s f c).st = .teardown ∧ (ctx s f c).torn = true ∧ (ctx s f c).job = none ∧ (ctx s f c).swept = false) ∧
    (∃ (f : FrondId), ∃ (c : CtxId), ∃ (s : State), s.testMode = false ∧ operating s = true ∧ (ctx s f c).st = .teardown ∧ (ctx s f c).torn = true ∧ (ctx s f c).job = none ∧ (ctx s f c).swept = true ∧ fwWaits (frond s f) c = false) ∧
    (∃ (t : Time), ∃ (f : FrondId), ∃ (m : Mem), ∃ (o : Option CtxId), ∃ (l : Nat), ∃ (rest : List FwAccess), ∃ (s : State), SlotOf .ext t f m s ∧ scrubTurn (atTime s t) (frond s f) m = false ∧ (frond s f).fwPend = .clear o l :: rest ∧ m = (if l < 1280 then .a else .p)) :=
  ⟨⟨0, 0, ctxIn .staging id, by decide +kernel⟩,
   ⟨0, 0, modFrond (ctxIn .staging id) 0 fun f => { f with fwPend := [.clear (some 0) 0] }, by decide +kernel⟩,
   ⟨0, 0, up, by decide +kernel⟩,
   ⟨0, 0, 0, 5, [], 0, 0, imageBase, [7], granted (.saveLine 0 0 imageBase [7]) up, by simp only [PortServes]; decide +kernel⟩,
   ⟨0, 0, 0, 5, [], 0, 0, imageBase, 32, granted (.restoreLine 0 0 imageBase 32) up, by simp only [PortServes]; decide +kernel⟩,
   ⟨0, 0, ctxIn .saving id, by decide +kernel⟩,
   ⟨0, 0, 0, .saveComplete 0 0 0, sent [⟨5, 0, none, .saveLine 0 0 imageBase []⟩] up, by exact ⟨rfl, by decide +kernel, .inl rfl⟩⟩,
   ⟨0, 0, ctxIn .restoring id, by decide +kernel⟩,
   ⟨0, 0, ctxIn .restoring fun x => { x with fault := some .ecc }, by decide +kernel⟩,
   ⟨0, 0, runs (fun x => { x with divert := true }) id, by decide +kernel⟩,
   ⟨0, 0, ctxIn .teardown id, by decide +kernel⟩,
   ⟨0, 0, { job0 with st := .placed }, .ecc, { entry0 with st := .taken }, placed { job0 with st := .placed } [{ entry0 with st := .taken }] fun x => { x with st := .teardown, fault := some .ecc }, by simp only [QueuesSound]; decide +kernel⟩,
   ⟨0, 0, ctxIn .teardown fun x => { x with torn := true }, by decide +kernel⟩,
   ⟨0, 0, ctxIn .teardown fun x => { x with torn := true, swept := true }, by decide +kernel⟩,
   ⟨360, 0, .a, none, 0, [], runs id fun f => { f with fwPend := [.clear none 0] }, by simp only [SlotOf]; decide +kernel⟩⟩

theorem witness_AdmissionPlacementAndSubstitutes :
    (∃ (q : QueueId), ∃ (i : Fin 64), ∃ (e : Entry), ∃ (s : State), QueuesSound s ∧ s.popped.find? (·.1 == q) = some (q, i) ∧ entryAt s q i = some e ∧ e.st = .buffered ∧ e.queue = q ∧ e.idx = i ∧ qRunning s q = false ∧ (∀ j ∈ s.jobs, j.queue ≠ q) ∧ e.toNull = true) ∧
    (∃ (t : Time), ∃ (q : QueueId), ∃ (i : Fin 64), ∃ (e : Entry), ∃ (s : State), ∃ p, let ws := (rdWords s (poolEntry s q i) 16).take 14 ++ [0, 0]; let found := (fbChain s 3 [] (spProg ws)).find? fun p => !reachedNow (atTime s t) (spDeadline ws - BitVec.ofNat 56 (progMargin s (spProg ws))) && passes (atTime s t) (spDeadline ws) (spInLen ws) p; QueuesSound s ∧ s.popped.find? (·.1 == q) = some (q, i) ∧ entryAt s q i = some e ∧ e.st = .buffered ∧ e.queue = q ∧ e.idx = i ∧ qRunning s q = false ∧ (∀ j ∈ s.jobs, j.queue ≠ q) ∧ e.toNull = false ∧ found = some p ∧ progShard s p = false) ∧
    (∃ (t : Time), ∃ (q : QueueId), ∃ (i : Fin 64), ∃ (e : Entry), ∃ (s : State), let ws := (rdWords s (poolEntry s q i) 16).take 14 ++ [0, 0]; let found := (fbChain s 3 [] (spProg ws)).find? fun p => !reachedNow (atTime s t) (spDeadline ws - BitVec.ofNat 56 (progMargin s (spProg ws))) && passes (atTime s t) (spDeadline ws) (spInLen ws) p; QueuesSound s ∧ s.popped.find? (·.1 == q) = some (q, i) ∧ entryAt s q i = some e ∧ e.st = .buffered ∧ e.queue = q ∧ e.idx = i ∧ qRunning s q = false ∧ (∀ j ∈ s.jobs, j.queue ≠ q) ∧ e.toNull = false ∧ found = none) ∧
    (∃ (q : QueueId), ∃ (j : Job), ∃ (s : State), QueuesSound s ∧ s.jobs.find? (fun j => j.queue == q && placeable j) = some j ∧ (∀ f ∈ jobFronds s j, groupActive s f = true ∧ (ctx s f (jobCtx s j)).st = .idle) ∧ (∀ k ∈ s.jobs, k.id ≠ j.id → placeable k = true → jobCtx s k = jobCtx s j → (∃ f ∈ jobFronds s k, f ∈ jobFronds s j) → placedFirst k j = false) ∧ primingElsewhere s j = false ∧ j.fired = false) ∧
    (∃ (t : Time), ∃ (q : QueueId), ∃ (i : Fin 64), ∃ (j : Job), ∃ (s : State), s.testMode = false ∧ operating s = true ∧ jobAt s q i = some j ∧ armedJob j = true ∧ j.fired = false ∧ notLater j.tact (stamp (atTime s t)) = true) ∧
    (∃ (q : QueueId), ∃ (i : Fin 64), ∃ (j : Job), ∃ (s : State), QueuesSound s ∧ jobAt s q i = some j ∧ j.fired = true ∧ j.cancelled = false ∧ j.st = .admitted ∧ j.shard = .none) ∧
    (∃ (q : QueueId), ∃ (i : Fin 64), ∃ (j : Job), ∃ (s : State), s.testMode = false ∧ operating s = true ∧ jobAt s q i = some j ∧ j.fired = true ∧ j.cancelled = false ∧ j.st = .placed ∧ ctxsOf s j ≠ [] ∧ (∀ p ∈ ctxsOf s j, let x := ctx s p.1 p.2; x.fault = none ∧ x.areq = false ∧ x.stopReq = false ∧ pastFinal x = false ∧ (x.st = .running ∧ atBoundary s p.1 p.2 = true ∨ x.st ∈ [.ready, .staging, .saved])) ∧ (j.started = none ∨ markedIter s j = 0 ∨ ∃ p ∈ ctxsOf s j, (ctx s p.1 p.2).fdepth ≠ 0)) ∧
    (∃ (q : QueueId), ∃ (i : Fin 64), ∃ (j : Job), ∃ (s : State), s.testMode = false ∧ operating s = true ∧ jobAt s q i = some j ∧ j.fired = true ∧ j.cancelled = false ∧ j.st = .placed ∧ ctxsOf s j ≠ [] ∧ (∀ p ∈ ctxsOf s j, let x := ctx s p.1 p.2; x.fault = none ∧ x.areq = false ∧ x.stopReq = false ∧ pastFinal x = false ∧ (x.st = .running ∧ atBoundary s p.1 p.2 = true ∨ x.st ∈ [.ready, .staging, .saved])) ∧ j.started.isSome = true ∧ markedIter s j ≠ 0 ∧ (∀ p ∈ ctxsOf s j, (ctx s p.1 p.2).fdepth = 0)) ∧
    (∃ (j : Job), ∃ (e : Entry), ∃ (s : State), let sp := copySpan s j j.line; QueuesSound s ∧ nextCopy s = some j ∧ j.cancelled = false ∧ j.shard = .none ∧ spDig j.spore = false ∧ entryAt s j.queue j.idx = some e ∧ sp.2.1 < outLen s j ∧ sp.1 ≤ sp.2.1 ∧ (j.begun = true ∨ progForm s j.req.toNat = 0)) ∧
    (∃ (j : Job), ∃ (e : Entry), ∃ (s : State), let sp := copySpan s j j.line; QueuesSound s ∧ nextCopy s = some j ∧ j.cancelled = false ∧ j.shard = .none ∧ spDig j.spore = false ∧ entryAt s j.queue j.idx = some e ∧ sp.2.1 < outLen s j ∧ sp.1 ≤ sp.2.1 ∧ j.begun = false ∧ progForm s j.req.toNat ≠ 0 ∧ substituteStatus s j = 0x03 ∧ progExpen s j.req.toNat = false) ∧
    (∃ (j : Job), ∃ (e : Entry), ∃ (s : State), let sp := copySpan s j j.line; QueuesSound s ∧ nextCopy s = some j ∧ j.cancelled = false ∧ j.shard = .none ∧ spDig j.spore = false ∧ entryAt s j.queue j.idx = some e ∧ outLen s j ≤ sp.2.1 ∧ imageBase ≤ (s.le.get (progExpch s j.req.toNat)).iblk) ∧
    (∃ (j : Job), ∃ (e : Entry), ∃ (s : State), QueuesSound s ∧ nextCopy s = some j ∧ j.cancelled = true ∧ (j.cancelStatus = 0x08 ∨ j.cancelStatus = 0x09) ∧ j.shard = .none ∧ entryAt s j.queue j.idx = some e) ∧
    (∃ (q : QueueId), ∃ (i : Fin 64), ∃ (j : Job), ∃ (s : State), s.testMode = false ∧ operating s = true ∧ jobAt s q i = some j ∧ spDig j.spore = true ∧ j.digestItems.isSome = true ∧ (∀ k ∈ s.jobs, k.st ≠ .finishing)) :=
  ⟨⟨0, 0, { entry0 with toNull := true }, { queued [{ entry0 with toNull := true }] [] with popped := [(0, 0)] }, by simp only [QueuesSound]; decide +kernel⟩,
   ⟨0, 0, 0, entry0, { wrWord (wrWord (queued [entry0] []) (imageBase + 4) 1) (imageBase + 12) 1 with popped := [(0, 0)] }, 1, by simp only [QueuesSound]; decide +kernel⟩,
   ⟨0, 0, 0, entry0, { queued [entry0] [] with popped := [(0, 0)] }, by simp only [QueuesSound]; decide +kernel⟩,
   ⟨0, job0, queued [] [job0], by simp only [QueuesSound]; decide +kernel⟩,
   ⟨75, 0, 0, job0, queued [] [job0], by decide +kernel⟩,
   ⟨0, 0, { job0 with fired := true }, queued [] [{ job0 with fired := true }], by simp only [QueuesSound]; decide +kernel⟩,
   ⟨0, 0, { job0 with fired := true, st := .placed }, placed { job0 with fired := true, st := .placed } [] fun x => { x with st := .running }, by decide +kernel⟩,
   ⟨0, 0, { job0 with fired := true, st := .placed, started := some 0 }, placed { job0 with fired := true, st := .placed, started := some 0 } [] fun x => { x with st := .running, itcnt := 1 }, by decide +kernel⟩,
   ⟨{ job0 with st := .substitute, spore := List.replicate 16 0x00000040 }, entry0, { queued [entry0] [{ job0 with st := .substitute, spore := List.replicate 16 0x00000040 }] with programs := [(1, List.replicate 30 64)] }, by simp only [QueuesSound]; decide +kernel⟩,
   ⟨{ job0 with st := .substitute, spore := List.replicate 16 0x00000040 }, entry0, { wrWord (queued [entry0] [{ job0 with st := .substitute, spore := List.replicate 16 0x00000040 }]) (descAddr 0) 0x181 with programs := [(1, List.replicate 12 64 ++ [0x20000] ++ List.replicate 7 64 ++ [1])] }, by simp only [QueuesSound]; decide +kernel⟩,
   ⟨{ job0 with st := .substitute }, entry0, queued [entry0] [{ job0 with st := .substitute }], by simp only [QueuesSound]; decide +kernel⟩,
   ⟨{ job0 with st := .substitute, cancelled := true }, entry0, queued [entry0] [{ job0 with st := .substitute, cancelled := true }], by simp only [QueuesSound]; decide +kernel⟩,
   ⟨0, 0, { job0 with spore := 0x01000000 :: List.replicate 15 0, digestItems := some [] }, queued [] [{ job0 with spore := 0x01000000 :: List.replicate 15 0, digestItems := some [] }], by decide +kernel⟩⟩

theorem witness_LinksTrainMeasureAndGoDown :
    (∃ (l : LinkId), ∃ (s : State), s.testMode = false ∧ operating s = true ∧ linkEn s l = true ∧ rcdRole s ≠ 0 ∧ ((s.links.get l).st = .off ∨ (s.links.get l).st = .down)) ∧
    (∃ (t : Time), ∃ (l : Fin 4), ∃ (s : State), s.testMode = false ∧ operating s = true ∧ (s.links.get l).st = .training ∧ (s.links.get l).trainAt + trainBound (s.links.get l) * tUs < max s.now t) ∧
    (∃ (l : Fin 4), ∃ (s : State), s.testMode = false ∧ operating s = true ∧ (s.links.get l).st = .training ∧ (s.links.get l).frameLocked = false) ∧
    (∃ (l : Fin 4), ∃ (s : State), s.testMode = false ∧ operating s = true ∧ (s.links.get l).st = .training ∧ (s.links.get l).joined = true ∧ (s.links.get l).samples.length < 64) ∧
    (∃ (l : Fin 4), ∃ (rtt : Int), ∃ (off : Int), ∃ (s : State), s.testMode = false ∧ operating s = true ∧ (s.links.get l).st = .training ∧ (s.links.get l).joined = true ∧ (s.links.get l).samples.length = 64 ∧ bestSample (s.links.get l).samples = some (rtt, off)) ∧
    (∃ (t : Time), ∃ (l : Fin 4), ∃ (cause : DownCause), ∃ (s : State), s.testMode = false ∧ operating s = true ∧ (s.links.get l).st ∈ [.up, .refused, .inService] ∧ downHolds (atTime s t) (s.links.get l) cause = true ∧ s.tree.role ≠ 2) ∧
    (∃ (l : Fin 4), ∃ (s : State), s.testMode = false ∧ operating s = true ∧ (s.links.get l).st ≠ .off ∧ (s.links.get l).st ≠ .down) ∧
    (∃ (l : LinkId), ∃ (f : Frame), ∃ (odd : Bool), ∃ (s : State), Expects s l f.num ∧ f.crc = frameCrc (if odd = true then 15 else 14) f) ∧
    (∃ (l : LinkId), ∃ (f : Frame), ∃ (s : State), Expects s l f.num ∧ f.crc ≠ frameCrc 1 f ∧ (s.links.get l).rxWait = false) ∧
    (∃ (l : Fin 4), ∃ (f : Frame), ∃ (s : State), s.testMode = false ∧ operating s = true ∧ (s.links.get l).st = .inService ∧ f.crc ≠ frameCrc 1 f ∧ (s.links.get l).rxWait = true ∧ f.num ≠ (s.links.get l).nakNum) ∧
    (∃ (l : Fin 4), ∃ (f : Frame), ∃ (s : State), s.testMode = false ∧ operating s = true ∧ (s.links.get l).st = .inService ∧ f.crc = frameCrc 1 f ∧ f.num ≠ (s.links.get l).rxCount) ∧
    (∃ (l : Fin 4), ∃ (f : Frame), ∃ (s : State), s.testMode = false ∧ operating s = true ∧ ((s.links.get l).st = .up ∨ (s.links.get l).st = .refused) ∧ f.crc = frameCrc 1 f ∧ f.num = (s.links.get l).rxCount) :=
  ⟨⟨2, observedTree 0x11 up, by decide +kernel⟩,
   ⟨2000 * tUs, 2, modLink up 2 fun k => { k with st := .training }, by decide +kernel⟩,
   ⟨2, modLink up 2 fun k => { k with st := .training }, by decide +kernel⟩,
   ⟨2, modLink up 2 fun k => { k with st := .training, joined := true }, by decide +kernel⟩,
   ⟨2, 7, 2, modLink up 2 fun k => { k with st := .training, joined := true, samples := List.replicate 64 (7, 2) }, by decide +kernel⟩,
   ⟨0, 2, .laneLock, linked 1, by decide +kernel⟩,
   ⟨2, linked 1, by decide +kernel⟩,
   ⟨2, frameOf 15 true 0 [], true, linked 1, by simp only [Expects]; decide +kernel⟩,
   ⟨2, { frameOf 1 true 0 [] with crc := 0 }, linked 1, by simp only [Expects]; decide +kernel⟩,
   ⟨2, { frameOf 1 true 0 [1] with crc := 0, num := 1 }, modLink (linked 1) 2 fun k => { k with rxWait := true, nakNum := 0 }, by decide +kernel⟩,
   ⟨2, { frameOf 1 true 0 [] with num := 3 }, linked 1, by decide +kernel⟩,
   ⟨2, frameOf 1 true 0 [], modLink up 2 fun k => { k with st := .up }, by decide +kernel⟩⟩

theorem witness_LinesCrossBetweenDevices :
    (∃ (l : LinkId), ∃ (f : Frame), ∃ (s : State), FrameArrives s l 1 f ∧ f.space = true ∧ f.sfrond.toNat < 0x82 ∧ inImage (ssBase + 128 * f.line.toNat) 128 = true) ∧
    (∃ (l : LinkId), ∃ (f : Frame), ∃ (s : State), FrameArrives s l 2 f ∧ f.space = true ∧ f.sfrond.toNat < 0x82 ∧ inImage (ssBase + 128 * f.line.toNat) 128 = true) ∧
    (∃ (t : Time), ∃ (port : Fin 16), ∃ (z : Nat), ∃ (ref : Nat), ∃ (rest : List (Nat × Nat)), ∃ (l : LinkId), ∃ (f : Frame), ∃ (ws : List (Option Word)), ∃ (s : State), PortServes t port z ref rest (.linkLine l f ws) s ∧ ws.length = 32 ∧ (f.sfrond.toNat < 0x80 → ∀ i, i < 32 → inHeader s (ssBase + 128 * f.line.toNat + 4 * i) = false)) ∧
    (∃ (t : Time), ∃ (l : LinkId), ∃ (f : Frame), ∃ (i : Instr), ∃ (ty : Nat), ∃ (s : State), (i = .writeFrame t l f ∧ ty = 1 ∨ i = .writewFrame t l f ∧ ty = 2) ∧ FrameArrives s l ty f ∧ (0x82 ≤ f.sfrond.toNat ∨ f.space = true ∧ inImage (ssBase + 128 * f.line.toNat) 128 = false ∨ f.space = false ∧ padOf (128 * f.line.toNat % 0x100000) = none)) ∧
    (∃ (t : Time), ∃ (l : LinkId), ∃ (f : Frame), ∃ (i : Instr), ∃ (ty : Nat), ∃ (s : State), (i = .readFrame t l f ∧ ty = 3 ∨ i = .rdataFrame t l f ∧ ty = 4 ∨ i = .wackFrame t l f ∧ ty = 5) ∧ FrameArrives s l ty f ∧ 0x82 ≤ f.sfrond.toNat) ∧
    (∃ (t : Time), ∃ (l : LinkId), ∃ (f : Frame), ∃ (i : Instr), ∃ (ty : Nat), ∃ (m : Mem), ∃ (w : Nat), ∃ (s : State), let g := frondNo (128 * f.line.toNat / 0x100000); (i = .writeFrame t l f ∧ ty = 1 ∨ i = .writewFrame t l f ∧ ty = 2) ∧ FrameArrives s l ty f ∧ f.space = false ∧ f.sfrond.toNat < 0x82 ∧ padOf (128 * f.line.toNat % 0x100000) = some (m, w) ∧ (frond s g).inbound.length < 16 ∧ (∀ h ∈ (frond s g).held, h.1.sender.path.isSome = true → h.1.sender.node ≠ f.snode.val)) ∧
    (∃ (l : LinkId), ∃ (f : Frame), ∃ (s : State), let w := wordAt (framePayload f) 0; let n := min (field w 9 5 + 1) (32 - field w 4 0); let a := ssBase + 128 * f.line.toNat + 4 * field w 4 0; FrameArrives s l 3 f ∧ f.sfrond.toNat < 0x82 ∧ f.space = true ∧ inImage a (4 * n) = true) ∧
    (∃ (l : LinkId), ∃ (f : Frame), ∃ (s : State), let w := wordAt (framePayload f) 0; let n := min (field w 9 5 + 1) (32 - field w 4 0); let a := ssBase + 128 * f.line.toNat + 4 * field w 4 0; FrameArrives s l 3 f ∧ f.sfrond.toNat < 0x82 ∧ (f.space = false ∨ inImage a (4 * n) = false)) ∧
    (∃ (t : Time), ∃ (port : Fin 16), ∃ (z : Nat), ∃ (ref : Nat), ∃ (rest : List (Nat × Nat)), ∃ (l : LinkId), ∃ (f : Frame), ∃ (a : Nat), ∃ (n : Nat), ∃ (s : State), PortServes t port z ref rest (.linkRead l f a n) s) ∧
    (∃ (l : LinkId), ∃ (f : Frame), ∃ (o : RemoteOp), ∃ (d : LoadWait), ∃ (rd : Reg), ∃ (s : State), FrameArrives s l 4 f ∧ f.sfrond.toNat < 0x82 ∧ s.tree.tags.find? (fun o => o.read && o.tag == f.tag.val) = some o ∧ engAwaits s o.f o.c .fetch o.id = false ∧ engAwaits s o.f o.c .drain o.id = false ∧ (ctx s o.f o.c).load = some d ∧ d.id = o.id ∧ d.rd = some rd ∧ 0 < o.words) ∧
    (∃ (l : LinkId), ∃ (f : Frame), ∃ (o : RemoteOp), ∃ (s : State), FrameArrives s l 5 f ∧ f.sfrond.toNat < 0x82 ∧ wordAt (framePayload f) 0 = 1 ∧ wordAt (framePayload f) 1 = 0 ∧ oldestWrites s f.snode.val 1 = [o] ∧ engAwaits s o.f o.c .fetch o.id = false ∧ engAwaits s o.f o.c .drain o.id = false ∧ (∀ j ∈ s.jobs, j.st ≠ .finishing)) ∧
    (∃ (l : LinkId), ∃ (f : Frame), ∃ (o : RemoteOp), ∃ (s : State), FrameArrives s l 5 f ∧ f.sfrond.toNat < 0x82 ∧ wordAt (framePayload f) 0 = 0 ∧ wordAt (framePayload f) 1 = 1 ∧ refusedOp s f.snode.val (wordAt (framePayload f) 2) (wordAt (framePayload f) 3) = some o ∧ o.job.bind (jobOf s) = none ∧ (∀ j ∈ s.jobs, j.st ≠ .finishing)) ∧
    (∃ (l : LinkId), ∃ (f : Frame), ∃ (x : LinkId), ∃ (s : State), Expects s l f.num ∧ f.crc = frameCrc 1 f ∧ f.dnode.val ≠ myNode s ∧ linkTo s f.dnode.val = some x) :=
  ⟨⟨2, frameOf 1 true line0 [1], linked 1, by simp only [FrameArrives, Expects]; decide +kernel⟩,
   ⟨2, frameOf 2 true line0 [1, 7], linked 1, by simp only [FrameArrives, Expects]; decide +kernel⟩,
   ⟨0, 0, 0, 5, [], 2, frameOf 1 true line0 [1], List.replicate 32 (some 7), granted (.linkLine 2 (frameOf 1 true line0 [1]) (List.replicate 32 (some 7))) up, by simp only [PortServes]; decide +kernel⟩,
   ⟨0, 2, frameOf 1 true 0 [1], .writeFrame 0 2 (frameOf 1 true 0 [1]), 1, linked 1, by exact ⟨.inl ⟨rfl, rfl⟩, by simp only [FrameArrives, Expects]; decide +kernel, by decide +kernel⟩⟩,
   ⟨0, 2, mkFrame 3 0 1 0 0x82 true line0 0 [0], .readFrame 0 2 (mkFrame 3 0 1 0 0x82 true line0 0 [0]), 3, linked 1, by exact ⟨.inl ⟨rfl, rfl⟩, by simp only [FrameArrives, Expects]; decide +kernel, by decide +kernel⟩⟩,
   ⟨0, 2, frameOf 1 false 0 [1], .writeFrame 0 2 (frameOf 1 false 0 [1]), 1, .w, 0, linked 1, by exact ⟨.inl ⟨rfl, rfl⟩, by simp only [FrameArrives, Expects]; decide +kernel, by decide +kernel⟩⟩,
   ⟨2, frameOf 3 true line0 [0], linked 1, by simp only [FrameArrives, Expects]; decide +kernel⟩,
   ⟨2, frameOf 3 false line0 [0], linked 1, by simp only [FrameArrives, Expects]; decide +kernel⟩,
   ⟨0, 0, 0, 5, [], 2, frameOf 3 true line0 [0], imageBase, 1, granted (.linkRead 2 (frameOf 3 true line0 [0]) imageBase 1) up, by simp only [PortServes]; decide +kernel⟩,
   ⟨2, frameOf 4 true 0 [7], op0 true, remoteLoad, 2, modCtx (awaiting true) 0 0 fun x => { x with load := some remoteLoad }, by simp only [FrameArrives, Expects]; decide +kernel⟩,
   ⟨2, frameOf 5 true 0 [1, 0], op0 false, awaiting false, by simp only [FrameArrives, Expects]; decide +kernel⟩,
   ⟨2, frameOf 5 true 0 [0, 1, 9, 0], op0 false, awaiting false, by simp only [FrameArrives, Expects]; decide +kernel⟩,
   ⟨2, mkFrame 1 0 1 1 0 true 0 0 [1], 2, linked 1, by simp only [Expects]; decide +kernel⟩⟩

theorem witness_StretchAndEpochFramesAreKept :
    (∃ (l : LinkId), ∃ (h : Hdr), ∃ (s : State), MessageArrives s l h) ∧
    (∃ (l : LinkId), ∃ (h : Hdr), ∃ (m : PdoneMsg), ∃ (j : Job), ∃ (hs : List Nat), ∃ (outs : List (Nat × Byte × Byte × BitVec 7 × Byte)), ∃ (halo : Bool), ∃ (s : State), MessageArrives s l h ∧ s.jobs.find? (fun j => j.queue == m.queue && spTag j.spore == m.tag && (match j.shard with | .sharded _ _ _ => true | _ => false)) = some j ∧ j.shard = .sharded hs outs halo ∧ outs.any (·.1 == m.k) = false ∧ m.k < hs.length ∧ outs.length + 1 < hs.length) ∧
    (∃ (l : LinkId), ∃ (h : Hdr), ∃ (m : PdoneMsg), ∃ (j : Job), ∃ (hs : List Nat), ∃ (outs : List (Nat × Byte × Byte × BitVec 7 × Byte)), ∃ (halo : Bool), ∃ (s : State), ∃ e, MessageArrives s l h ∧ s.jobs.find? (fun j => j.queue == m.queue && spTag j.spore == m.tag && (match j.shard with | .sharded _ _ _ => true | _ => false)) = some j ∧ j.shard = .sharded hs outs halo ∧ outs.any (·.1 == m.k) = false ∧ m.k < hs.length ∧ outs.length + 1 = hs.length ∧ m.status = 0x00 ∧ (∀ o ∈ outs, o.2.1 = 0x00) ∧ j.peerLost = false ∧ spDig j.spore = false ∧ s.ecc = [] ∧ entryAt s j.queue j.idx = some e ∧ imageBase ≤ (s.le.get (progExpch s j.req.toNat)).iblk) ∧
    (∃ (l : LinkId), ∃ (h : Hdr), ∃ (x : StopItem), ∃ (j : Job), ∃ (s : State), MessageArrives s l h ∧ s.jobs.find? (fun j => isStretch j && j.queue == x.queue && spTag j.spore == x.tag) = some j ∧ j.st = .placed ∧ (∀ a ∈ ctxsOf s j, (ctx s a.1 a.2).st = .running)) ∧
    (∃ (l : LinkId), ∃ (h : Hdr), ∃ (s : State), MessageArrives s l h ∧ s.tree.role = 3) ∧
    (∃ (l : LinkId), ∃ (h : Hdr), ∃ (e : Epoch), ∃ (s : State), MessageArrives s l h ∧ s.tree.role = 3 ∧ s.tree.partialE = some e) ∧
    (∃ (l : LinkId), ∃ (h : Hdr), ∃ (e : Epoch), ∃ (s : State), MessageArrives s l h ∧ s.tree.complete = some e) :=
  ⟨⟨2, hdr0, linked 1, by simp only [MessageArrives, Expects]; decide +kernel⟩,
   ⟨2, hdr0, { queue := 0, tag := 0, k := 0, status := 0, iter := 1, flags := 0, preempt := 0 }, spread 2, [0, 1], [], false, { linked 2 with jobs := [spread 2] }, by simp only [MessageArrives, Expects]; decide +kernel⟩,
   ⟨2, hdr0, { queue := 0, tag := 0, k := 0, status := 0, iter := 1, flags := 0, preempt := 0 }, spread 1, [0], [], false, { linked 2 with jobs := [spread 1], entries := [{ entry0 with st := .taken }] }, { entry0 with st := .taken }, by simp only [MessageArrives, Expects]; decide +kernel⟩,
   ⟨2, hdr0, { queue := 0, tag := 0, abort := false }, stretch0, modCtx { linked 1 with jobs := [stretch0] } 0 0 fun x => { x with st := .running, job := some 3 }, by simp only [MessageArrives, Expects]; decide +kernel⟩,
   ⟨2, hdr0, linked 3, by simp only [MessageArrives, Expects]; decide +kernel⟩,
   ⟨2, hdr0, epoch0, modTree (linked 3) fun t => { t with partialE := some epoch0 }, by simp only [MessageArrives, Expects]; decide +kernel⟩,
   ⟨2, hdr0, epoch0, modTree (linked 3) fun t => { t with complete := some epoch0 }, by simp only [MessageArrives, Expects]; decide +kernel⟩⟩

theorem witness_HeartbeatsJoinsAndMembersAreKept :
    (∃ (t : Time), ∃ (s : State), s.testMode = false ∧ operating s = true ∧ s.tree.role = 2 ∧ s.tree.beatSent + hbPer s ≤ max s.now t) ∧
    (∃ (l : LinkId), ∃ (h : Hdr), ∃ (s : State), MessageArrives s l h ∧ s.tree.role ≠ 2 ∧ s.tree.member = true) ∧
    (∃ (l : LinkId), ∃ (h : Hdr), ∃ (s : State), MessageArrives s l h ∧ s.tree.role = 2) ∧
    (∃ (l : LinkId), ∃ (h : Hdr), ∃ (epoch : Word), ∃ (s : State), MessageArrives s l h ∧ s.tree.role = 2 ∧ s.tree.epoch.toNat < epoch.toNat) ∧
    (∃ (l : LinkId), ∃ (h : Hdr), ∃ (epoch : Word), ∃ (s : State), MessageArrives s l h ∧ s.tree.role ≠ 2 ∧ s.tree.member = true ∧ s.tree.claimed.toNat ≤ epoch.toNat) ∧
    (∃ (l : Fin 4), ∃ (h : Hdr), ∃ (s : State), s.testMode = false ∧ operating s = true ∧ (s.links.get l).st = .training ∧ (s.links.get l).frameLocked = true ∧ h.good = true ∧ h.num = (s.links.get l).rxCount) ∧
    (∃ (l : Fin 4), ∃ (h : Hdr), ∃ (s : State), s.testMode = false ∧ operating s = true ∧ (s.links.get l).st = .up ∧ h.good = true ∧ h.num = (s.links.get l).rxCount ∧ s.tree.member = false) ∧
    (∃ (t : Time), ∃ (node : Fin 128), ∃ (m : Member), ∃ (s : State), s.testMode = false ∧ operating s = true ∧ s.tree.role = 2 ∧ memberOf s node.val = some m ∧ (m.answeredAt + hbMiss s * hbPer s ≤ max s.now t ∨ routeLost s m.path = true) ∧ (∀ j ∈ s.jobs, ∀ hs os b, j.shard ≠ .sharded hs os b)) ∧
    (∃ (t : Time), ∃ (s : State), s.testMode = false ∧ operating s = true ∧ s.tree.role = 1 ∧ s.tree.member = true ∧ s.tree.beatAt + 2 * hbMiss s * hbPer s ≤ max s.now t) :=
  ⟨⟨10 * tUs, linked 2, by decide +kernel⟩,
   ⟨2, hdr0, linked 1, by simp only [MessageArrives, Expects]; decide +kernel⟩,
   ⟨2, hdr0, linked 2, by simp only [MessageArrives, Expects]; decide +kernel⟩,
   ⟨2, hdr0, 1, linked 2, by simp only [MessageArrives, Expects]; decide +kernel⟩,
   ⟨2, hdr0, 0, linked 1, by simp only [MessageArrives, Expects]; decide +kernel⟩,
   ⟨2, hdr0, modLink up 2 fun k => { k with st := .training, frameLocked := true }, by decide +kernel⟩,
   ⟨2, hdr0, modLink up 2 fun k => { k with st := .up }, by decide +kernel⟩,
   ⟨1000 * tUs, 1, { node := 1, path := 0x13FFFF, role := 1, link := 2, nLinks := 1, oneWay := 0, offSum := 0, answeredAt := 0, lost := false, joinAt := none }, linked 2, by exact ⟨rfl, by decide +kernel, rfl, by decide +kernel, by decide +kernel, fun j h => nomatch (show j ∈ ([] : List Job) from h)⟩⟩,
   ⟨1000 * tUs, linked 1, by decide +kernel⟩⟩

theorem witness_TheStandbyTakesOver :
    (∃ (n : Nat), ∃ (s : State), s.testMode = false ∧ operating s = true ∧ s.tree.role = 2 ∧ s.tree.epCount ≠ s.tree.strobes ∧ s.builder.want = none ∧ standbyNode s = some n ∧ s.ecc = []) ∧
    (∃ (t : Time), ∃ (s : State), s.testMode = false ∧ operating s = true ∧ s.tree.role = 3 ∧ s.tree.member = true ∧ s.tree.managerLost = false ∧ s.tree.beatAt + hbMiss s * hbPer s ≤ max s.now t) ∧
    (∃ (s : State), s.testMode = false ∧ operating s = true ∧ s.tree.role = 3 ∧ s.tree.managerLost = true) ∧
    (∃ (p : PartId), ∃ (s : State), s.testMode = false ∧ operating s = true ∧ s.tree.noticeDue = true ∧ (∀ j ∈ s.jobs, j.peerLost = true → j.st ≠ .substitute) ∧ (∀ q, (part s q).en = true ↔ q = p) ∧ rwOff s + 8 ≤ winSize ((part s p).win.get 0)) :=
  ⟨⟨1, modTree (linked 2) fun t => { t with strobes := 1, epCount := 0, members := t.members.map fun m => { m with role := 3 } }, by decide +kernel⟩,
   ⟨1000 * tUs, linked 3, by decide +kernel⟩,
   ⟨modTree (linked 3) fun t => { t with managerLost := true }, by decide +kernel⟩,
   ⟨0, modTree hosted fun t => { t with noticeDue := true }, by decide +kernel⟩⟩

theorem witness_TapAccessesFusesAndTheDump :
    (∃ (t : Time), ∃ (a : Addr), ∃ (x : Word), ∃ (s : State), TapFree s t ∧ curOf s = .opened ∧ (s.boot.ready = true → groupStat s a.toNat = none) ∧ busNone s a.toNat = false ∧ s.ecc = [] ∧ (busRead (atTime s t) a.toNat).2 = x) ∧
    (∃ (t : Time), ∃ (a : Addr), ∃ (s : State), TapFree s t ∧ curOf s = .opened ∧ (s.boot.ready = true → groupStat s a.toNat = none) ∧ busNone s a.toNat = true) ∧
    (∃ (t : Time), ∃ (a : Addr), ∃ (s : State), TapFree s t ∧ curOf s = .opened ∧ s.obs.halted = false ∧ ssBase ≤ a.toNat ∧ a.toNat < ssBase + 0x2000000) ∧
    (∃ (t : Time), ∃ (a : Addr), ∃ (s : State), TapFree s t ∧ curOf s = .opened ∧ s.obs.halted = false ∧ 0x3000020000 ≤ a.toNat ∧ a.toNat < 0x3000020018) ∧
    (∃ (t : Time), ∃ (a : Addr), ∃ (s : State), TapFree s t ∧ curOf s = .opened ∧ s.obs.halted = false ∧ 0x3000020018 ≤ a.toNat ∧ a.toNat < 0x300002001C) ∧
    (∃ (t : Time), ∃ (s : State), TapFree s t ∧ curOf s = .opened ∧ s.obs.halted = true) ∧
    (∃ (t : Time), ∃ (a : Addr), ∃ (g : GroupId), ∃ (s : State), TapFree s t ∧ curOf s = .opened ∧ s.boot.ready = true ∧ s.obs.halted = false ∧ targetGroup a.toNat = some g ∧ ((group s g).st = .cold ∨ (group s g).st = .warm)) ∧
    (∃ (t : Time), ∃ (a : Addr), ∃ (g : GroupId), ∃ (s : State), TapFree s t ∧ curOf s = .opened ∧ s.boot.ready = true ∧ s.obs.halted = false ∧ targetGroup a.toNat = some g ∧ ((group s g).st = .proofUp ∨ (group s g).st = .proofDown)) ∧
    (∃ (t : Time), ∃ (s : State), TapFree s t ∧ curOf s = .sealed) ∧
    (∃ (t : Time), ∃ (s : State), s.testMode = false ∧ s.tap.linked = true ∧ s.tap.unlinkNext = false ∧ max s.now t < s.tap.busyUntil) ∧
    (∃ (s : State), s.testMode = false ∧ s.tap.linked = false) ∧
    (∃ (t : Time), ∃ (w : Byte), ∃ (v : Word), ∃ (s : State), TapFree s t ∧ curOf s = .opened ∧ s.obs.halted = false ∧ (∀ g, (group s g).st ≠ .proofUp ∧ (group s g).st ≠ .proofDown) ∧ (∀ d, s.power.seq ≠ .uncore d) ∧ (w.toNat ≤ 0x30 ∨ (w.toNat = 0x31 ∧ revokeOk s.fuses (BitVec.ofNat 4 v.toNat) = true)) ∧ w.toNat ∈ s.fuses.written) ∧
    (∃ (t : Time), ∃ (w : Byte), ∃ (v : Word), ∃ (s : State), TapFree s t ∧ curOf s = .opened ∧ s.obs.halted = false ∧ (∀ g, (group s g).st ≠ .proofUp ∧ (group s g).st ≠ .proofDown) ∧ (∀ d, s.power.seq ≠ .uncore d) ∧ (w.toNat ≤ 0x30 ∨ (w.toNat = 0x31 ∧ revokeOk s.fuses (BitVec.ofNat 4 v.toNat) = true)) ∧ w.toNat ∉ s.fuses.written) ∧
    (∃ (t : Time), ∃ (v : Word), ∃ (s : State), TapFree s t ∧ curOf s ≠ .sealed ∧ revokeOk s.fuses (BitVec.ofNat 4 v.toNat) = false) ∧
    (∃ (t : Time), ∃ (g : GroupId), ∃ (s : State), TapFree s t ∧ ((group s g).st = .proofUp ∨ (group s g).st = .proofDown)) ∧
    (∃ (tap : Bool), ∃ (s : State), s.testMode = false ∧ (if tap = true then s.tap.linked = true else s.pcie.up = true) ∧ dumpExists s = false) ∧
    (∃ (tap : Bool), ∃ (s : State), s.testMode = false ∧ (if tap = true then s.tap.linked = true else s.pcie.up = true) ∧ dumpExists s = true) :=
  ⟨⟨0, 0x3000020000, (busRead (atTime (tapped up) 0) 0x3000020000).2, tapped up, by simp only [TapFree]; decide +kernel⟩,
   ⟨0, 0x4000000000, tapped up, by simp only [TapFree]; decide +kernel⟩,
   ⟨0, ssBase, tapped up, by simp only [TapFree]; decide +kernel⟩,
   ⟨0, 0x3000020000, tapped up, by simp only [TapFree]; decide +kernel⟩,
   ⟨0, 0x3000020018, tapped up, by simp only [TapFree]; decide +kernel⟩,
   ⟨0, modObs (tapped up) fun o => { o with halted := true }, by simp only [TapFree]; decide +kernel⟩,
   ⟨0, 0x1000000000, 0, tapped (modGroup up 0 fun g => { g with st := .cold }), by simp only [TapFree]; decide +kernel⟩,
   ⟨0, 0x1000000000, 0, tapped (modGroup up 0 fun g => { g with st := .proofUp }), by simp only [TapFree]; decide +kernel⟩,
   ⟨0, tapped sealedDev, by simp only [TapFree]; decide +kernel⟩,
   ⟨0, { tapped up with tap := { Tap.reset with linked := true, busyUntil := 9 } }, by decide +kernel⟩,
   ⟨up, by decide +kernel⟩,
   ⟨0, 0, 0, { tapped up with fuses := { Fuses.reset with written := [0] } }, by simp only [TapFree]; decide +kernel⟩,
   ⟨0, 0, 0, tapped up, by simp only [TapFree]; decide +kernel⟩,
   ⟨0, 15, { tapped up with fuses := { Fuses.reset with written := [] } }, by simp only [TapFree]; decide +kernel⟩,
   ⟨0, 0, tapped (modGroup up 0 fun g => { g with st := .proofUp }), by simp only [TapFree]; decide +kernel⟩,
   ⟨true, tapped up, by decide +kernel⟩,
   ⟨true, modObs (tapped up) fun o => { o with halted := true }, by decide +kernel⟩⟩

theorem witness_CountersFreezeAndSamplesAreWritten :
    (∃ (s : State), Works s) ∧
    (∃ (t : Time), ∃ (s : State), let per := frzper s ≠ 0 ∧ atCount (atTime s t) % (frzper s * 3840) = 0 ∧ replayRuns s = false; Works s ∧ (s.obs.seq = 0 ∨ s.obs.snapStamp ≠ edgeStamp (atTime s t)) ∧ ((s.obs.frz = true ∧ s.obs.frzAt ≠ atCount (atTime s t)) ∨ per)) ∧
    (∃ (s : State), s.testMode = false ∧ s.obs.frz = false ∧ frzper s = 0) ∧
    (∃ (t : Time), ∃ (s : State), Works s ∧ samplePeriod s ≠ 0 ∧ atCount (atTime s t) % samplePeriod s = 0 ∧ replayRuns s = false ∧ s.obs.sampledAt ≠ some (edgeStamp (atTime s t))) ∧
    (∃ (s : State), s.testMode = false ∧ (replayRuns s = true ∨ samplePeriod s = 0)) ∧
    (∃ (st : Stamp), ∃ (ws : List Word), ∃ (s : State), Works s ∧ s.obs.sample = some (st, ws) ∧ ws.length = 252) ∧
    (∃ (s : State), s.testMode = false ∧ s.obs.sample = none) :=
  ⟨⟨up, by simp only [Works]; decide +kernel⟩,
   ⟨0, modObs up fun o => { o with frz := true, frzAt := 3 }, by simp only [Works]; decide +kernel⟩,
   ⟨up, by decide +kernel⟩,
   ⟨0, observed 0 3840 up, by simp only [Works]; decide +kernel⟩,
   ⟨up, by decide +kernel⟩,
   ⟨0, List.replicate 252 0, modObs up fun o => { o with sample := some (0, List.replicate 252 0) }, by simp only [Works]; decide +kernel⟩,
   ⟨up, by decide +kernel⟩⟩

theorem witness_HangsAreDeclaredAndTheDeviceStops :
    (∃ (s : State), Works s) ∧
    (∃ (t : Time), ∃ (core : CoreId), ∃ (s : State), Works s ∧ s.obs.hang = none ∧ watchExpired (atTime s t) core = true) ∧
    (∃ (t : Time), ∃ (core : CoreId), ∃ (s : State), s.testMode = false ∧ watchExpired (atTime s t) core = false) ∧
    (∃ (t : Time), ∃ (f : FrondId), ∃ (c : CtxId), ∃ (s : State), Works s ∧ s.obs.hang = none ∧ (ctx s f c).st = .teardown ∧ (ctx s f c).tearAt + 100 * tUs ≤ max s.now t) ∧
    (∃ (t : Time), ∃ (q : QueueId), ∃ (i : Fin 64), ∃ (e : Entry), ∃ (s : State), Works s ∧ s.obs.hang = none ∧ s.timing.stbSinceLock = true ∧ entryAt s q i = some e ∧ (e.st = .reserved ∨ e.st = .buffered ∨ e.st = .taken) ∧ notLater (spDeadline e.spore + 98304) (stamp (atTime s t)) = true) ∧
    (∃ (s : State), s.testMode = false ∧ s.timing.stbSinceLock = false) ∧
    (∃ (e : WorkEntry), ∃ (s : State), Works s ∧ s.obs.hang = none ∧ e ∈ s.builder.list ∧ e.born + 4 ≤ s.tree.strobes) ∧
    (∃ (t : Time), ∃ (core : CoreId), ∃ (x : Byte × Time), ∃ (s : State), Works s ∧ s.obs.hang = some x ∧ watchExpired (atTime s t) core = true) ∧
    (∃ (t : Time), ∃ (f : FrondId), ∃ (c : CtxId), ∃ (b : Blk), ∃ (s : State), Works s ∧ (∀ e, (engQ (ctx s f c) e).head?.bind (·.blk) = none) ∧ (ctx s f c).blk = some b ∧ b.logged = false ∧ b.since + waitEv s * 16 * tFC s ≤ max s.now t) ∧
    (∃ (t : Time), ∃ (cause : Byte), ∃ (begun : Time), ∃ (core : CoreId), ∃ (s : State), Works s ∧ s.obs.hang = some (cause, begun) ∧ s.obs.stopReq = none ∧ max s.now t ≤ begun + 50 * tUs ∧ watchExpired (atTime s t) core = false ∧ (∀ c : CoreId, c.val < core.val → watchExpired (atTime s t) c = true)) ∧
    (∃ (t : Time), ∃ (cause : Byte), ∃ (begun : Time), ∃ (s : State), Works s ∧ s.obs.hang = some (cause, begun) ∧ s.obs.stopReq = none ∧ begun + 50 * tUs ≤ max s.now t) ∧
    (∃ (l : Fin 4), ∃ (s : State), Works s ∧ treeStop s = true ∧ ((s.links.get l).st = .up ∨ (s.links.get l).st = .inService) ∧ s.obs.cut = none ∧ s.obs.stopReq = none ∧ s.obs.hang = none) ∧
    (∃ (l : Fin 4), ∃ (s : State), ∃ q, ∃ own, Works s ∧ treeStop s = true ∧ ((s.links.get l).st = .up ∨ (s.links.get l).st = .inService) ∧ s.obs.cut = none ∧ s.obs.stopReq = some q ∧ s.obs.cutDue = some own ∧ bit s.obs.origin 7 = true ∧ s.obs.hang ≠ none) ∧
    (∃ (s : State), s.testMode = false ∧ (treeStop s = false ∨ s.obs.cut ≠ none ∨ s.obs.halted = true)) ∧
    (∃ (t : Time), ∃ (c : Stamp), ∃ (s : State), Works s ∧ s.obs.cutDue = some c ∧ s.obs.cut = none ∧ notLater c (stamp (atTime s t)) = true ∧ (∀ f, (frond s f).mma = [])) ∧
    (∃ (c : Stamp), ∃ (s : State), s.testMode = false ∧ s.obs.cut = some c) :=
  ⟨⟨up, by simp only [Works]; decide +kernel⟩,
   ⟨10 * tMs, 0, up, by simp only [Works]; decide +kernel⟩,
   ⟨0, 0, up, by decide +kernel⟩,
   ⟨10 * tMs, 0, 0, ctxIn .teardown id, by simp only [Works]; decide +kernel⟩,
   ⟨10 * tMs, 0, 0, entry0, { queued [entry0] [] with timing := { Timing.reset with stbSinceLock := true } }, by simp only [Works]; decide +kernel⟩,
   ⟨up, by decide +kernel⟩,
   ⟨⟨0, 1, 0⟩, modTree { up with builder := { Builder.reset with list := [⟨0, 1, 0⟩] } } fun t => { t with strobes := 4 }, by simp only [Works]; decide +kernel⟩,
   ⟨10 * tMs, 0, (1, 0), modObs up fun o => { o with hang := some (1, 0) }, by simp only [Works]; decide +kernel⟩,
   ⟨10 * tMs, 0, 0, ⟨0, 0, false⟩, runs (fun x => { x with blk := some ⟨0, 0, false⟩ }) id, by exact ⟨by simp only [Works]; decide +kernel, fun e => by cases e <;> rfl, by decide +kernel, rfl, by decide +kernel⟩⟩,
   ⟨40 * tUs, 1, 0, 0, modObs up fun o => { o with hang := some (1, 0) }, by simp only [Works]; decide +kernel⟩,
   ⟨10 * tMs, 1, 0, modObs up fun o => { o with hang := some (1, 0) }, by simp only [Works]; decide +kernel⟩,
   ⟨2, observed 2 0x01000000 (linked 1), by simp only [Works]; decide +kernel⟩,
   ⟨2, modObs (observed 2 0x01000000 (linked 1)) fun o => { o with hang := some (1, 0), stopReq := some 0, cutDue := some 512, origin := 0x80 }, 0, 512, by simp only [Works]; decide +kernel⟩,
   ⟨up, by decide +kernel⟩,
   ⟨10 * tMs, 0, modObs up fun o => { o with cutDue := some 0 }, by simp only [Works]; decide +kernel⟩,
   ⟨0, modObs up fun o => { o with cut := some 0 }, by decide +kernel⟩⟩

theorem witness_ReplaysRunTheirScript :
    (∃ (b : Nat), ∃ (s : State), HostReaches s ∧ Works s ∧ replayEn s = true ∧ replayBlock s = some b ∧ replayOpen s = true ∧ s.pcie.sporeQ = [] ∧ bit (rdWord s b) 0 = false ∧ replayRuns s = false ∧ s.deadQueues = [] ∧ s.ecc = [] ∧ replayRefused s = true) ∧
    (∃ (b : Nat), ∃ (s : State), HostReaches s ∧ Works s ∧ replayEn s = true ∧ replayBlock s = some b ∧ replayOpen s = true ∧ s.pcie.sporeQ = [] ∧ bit (rdWord s b) 0 = false ∧ replayRuns s = false ∧ s.deadQueues = [] ∧ s.ecc = [] ∧ replayRefused s = false) ∧
    (∃ (t : Time), ∃ (s : State), HostReaches s ∧ (replayBlock s = none ∨ replayOpen (hostSees s t) = false) ∧ s.pcie.sporeQ = []) ∧
    (∃ (b : Nat), ∃ (s : State), Works s ∧ replayBlock s = some b ∧ s.obs.replay.st = .prep ∧ s.obs.replay.prepped = false ∧ (∀ g, (group s g).st = .active)) ∧
    (∃ (t : Time), ∃ (s : State), Works s ∧ ((s.obs.replay.st = .prep ∧ s.obs.replay.prepped = true) ∨ (s.obs.replay.st = .running ∧ s.obs.replay.k < s.obs.replay.nstrobe)) ∧ s.tree.pendStep = none ∧ notLater (replayStamp s s.obs.replay.k) (stamp (atTime s t)) = true) ∧
    (∃ (t : Time), ∃ (b : Nat), ∃ (s : State), let r := s.obs.replay; let ws := (scriptEntry s r.nextEnt).2; let strobe := min (field (wordAt ws 14) 15 0) (r.nstrobe - 1); Works s ∧ s.ecc = [] ∧ replayBlock s = some b ∧ ((s.obs.replay.st = .prep ∧ s.obs.replay.prepped = true) ∨ (s.obs.replay.st = .running ∧ s.obs.replay.k < s.obs.replay.nstrobe)) ∧ notLater (replayStamp s s.obs.replay.k - BitVec.ofNat 56 (xcUnits 128)) (stamp (atTime s t)) = true ∧ (r.nent ≤ r.nextEnt ∨ (r.nextEnt < r.nent ∧ r.k < strobe))) ∧
    (∃ (t : Time), ∃ (b : Nat), ∃ (s : State), let r := s.obs.replay; let ws := (scriptEntry s r.nextEnt).2; let strobe := min (field (wordAt ws 14) 15 0) (r.nstrobe - 1); Works s ∧ s.ecc = [] ∧ replayBlock s = some b ∧ ((s.obs.replay.st = .prep ∧ s.obs.replay.prepped = true) ∨ (s.obs.replay.st = .running ∧ s.obs.replay.k < s.obs.replay.nstrobe)) ∧ notLater (replayStamp s s.obs.replay.k - BitVec.ofNat 56 (xcUnits 128)) (stamp (atTime s t)) = true ∧ r.nextEnt + 1 = r.nent ∧ strobe < r.k) ∧
    (∃ (t : Time), ∃ (b : Nat), ∃ (s : State), let r := s.obs.replay; let ws := (scriptEntry s r.nextEnt).2; let strobe := min (field (wordAt ws 14) 15 0) (r.nstrobe - 1); let c := checkSpore s 0 ws; Works s ∧ s.ecc = [] ∧ replayBlock s = some b ∧ ((s.obs.replay.st = .prep ∧ s.obs.replay.prepped = true) ∨ (s.obs.replay.st = .running ∧ s.obs.replay.k < s.obs.replay.nstrobe)) ∧ notLater (replayStamp s s.obs.replay.k - BitVec.ofNat 56 (xcUnits 128)) (stamp (atTime s t)) = true ∧ r.nextEnt + 1 = r.nent ∧ strobe = r.k ∧ r.lastR ≤ r.k ∧ c.refuse = false ∧ qDepth s c.queue ≤ qCount s c.queue) ∧
    (∃ (t : Time), ∃ (b : Nat), ∃ (s : State), let r := s.obs.replay; let ws := (scriptEntry s r.nextEnt).2; let strobe := min (field (wordAt ws 14) 15 0) (r.nstrobe - 1); let c := checkSpore s 0 ws; Works s ∧ s.ecc = [] ∧ replayBlock s = some b ∧ ((s.obs.replay.st = .prep ∧ s.obs.replay.prepped = true) ∨ (s.obs.replay.st = .running ∧ s.obs.replay.k < s.obs.replay.nstrobe)) ∧ notLater (replayStamp s s.obs.replay.k - BitVec.ofNat 56 (xcUnits 128)) (stamp (atTime s t)) = true ∧ r.nextEnt + 1 = r.nent ∧ strobe = r.k ∧ r.lastR ≤ r.k ∧ c.refuse = false ∧ qCount s c.queue < qDepth s c.queue) ∧
    (∃ (t : Time), ∃ (b : Nat), ∃ (s : State), Works s ∧ replayBlock s = some b ∧ s.obs.replay.st = .running ∧ s.obs.replay.k = s.obs.replay.nstrobe ∧ notLater (replayStamp s s.obs.replay.nstrobe) (stamp (atTime s t)) = true) ∧
    (∃ (b : Nat), ∃ (s : State), Works s ∧ replayBlock s = some b ∧ s.obs.replay.st = .drain ∧ s.jobs = [] ∧ (∀ e ∈ s.entries, replayHolds s e.queue e.idx = true ∨ e.st = .waiting ∨ e.st = .freed)) :=
  ⟨⟨imageBase, modTree (replaying .idle 0) fun t => { t with member := true }, by simp only [HostReaches, Works]; decide +kernel⟩,
   ⟨imageBase, replaying .idle 0, by simp only [HostReaches, Works]; decide +kernel⟩,
   ⟨0, staged, by exact ⟨by simp only [HostReaches]; decide +kernel, .inl (by decide +kernel), rfl⟩⟩,
   ⟨imageBase, replaying .prep 0, by simp only [Works]; decide +kernel⟩,
   ⟨0, modObs (replaying .running 0) fun o => { o with replay := { o.replay with nstrobe := 2, k := 1 } }, by simp only [Works]; decide +kernel⟩,
   ⟨0, imageBase, modObs (replaying .running 0) fun o => { o with replay := { o.replay with nstrobe := 2, k := 1 } }, by simp only [Works]; decide +kernel⟩,
   ⟨0, imageBase, modObs (replaying .running 1) fun o => { o with replay := { o.replay with nstrobe := 2, k := 1 } }, by simp only [Works]; decide +kernel⟩,
   ⟨0, imageBase, modObs (wrWord (replaying .prep 1) (descAddr 0) 0x101) fun o => { o with replay := { o.replay with nstrobe := 2, prepped := true } }, by simp only [Works]; decide +kernel⟩,
   ⟨0, imageBase, modObs (wrWord (replaying .prep 1) (descAddr 0) 1) fun o => { o with replay := { o.replay with nstrobe := 2, prepped := true } }, by simp only [Works]; decide +kernel⟩,
   ⟨0, imageBase, modObs (replaying .running 0) fun o => { o with replay := { o.replay with nstrobe := 2, k := 2 } }, by simp only [Works]; decide +kernel⟩,
   ⟨imageBase, replaying .drain 0, by simp only [Works]; decide +kernel⟩⟩

theorem witness_PortResetsReturnRecordsAndDiscardWrites :
    (∃ (s : State), s.testMode = false ∧ s.pcie.up = true ∧ s.obs.halted = false ∧ BlocksApart s) ∧
    (∃ (s : State), s.testMode = false ∧ s.obs.halted = false ∧ BlocksApart s) ∧
    (∃ (s : State), s.testMode = false ∧ s.boot.ready = true ∧ s.pcie.perst = false ∧ s.pcie.up = false) ∧
    (∃ (s : State), s.testMode = false ∧ (s.boot.ready = false ∨ s.pcie.perst = true)) ∧
    (∃ (s : State), s.testMode = false) :=
  ⟨⟨hosted, by exact ⟨rfl, rfl, rfl, hosted_apart⟩⟩,
   ⟨hosted, by exact ⟨rfl, rfl, hosted_apart⟩⟩,
   ⟨{ up with pcie := { Pcie.reset with perst := false } }, by decide +kernel⟩,
   ⟨State.reset, by decide +kernel⟩,
   ⟨hosted, by decide +kernel⟩⟩

end Sys2Proof.Tests
end

section
/-!
PROOFS. Memory and checks that several statements use: what a write of words leaves at every byte, and that no check finds
anything where no word is marked (R236, R482).
-/
namespace Sys2Proof.Proofs
open Sys2Proof.Machine Sys2Proof.Safety Sys2Proof.Laws

/-! ### Writes of words -/

theorem cellGet_wrWord_out (s : State) (a x : Nat) (w : Word) (h : x < a ∨ a + 4 ≤ x) :
    cellGet 0 (wrWord s a w).mem x = cellGet 0 s.mem x :=
  cellGet_write_out 0 (wordBytes w) s.mem a x (by simpa using h)

theorem cellGet_wrWords_out (s : State) (a x : Nat) (ws : List Word) (h : x < a ∨ a + 4 * ws.length ≤ x) :
    cellGet 0 (wrWords s a ws).mem x = cellGet 0 s.mem x := by
  induction ws generalizing s a with
  | nil => rfl
  | cons w ws ih =>
    simp only [List.length_cons] at h
    rw [wrWords, ih _ _ (by omega), cellGet_wrWord_out _ _ _ _ (by omega)]

theorem rdWords_wrWords (s : State) (a : Nat) (ws : List Word) : rdWords (wrWords s a ws) a ws.length = ws := by
  apply List.ext_getElem (by simp [rdWords, memWords, upto])
  intro i hi hj
  have := rdWord_wrWords_in s a i ws hj
  simpa [rdWords, memWords, upto, rdWord, wordAt, hj] using this

/-- A word of zeros stores four bytes of zero. -/
theorem cellGet_wrWord_zero (s : State) (a x : Nat) (h : a ≤ x) (h' : x < a + 4) : cellGet 0 (wrWord s a 0).mem x = 0 := by
  obtain ⟨i, rfl⟩ := Nat.exists_eq_add_of_le h
  have hi : i < (wordBytes (0 : Word)).length := by simp; omega
  refine (cellGet_write_in 0 (wordBytes 0) s.mem a i hi).trans ?_
  exact (List.mem_replicate.mp (show (wordBytes (0 : Word))[i] ∈ List.replicate 4 (0 : Byte) from List.getElem_mem hi)).2

theorem cellGet_wrWords_zero (s : State) (a n x : Nat) (h : a ≤ x) (h' : x < a + 4 * n) :
    cellGet 0 (wrWords s a (List.replicate n 0)).mem x = 0 := by
  induction n generalizing s a with
  | zero => omega
  | succ n ih =>
    rw [List.replicate_succ, wrWords]
    by_cases hx : x < a + 4
    · rw [cellGet_wrWords_out _ _ _ _ (.inl hx), cellGet_wrWord_zero s a x h hx]
    · exact ih _ _ (by omega) (by omega)

/-! ### Checks where no word is marked -/

section
variable (s : State) (h : s.ecc = [])
include h

theorem markAt_clean (a : Nat) : markAt s a = none := by simp [markAt, h]

theorem ssCheck_clean (a : Nat) : ssCheck s a = (s, false) := by simp [ssCheck, markAt_clean s h]

theorem ssCheckAll_clean (a n : Nat) : ssCheckAll s a n = (s, false) := by
  unfold ssCheckAll
  induction upto n with
  | nil => rfl
  | cons i is ih => simpa [ssCheck_clean s h] using ih

theorem fwRead_clean (core a n : Nat) : fwRead s core a n = (s, rdWords s a n) := by
  have hfold : (upto n).foldl (fun s i =>
      let (s1, bad) := ssCheck s (a + 4 * i)
      if bad then logEvent s1 (uHearth core) 0x16 0 (ssData (a + 4 * i)) else s1) s = s := by
    induction upto n with
    | nil => rfl
    | cons i is ih => simpa [ssCheck_clean s h] using ih
  rw [fwRead, hfold]

theorem rmwWord_clean (core a : Nat) (g : Word → Word) : rmwWord s core a g = wrWord s a (g (rdWord s a)) := by
  rw [rmwWord, fwRead_clean s h]

theorem checkDesc_clean (q : QueueId) : checkDesc s q = s := by
  simp [checkDesc, ssCheckAll_clean s h]

end

theorem strikeAll_nil (s : State) : strikeAll s [] = s := rfl

/-! ### A port serves the transfer granted first (R23) -/

/-- The state in which a port performs the transfer granted first: its cycle is taken and the transfer is gone. -/
def served (s : State) (p : Fin 21) (ref : Nat) (rest : List (Nat × Nat)) : State :=
  dropXfer (modPort (usePort s p) p fun x => { x with granted := rest }) ref

theorem served_only (s : State) (p : Fin 21) (ref : Nat) (rest : List (Nat × Nat)) :
    ∃ f : Fabric, served s p ref rest = { s with fabric := f } ∧ (f.ports.get p).granted = rest ∧
      f.xfers = s.fabric.xfers.filter (·.id != ref) ∧ ∀ k, p ≠ k → f.ports.get k = s.fabric.ports.get k := by
  refine ⟨_, rfl, ?_, rfl, fun k hk => ?_⟩
  · simp [modPort, usePort]
  · simp [modPort, usePort, hk]

theorem performNext_serves (s : State) (p : Fin 21) (q ref : Nat) (rest : List (Nat × Nat)) (x : Xfer)
    (hu : portUsed s p = false) (ho : operating s = true) (hg : (s.fabric.ports.get p).granted = (q, ref) :: rest)
    (hx : xferOf s ref = some x) : performNext s p = ssPerform (served s p ref rest) ref x := by
  have hx' : xferOf (modPort (usePort s p) p fun x => { x with granted := rest }) ref = some x := hx
  simp only [performNext, hg, hu, ho, hx', Bool.not_true, Bool.or_self, Bool.false_eq_true, if_false, served]

/-! ### A guarded effect, given what it comes to -/

/-- What a guarded command leaves of the state its effect comes to: the queue and the session are not its own. -/
def guarded (s s1 : State) : State := { s1 with pending := s.pending, session := s.session }

theorem live_eq {t : Time} {s s1 : State} {f : State → State} (hm : s.testMode = false) (hf : f (atTime s t) = s1) :
    live t s f = .next (guarded s s1) := by
  rw [live_normal _ _ _ hm, hf]; rfl

end Sys2Proof.Proofs
end

section
/-!
PROOFS. The reset input, its governed ramp and its release (R361, R392, R403, R466, R469).
-/
namespace Sys2Proof.Proofs
open Sys2Proof.Machine Sys2Proof.Safety Sys2Proof.Laws

/-- The power governor under the reset input with the sequencer at rest: every request withdrawn (R403). -/
def withdrawn (s : State) : State :=
  modPower s fun p => { p with
    resetting := true, windowOpen := false, named := [], deferred := [], seq := .idle
    groups := Vector.map (fun (x : Group) => { x with req := none, rewake := false }) p.groups }

@[simp] theorem group_withdrawn (s : State) (h : GroupId) :
    group (withdrawn s) h = { group s h with req := none, rewake := false } := by
  simp [withdrawn, group]

/-- With no ramp in progress, the present current of a group is the one recorded for it. -/
theorem groupCur_idle (s : State) (g : GroupId) (h : s.power.seq = .idle) : groupCur s g = (group s g).cur := by
  simp [groupCur, h]

theorem beginReset_idle (s : State) (h : s.power.seq = .idle) : beginReset s = resetNext (withdrawn s) := by
  simp only [beginReset, h]; rfl

/-- The ramp under the reset input starts with the lowest-numbered group that draws current. -/
theorem resetNext_idle (s : State) (g : GroupId) (h : s.power.seq = .idle)
    (hg : (allFin 16).find? (fun g => decide (0 < (group s g).cur)) = some g) :
    resetNext s = beginRamp (modGroup s g fun x => { x with st := .proofDown }) g .off := by
  simp only [resetNext, groupCur_idle s _ h, hg]

/-- The start of a ramp of a group to 0 A changes no request. -/
theorem beginRamp_off (s : State) (g : GroupId) (h : s.power.seq = .idle) :
    ∃ p : Power, beginRamp (modGroup s g fun x => { x with st := .proofDown }) g .off = { s with power := p } ∧
      p.resetting = s.power.resetting ∧ (∀ k, (p.groups.get k).req = (group s k).req) ∧
      p.seq = .ramp g .off ∧ p.rampFrom = (group s g).cur ∧ p.rampTo = 0 := by
  refine ⟨_, rfl, rfl, fun k => ?_, rfl, ?_, rfl⟩
  · by_cases hk : g = k <;> simp [group, modGroup, hk]
  · simp [groupCur, modGroup, h, group]

/-- The reset input on an awake device with the sequencer at rest: requests are withdrawn, and the lowest-numbered group
that draws current begins its ramp to 0 A (R403). -/
theorem beginReset_ramps (s : State) (g : GroupId) (h : s.power.seq = .idle)
    (hg : (allFin 16).find? (fun g => decide (0 < (group s g).cur)) = some g) :
    ∃ p : Power, beginReset s = { s with power := p } ∧ p.resetting = true ∧ (∀ k, (p.groups.get k).req = none) ∧
      p.seq = .ramp g .off ∧ p.rampFrom = (group s g).cur ∧ p.rampTo = 0 := by
  obtain ⟨p, hp, hres, hreq, hseq, hfrom, hto⟩ := beginRamp_off (withdrawn s) g rfl
  refine ⟨p, ?_, hres, fun k => ?_, hseq, ?_, hto⟩
  · rw [beginReset_idle s h, resetNext_idle (withdrawn s) g rfl (by simpa only [group_withdrawn] using hg), hp]; rfl
  · rw [hreq, group_withdrawn]
  · rw [hfrom, group_withdrawn]

/-- Release of reset: the boot PLL's phase, every group in Dormant-Cold, the upward ramp of the uncore (R31, R361, R392). -/
theorem startBoot_refclk (s : State) (bsref : Bool) :
    let s' := startBoot s true bsref
    s'.boot.phase = .pllWait ∧ s'.boot.resetPin = s.boot.resetPin ∧ (∀ g, (group s' g).st = .cold ∧ (group s' g).cur = 16) ∧
      s'.power.seq = .uncore false ∧ s' = { s with power := s'.power, boot := s'.boot, timing := s'.timing } :=
  ⟨rfl, rfl, fun g => by simp [startBoot, beginUncore, group, modPower, modBoot], rfl, rfl⟩

theorem boardFlash_nil (s : State) : boardFlash s [] = s := rfl

/-- RESET_INPUT on an awake device: the pin is recorded, and the governed ramp begins. -/
theorem exec_resetInput_awake (t : Time) (s : State) (hm : s.testMode = false) (hr : s.power.resetting = false)
    (hp : s.boot.phase ≠ .held) :
    exec (.resetInput t) s = .next { beginReset (modBoot (atTime s t) fun b => { b with resetPin := true, released := none }) with
      pending := s.pending } := by
  rw [exec, execResetInput, liveSession_normal _ _ _ hm]
  simp [hr, hp]

/-- The upward ramp of the uncore ends: the fabric runs at speed (R392). -/
theorem exec_uncoreRampComplete_up (t : Time) (s : State) (hm : s.testMode = false) (hq : s.power.seq = .uncore false)
    (hd : s.power.stepAt ≤ max s.now t) :
    exec (.uncoreRampComplete t) s = .next { modPower (atTime s t) fun p =>
      { p with uncore := p.rampTo, seq := .idle, fabricFast := true } with pending := s.pending } := by
  rw [exec, execUncoreRampComplete, liveSession_normal _ _ _ hm]
  simp [hq, hd]

/-- Under the reset input its downward ramp ends: R361 takes effect, and the device stays held (R403). -/
theorem exec_uncoreRampComplete_down (t : Time) (s : State) (hm : s.testMode = false) (hq : s.power.seq = .uncore true)
    (hd : s.power.stepAt ≤ max s.now t) (hb : s.boot.released = none) :
    exec (.uncoreRampComplete t) s = .next { modPower (resetCommon (atTime s t)) fun p => { p with lastDrop := 1 } with
      pending := s.pending } := by
  rw [exec, execUncoreRampComplete, liveSession_normal _ _ _ hm]
  simp [hq, hd, hb]

/-- RESET_RELEASE with no byte written to the flash, of a device that nothing else holds. -/
theorem exec_resetRelease_boots (t : Time) (refclk bsref testMode : Bool) (s : State) (hm : s.testMode = false)
    (hp : s.boot.resetPin = true) (hn : (s.boot.porHeld && testMode) = false) (hr : s.power.resetting = false)
    (hl : s.timing.refLost = false) (ht : s.power.thermLatch = false) :
    exec (.resetRelease t refclk bsref testMode []) s = .next {
      startBoot (modBoot (atTime s t) fun b => { b with resetPin := false }) refclk bsref with
      pending := s.pending, session := s.session } := by
  rw [exec, execResetRelease, live_normal _ _ _ hm]
  simp [boardFlash_nil, hp, hn, hr, hl, ht]

theorem exec_resetRelease_testMode (t : Time) (refclk bsref : Bool) (s : State) (hm : s.testMode = false)
    (hp : s.boot.resetPin = true) (hh : s.boot.porHeld = true) :
    exec (.resetRelease t refclk bsref true []) s = .next {
      modBoot (atTime s t) fun b => { b with resetPin := false } with testMode := true } := by
  rw [exec, execResetRelease, live_normal _ _ _ hm]
  simp [boardFlash_nil, hp, hh]

/-- Settles O7, from what each command does in its case and what the shared power and reset operations change. -/
theorem resetInputIsGovernedAndReleaseBoots : Obligations.ResetInputIsGovernedAndReleaseBoots := by
  unfold Obligations.ResetInputIsGovernedAndReleaseBoots
  refine ⟨fun t s g hm hr hp hq hg => ⟨_, exec_resetInput_awake t s hm hr hp, ?_⟩,
    fun t s hm hq hd hb => ⟨_, exec_uncoreRampComplete_down t s hm hq hd hb,
      rfl, rfl, rfl, rfl, rfl, rfl, rfl, rfl, rfl, rfl, rfl⟩,
    fun t s hm hq hd => ⟨_, exec_uncoreRampComplete_up t s hm hq hd, rfl, rfl, rfl, rfl, rfl⟩,
    fun t bsref s hm hp hr hl ht =>
      ⟨_, exec_resetRelease_boots t true bsref false s hm hp (Bool.and_false _) hr hl ht, ?_⟩,
    fun t bsref s hm hp hh => ⟨_, exec_resetRelease_testMode t true bsref s hm hp hh, rfl⟩⟩
  · obtain ⟨p, hb, hres, hreq, hseq, hfrom, hto⟩ :=
      beginReset_ramps (modBoot (atTime s t) fun b => { b with resetPin := true, released := none }) g hq hg
    rw [hb]
    exact ⟨hres, hreq, hseq, hfrom, hto, rfl, rfl, rfl⟩
  · obtain ⟨hphase, hpin, hgroups, hseq, hframe⟩ :=
      startBoot_refclk (modBoot (atTime s t) fun b => { b with resetPin := false }) bsref
    exact ⟨hphase, hpin, hgroups, hseq, rfl⟩

end Sys2Proof.Proofs
end

section
/-!
PROOFS. The work-list builder (R53 to R58): the start of a build, the read-and-clear of a line, its return, and the visit of a
popped entry's queues.
-/
namespace Sys2Proof.Proofs
open Sys2Proof.Machine Sys2Proof.Safety Sys2Proof.Laws

/-- The work-list builder replaced. -/
def withBuilder (s : State) (b : Builder) : State := { s with builder := b }

/-! ### The start and the end of a build -/

/-- A transfer put before its port for each of a list, under rising ids, in the list's order. -/
theorem foldl_putXfer (req : Fin 32) (x : Nat → Xfer) (ls : List Nat) (s : State) :
    ls.foldl (fun s l => (putXfer s req none fun _ => x l).2) s = { s with
      nextId := s.nextId + ls.length
      fabric := { s.fabric with
        xfers := s.fabric.xfers ++ ls.mapIdx fun i l => { id := s.nextId + i, req := req, part := none, x := x l } } } := by
  induction ls generalizing s with
  | nil => simp
  | cons l ls ih =>
    rw [List.foldl_cons, ih]
    simp only [putXfer_only, List.mapIdx_cons, List.length_cons, List.append_assoc, List.singleton_append, Nat.add_zero]
    simp only [Nat.add_assoc, Nat.add_comm 1]

theorem windowEnd_only (s : State) : ∃ p : Power, windowEnd s = { s with power := p } ∧ p.windowOpen = false := by
  by_cases h : s.power.windowOpen = true
  · exact ⟨_, by rw [windowEnd, h]; rfl, rfl⟩
  · exact ⟨s.power, by simp [windowEnd, h], by simpa using h⟩

/-- The builder at the end of a build (R26). -/
def built (b : Builder) : Builder :=
  { b with active := false, scanned := false, toIssue := [], issued := [], lineAt := [], want := b.again, again := none }

/-- The end of a build closes the boundary window and resets the builder for the next one; its list stays (R26, R395). -/
theorem buildDone_only (s : State) : ∃ p : Power, p.windowOpen = false ∧ buildDone s = { s with power := p, builder := built s.builder } := by
  obtain ⟨p, h, hw⟩ := windowEnd_only (withBuilder s (built s.builder))
  exact ⟨p, hw, h⟩

/-- The builder as a scan of a summary that is not empty leaves it (R55). -/
def scanning (b : Builder) : Builder :=
  { b with active := true, scanned := true, toIssue := b.l1, issued := b.l1.map fun l => (l, none), lineAt := [] }

theorem exec_worklistBuild_starts (t : Time) (edge : Stamp) (s : State) (hm : s.testMode = false) (ho : operating s = true)
    (hw : s.builder.want = some edge) (ha : s.builder.active = false)
    (hr : ∀ e ∈ s.entries, e.st = .reserved → earlier e.accept edge = false) :
    exec (.worklistBuild t) s = .next (guarded s (
      if s.builder.l1 = [] then buildDone (atTime s t)
      else s.builder.l1.foldl (fun s l => (putXfer s builderReq none fun _ => .bitmapLine l).2)
        (withBuilder (atTime s t) (scanning s.builder)))) := by
  have hwaits : (s.entries.any fun e => e.st == .reserved && earlier e.accept edge) = false := by
    simpa using hr
  have ho' : operating (atTime s t) = true := ho
  rw [exec, execWorklistBuild]
  refine live_eq hm ?_
  simp only [atTime_builder, hw, atTime_entries, hwaits, ha, ho', List.isEmpty_iff]
  rfl

theorem exec_worklistBuild_waits (t : Time) (edge : Stamp) (e : Entry) (s : State) (hm : s.testMode = false)
    (hw : s.builder.want = some edge) (he : e ∈ s.entries) (hr : e.st = .reserved) (hb : earlier e.accept edge = true) :
    exec (.worklistBuild t) s = .next { s with now := max s.now t } := by
  have hwaits : (s.entries.any fun e => e.st == .reserved && earlier e.accept edge) = true :=
    List.any_eq_true.mpr ⟨e, he, by simp [hr, hb]⟩
  rw [exec, execWorklistBuild]
  refine live_eq (s1 := atTime s t) hm ?_
  simp only [atTime_builder, hw, atTime_entries, hwaits, Bool.not_true, Bool.and_false, Bool.false_and, when_false]

/-! ### The read-and-clear of a line (R53) -/

theorem clearedLine_length (s : State) (l : Nat) (ws : List Word) : (clearedLine s l ws).2.length = 32 := by
  have hfold : ∀ (xs : List (QueueId × Bool)) (b : Bool) (ws : List Word), (xs.foldl (fun ws x =>
      ws.modify (x.1.toNat / 32 % 32) fun w => setBit w (x.1.toNat % 32) (if b then true else x.2)) ws).length = ws.length := by
    intro xs b
    induction xs with
    | nil => exact fun _ => rfl
    | cons x xs ih => intro ws; rw [List.foldl_cons, ih, List.length_modify]
  exact (hfold _ true _).trans List.length_replicate

/-- With no bit of the line set in this XC, the line is read as it stood, and nothing is left of it. -/
theorem clearedLine_quiet (s : State) (l : Nat) (ws : List Word)
    (h : (setNow s).all (fun x => x.1.toNat / 1024 != l) = true) : clearedLine s l ws = (ws, List.replicate 32 0) := by
  have hnone : (setNow s).filter (fun x => x.1.toNat / 1024 == l) = [] := by
    rw [List.filter_eq_nil_iff]
    intro x hx
    simpa using List.all_eq_true.mp h x hx
  simp [clearedLine, hnone]

/-- The words of a bitmap line, as the read-and-clear returns them and as it leaves them. -/
def lineCleared (s : State) (l : Nat) : List Word × List Word := clearedLine s l (rdWords s (bitmapBase + 128 * l) 32)

section
variable (s : State) (l : Nat) (h : s.ecc = [])
include h

theorem readAndClear_only : readAndClear s l = { s with
    mem := (readAndClear s l).mem, ecc := (readAndClear s l).ecc
    builder := { s.builder with
      l1 := if (lineCleared s l).2.all (· == 0) then removeNat l s.builder.l1 else s.builder.l1
      toIssue := s.builder.toIssue.filter (· != l), lineAt := s.builder.lineAt ++ [(l, (lineCleared s l).1)] } } := by
  rw [readAndClear, fwRead_clean s h]
  dsimp only
  rw [wrWords_only]
  rfl

theorem readAndClear_mem : (readAndClear s l).mem = (wrWords s (bitmapBase + 128 * l) (lineCleared s l).2).mem := by
  rw [readAndClear, fwRead_clean s h]
  rfl

theorem rdWords_readAndClear : rdWords (readAndClear s l) (bitmapBase + 128 * l) 32 = (lineCleared s l).2 := by
  have hlen : (lineCleared s l).2.length = 32 := clearedLine_length ..
  have hback := rdWords_wrWords s (bitmapBase + 128 * l) (lineCleared s l).2
  rw [hlen] at hback
  rw [rdWords, readAndClear_mem s l h, ← rdWords, hback]

theorem onlyBytes_readAndClear : OnlyBytes (bitmapBase + 128 * l) (bitmapBase + 128 * l + 128) s (readAndClear s l) := by
  have hlen : (lineCleared s l).2.length = 32 := clearedLine_length ..
  intro x hx
  rw [readAndClear_mem s l h]
  exact cellGet_wrWords_out _ _ _ _ (by rw [hlen]; omega)

theorem cellGet_readAndClear_quiet (hq : (setNow s).all (fun x => x.1.toNat / 1024 != l) = true) (x : Nat)
    (hx : bitmapBase + 128 * l ≤ x) (hx' : x < bitmapBase + 128 * l + 128) : cellGet 0 (readAndClear s l).mem x = 0 := by
  rw [readAndClear_mem s l h, lineCleared, clearedLine_quiet s l _ hq]
  exact cellGet_wrWords_zero s _ 32 x hx hx'

theorem readAndClear_l1_quiet (hq : (setNow s).all (fun x => x.1.toNat / 1024 != l) = true) :
    (readAndClear s l).builder.l1 = removeNat l s.builder.l1 := by
  rw [readAndClear_only s l h]
  simp [lineCleared, clearedLine_quiet s l _ hq]

end

/-- The port of a bitmap line has moved no line in this XC. -/
theorem bitmapPort_free (s : State) (p : Fin 21) (h : bitmapPort s = some p) : portUsed s p = false := by
  have := List.find?_some h
  simp only [Bool.and_eq_true, Bool.not_eq_true'] at this
  exact this.1.2

theorem exec_bitmapReadAndClear (t : Time) (p : Fin 21) (q ref : Nat) (rest : List (Nat × Nat)) (l : Nat) (s : State)
    (hm : s.testMode = false) (ho : operating s = true) (hb : bitmapPort (atTime s t) = some p)
    (hg : (s.fabric.ports.get p).granted = (q, ref) :: rest) (hx : xferOf s ref = some (.bitmapLine l)) :
    exec (.bitmapReadAndClear t) s = .next (guarded s (readAndClear (served (atTime s t) p ref rest) l)) := by
  rw [exec, execBitmapReadAndClear]
  refine live_eq hm ?_
  simp only [hb, performNext_serves (atTime s t) p q ref rest _ (bitmapPort_free _ p hb) ho hg hx, ssPerform]

/-! ### The return of a line (R55) -/

/-- The lines issued, with the words of one returned. -/
def returned (l : Nat) (ws : List Word) (xs : List (Nat × Option (List Word))) : List (Nat × Option (List Word)) :=
  xs.map fun x => if x.1 = l then (x.1, some ws) else x

theorem returned_lines (l : Nat) (ws : List Word) (xs : List (Nat × Option (List Word))) :
    (returned l ws xs).map (·.1) = xs.map (·.1) := by
  rw [returned, List.map_map]
  refine List.map_congr_left fun x _ => ?_
  by_cases h : x.1 = l <;> simp [h]

theorem mem_returned (l : Nat) (ws : List Word) (o : Option (List Word)) (xs : List (Nat × Option (List Word)))
    (h : (l, o) ∈ xs) : (l, some ws) ∈ returned l ws xs := List.mem_map.mpr ⟨_, h, by simp⟩

theorem returned_other (l k : Nat) (ws : List Word) (o : Option (List Word)) (xs : List (Nat × Option (List Word)))
    (h : k ≠ l) : returned l ws ((k, o) :: xs) = (k, o) :: returned l ws xs := by simp [returned, h]

theorem returned_same (l : Nat) (ws : List Word) (o : Option (List Word)) (xs : List (Nat × Option (List Word))) :
    returned l ws ((l, o) :: xs) = (l, some ws) :: returned l ws xs := by simp [returned]

/-- The builder behind the return of a line: what is still out, and the list as published so far. -/
def lineBack (b : Builder) (l : Nat) (left : List (Nat × Option (List Word))) (list : List WorkEntry) : Builder :=
  { b with issued := left, list := list, lineAt := b.lineAt.filter (·.1 != l) }

theorem exec_bitmapLineReturn (t : Time) (l : Fin 1024) (ws : List Word) (left : List (Nat × Option (List Word)))
    (list : List WorkEntry) (s : State) (hm : s.testMode = false) (ho : operating s = true) (hi : (l.val, none) ∈ s.builder.issued)
    (hl : (s.builder.lineAt.find? (·.1 == l.val)).map (·.2) = some ws)
    (hp : publishReady s.tree.strobes (returned l.val ws s.builder.issued) s.builder.list = (left, list)) :
    exec (.bitmapLineReturn t l) s = .next (guarded s (
      if left.isEmpty && s.builder.toIssue.isEmpty then buildDone (withBuilder (atTime s t) (lineBack s.builder l.val left list))
      else withBuilder (atTime s t) (lineBack s.builder l.val left list))) := by
  have hany : (s.builder.issued.any fun x => x.1 == l.val && x.2.isNone) = true :=
    List.any_eq_true.mpr ⟨_, hi, by simp⟩
  have ho' : operating (atTime s t) = true := ho
  simp only [returned] at hp
  rw [exec, execBitmapLineReturn]
  refine live_eq hm ?_
  simp only [atTime_builder, atTime_tree, hany, hl, ho', Bool.and_self, hp]
  rfl

/-! ### The visit of a popped entry's queues (R54, R56, R58) -/

theorem setActive_clean (s : State) (q : QueueId) (h : s.ecc = []) :
    ∃ x, setActive s q = { wrWord s (bitmapBase + q.toNat / 32 * 4)
        (setBit (rdWord s (bitmapBase + q.toNat / 32 * 4)) (q.toNat % 32) true) with
      builder := { s.builder with l1 := insertNat (q.toNat / 1024) s.builder.l1, setXC := x } } :=
  ⟨_, by rw [setActive]; simp only [rmwWord_clean s h]; rfl⟩

theorem mem_insertNat (n : Nat) (xs : List Nat) : n ∈ insertNat n xs := by
  induction xs with
  | nil => simp [insertNat]
  | cons x xs ih =>
    rw [insertNat]
    split
    · simp
    · split
      · simp [*]
      · simp [ih]

/-- A mask of one bit names one queue. -/
theorem filter_bit_twoPow (b : Nat) (hb : b < 64) : (upto 64).filter (fun i => bit (BitVec.ofNat 64 (2 ^ b)) i) = [b] := by
  have hbit : ∀ i, bit (BitVec.ofNat 64 (2 ^ b)) i = decide (i = b) := fun i => by
    rw [bit, BitVec.toNat_ofNat, Nat.mod_eq_of_lt (Nat.pow_lt_pow_right (by omega) hb), Nat.testBit_two_pow]
    simp only [eq_comm]
  have hcount : (List.range 64).count b = 1 := by rw [List.count_range, if_pos hb]
  simp only [hbit, upto]
  rw [List.filter_eq, hcount]
  rfl

/-- The spores of a queue that wait and are not yet taken. -/
def waitingSpores (s : State) (q : QueueId) : List Entry :=
  (queueEntries s q).filter fun e => e.st == .buffered && !(s.popped.any fun x => x.1 == q && x.2 == e.idx)

/-- A queue after its eligible spores are taken. -/
def taken (s : State) (q : QueueId) : State :=
  { s with popped := s.popped ++ ((waitingSpores s q).filter (eligibleSpore s)).map fun e => (q, e.idx) }

theorem visitQueue_clean (s : State) (q : QueueId) (h : s.ecc = []) :
    visitQueue s q = if (waitingSpores s q).filter (eligibleSpore s) = waitingSpores s q then taken s q else setActive (taken s q) q := by
  rw [visitQueue, checkDesc_clean s h]
  simp only [List.length_filter_eq_length_iff, List.filter_eq_self]
  rfl

section
variable (s : State) (q : QueueId) (h : s.ecc = [])
include h

/-- Where every waiting spore is eligible, they are taken and nothing else happens (R54). -/
theorem visitQueue_all (hall : (waitingSpores s q).filter (eligibleSpore s) = waitingSpores s q) : visitQueue s q = taken s q := by
  rw [visitQueue_clean s q h, if_pos hall]

/-- Where one is not, the queue's bit is set again (R58). -/
theorem visitQueue_some (hall : (waitingSpores s q).filter (eligibleSpore s) ≠ waitingSpores s q) :
    ∃ x, visitQueue s q = { wrWord (taken s q) (bitmapBase + q.toNat / 32 * 4)
        (setBit (rdWord s (bitmapBase + q.toNat / 32 * 4)) (q.toNat % 32) true) with
      builder := { s.builder with l1 := insertNat (q.toNat / 1024) s.builder.l1, setXC := x } } := by
  rw [visitQueue_clean s q h, if_neg hall]
  exact setActive_clean (taken s q) q h

end

theorem exec_worklistPop_bit (t : Time) (e : WorkEntry) (rest : List WorkEntry) (b : Nat) (s : State) (hm : s.testMode = false)
    (ho : operating s = true) (hl : s.builder.list = e :: rest) (hb : b < 64) (he : e.mask = BitVec.ofNat 64 (2 ^ b)) :
    exec (.worklistPop t) s = .next (guarded s (
      visitQueue (withBuilder (atTime s t) { s.builder with list := rest }) (BitVec.ofNat 20 (64 * e.word + b)))) := by
  have ho' : operating (atTime s t) = true := ho
  rw [exec, execWorklistPop]
  refine live_eq hm ?_
  simp only [atTime_builder, ho', hl, he, filter_bit_twoPow b hb, List.foldl_cons, List.foldl_nil]
  rfl

/-- Settles O45, from what each command does in its case. -/
theorem workListIsBuiltLineByLineAndConsumed : Obligations.WorkListIsBuiltLineByLineAndConsumed := by
  unfold Obligations.WorkListIsBuiltLineByLineAndConsumed
  refine ⟨fun t edge s hm ho hw ha hr => ⟨_, exec_worklistBuild_starts t edge s hm ho hw ha hr, ?_⟩,
    fun t edge e s hm hw he hr hb => exec_worklistBuild_waits t edge e s hm hw he hr hb,
    fun t p q ref rest l s hm ho hb hg hx he => ⟨_, exec_bitmapReadAndClear t p q ref rest l s hm ho hb hg hx, ?_⟩,
    fun t l k ws rest s hm ho hi hk hl => ⟨_, exec_bitmapLineReturn t l ws _ _ s hm ho (by simp [hi]) hl (by
      rw [hi, returned_same, returned_other _ _ _ _ _ hk, publishReady, publishReady]), ?_⟩,
    fun t l k ws rest s hm ho hi hk hr hl => ⟨_, exec_bitmapLineReturn t l ws _ _ s hm ho (by simp [hi, hr]) hl (by
      rw [hi, returned_other _ _ _ _ _ hk, publishReady]), ?_⟩,
    fun t l ws s hm ho hi hn hl => ⟨_, exec_bitmapLineReturn t l ws _ _ s hm ho (by simp [hi]) hl (by
      rw [hi, returned_same, publishReady, returned, List.map_nil, publishReady]), ?_⟩,
    fun t e rest b s ⟨hm, ho, hc⟩ hl hb he => ⟨_, exec_worklistPop_bit t e rest b s hm ho hl hb he, ?_⟩⟩
  · by_cases hnil : s.builder.l1 = []
    · obtain ⟨p, hp, hd⟩ := buildDone_only (atTime s t)
      simp only [if_pos hnil, hd]
      exact ⟨rfl, hp, rfl⟩
    · simp only [if_neg hnil, foldl_putXfer]
      exact ⟨rfl, rfl⟩
  · obtain ⟨f, hf, hgr, hxf, hport⟩ := served_only (atTime s t) p ref rest
    have hc : (served (atTime s t) p ref rest).ecc = [] := he
    have honly := readAndClear_only (served (atTime s t) p ref rest) l hc
    refine ⟨rdWords_readAndClear _ l hc, fun x hx => onlyBytes_readAndClear _ l hc x hx, fun hq => ?_, ?_⟩
    · have hq' : (setNow (served (atTime s t) p ref rest)).all (fun x => x.1.toNat / 1024 != l) = true := hq
      exact ⟨by rw [clearedLine_quiet _ l _ hq], cellGet_readAndClear_quiet _ l hc hq', readAndClear_l1_quiet _ l hc hq'⟩
    · rw [honly, hf]
      exact ⟨hgr, hxf, hport, rfl⟩
  · exact ⟨rfl, congrArg (k :: ·) (returned_lines _ _ _), rfl, rfl, rfl⟩
  · exact ⟨rfl, List.mem_cons_of_mem _ (mem_returned _ _ _ _ hr), by rw [hi]; exact congrArg (· + 1) (List.length_map _), rfl⟩
  · obtain ⟨p, hp, hd⟩ := buildDone_only (withBuilder (atTime s t)
      (lineBack s.builder l.val [] (publishLine s.tree.strobes s.builder.list l.val ws)))
    simp only [List.isEmpty_nil, hn, Bool.and_self, if_true, hd]
    exact ⟨rfl, rfl, rfl, rfl, hp, rfl⟩
  · generalize (BitVec.ofNat 20 (64 * e.word + b) : QueueId) = q
    have hc' : (withBuilder (atTime s t) { s.builder with list := rest }).ecc = [] := hc
    by_cases hall : (waitingSpores (withBuilder (atTime s t) { s.builder with list := rest }) q).filter (eligibleSpore s) =
        waitingSpores (withBuilder (atTime s t) { s.builder with list := rest }) q
    · rw [visitQueue_all _ q hc' hall]
      exact ⟨rfl, rfl, (if_pos hall).mpr ⟨rfl, rfl⟩, rfl⟩
    · obtain ⟨x, hv⟩ := visitQueue_some _ q hc' hall
      rw [hv]
      exact ⟨rfl, rfl, (if_neg hall).mpr ⟨rdWord_wrWord .., mem_insertNat .., fun x hx => cellGet_wrWord_out _ _ _ _ hx⟩, rfl⟩

end Sys2Proof.Proofs
end

section
/-!
PROOFS. One Frond replaced: every step of an engine leaves the state with one Frond and the event rings and counters replaced, over a state whose
other parts it may have changed. The lemmas here carry each operation through that form.
-/
namespace Sys2Proof.Proofs
open Sys2Proof.Machine Sys2Proof.Safety Sys2Proof.Laws

/-- The state with one Frond, and event rings and counters, replaced. -/
def setFrond (s : State) (f : FrondId) (fr : Frond) (o : Obs) : State := { s with fronds := vset s.fronds f fr, obs := o }

/-- A Frond with one context replaced. -/
def withCtx (fr : Frond) (c : CtxId) (x : Ctx) : Frond := { fr with ctxs := vset fr.ctxs c x }

theorem vset_vset {α : Type} {n : Nat} (v : Vector α n) (i : Fin n) (x y : α) : vset (vset v i x) i y = vset v i y := by
  simp [vset]

theorem vset_get_self {α : Type} {n : Nat} (v : Vector α n) (i : Fin n) : vset v i (v.get i) = v := by
  simp [vset, Vector.get]

@[simp] theorem withCtx_get (fr : Frond) (c d : CtxId) (x : Ctx) : (withCtx fr c x).ctxs.get d = if c = d then x else fr.ctxs.get d :=
  vset_get ..

@[simp] theorem withCtx_withCtx (fr : Frond) (c : CtxId) (x y : Ctx) : withCtx (withCtx fr c x) c y = withCtx fr c y := by
  simp [withCtx, vset_vset]

section
variable (s : State) (f : FrondId) (fr : Frond) (o : Obs)

@[simp] theorem frond_setFrond : frond (setFrond s f fr o) f = fr := by simp [frond, setFrond]

theorem frond_setFrond_ne (h : FrondId) (hne : f ≠ h) : frond (setFrond s f fr o) h = frond s h := by
  simp [frond, setFrond, hne]

@[simp] theorem ctx_setFrond (c : CtxId) : ctx (setFrond s f fr o) f c = fr.ctxs.get c := by simp [ctx, setFrond]

theorem setFrond_self : setFrond s f (frond s f) s.obs = s := by
  simp only [setFrond, frond, vset_get_self]

@[simp] theorem setFrond_setFrond (fr' : Frond) (o' : Obs) : setFrond (setFrond s f fr o) f fr' o' = setFrond s f fr' o' := by
  simp [setFrond, vset_vset]

theorem modFrond_eq (g : Frond → Frond) : modFrond s f g = setFrond s f (g (frond s f)) s.obs := rfl

@[simp] theorem modFrond_setFrond (g : Frond → Frond) : modFrond (setFrond s f fr o) f g = setFrond s f (g fr) o := by
  rw [modFrond_eq, frond_setFrond, setFrond_setFrond]; rfl

@[simp] theorem modCtx_setFrond (c : CtxId) (g : Ctx → Ctx) :
    modCtx (setFrond s f fr o) f c g = setFrond s f (withCtx fr c (g (fr.ctxs.get c))) o := by
  rw [modCtx, modFrond_setFrond]; rfl

theorem takeSlot_setFrond (m : Mem) : takeSlot (setFrond s f fr o) f m =
    setFrond s f { fr with taken := vset fr.taken (memIdx m) (some (slotCount s m)) } o := by
  rw [takeSlot, modFrond_setFrond]; rfl

theorem fly_setFrond (m : Mem) (x : Flight) : fly (setFrond s f fr o) f m x =
    setFrond s f { fr with flight := fr.flight ++ [(slotStart s m + 6 * tFC s, x)] } o := by
  rw [fly, modFrond_setFrond]; rfl

theorem logWaitEnd_setFrond (c : CtxId) (b : Option Blk) : ∃ o', logWaitEnd (setFrond s f fr o) f c b = setFrond s f fr o' :=
  ⟨_, logWaitEnd_only ..⟩

theorem wrWords_setFrond (a : Nat) (ws : List Word) : wrWords (setFrond s f fr o) a ws = setFrond (wrWords s a ws) f fr o := by
  induction ws generalizing s a with
  | nil => rfl
  | cons w ws ih => exact ih (wrWord s a w) (a + 4)

end

/-! ### The queue of an engine -/

@[simp] theorem engQ_setEngQ (x : Ctx) (e : Engine) (l : List EngCmd) : engQ (setEngQ x e l) e = l := by cases e <;> rfl
@[simp] theorem setEngQ_setEngQ (x : Ctx) (e : Engine) (l l' : List EngCmd) : setEngQ (setEngQ x e l) e l' = setEngQ x e l' := by
  cases e <;> rfl
@[simp] theorem setEngQ_st (x : Ctx) (e : Engine) (l : List EngCmd) : (setEngQ x e l).st = x.st := by cases e <;> rfl
@[simp] theorem setEngQ_job (x : Ctx) (e : Engine) (l : List EngCmd) : (setEngQ x e l).job = x.job := by cases e <;> rfl
@[simp] theorem stopsHere_setEngQ (x : Ctx) (e : Engine) (l : List EngCmd) : stopsHere (setEngQ x e l) = stopsHere x := by cases e <;> rfl

section
variable (s : State) (f : FrondId) (fr : Frond) (o : Obs) (c : CtxId) (e : Engine) (q : EngCmd) (l : List EngCmd)
  (hq : engQ (fr.ctxs.get c) e = q :: l)
include hq

theorem modEng_setFrond (g : EngCmd → EngCmd) :
    modEng (setFrond s f fr o) f c e g = setFrond s f (withCtx fr c (setEngQ (fr.ctxs.get c) e (g q :: l))) o := by
  rw [modEng, modCtx_setFrond, hq]; rfl

/-- The first command's block ends. -/
theorem unblockEng_setFrond : ∃ o', unblockEng (setFrond s f fr o) f c e =
    setFrond s f (withCtx fr c (setEngQ (fr.ctxs.get c) e ({ q with blk := none } :: l))) o' := by
  obtain ⟨o', ho⟩ := logWaitEnd_setFrond s f fr o c q.blk
  refine ⟨o', ?_⟩
  rw [unblockEng, ctx_setFrond, hq]
  dsimp only
  rw [ho, modEng_setFrond _ _ _ _ _ _ _ _ hq]

/-- The first command goes on, as `g` says. -/
theorem modEng_unblockEng_setFrond (g : EngCmd → EngCmd) : ∃ o', modEng (unblockEng (setFrond s f fr o) f c e) f c e g =
    setFrond s f (withCtx fr c (setEngQ (fr.ctxs.get c) e (g { q with blk := none } :: l))) o' := by
  obtain ⟨o', ho⟩ := unblockEng_setFrond s f fr o c e q l hq
  refine ⟨o', ?_⟩
  rw [ho, modEng_setFrond _ _ _ _ _ e { q with blk := none } l (by simp)]
  simp

/-- The first command waits for an access of this slot, which comes back as `x` (R212). -/
theorem engFlies_setFrond (m : Mem) (x : Flight) :
    ∃ o', fly (modEng (unblockEng (setFrond s f fr o) f c e) f c e fun q => { q with busy := some 0 }) f m x =
      setFrond s f (withCtx { fr with flight := fr.flight ++ [(slotStart s m + 6 * tFC s, x)] } c
        (setEngQ (fr.ctxs.get c) e ({ q with busy := some 0, blk := none } :: l))) o' := by
  obtain ⟨o', ho⟩ := modEng_unblockEng_setFrond s f fr o c e q l hq fun q => { q with busy := some 0 }
  exact ⟨o', by rw [ho, fly_setFrond]; rfl⟩

end

end Sys2Proof.Proofs
end

section
/-!
PROOFS. The slots of the engines: a command's read and write of a line, its gathering reads, and what comes back 6 FC later
(R211, R212, R216, R217, R219).
-/
namespace Sys2Proof.Proofs
open Sys2Proof.Machine Sys2Proof.Safety Sys2Proof.Laws

/-! ### What a statement reads off the normal form -/

theorem frond_guarded (s s1 : State) (f : FrondId) : frond (guarded s s1) f = frond s1 f := rfl
theorem ctx_guarded (s s1 : State) (f : FrondId) (c : CtxId) : ctx (guarded s s1) f c = ctx s1 f c := rfl
theorem frond_atTime (s : State) (t : Time) (f : FrondId) : frond (atTime s t) f = frond s f := rfl
theorem ctx_atTime (s : State) (t : Time) (f : FrondId) (c : CtxId) : ctx (atTime s t) f c = ctx s f c := rfl

/-- One context replaced, the others are as before. -/
theorem ctx_setFrond_withCtx_ne {s b : State} {f : FrondId} {fr : Frond} {c d : CtxId} {x : Ctx} {o : Obs}
    (hfr : fr.ctxs = (frond s f).ctxs) (hne : c ≠ d) : ctx (guarded s (setFrond b f (withCtx fr c x) o)) f d = ctx s f d := by
  rw [ctx_guarded, ctx_setFrond, withCtx_get, if_neg hne, hfr]; rfl

theorem onlyFrondAndMemory_setFrond {t : Time} {s b : State} {f : FrondId} {fr : Frond} {o : Obs}
    (hb : b = { atTime s t with mem := b.mem, ecc := b.ecc }) : OnlyFrondAndMemory t f s (guarded s (setFrond b f fr o)) := by
  refine ⟨fun h hne => ?_, ?_⟩
  · rw [frond_guarded, frond_setFrond_ne _ _ _ _ _ hne, hb]; rfl
  · rw [hb]; rfl

/-! ### Tags -/

/-- The tag check of a line touches the tags and the count of R249 alone. -/
theorem tagAccess_only (fr fr' : Frond) (m : Mem) (w : Nat) (k : TagKind) (h : tagAccess fr m w k = some fr') :
    fr' = { fr with full := fr'.full, sbmix := fr'.sbmix } := by
  unfold tagAccess at h
  split at h
  · cases h; rfl
  · cases h; rfl
  · split at h
    · cases h; rfl
    · split at h <;> split at h <;> cases h <;> rfl

/-! ### Checks of a clean memory -/

theorem padCheckAll_clean (s : State) (f : FrondId) (sub : Nat) (m : Mem) (w n : Nat) (h : s.ecc = []) :
    padCheckAll s f sub m w n = (s, false) := by
  unfold padCheckAll
  induction upto n with
  | nil => rfl
  | cons i is ih => simpa [padCheck_clean _ _ _ _ _ _ (markAt_clean s h _)] using ih

theorem padCheck_each_clean (s : State) (f : FrondId) (sub : Nat) (m : Mem) (ws : List Nat) (h : s.ecc = []) :
    ws.foldl (fun (r : State × Bool) w => ((padCheck r.1 f sub m w false).1, r.2 || (padCheck r.1 f sub m w false).2)) (s, false) = (s, false) := by
  induction ws with
  | nil => rfl
  | cons w ws ih => simpa [padCheck_clean _ _ _ _ _ _ (markAt_clean s h _)] using ih

/-! ### Whose slot it is -/

theorem ecc_of_slotOf {o : SlotOwner} {t : Time} {f : FrondId} {m : Mem} {s : State} (h : SlotOf o t f m s) : (atTime s t).ecc = [] := by
  obtain ⟨-, -, -, -, he⟩ := h
  exact he

theorem engReady_first (s : State) (f : FrondId) (c : CtxId) (e : Engine) (q : EngCmd) (l : List EngCmd)
    (hr : runningCtx s f = some c) (ht : (frond s f).resumeAt ≤ s.now) (hq : engQ (ctx s f c) e = q :: l)
    (hb : q.busy = none) (hp : q.poison = false) (hs : engStops (ctx s f c) q = false) : engReady s f e = some (c, q) := by
  simp [engReady, hr, hq, hb, hp, hs, Nat.not_lt.mpr ht]

/-- The engine whose slot it is. -/
theorem slotWork_engine (s : State) (f : FrondId) (m : Mem) (e : Engine) (h : slotOwner m (slotOf s m) = ownerSlot (engOwner e)) :
    slotWork s f m = engSlot s f e m := by
  rw [slotWork, h]; cases e <;> rfl

theorem exec_scratchpadSlotAccess (t : Time) (f : FrondId) (m : Mem) (e : Engine) (s s1 : State)
    (h : SlotOf (ownerSlot (engOwner e)) t f m s) (hw : engSlot (atTime s t) f e m = some s1) :
    exec (.scratchpadSlotAccess t f m []) s = .next (guarded s (takeSlot s1 f m)) := by
  obtain ⟨hm, ho, hg, hslot, -⟩ := h
  obtain ⟨howner, hfree⟩ : slotOwner m (slotOf (atTime s t) m) = ownerSlot (engOwner e) ∧ slotFree (atTime s t) f m = true := by
    simpa [ownSlot] using hslot
  have ho' : operating (atTime s t) = true := ho
  have hg' : groupActive (atTime s t) f = true := hg
  rw [exec, execScratchpadSlotAccess]
  refine live_eq hm ?_
  simp only [strikeAll_nil, ho', hg', hfree, slotWork_engine _ f m e howner, hw, Bool.not_true, Bool.or_self, Bool.false_eq_true, if_false]

/-- A gathering read of an engine in its slot (R216, R217). -/
theorem gatherRead_slot (t : Time) (f : FrondId) (m : Mem) (c : CtxId) (e : Engine) (q : EngCmd) (s s1 : State)
    (run : EngCmd → State → Option (Mem × State)) (h : SlotOf (ownerSlot (engOwner e)) t f m s)
    (hr : engReady (atTime s t) f e = some (c, q)) (hb : q.buf = none) (hrun : run q (atTime s t) = some (m, s1)) :
    gatherRead t f c e s run = .next (guarded s (takeSlot s1 f m)) := by
  obtain ⟨hm, ho, hg, hslot, -⟩ := h
  have ho' : operating (atTime s t) = true := ho
  have hg' : groupActive (atTime s t) f = true := hg
  refine live_eq hm ?_
  simp only [hr, hb, ho', hg', hrun, hslot, beq_self_eq_true, Option.isNone_none, Bool.and_self, if_true]

/-! ### One line read or written -/

theorem engReadSlot_clean (s : State) (f : FrondId) (c : CtxId) (e : Engine) (q : EngCmd) (m : Mem) (w : Nat) (tag : TagKind) (fr : Frond)
    (he : s.ecc = []) (hc : sbConflict (ctx s f c) (engOwner e) m w (w + min (engWords q.args - q.done) (32 - w % 32) - 1) false = false)
    (ht : tagAccess (frond s f) m w (readKind tag) = some fr) :
    engReadSlot s f c e q m w tag = flyWords (setFrond s f { frond s f with full := fr.full, sbmix := fr.sbmix } s.obs) f m c e
      (padWords s f m w (min (engWords q.args - q.done) (32 - w % 32))) false := by
  rw [engReadSlot]
  simp only [hc, ht, padCheckAll_clean s f c.val m w _ he, modFrond_eq, Bool.false_eq_true, if_false]
  rfl

theorem engWriteSlot_clean (s : State) (f : FrondId) (c : CtxId) (e : Engine) (ws : List Word) (m : Mem) (w : Nat) (tag : TagKind) (fr : Frond)
    (hc : sbConflict (ctx s f c) (engOwner e) m w (w + min ws.length (32 - w % 32) - 1) true = false)
    (ht : tagAccess (frond s f) m w (writeKind tag) = some fr) :
    engWriteSlot s f c e ws m w tag = flyAck (padStore (setFrond s f fr s.obs) f m w (ws.take (min ws.length (32 - w % 32)))) f m c e
      (min ws.length (32 - w % 32)) := by
  rw [engWriteSlot]
  simp only [hc, ht, modFrond_eq, Bool.false_eq_true, if_false]

/-- Words stored in a scratchpad: memory, and write-backs skipped. -/
theorem padStore_setFrond (s : State) (f : FrondId) (fr : Frond) (o : Obs) (m : Mem) (w : Nat) (ws : List Word) :
    ∃ wb, padStore (setFrond s f fr o) f m w ws = setFrond (wrWords s (padAddr f m w) ws) f { fr with wback := wb } o :=
  ⟨_, by rw [padStore]; simp only [wrWords_setFrond, modFrond_setFrond]; rfl⟩

end Sys2Proof.Proofs
end

section
/-!
PROOFS. What the slots and returns of the engines come to, as commands (R211, R212, R216, R217).
-/
namespace Sys2Proof.Proofs
open Sys2Proof.Machine Sys2Proof.Safety Sys2Proof.Laws

/-- A Frond whose present slot of a memory is taken. -/
def slotTaken (s : State) (m : Mem) (fr : Frond) : Frond := { fr with taken := vset fr.taken (memIdx m) (some (slotCount s m)) }

/-- A Frond whose present slot of a memory carries the access `x`, which comes back 6 FC after its start (R212). -/
def carrying (s : State) (m : Mem) (fr : Frond) (x : Flight) : Frond :=
  slotTaken s m { fr with flight := fr.flight ++ [(slotStart s m + 6 * tFC s, x)] }

theorem carrying_wrWords (s : State) (a : Nat) (ws : List Word) (m : Mem) (fr : Frond) (x : Flight) :
    carrying (wrWords s a ws) m fr x = carrying s m fr x := by
  rw [wrWords_only]; rfl

section
variable (s : State) (f : FrondId) (fr : Frond) (o : Obs) (c : CtxId) (e : Engine) (q : EngCmd) (l : List EngCmd)
  (hq : engQ (fr.ctxs.get c) e = q :: l)
include hq

theorem takeSlot_engFlies (m : Mem) (x : Flight) :
    ∃ o', takeSlot (fly (modEng (unblockEng (setFrond s f fr o) f c e) f c e fun q => { q with busy := some 0 }) f m x) f m =
      setFrond s f (withCtx (carrying s m fr x) c (setEngQ (fr.ctxs.get c) e ({ q with busy := some 0, blk := none } :: l))) o' := by
  obtain ⟨o', ho⟩ := engFlies_setFrond s f fr o c e q l hq m x
  exact ⟨o', by rw [ho, takeSlot_setFrond]; rfl⟩

theorem takeSlot_flyWords (m : Mem) (ws : List Word) (bad : Bool) :
    ∃ o', takeSlot (flyWords (setFrond s f fr o) f m c e ws bad) f m =
      setFrond s f (withCtx (carrying s m fr (.engRead c e ws bad)) c
        (setEngQ (fr.ctxs.get c) e ({ q with busy := some 0, blk := none } :: l))) o' :=
  takeSlot_engFlies s f fr o c e q l hq m _

theorem takeSlot_flyAck (m : Mem) (n : Nat) :
    ∃ o', takeSlot (flyAck (setFrond s f fr o) f m c e n) f m =
      setFrond s f (withCtx (carrying s m fr (.engAck c e n)) c
        (setEngQ (fr.ctxs.get c) e ({ q with busy := some 0, blk := none } :: l))) o' :=
  takeSlot_engFlies s f fr o c e q l hq m _

/-- A slot of a gather that is not its last. -/
theorem takeSlot_modEng_unblockEng (m : Mem) (g : EngCmd → EngCmd) :
    ∃ o', takeSlot (modEng (unblockEng (setFrond s f fr o) f c e) f c e g) f m =
      setFrond s f (withCtx (slotTaken s m fr) c (setEngQ (fr.ctxs.get c) e (g { q with blk := none } :: l))) o' := by
  obtain ⟨o', ho⟩ := modEng_unblockEng_setFrond s f fr o c e q l hq g
  exact ⟨o', by rw [ho, takeSlot_setFrond]; rfl⟩

end

/-! ### A line in a slot -/

theorem engSlot_reads (s : State) (f : FrondId) (c : CtxId) (e : Engine) (q : EngCmd) (m : Mem) (w : Nat) (b : Addr) (tag : TagKind)
    (hr : engReady s f e = some (c, q)) (hb : q.buf = none) (hs : q.args.src = .addr b tag)
    (hp : placeOf s f (b.toNat / 4 * 4 + 4 * q.done) = .pad m w) : engSlot s f e m = some (engReadSlot s f c e q m w tag) := by
  simp [engSlot, engPlace, hr, hb, hs, hp]

theorem engSlot_writes (s : State) (f : FrondId) (c : CtxId) (e : Engine) (q : EngCmd) (ws : List Word) (m : Mem) (w : Nat) (b : Addr)
    (tag : TagKind) (hr : engReady s f e = some (c, q)) (hb : q.buf = some ws) (hd : q.args.dst = .addr b tag)
    (hp : placeOf s f (b.toNat / 4 * 4 + 4 * q.done) = .pad m w) : engSlot s f e m = some (engWriteSlot s f c e ws m w tag) := by
  simp [engSlot, engPlace, hr, hb, hd, hp]

section
variable (t : Time) (f : FrondId) (m : Mem) (e : Engine) (c : CtxId) (q : EngCmd) (l : List EngCmd) (s : State)
  (hslot : SlotOf (ownerSlot (engOwner e)) t f m s) (hruns : Runs t f c s) (hq : engQ (ctx s f c) e = q :: l)
  (hb : q.busy = none) (hp : q.poison = false)
include hslot hruns hq hb hp

theorem exec_slot_engRead (b : Addr) (tag : TagKind) (w : Nat) (fr : Frond) (hs : stopsHere (ctx s f c) = false) (hbuf : q.buf = none)
    (hsrc : q.args.src = .addr b tag) (hpl : placeOf s f (b.toNat / 4 * 4 + 4 * q.done) = .pad m w)
    (hc : sbConflict (ctx s f c) (engOwner e) m w (w + min (engWords q.args - q.done) (32 - w % 32) - 1) false = false)
    (ht : tagAccess (frond s f) m w (readKind tag) = some fr) :
    ∃ o', exec (.scratchpadSlotAccess t f m []) s = .next (guarded s (setFrond (atTime s t) f
      (withCtx (carrying (atTime s t) m { frond s f with full := fr.full, sbmix := fr.sbmix }
          (.engRead c e (padWords s f m w (min (engWords q.args - q.done) (32 - w % 32))) false)) c
        (setEngQ (ctx s f c) e ({ q with busy := some 0, blk := none } :: l))) o')) := by
  have hr : engReady (atTime s t) f e = some (c, q) :=
    engReady_first _ f c e q l hruns.1 hruns.2 hq hb hp (by simp [engStops, ctx_atTime, hs])
  have hw := engSlot_reads (atTime s t) f c e q m w b tag hr hbuf hsrc hpl
  rw [engReadSlot_clean (atTime s t) f c e q m w tag fr (ecc_of_slotOf hslot) hc ht] at hw
  obtain ⟨o', ho⟩ := takeSlot_flyWords (atTime s t) f { frond s f with full := fr.full, sbmix := fr.sbmix } s.obs c e q l hq m
    (padWords s f m w (min (engWords q.args - q.done) (32 - w % 32))) false
  exact ⟨o', by rw [exec_scratchpadSlotAccess t f m e s _ hslot hw]; exact congrArg (fun x => Host.Outcome.next (guarded s x)) ho⟩

theorem exec_slot_engWrite (ws : List Word) (b : Addr) (tag : TagKind) (w : Nat) (fr : Frond) (hbuf : q.buf = some ws)
    (hdst : q.args.dst = .addr b tag) (hpl : placeOf s f (b.toNat / 4 * 4 + 4 * q.done) = .pad m w)
    (hc : sbConflict (ctx s f c) (engOwner e) m w (w + min ws.length (32 - w % 32) - 1) true = false)
    (ht : tagAccess (frond s f) m w (writeKind tag) = some fr) :
    ∃ o' wb, exec (.scratchpadSlotAccess t f m []) s = .next (guarded s (setFrond
      (wrWords (atTime s t) (padAddr f m w) (ws.take (min ws.length (32 - w % 32)))) f
      (withCtx (carrying (atTime s t) m { frond s f with full := fr.full, sbmix := fr.sbmix, wback := wb }
          (.engAck c e (min ws.length (32 - w % 32)))) c
        (setEngQ (ctx s f c) e ({ q with busy := some 0, blk := none } :: l))) o')) := by
  have hr : engReady (atTime s t) f e = some (c, q) :=
    engReady_first _ f c e q l hruns.1 hruns.2 hq hb hp (by simp [engStops, hbuf])
  have hw := engSlot_writes (atTime s t) f c e q ws m w b tag hr hbuf hdst hpl
  rw [engWriteSlot_clean (atTime s t) f c e ws m w tag fr hc ht, tagAccess_only _ _ _ _ _ ht] at hw
  obtain ⟨wb, hwb⟩ := padStore_setFrond (atTime s t) f { frond s f with full := fr.full, sbmix := fr.sbmix } s.obs m w
    (ws.take (min ws.length (32 - w % 32)))
  obtain ⟨o', ho⟩ := takeSlot_flyAck (wrWords (atTime s t) (padAddr f m w) (ws.take (min ws.length (32 - w % 32)))) f
    { frond s f with full := fr.full, sbmix := fr.sbmix, wback := wb } s.obs c e q l hq m (min ws.length (32 - w % 32))
  refine ⟨o', wb, ?_⟩
  rw [exec_scratchpadSlotAccess t f m e s _ hslot hw]
  refine congrArg (fun x => Host.Outcome.next (guarded s x)) ?_
  rw [carrying_wrWords] at ho
  exact (congrArg (fun x => takeSlot (flyAck x f m c e (min ws.length (32 - w % 32))) f m) hwb).trans ho

/-! ### The gathers -/

theorem exec_stridedRead (a0 st : BitVec 16) (tag : TagKind) (hs : stopsHere (ctx s f c) = false) (hbuf : q.buf = none)
    (hsrc : q.args.src = .strided m a0 st tag) :
    exec (.stridedRead t f c e) s = .next (guarded s (takeSlot (stridedSlot (atTime s t) f c e q m a0 st tag) f m)) := by
  have hr : engReady (atTime s t) f e = some (c, q) :=
    engReady_first _ f c e q l hruns.1 hruns.2 hq hb hp (by simp [engStops, ctx_atTime, hs])
  rw [exec, execStridedRead, gatherRead_slot t f m c e q s (stridedSlot (atTime s t) f c e q m a0 st tag) _ hslot hr hbuf (by simp only [hsrc])]

theorem exec_transposedRead (a0 : BitVec 16) (fmt : BitVec 2) (tag : TagKind) (hs : stopsHere (ctx s f c) = false) (hbuf : q.buf = none)
    (hsrc : q.args.src = .transposed m a0 fmt tag) :
    exec (.transposedRead t f c e) s = .next (guarded s (takeSlot (transposedSlot (atTime s t) f c e q m a0 fmt tag) f m)) := by
  have hr : engReady (atTime s t) f e = some (c, q) :=
    engReady_first _ f c e q l hruns.1 hruns.2 hq hb hp (by simp [engStops, ctx_atTime, hs])
  rw [exec, execTransposedRead, gatherRead_slot t f m c e q s (transposedSlot (atTime s t) f c e q m a0 fmt tag) _ hslot hr hbuf (by simp only [hsrc])]

end

/-- The tags of lines taken or looked at by a gather (R219). -/
def tagLines (fr : Frond) (m : Mem) (k : TagKind) (lines : List Nat) : Frond :=
  lines.foldl (fun fr l => (tagAccess fr m (32 * l) k).getD fr) fr

theorem tagLines_only (m : Mem) (k : TagKind) (lines : List Nat) (fr : Frond) :
    ∃ full sbmix, tagLines fr m k lines = { fr with full := full, sbmix := sbmix } := by
  induction lines generalizing fr with
  | nil => exact ⟨_, _, rfl⟩
  | cons l ls ih =>
    rw [tagLines, List.foldl_cons, ← tagLines]
    cases h : tagAccess fr m (32 * l) k with
    | none => exact ih fr
    | some fr' =>
      obtain ⟨full, sbmix, hls⟩ := ih fr'
      rw [tagAccess_only _ _ _ _ _ h] at hls
      exact ⟨full, sbmix, by rw [Option.getD_some, tagAccess_only _ _ _ _ _ h, hls]⟩

theorem modFrond_tagLines (s : State) (f : FrondId) (m : Mem) (k : TagKind) (lines : List Nat) (fr : Frond) (o : Obs) :
    lines.foldl (fun s l => modFrond s f fun fr => (tagAccess fr m (32 * l) k).getD fr) (setFrond s f fr o) =
      setFrond s f (tagLines fr m k lines) o := by
  induction lines generalizing fr with
  | nil => rfl
  | cons l ls ih => rw [List.foldl_cons, modFrond_setFrond, ih]; rfl

section
variable (s : State) (f : FrondId) (c : CtxId) (e : Engine) (q : EngCmd) (m : Mem)

/-- A slot of a strided read before its last (R216). -/
theorem stridedSlot_early (a0 st : BitVec 16) (tag : TagKind) (hc : ∀ lo hi, sbConflict (ctx s f c) (engOwner e) m lo hi false = false)
    (hg : q.slots + 1 < gatherSlots m ((stridedWords a0 st (engWords q.args)).map (·.toNat))) :
    stridedSlot s f c e q m a0 st tag = modEng (unblockEng s f c e) f c e fun q => { q with slots := q.slots + 1 } := by
  have hnone : ((stridedWords a0 st (engWords q.args)).map (·.toNat)).find? (fun w => sbConflict (ctx s f c) (engOwner e) m w w false) = none := by
    simp [hc]
  rw [stridedSlot]
  simp only [hnone, hg, if_true]

/-- Its last slot reads the words, where no tag blocks (R216, R219). -/
theorem stridedSlot_last (a0 st : BitVec 16) (tag : TagKind) (he : s.ecc = [])
    (hc : ∀ lo hi, sbConflict (ctx s f c) (engOwner e) m lo hi false = false)
    (hg : ¬ q.slots + 1 < gatherSlots m ((stridedWords a0 st (engWords q.args)).map (·.toNat)))
    (ht : tagBlocks (frond s f) m (readKind tag) (linesOfWords ((stridedWords a0 st (engWords q.args)).map (·.toNat))) = none) :
    stridedSlot s f c e q m a0 st tag = flyWords
      (setFrond s f (tagLines (frond s f) m (readKind tag) (linesOfWords ((stridedWords a0 st (engWords q.args)).map (·.toNat)))) s.obs) f m c e
      (((stridedWords a0 st (engWords q.args)).map (·.toNat)).map fun w => rdWord s (padAddr f m w)) false := by
  have hnone : ((stridedWords a0 st (engWords q.args)).map (·.toNat)).find? (fun w => sbConflict (ctx s f c) (engOwner e) m w w false) = none := by
    simp [hc]
  have hclean := padCheck_each_clean s f c.val m ((stridedWords a0 st (engWords q.args)).map (·.toNat)) he
  have htag := modFrond_tagLines s f m (readKind tag) (linesOfWords ((stridedWords a0 st (engWords q.args)).map (·.toNat))) (frond s f) s.obs
  rw [setFrond_self] at htag
  rw [stridedSlot]
  simp only [hnone, hg, ht, hclean, htag, if_false]

/-- A slot of a transposed read: the next line of the block (R217, R219). -/
theorem transposedSlot_clean (a0 : BitVec 16) (fmt : BitVec 2) (tag : TagKind) (fr : Frond) (he : s.ecc = [])
    (hc : ∀ lo hi, sbConflict (ctx s f c) (engOwner e) m lo hi false = false)
    (ht : tagAccess (frond s f) m (a0.toNat / 32 * 32 + q.part.length) (readKind tag) = some fr) :
    transposedSlot s f c e q m a0 fmt tag =
      let s2 := setFrond s f { frond s f with full := fr.full, sbmix := fr.sbmix } s.obs
      let ws := q.part ++ padWords s f m (a0.toNat / 32 * 32 + q.part.length) 32
      if ws.length < engWords q.args then modEng (unblockEng s2 f c e) f c e fun q => { q with slots := q.slots + 1, part := ws }
      else flyWords s2 f m c e (transposeWords (packOf false fmt) ws) false := by
  rw [transposedSlot]
  simp only [hc, ht, padCheckAll_clean s f c.val m _ _ he, modFrond_eq, Bool.false_eq_true, if_false]
  rfl

end

end Sys2Proof.Proofs
end

section
/-!
PROOFS. An engine's next piece: when it does not go on by itself, how a command ends, and what reaches it from a scratchpad
or from a port (R212, R216, R303).
-/
namespace Sys2Proof.Proofs
open Sys2Proof.Machine Sys2Proof.Safety Sys2Proof.Laws

/-! ### Trace records -/

/-- A record changes the collectors and counters, and no transfer (R276, R430). -/
theorem collect_only (s : State) (r : Fin 16) (rec : List Word) :
    ∃ fb o, collect s r rec = { s with fabric := fb, obs := o } ∧ fb.xfers = s.fabric.xfers := by
  unfold collect
  dsimp only
  split
  · exact ⟨_, _, rfl, rfl⟩
  · exact ⟨_, _, rfl, rfl⟩

theorem traceFrond_only (s : State) (f : FrondId) (c : CtxId) (engine kind info : Nat) :
    ∃ fb o, traceFrond s f c engine kind info = { s with fabric := fb, obs := o } ∧ fb.xfers = s.fabric.xfers := by
  unfold traceFrond
  dsimp only
  split
  · exact collect_only ..
  · exact ⟨_, _, rfl, rfl⟩

/-- A record of a Frond engine takes a free value beside. -/
theorem traceOp_setFrond (s : State) (f : FrondId) (fr : Frond) (o : Obs) (c : CtxId) (engine kind : Nat) :
    ∃ fb o', traceOp (setFrond s f fr o) f c engine kind =
      setFrond { s with freeCtr := s.freeCtr + 1, fabric := fb } f fr o' ∧ fb.xfers = s.fabric.xfers :=
  traceFrond_only { setFrond s f fr o with freeCtr := s.freeCtr + 1 } f c engine kind _

/-! ### Pieces that do not leave the Frond -/

theorem engKicks_fixed (s : State) (f : FrondId) (c : CtxId) (e : Engine) (n : Nat) (h : engKick s f c e = s) : engKicks s f c e n = s := by
  induction n with
  | zero => rfl
  | succ n ih => rw [engKicks, h, ih]

theorem engKick_empty (s : State) (f : FrondId) (c : CtxId) (e : Engine) (hq : engQ (ctx s f c) e = []) : engKick s f c e = s := by
  rw [engKick, hq]; simp

/-- The destination of a command's next piece is a region or a scratchpad of its own Frond. -/
def WritesHere (s : State) (f : FrondId) (q : EngCmd) : Prop :=
  (∃ i, q.args.dst = .circ i) ∨ ∃ b tag m w, q.args.dst = .addr b tag ∧ placeOf s f (b.toNat / 4 * 4 + 4 * q.done) = .pad m w

section
variable (s : State) (f : FrondId) (c : CtxId) (e : Engine) (q : EngCmd) (l : List EngCmd) (hq : engQ (ctx s f c) e = q :: l)
include hq

theorem engKick_busy (hb : q.busy.isSome = true) : engKick s f c e = s := by
  rw [engKick, hq]; simp [hb]

/-- Words held for the Frond's own memory wait for their slot. -/
theorem engKick_writesHere (ws : List Word) (hbuf : q.buf = some ws) (hd : WritesHere s f q) : engKick s f c e = s := by
  have hw : engWrite s f c e q ws = s := by
    rcases hd with ⟨i, hi⟩ | ⟨b, tag, m, w, hb, hp⟩
    · rw [engWrite, hi]
    · rw [engWrite, hb]; simp only [hp]
  rw [engKick, hq]
  simp [hbuf, hw]

/-- A read of the Frond's own memory waits for its slot. -/
theorem engKick_readsHere (hn : q.done < engWords q.args) (hbuf : q.buf = none) (hr : engRead s f c e q = s) : engKick s f c e = s := by
  rw [engKick, hq]
  simp [hbuf, hr, hn]

end

/-! ### A command ends, or gets its words -/

/-- Behind the last command of its queue an engine has nothing to go on with. -/
theorem engKicks_ended (s : State) (f : FrondId) (fr : Frond) (o : Obs) (c : CtxId) (e : Engine) (x : Ctx) (n : Nat) :
    engKicks (setFrond s f (withCtx fr c (setEngQ x e [])) o) f c e n = setFrond s f (withCtx fr c (setEngQ x e [])) o :=
  engKicks_fixed _ f c e n (engKick_empty _ f c e (by rw [ctx_setFrond, withCtx_get, if_pos rfl, engQ_setEngQ]))

section
variable (s : State) (f : FrondId) (fr : Frond) (o : Obs) (c : CtxId) (e : Engine) (q : EngCmd) (l : List EngCmd)
  (hq : engQ (fr.ctxs.get c) e = q :: l)
include hq

/-- With its last word written a command retires, with its trace record. -/
theorem engMoved_last (n : Nat) (hn : engWords q.args ≤ q.done + n) :
    ∃ fb o', engMoved (setFrond s f fr o) f c e n =
      setFrond { s with freeCtr := s.freeCtr + 1, fabric := fb } f (withCtx fr c (setEngQ (fr.ctxs.get c) e l)) o' ∧
      fb.xfers = s.fabric.xfers := by
  obtain ⟨o1, ho⟩ := logWaitEnd_setFrond s f fr o c q.blk
  obtain ⟨fb, o', ht, hfb⟩ := traceOp_setFrond s f (withCtx fr c (setEngQ (fr.ctxs.get c) e l)) o1 c (engCode e) 2
  refine ⟨fb, o', ?_, hfb⟩
  rw [engMoved, ctx_setFrond, hq]
  simp only [hn, if_true, ho, modCtx_setFrond, hq, List.drop_one, List.tail_cons]
  exact ht

/-- The words read are held for the Frond's own memory. -/
theorem engGot_writesHere (ws : List Word) (hd : WritesHere s f q) :
    engGot (setFrond s f fr o) f c e ws false =
      setFrond s f (withCtx fr c (setEngQ (fr.ctxs.get c) e ({ q with busy := none, buf := some ws } :: l))) o := by
  have hq' : engQ (ctx (setFrond s f (withCtx fr c (setEngQ (fr.ctxs.get c) e ({ q with busy := none, buf := some ws } :: l))) o) f c) e =
      { q with busy := none, buf := some ws } :: l := by
    rw [ctx_setFrond, withCtx_get, if_pos rfl, engQ_setEngQ]
  rw [engGot, if_neg Bool.false_ne_true, modEng_setFrond s f fr o c e q l hq]
  exact engKick_writesHere _ f c e _ l hq' ws rfl hd

end

/-! ### What has come back (R212) -/

/-- The one access in flight comes back. -/
theorem exec_scratchpadAccessDone (t : Time) (f : FrondId) (at0 : Time) (x : Flight) (s : State) (hm : s.testMode = false)
    (hf : (frond s f).flight = [(at0, x)]) (ha : at0 ≤ max s.now t) :
    exec (.scratchpadAccessDone t f) s =
      .next (guarded s (flightDone f (setFrond (atTime s t) f { frond s f with flight := [] } s.obs) x)) := by
  rw [exec, execScratchpadAccessDone]
  refine live_eq hm ?_
  have hdue : (frond s f).flight.filter (fun p => decide (p.1 ≤ (atTime s t).now)) = [(at0, x)] := by
    rw [hf]; exact List.filter_cons_of_pos (decide_eq_true ha)
  have hleft : (frond s f).flight.filter (fun p => decide ((atTime s t).now < p.1)) = [] := by
    rw [hf]; exact List.filter_cons_of_neg (fun h => Nat.not_lt.mpr ha (of_decide_eq_true h))
  simp only [frond_atTime, modFrond_eq, hdue, hleft, List.foldl_cons, List.foldl_nil]
  rfl

end Sys2Proof.Proofs
end

section
/-!
PROOFS. The engines' commands at the Shared Store's ports, and the end of a range (R23, R141, R144, R243, R303).
-/
namespace Sys2Proof.Proofs
open Sys2Proof.Machine Sys2Proof.Safety Sys2Proof.Laws

/-! ### The end of a range (R243) -/

/-- A Frond whose array's ranges are held until their time alone. -/
def heldAt (s : State) (t : Time) (f : FrondId) : Frond :=
  { frond s f with arrHold := (frond s f).arrHold.filter fun h => decide (max s.now t < h.at_) }

theorem exec_rangeRetire (t : Time) (f : FrondId) (c : CtxId) (i : Fin 24) (s : State) (hm : s.testMode = false) :
    exec (.rangeRetire t f c i) s = .next (guarded s (setFrond (atTime s t) f
      (if rangeHeld (heldAt s t f) c i.val then heldAt s t f
       else withCtx (heldAt s t f) c { ctx s f c with sb := vset (ctx s f c).sb i none }) s.obs)) := by
  rw [exec, execRangeRetire]
  refine live_eq hm ?_
  have hf : modFrond (atTime s t) f (fun fr => { fr with arrHold := fr.arrHold.filter fun h => decide ((atTime s t).now < h.at_) }) =
      setFrond (atTime s t) f (heldAt s t f) s.obs := rfl
  simp only [hf, frond_setFrond]
  cases rangeHeld (heldAt s t f) c i.val with
  | true => rfl
  | false => exact modCtx_setFrond ..

/-! ### A port performs an access (R23) -/

theorem exec_ssLineAccess (t : Time) (port : Fin 16) (z ref : Nat) (rest : List (Nat × Nat)) (x : Xfer) (s : State)
    (h : PortServes t port z ref rest x s) :
    exec (.ssLineAccess t port []) s = .next (guarded s (ssPerform (served (atTime s t) (ssPortNo port) ref rest) ref x)) := by
  obtain ⟨hm, ho, hu, hg, hx, -⟩ := h
  rw [exec, execSsLineAccess]
  refine live_eq hm ?_
  rw [strikeAll_nil]
  exact performNext_serves (atTime s t) (ssPortNo port) z ref rest x hu ho hg hx

theorem ecc_of_portServes {t : Time} {port : Fin 16} {z ref : Nat} {rest : List (Nat × Nat)} {x : Xfer} {s : State}
    (h : PortServes t port z ref rest x s) : s.ecc = [] := by
  obtain ⟨-, -, -, -, -, he⟩ := h
  exact he

theorem engAwaits_first (s : State) (f : FrondId) (c : CtxId) (e : Engine) (q : EngCmd) (l : List EngCmd) (id : Nat)
    (hq : engQ (ctx s f c) e = q :: l) (hb : q.busy = some id) : engAwaits s f c e id = true := by
  simp [engAwaits, hq, hb]

/-- The words at an address as a context's engine reads them (R49). -/
def wordsSeen (s : State) (f : FrondId) (c : CtxId) (a n : Nat) : List Word := match ctxJob s f c with
  | some j => inSeen s j a (rdWords s a n)
  | none => rdWords s a n

/-- A read of the Shared Store: its words are held for the Frond's own memory (R216, R303). -/
theorem ssPerform_engRead (s : State) (f : FrondId) (c : CtxId) (e : Engine) (a n : Nat) (q : EngCmd) (l : List EngCmd) (id : Nat)
    (he : s.ecc = []) (hq : engQ (ctx s f c) e = q :: l) (hb : q.busy = some id) (hd : WritesHere s f q) :
    ssPerform s id (.engRead f c e a n) = setFrond s f (withCtx (frond s f) c
      (setEngQ (ctx s f c) e ({ q with busy := none, buf := some (wordsSeen s f c a n) } :: l))) s.obs := by
  have hgot := engGot_writesHere s f (frond s f) s.obs c e q l hq (wordsSeen s f c a n) hd
  rw [setFrond_self] at hgot
  rw [ssPerform, ssCheckAll_clean s he]
  simp only [engAwaits_first s f c e q l id hq hb, if_true]
  exact hgot

/-! ### A write at a port (R141, R144, R176) -/

theorem ssStore_only (s : State) (a : Nat) (ws : List Word) : ∃ fb, ssStore s a ws = { wrWords s a ws with fabric := fb } :=
  ⟨_, rfl⟩

theorem wrWords_withFabric (s : State) (fb : Fabric) (a : Nat) (ws : List Word) :
    wrWords { s with fabric := fb } a ws = { wrWords s a ws with fabric := fb } := by
  induction ws generalizing s a with
  | nil => rfl
  | cons w ws ih => exact ih (wrWord s a w) (a + 4)

/-- Outside every header, a program's words are stored (R141). -/
theorem progStore_only (ws : List Word) (s : State) (a : Nat) (h : ∀ i, i < ws.length → inHeader s (a + 4 * i) = false) :
    ∃ fb, progStore s a ws = { wrWords s a ws with fabric := fb } := by
  induction ws generalizing s a with
  | nil => exact ⟨s.fabric, rfl⟩
  | cons w ws ih =>
    obtain ⟨fb, hfb⟩ := ssStore_only s a [w]
    have hrest : ∀ i, i < ws.length → inHeader (ssStore s a [w]) (a + 4 + 4 * i) = false := by
      intro i hi
      rw [show a + 4 + 4 * i = a + 4 * (i + 1) by omega]
      exact h (i + 1) (by simpa using hi)
    have hfirst : inHeader s (a + 4 * 0) = false := h 0 (by simp)
    obtain ⟨fb', ih'⟩ := ih (ssStore s a [w]) (a + 4) hrest
    refine ⟨fb', ?_⟩
    have hstep : progStore s a (w :: ws) = progStore (ssStore s a [w]) (a + 4) ws := by
      have hshift : ∀ i, a + 4 * (i + 1) = a + 4 + 4 * i := fun i => by omega
      rw [progStore, progStore, upto, List.length_cons, List.range_succ_eq_map, List.foldl_cons, List.foldl_map, hfirst]
      simp only [hshift, upto, wordAt, List.getD_cons_succ, List.getD_cons_zero, Bool.false_eq_true, if_false, Nat.mul_zero, Nat.add_zero]
    rw [hstep, ih', hfb, wrWords_withFabric]
    rfl

/-- Words that begin no output, or output already begun, find nothing to do before them. -/
theorem outputBegins_none (s : State) (j : Option Nat) (a : Nat)
    (h : ∀ id x, j = some id → jobOf s id = some x → isStretch x = false ∧ (inOutput s x a = true → x.begun = true)) :
    outputBegins s j a = s := by
  unfold outputBegins
  split
  · rename_i x hx
    obtain ⟨id, hj, hid⟩ := Option.bind_eq_some_iff.mp hx
    obtain ⟨hs, hb⟩ := h id x hj hid
    cases ho : inOutput s x a with
    | false => simp
    | true => simp [hs, beginOutput, hb ho]
  · rfl

theorem noteWrite_only (s : State) (id a : Nat) : noteWrite s id a = { s with jobs := (noteWrite s id a).jobs } := by
  unfold noteWrite
  split <;> rfl

/-- The job with an id after an update that keeps it. -/
theorem jobOf_modJob (s : State) (id : Nat) (g : Job → Job) (x : Job) (hid : ∀ j, (g j).id = j.id) (hx : jobOf s id = some x) :
    jobOf (modJob s id g) id = some (g x) := by
  have hkey : ∀ j : Job, (if j.id = id then g j else j).id = j.id := fun j => by split <;> simp [hid]
  have hxid : x.id = id := by simpa using List.find?_some hx
  rw [jobOf, modJob, List.find?_map]
  simp only [Function.comp_def, hkey]
  rw [show s.jobs.find? (fun j => j.id == id) = some x from hx, Option.map_some, if_pos hxid]

/-- A write into a job's output is noted with its moment (R187, R353). -/
theorem noteWrite_output (s : State) (id a : Nat) (x : Job) (hx : jobOf s id = some x) (ho : inOutput s x a = true) :
    ∃ y, jobOf (noteWrite s id a) id = some y ∧ y.outAt = true ∧ y.finish = stamp s := by
  rw [noteWrite, hx]
  exact ⟨_, jobOf_modJob s id _ x (fun _ => rfl) hx, by simp [ho], by simp [ho]⟩

/-- What a write at `a` touches of a job, noted (R144, R176, R347). -/
def noted (s : State) (j : Option Nat) (a : Nat) : State := match j with
  | some n => noteWrite (if (jobOf s n).any isStretch then noteShards s a else s) n a
  | none => s

theorem noted_only (s : State) (j : Option Nat) (a : Nat) (h : ∀ n x, j = some n → jobOf s n = some x → isStretch x = false) :
    ∃ jobs, noted s j a = { s with jobs := jobs } ∧ ∀ n x, j = some n → jobOf s n = some x → inOutput s x a = true →
      ∃ y, jobs.find? (·.id == n) = some y ∧ y.outAt = true ∧ y.finish = stamp s := by
  cases j with
  | none => exact ⟨s.jobs, rfl, fun n x hn => nomatch hn⟩
  | some n =>
    have hs : (jobOf s n).any isStretch = false := by
      cases hx : jobOf s n with
      | none => rfl
      | some x => exact h n x rfl hx
    refine ⟨(noteWrite s n a).jobs, ?_, fun n' x hn hx ho => ?_⟩
    · rw [noted, hs]; exact noteWrite_only s n a
    · cases hn; exact noteWrite_output s n a x hx ho

theorem ssPerform_engWrite_eq (s : State) (f : FrondId) (c : CtxId) (e : Engine) (a : Nat) (ws : List Word) (o : Bool) (j : Option Nat) (id : Nat) :
    ssPerform s id (.engWrite f c e a ws o j) =
      if engAwaits (noted (progStore (outputBegins s j a) a ws) j a) f c e id then
        engKicks (engMoved (noted (progStore (outputBegins s j a) a ws) j a) f c e ws.length) f c e 34
      else noted (progStore (outputBegins s j a) a ws) j a := by
  cases j <;> rfl

/-- The state behind a line written at `a`, with what ports and jobs record of it. -/
def writtenBy (s : State) (a : Nat) (ws : List Word) (fb : Fabric) (jobs : List Job) : State :=
  { s with mem := (wrWords s a ws).mem, ecc := (wrWords s a ws).ecc, fabric := fb, jobs := jobs }

/-- A write of a command's last words to the Shared Store outside every header, which begins no output: the words are stored, what they touch of
their job is noted, and the command retires (R141, R144, R303). -/
theorem ssPerform_engWrite (s : State) (f : FrondId) (c : CtxId) (e : Engine) (a : Nat) (ws : List Word) (o : Bool) (j : Option Nat) (q : EngCmd)
    (id : Nat) (hq : engQ (ctx s f c) e = [q]) (hb : q.busy = some id) (hn : engWords q.args ≤ q.done + ws.length)
    (hh : ∀ i, i < ws.length → inHeader s (a + 4 * i) = false)
    (hj : ∀ n x, j = some n → jobOf s n = some x → isStretch x = false ∧ (inOutput s x a = true → x.begun = true)) :
    ∃ jobs fb o', ssPerform s id (.engWrite f c e a ws o j) =
        setFrond { wrWords s a ws with jobs := jobs, freeCtr := s.freeCtr + 1, fabric := fb } f
          (withCtx (frond s f) c (setEngQ (ctx s f c) e [])) o' ∧
      ∀ n x, j = some n → jobOf s n = some x → inOutput s x a = true →
        ∃ y, jobs.find? (·.id == n) = some y ∧ y.outAt = true ∧ y.finish = stamp s := by
  obtain ⟨fb, hfb⟩ := progStore_only ws s a hh
  rw [wrWords_only] at hfb
  obtain ⟨jobs, hnoted, hout⟩ := noted_only (progStore s a ws) j a fun n x hn hx => (hj n x hn (by rw [hfb] at hx; exact hx)).1
  have hstate : noted (progStore s a ws) j a = setFrond (writtenBy s a ws fb jobs) f (frond s f) s.obs := by
    rw [hnoted, hfb]; exact (setFrond_self (writtenBy s a ws fb jobs) f).symm
  have hwait : engAwaits (setFrond (writtenBy s a ws fb jobs) f (frond s f) s.obs) f c e id = true :=
    engAwaits_first _ f c e q [] id (by rw [ctx_setFrond]; exact hq) hb
  obtain ⟨fb', o', hmoved, -⟩ := engMoved_last (writtenBy s a ws fb jobs) f (frond s f) s.obs c e q [] hq ws.length hn
  refine ⟨jobs, fb', o', ?_, by rw [hfb] at hout; exact hout⟩
  rw [ssPerform_engWrite_eq, outputBegins_none s j a hj, hstate, if_pos hwait, hmoved, engKicks_ended, wrWords_only]
  rfl

end Sys2Proof.Proofs
end

section
/-!
PROOFS. The issue of an instruction in the normal form, and of the engines' commands (R245, R246, R303, R484).
-/
namespace Sys2Proof.Proofs
open Sys2Proof.Machine Sys2Proof.Safety Sys2Proof.Laws

/-! ### Behind an instruction that took effect -/

theorem accrueBusy_setFrond (s : State) (f : FrondId) (fr : Frond) (o : Obs) :
    ∃ o', accrueBusy (setFrond s f fr o) f = setFrond s f { fr with busySince := s.now } o' := by
  have hcount : ∀ g, modFrond (modFcnt (setFrond s f fr o) f g) f (fun fr => { fr with busySince := s.now }) =
      setFrond s f { fr with busySince := s.now } (modFcnt (setFrond s f fr o) f g).obs := fun g =>
    modFrond_setFrond s f fr (modFcnt (setFrond s f fr o) f g).obs _
  have hplain : modFrond (setFrond s f fr o) f (fun fr => { fr with busySince := s.now }) = setFrond s f { fr with busySince := s.now } o :=
    modFrond_setFrond ..
  unfold accrueBusy
  dsimp only
  split
  · split
    · exact ⟨_, hcount _⟩
    · exact ⟨_, hplain⟩
  · exact ⟨_, hplain⟩

/-- A context whose block and stall have ended in an FC. -/
def endedBlock (fc : Nat) (x : Ctx) : Ctx := { x.endLost fc with waitk := .none, blk := none }

theorem unblockCtx_setFrond (s : State) (f : FrondId) (fr : Frond) (o : Obs) (c : CtxId) :
    ∃ o' b, unblockCtx (setFrond s f fr o) f c =
      setFrond s f { withCtx fr c (endedBlock (fcNow s) (fr.ctxs.get c)) with busySince := b } o' := by
  have hfc : fcNow (setFrond s f fr o) = fcNow s := rfl
  rw [unblockCtx]
  simp only [hfc, modCtx_setFrond, ctx_setFrond, withCtx_get, if_true]
  split
  · rename_i hquiet
    obtain ⟨hw, hb⟩ : ((fr.ctxs.get c).endLost (fcNow s)).waitk = .none ∧ ((fr.ctxs.get c).endLost (fcNow s)).blk = none := by
      simpa using hquiet
    refine ⟨o, fr.busySince, ?_⟩
    rw [endedBlock, ← hw, ← hb]
    rfl
  · obtain ⟨o1, h1⟩ := accrueBusy_setFrond s f (withCtx fr c ((fr.ctxs.get c).endLost (fcNow s))) o
    obtain ⟨o2, h2⟩ := logWaitEnd_setFrond s f { withCtx fr c ((fr.ctxs.get c).endLost (fcNow s)) with busySince := s.now } o1 c
      ((fr.ctxs.get c).endLost (fcNow s)).blk
    refine ⟨o2, s.now, ?_⟩
    rw [h1, h2, modCtx_setFrond]
    have hget : ({ withCtx fr c ((fr.ctxs.get c).endLost (fcNow s)) with busySince := s.now } : Frond).ctxs.get c =
        (fr.ctxs.get c).endLost (fcNow s) := (withCtx_get ..).trans (if_pos rfl)
    rw [hget]
    show setFrond s f { withCtx (withCtx fr c _) c _ with busySince := s.now } o2 = _
    rw [withCtx_withCtx]
    rfl

/-- The moment, ids, free values and transfers of a state in which an instruction issues. -/
def issueBase (s : State) (k : Issue) (n free : Nat) (fb : Fabric) : State :=
  { atTime s k.t with nextId := n, freeCtr := free, fabric := fb }

/-- The contexts of a Frond behind an instruction of one of them. -/
def steppedCtxs (s : State) (k : Issue) (c : CtxId) (x : Ctx) : Vector Ctx 4 :=
  Vector.ofFn fun d => if d = c then steppedCtx (issueFc k s) k x else { ctx s k.f d with yielded := false }

theorem endedBlock_steps (fc : Nat) (k : Issue) (x : Ctx) :
    ({ endedBlock fc { x with atCheap := none } with
      pc := k.nx, cresetAt := 0, completed := (endedBlock fc { x with atCheap := none }).completed || k.last
      atCheap := if k.last then some 0x3F else (endedBlock fc { x with atCheap := none }).atCheap } : Ctx) = steppedCtx fc k x := by
  unfold steppedCtx endedBlock Ctx.endLost addLost
  dsimp only
  split
  · split <;> rfl
  · rfl

/-- An instruction takes effect: in its context, in what it sends, and behind it as every instruction does. -/
theorem crumb_done (k : Issue) (s : State) (c : CtxId) (body : CtxId → State → Issued) (n free : Nat) (fb : Fabric) (o : Obs) (x : Ctx)
    (h : CanIssue k [] s c)
    (hb : body c (modCtx (atTime s k.t) k.f c fun x => { x with atCheap := none }) =
      .done (setFrond (issueBase s k n free fb) k.f (withCtx (frond s k.f) c { x with atCheap := none }) o)) :
    ∃ o' b, crumb k [] s body = .next (guarded s (setFrond (issueBase s k n free fb) k.f
      { frond s k.f with ctxs := steppedCtxs s k c x, issueAt := issuedAt k s + tFC s, busySince := b } o')) := by
  obtain ⟨o', b, hu⟩ := unblockCtx_setFrond (issueBase s k n free fb) k.f (withCtx (frond s k.f) c { x with atCheap := none }) o c
  refine ⟨o', b, ?_⟩
  rw [issue_runs k [] s c body h, hb]
  refine congrArg (fun x => Host.Outcome.next (guarded s x)) ?_
  dsimp only
  rw [hu, advance, modFrond_setFrond, useFc, modFrond_setFrond]
  refine congrArg (fun v => setFrond (issueBase s k n free fb) k.f
    { frond s k.f with ctxs := v, issueAt := issuedAt k s + tFC s, busySince := b } o') (congrArg Vector.ofFn (funext fun d => ?_))
  simp only [withCtx_withCtx, withCtx_get, if_true]
  by_cases hd : d = c
  · rw [if_pos hd, if_pos hd, if_pos hd.symm]
    exact endedBlock_steps (issueFc k s) k x
  · rw [if_neg hd, if_neg hd, if_neg (Ne.symm hd)]
    rfl

end Sys2Proof.Proofs
end

section
/-!
PROOFS. FETCH and DRAIN commands: what their issue checks, and how a command joins its engine's queue (R216, R217, R303, R485).
-/
namespace Sys2Proof.Proofs
open Sys2Proof.Machine Sys2Proof.Safety Sys2Proof.Laws

/-! ### What the statements read off an instruction behind it -/

/-- A Frond behind an instruction of one of its contexts. -/
def steppedFrond (s : State) (k : Issue) (c : CtxId) (x : Ctx) (b : Time) : Frond :=
  { frond s k.f with ctxs := steppedCtxs s k c x, issueAt := issuedAt k s + tFC s, busySince := b }

section
variable (s : State) (k : Issue) (c : CtxId) (x : Ctx) (b : Time) (n free : Nat) (fb : Fabric) (o : Obs)

theorem ctx_stepped : ctx (guarded s (setFrond (issueBase s k n free fb) k.f (steppedFrond s k c x b) o)) k.f c = steppedCtx (issueFc k s) k x := by
  rw [ctx_guarded, ctx_setFrond, steppedFrond, steppedCtxs, ofFn_get, if_pos rfl]

theorem frond_stepped_ne (f : FrondId) (h : k.f ≠ f) :
    frond (guarded s (setFrond (issueBase s k n free fb) k.f (steppedFrond s k c x b) o)) f = frond s f := by
  rw [frond_guarded, frond_setFrond_ne _ _ _ _ _ h]; rfl

theorem crumbInside_stepped : crumbInside k c s (guarded s (setFrond (issueBase s k n free fb) k.f (steppedFrond s k c x b) o)) := by
  refine ⟨fun d hd => ?_, ?_⟩
  · rw [ctx_guarded, ctx_setFrond, steppedFrond, steppedCtxs, ofFn_get, if_neg (Ne.symm hd)]
  · rw [frond_guarded, frond_setFrond]; rfl

theorem steps_stepped : Steps true k c x s (guarded s (setFrond (issueBase s k s.nextId free fb) k.f (steppedFrond s k c x b) o)) :=
  ⟨ctx_stepped .., ⟨fun f h => frond_stepped_ne _ _ _ _ _ _ _ _ _ f h, rfl⟩, crumbInside_stepped ..⟩

theorem stepsSending_stepped :
    StepsSending k c x { s with freeCtr := free } (guarded s (setFrond (issueBase s k n free fb) k.f (steppedFrond s k c x b) o)) :=
  ⟨ctx_stepped .., fun f h => frond_stepped_ne _ _ _ _ _ _ _ _ _ f h, crumbInside_stepped .., rfl⟩

end

/-! ### The checks of a command at its issue see its Frond as it stood (R483, R485) -/

section
variable (s : State) (f : FrondId) (c : CtxId) (e : Engine) (a : EngArgs) (x : Ctx) (o : Obs)

theorem spanOk_setFrond (p n : Nat) (wr : Bool) : spanOk (setFrond s f (withCtx (frond s f) c x) o) f p n wr = spanOk s f p n wr := by
  unfold spanOk
  rw [frond_setFrond]
  rfl

theorem circAllowed_withCtx (hx : x.sbEn = (ctx s f c).sbEn) (who : Owner) (i : Fin 8) (p : Bool) :
    circAllowed (withCtx (frond s f) c x) c who i p = circAllowed (frond s f) c who i p := by
  unfold circAllowed
  rw [withCtx_get, if_pos rfl, hx]
  rfl

/-- The source of a command, as its own issue sees it. -/
theorem srcOk_issued (t : Time) (hx : x.sbEn = (ctx s f c).sbEn) :
    srcOk (setFrond (atTime s t) f (withCtx (frond s f) c x) o) f c e a = srcOk s f c e a := by
  unfold srcOk
  rw [frond_setFrond]
  cases a.src with
  | addr b tag => exact congrArg (· && _) (spanOk_setFrond (atTime s t) f c x o _ _ _)
  | strided m a0 st tag => rfl
  | transposed m a0 fmt tag => rfl
  | circ i => exact circAllowed_withCtx s f c x hx _ i _

/-- Its destination. -/
theorem dstOk_issued (t : Time) (hx : x.sbEn = (ctx s f c).sbEn) :
    dstOk (setFrond (atTime s t) f (withCtx (frond s f) c x) o) f c e a = dstOk s f c e a := by
  unfold dstOk
  rw [frond_setFrond]
  cases a.dst with
  | addr b tag => exact congrArg (fun v => _ && v && _) (spanOk_setFrond (atTime s t) f c x o _ _ _)
  | circ i => exact circAllowed_withCtx s f c x hx _ i _

end

/-! ### A command joins the queue, or is held -/

/-- A command as it joins its engine's queue. -/
def newCmd (a : EngArgs) : EngCmd :=
  { args := a, done := 0, buf := none, busy := none, poison := false, slots := 0, part := [], mark := [], blk := none }

section
variable (s : State) (k : Issue) (e : Engine) (a : EngArgs) (c : CtxId) (fr : Frond) (o : Obs)
  (hsrc : srcOk (setFrond s k.f fr o) k.f c e a = true) (hdst : dstOk (setFrond s k.f fr o) k.f c e a = true)
include hsrc hdst

theorem engCommand_full (hl : 8 ≤ (engQ (fr.ctxs.get c) e).length) :
    engCommand k e a c (setFrond s k.f fr o) = .held (setFrond s k.f fr o) := by
  simp [engCommand, hsrc, hdst, hl]

theorem engCommand_joins (hst : (fr.ctxs.get c).store = []) (hsb : (fr.ctxs.get c).sbEn = false) (hl : (engQ (fr.ctxs.get c) e).length < 8) :
    engCommand k e a c (setFrond s k.f fr o) = .done (engKicks (traceOp (setFrond s k.f
      (withCtx fr c (setEngQ (fr.ctxs.get c) e (engQ (fr.ctxs.get c) e ++ [newCmd a]))) o) k.f c (engCode e) 1) k.f c e 34) := by
  have hroom : decide (8 ≤ (engQ (fr.ctxs.get c) e).length) = false := decide_eq_false (Nat.not_le.mpr hl)
  simp only [engCommand, hsrc, hdst, ctx_setFrond, storesVisible, hst, List.isEmpty_nil, hroom, sbMark, hsb, modCtx_setFrond,
    Bool.not_true, Bool.not_false, Bool.or_self, Bool.false_eq_true, if_false, if_true]
  rfl

end

/-! ### Its first piece -/

/-- A read of the Frond's own memory is begun by its slot. -/
theorem engRead_readsHere (s : State) (f : FrondId) (c : CtxId) (e : Engine) (q : EngCmd)
    (h : ∀ b tag, q.args.src = .addr b tag → ∃ m w, placeOf s f (b.toNat / 4 * 4 + 4 * q.done) = .pad m w) : engRead s f c e q = s := by
  unfold engRead
  split
  · rename_i b tag hsrc
    obtain ⟨m, w, hp⟩ := h b tag hsrc
    simp only [hp]
  · rfl

/-- The running context's first command begins its next read. -/
theorem engKick_reads (s : State) (f : FrondId) (c : CtxId) (e : Engine) (q : EngCmd) (l : List EngCmd) (hr : runningCtx s f = some c)
    (hq : engQ (ctx s f c) e = q :: l) (hb : q.busy = none) (hp : q.poison = false) (hs : stopsHere (ctx s f c) = false) (hbuf : q.buf = none)
    (hn : q.done < engWords q.args) : engKick s f c e = engRead s f c e q := by
  rw [engKick, hr, hq]
  simp [hb, hp, hbuf, hn, engStops, hs]

/-- A read of the Shared Store is put before its port, and the command waits for it (R258, R303). -/
theorem engRead_shared (s : State) (f : FrondId) (fr : Frond) (o : Obs) (c : CtxId) (e : Engine) (q : EngCmd) (l : List EngCmd) (b : Addr)
    (tag : TagKind) (p : Nat) (hq : engQ (fr.ctxs.get c) e = q :: l) (hsrc : q.args.src = .addr b tag)
    (hpl : placeOf s f (b.toNat / 4 * 4 + 4 * q.done) = .shared p) :
    engRead (setFrond s f fr o) f c e q = setFrond (withXfer s (frondReq f) (((fr.ctxs.get c).job.bind (jobOf s)).map (·.part))
        (.engRead f c e p (min (engWords q.args - q.done) ((128 - (b.toNat / 4 * 4 + 4 * q.done) % 128) / 4)))) f
      (withCtx fr c (setEngQ (fr.ctxs.get c) e ({ q with busy := some s.nextId } :: l))) o := by
  have hpl' : placeOf (setFrond s f fr o) f (b.toNat / 4 * 4 + 4 * q.done) = .shared p := hpl
  have hatt : ctxAtt (setFrond s f fr o) f c = ((fr.ctxs.get c).job.bind (jobOf s)).map (·.part) := by
    rw [ctxAtt, ctxJob, ctx_setFrond]; rfl
  rw [engRead, hsrc]
  simp only [hpl', hatt, putXfer_only]
  exact modEng_setFrond (withXfer s _ _ _) f fr o c e q l hq _

end Sys2Proof.Proofs
end

section
/-!
PROOFS. FETCH and DRAIN commands as instructions (R303, R484), and the statement about the engines.
-/
namespace Sys2Proof.Proofs
open Sys2Proof.Machine Sys2Proof.Safety Sys2Proof.Laws

/-! ### The context that issues -/

theorem stopsHere_of_mayIssue (s : State) (k : Issue) (c : CtxId) (h : mayIssue s k c = true) : stopsHere (ctx s k.f c) = false := by
  simp only [mayIssue, Bool.and_eq_true, Bool.not_eq_true'] at h
  obtain ⟨⟨⟨⟨⟨⟨⟨⟨-, hstop⟩, -⟩, -⟩, -⟩, -⟩, -⟩, -⟩, -⟩ := h
  exact hstop

theorem stopsHere_bodyCtx (s : State) (f : FrondId) (c : CtxId) (h : stopsHere (ctx s f c) = false) : stopsHere (bodyCtx s f c) = false := by
  simp only [stopsHere, Bool.or_eq_false_iff] at h
  simp [stopsHere, bodyCtx, h.1.1, h.1.2]

theorem runningCtx_iff (s : State) (f : FrondId) (c : CtxId) : runningCtx s f = some c ↔ (frond s f).cur = some c ∧ (ctx s f c).st = .running := by
  unfold runningCtx
  split
  · rename_i d hd
    by_cases hs : (ctx s f d).st = .running
    · simp only [hs, beq_self_eq_true, if_true, hd, Option.some.injEq]
      exact ⟨fun h => ⟨h, h ▸ hs⟩, fun h => h.1⟩
    · simp only [beq_iff_eq, hs, if_false, hd, Option.some.injEq]
      exact ⟨fun h => (nomatch h), fun h => absurd (h.1 ▸ h.2) hs⟩
  · rename_i hd
    simp [hd]

/-- The context in front of an instruction's effect, with a new queue of an engine. -/
theorem setEngQ_bodyCtx (s : State) (f : FrondId) (c : CtxId) (e : Engine) (l : List EngCmd) :
    setEngQ (bodyCtx s f c) e l = { setEngQ (ctx s f c) e l with atCheap := none } := by
  cases e <;> rfl

theorem engQ_bodyCtx (s : State) (f : FrondId) (c : CtxId) (e : Engine) : engQ (bodyCtx s f c) e = engQ (ctx s f c) e := by
  cases e <;> rfl

/-- The state that an instruction's own computation sees. -/
theorem body_state (k : Issue) (s : State) (c : CtxId) : modCtx (atTime s k.t) k.f c (fun x => { x with atCheap := none }) =
    setFrond (atTime s k.t) k.f (withCtx (frond s k.f) c (bodyCtx s k.f c)) s.obs := rfl

theorem withXfer_issueBase (s : State) (k : Issue) (n free : Nat) (fb : Fabric) (req : Fin 32) (part : Option PartId) (x : Xfer) :
    withXfer (issueBase s k n free fb) req part x =
      issueBase s k (n + 1) free { fb with xfers := fb.xfers ++ [{ id := n, req := req, part := part, x := x }] } := rfl

/-! ### A command is issued -/

theorem exec_engCommand (k : Issue) (a : EngArgs) (i : Instr) (e : Engine) (s : State)
    (hi : i = .fetchCommand k a ∧ e = .fetch ∨ i = .drainCommand k a ∧ e = .drain) : exec i s = crumb k [] s (engCommand k e a) := by
  rcases hi with ⟨rfl, rfl⟩ | ⟨rfl, rfl⟩ <;> rfl

section
variable (k : Issue) (a : EngArgs) (e : Engine) (c : CtxId) (s : State)
  (hsrc : srcOk s k.f c e a = true) (hdst : dstOk s k.f c e a = true)
include hsrc hdst

/-- With 8 commands in its queue the next one is held (R216, R303). -/
theorem crumb_engCommand_full (hci : CanIssue k [] s c) (hl : 8 ≤ (engQ (ctx s k.f c) e).length) :
    crumb k [] s (engCommand k e a) = .next (guarded s (setFrond (atTime s k.t) k.f
      { withCtx (frond s k.f) c (ctx s k.f c) with issueAt := issuedAt k s + tFC s } s.obs)) := by
  have hheld := engCommand_full (atTime s k.t) k e a c (withCtx (frond s k.f) c (bodyCtx s k.f c)) s.obs
    ((srcOk_issued s k.f c e a (bodyCtx s k.f c) s.obs k.t rfl).trans hsrc) ((dstOk_issued s k.f c e a (bodyCtx s k.f c) s.obs k.t rfl).trans hdst)
    (by rw [withCtx_get, if_pos rfl, engQ_bodyCtx]; exact hl)
  rw [issue_runs k [] s c _ hci, body_state, hheld]
  refine congrArg (fun x => Host.Outcome.next (guarded s x)) ?_
  dsimp only
  rw [modCtx_setFrond, withCtx_withCtx, withCtx_get, if_pos rfl, useFc, modFrond_setFrond]
  rfl

/-- A command joins the queue of its engine (R303). -/
theorem engCommand_joined (hst : (ctx s k.f c).store = []) (hsb : (ctx s k.f c).sbEn = false) (hl : (engQ (ctx s k.f c) e).length < 8) :
    ∃ fb o, fb.xfers = s.fabric.xfers ∧ engCommand k e a c (modCtx (atTime s k.t) k.f c fun x => { x with atCheap := none }) =
      .done (engKicks (setFrond (issueBase s k s.nextId (s.freeCtr + 1) fb) k.f (withCtx (frond s k.f) c
        { setEngQ (ctx s k.f c) e (engQ (ctx s k.f c) e ++ [newCmd a]) with atCheap := none }) o) k.f c e 34) := by
  have hget : (withCtx (frond s k.f) c (bodyCtx s k.f c)).ctxs.get c = bodyCtx s k.f c := (withCtx_get ..).trans (if_pos rfl)
  have hjoin := engCommand_joins (atTime s k.t) k e a c (withCtx (frond s k.f) c (bodyCtx s k.f c)) s.obs
    ((srcOk_issued s k.f c e a (bodyCtx s k.f c) s.obs k.t rfl).trans hsrc) ((dstOk_issued s k.f c e a (bodyCtx s k.f c) s.obs k.t rfl).trans hdst)
    (by rw [hget]; exact hst) (by rw [hget]; exact hsb) (by rw [hget, engQ_bodyCtx]; exact hl)
  rw [hget, withCtx_withCtx, engQ_bodyCtx, setEngQ_bodyCtx] at hjoin
  obtain ⟨fb, o, ht, hfb⟩ := traceOp_setFrond (atTime s k.t) k.f (withCtx (frond s k.f) c
    { setEngQ (ctx s k.f c) e (engQ (ctx s k.f c) e ++ [newCmd a]) with atCheap := none }) s.obs c (engCode e) 1
  refine ⟨fb, o, hfb, ?_⟩
  rw [body_state, hjoin, ht]
  rfl

/-- A command that goes nowhere at its issue waits for its slots, or behind another (R216, R303). -/
theorem crumb_engCommand_waits (hci : CanIssue k [] s c) (hst : (ctx s k.f c).store = []) (hsb : (ctx s k.f c).sbEn = false)
    (hl : (engQ (ctx s k.f c) e).length < 8)
    (hk : ∀ fb o, engKick (setFrond (issueBase s k s.nextId (s.freeCtr + 1) fb) k.f (withCtx (frond s k.f) c
        { setEngQ (ctx s k.f c) e (engQ (ctx s k.f c) e ++ [newCmd a]) with atCheap := none }) o) k.f c e =
      setFrond (issueBase s k s.nextId (s.freeCtr + 1) fb) k.f (withCtx (frond s k.f) c
        { setEngQ (ctx s k.f c) e (engQ (ctx s k.f c) e ++ [newCmd a]) with atCheap := none }) o) :
    ∃ s', crumb k [] s (engCommand k e a) = .next s' ∧
      Steps true k c (setEngQ (ctx s k.f c) e (engQ (ctx s k.f c) e ++ [newCmd a])) s s' := by
  obtain ⟨fb, o, -, hdone⟩ := engCommand_joined k a e c s hsrc hdst hst hsb hl
  rw [engKicks_fixed _ _ _ _ _ (hk fb o)] at hdone
  obtain ⟨o', b, h⟩ := crumb_done k s c _ _ _ _ _ _ hci hdone
  exact ⟨_, h, steps_stepped ..⟩

/-- A command alone in its queue whose source is the Shared Store puts its first read before its port (R258, R303). -/
theorem crumb_engCommand_sends (hci : CanIssue k [] s c) (hst : (ctx s k.f c).store = []) (hsb : (ctx s k.f c).sbEn = false)
    (hq : engQ (ctx s k.f c) e = []) (hn : 0 < engWords a) (b : Addr) (tag : TagKind) (p : Nat) (ha : a.src = .addr b tag)
    (hp : placeOf s k.f (b.toNat / 4 * 4) = .shared p) :
    ∃ s', crumb k [] s (engCommand k e a) = .next s' ∧
      StepsSending k c (setEngQ (ctx s k.f c) e [{ newCmd a with busy := some s.nextId }]) { s with freeCtr := s'.freeCtr } s' ∧
      s'.fabric.xfers = s.fabric.xfers ++ [{ id := s.nextId, req := frondReq k.f, part := ctxAtt s k.f c, x := .engRead k.f c e p (min (engWords a) ((128 - b.toNat / 4 * 4 % 128) / 4)) }] ∧ s'.links = s.links ∧ s'.tree = s.tree := by
  have hs : stopsHere (bodyCtx s k.f c) = false := stopsHere_bodyCtx s k.f c (stopsHere_of_mayIssue (atTime s k.t) k c hci.2.2.1 :)
  obtain ⟨hcur, hrun⟩ := (runningCtx_iff s k.f c).mp hci.2.1
  obtain ⟨fb, o, hfb, hdone⟩ := engCommand_joined k a e c s hsrc hdst hst hsb (by rw [hq]; decide)
  rw [hq, List.nil_append, ← setEngQ_bodyCtx] at hdone
  have hget : ∀ l, (withCtx (frond s k.f) c (setEngQ (bodyCtx s k.f c) e l)).ctxs.get c = setEngQ (bodyCtx s k.f c) e l :=
    fun l => (withCtx_get ..).trans (if_pos rfl)
  have hq1 : engQ ((withCtx (frond s k.f) c (setEngQ (bodyCtx s k.f c) e [newCmd a])).ctxs.get c) e = [newCmd a] := by
    rw [hget, engQ_setEngQ]
  have hkick := (engKick_reads _ k.f c e (newCmd a) []
      ((runningCtx_iff _ _ _).mpr ⟨by rw [frond_setFrond]; exact hcur, by rw [ctx_setFrond, hget, setEngQ_st]; exact hrun⟩)
      (by rw [ctx_setFrond]; exact hq1) rfl rfl (by rw [ctx_setFrond, hget, stopsHere_setEngQ]; exact hs) rfl hn).trans
    (engRead_shared (issueBase s k s.nextId (s.freeCtr + 1) fb) k.f _ o c e (newCmd a) [] b tag p hq1 ha hp)
  have hatt : ((setEngQ (bodyCtx s k.f c) e [newCmd a]).job.bind (jobOf (issueBase s k s.nextId (s.freeCtr + 1) fb))).map (·.part) =
      ctxAtt s k.f c := by
    rw [setEngQ_job]; rfl
  rw [hget, withCtx_withCtx, setEngQ_setEngQ, hatt] at hkick
  have hbusy : ∀ b n, engKicks (setFrond b k.f (withCtx (frond s k.f) c (setEngQ (bodyCtx s k.f c) e [{ newCmd a with busy := some n }])) o)
      k.f c e 33 = setFrond b k.f (withCtx (frond s k.f) c (setEngQ (bodyCtx s k.f c) e [{ newCmd a with busy := some n }])) o := fun b n =>
    engKicks_fixed _ k.f c e 33 (engKick_busy _ k.f c e { newCmd a with busy := some n } []
      (by rw [ctx_setFrond, hget, engQ_setEngQ]) rfl)
  rw [engKicks, hkick, hbusy, withXfer_issueBase, setEngQ_bodyCtx] at hdone
  obtain ⟨o', t, h⟩ := crumb_done k s c _ _ _ _ _ _ hci hdone
  refine ⟨_, h, stepsSending_stepped .., ?_, rfl, rfl⟩
  exact congrArg (· ++ _) hfb

end

end Sys2Proof.Proofs
end

section
/-!
PROOFS. The statement about the engines' commands, clause by clause from the lemmas above (R216, R217, R243, R303).
-/
namespace Sys2Proof.Proofs
open Sys2Proof.Machine Sys2Proof.Safety Sys2Proof.Laws

/-! ### What the normal form says of the contexts and of the Frond -/

theorem ctx_setFrond_withCtx (s b : State) (f : FrondId) (fr : Frond) (c : CtxId) (x : Ctx) (o : Obs) :
    ctx (guarded s (setFrond b f (withCtx fr c x) o)) f c = x := by
  rw [ctx_guarded, ctx_setFrond, withCtx_get, if_pos rfl]

/-! ### A command joins its queue -/

section
variable (k : Issue) (a : EngArgs) (e : Engine) (c : CtxId) (s : State)
  (hsrc : srcOk s k.f c e a = true) (hdst : dstOk s k.f c e a = true) (hci : CanIssue k [] s c)
include hsrc hdst hci

/-- A command alone in its queue that reads its Frond's own memory waits for its slots. -/
theorem crumb_engCommand_readsHere (hst : (ctx s k.f c).store = []) (hsb : (ctx s k.f c).sbEn = false) (hn : 0 < engWords a)
    (hq : engQ (ctx s k.f c) e = []) (hpad : ∀ b tag, a.src = .addr b tag → ∃ m w, placeOf s k.f (b.toNat / 4 * 4) = .pad m w) :
    ∃ s', crumb k [] s (engCommand k e a) = .next s' ∧ Steps true k c (setEngQ (ctx s k.f c) e [newCmd a]) s s' := by
  have h := crumb_engCommand_waits k a e c s hsrc hdst hci hst hsb (by rw [hq]; decide) fun fb o => by
    refine engKick_readsHere _ k.f c e (newCmd a) [] ?_ hn rfl (engRead_readsHere _ k.f c e (newCmd a) hpad)
    rw [ctx_setFrond, withCtx_get, if_pos rfl, ← setEngQ_bodyCtx, engQ_setEngQ, hq, List.nil_append]
  rwa [hq, List.nil_append] at h

/-- A command joins behind one that waits for an access. -/
theorem crumb_engCommand_behind (hst : (ctx s k.f c).store = []) (hsb : (ctx s k.f c).sbEn = false) (q : EngCmd) (l : List EngCmd)
    (hq : engQ (ctx s k.f c) e = q :: l) (hbusy : q.busy.isSome = true) (hlen : l.length < 7) :
    ∃ s', crumb k [] s (engCommand k e a) = .next s' ∧ Steps true k c (setEngQ (ctx s k.f c) e (q :: l ++ [newCmd a])) s s' := by
  have h := crumb_engCommand_waits k a e c s hsrc hdst hci hst hsb (by rw [hq, List.length_cons]; omega) fun fb o => by
    refine engKick_busy _ k.f c e q (l ++ [newCmd a]) ?_ hbusy
    rw [ctx_setFrond, withCtx_get, if_pos rfl, ← setEngQ_bodyCtx, engQ_setEngQ, hq, List.cons_append]
  rwa [hq] at h

/-- A command for which its queue has no room is held. -/
theorem crumb_engCommand_held (hl : 8 ≤ (engQ (ctx s k.f c) e).length) :
    ∃ s', crumb k [] s (engCommand k e a) = .next s' ∧ HeldForSlot k c (ctx s k.f c) s s' := by
  refine ⟨_, crumb_engCommand_full k a e c s hsrc hdst hci hl, ?_, fun d hd => ?_, fun f hf => ?_, ?_, rfl⟩
  · rw [ctx_guarded, ctx_setFrond]; exact (withCtx_get ..).trans (if_pos rfl)
  · rw [ctx_guarded, ctx_setFrond]; exact (withCtx_get ..).trans (if_neg hd)
  · rw [frond_guarded, frond_setFrond_ne _ _ _ _ _ hf]; rfl
  · rw [frond_guarded, frond_setFrond]; rfl

end

/-! ### Words written -/

/-- A line written to a scratchpad: its words read back, and nothing outside them changed. -/
theorem padWords_written (s b : State) (f : FrondId) (m : Mem) (w : Nat) (ws : List Word) (fr : Frond) (o : Obs) (hb : b.mem = s.mem) :
    padWords (guarded s (setFrond (wrWords b (padAddr f m w) ws) f fr o)) f m w ws.length = ws ∧
      OnlyPad f m w ws.length s (guarded s (setFrond (wrWords b (padAddr f m w) ws) f fr o)) :=
  ⟨rdWords_wrWords b (padAddr f m w) ws, fun a ha => by
    rw [← hb]; exact cellGet_wrWords_out b (padAddr f m w) a ws ha⟩

/-! ### Gathers -/

section
variable (t : Time) (f : FrondId) (c : CtxId) (e : Engine) (q : EngCmd) (l : List EngCmd) (m : Mem) (s : State)
  (hq : engQ (ctx s f c) e = q :: l)
include hq

/-- A slot that does not end its gather. -/
theorem takeSlot_gathers (fr : Frond) (hfr : fr.ctxs = (frond s f).ctxs) (g : EngCmd → EngCmd) :
    ∃ o', takeSlot (modEng (unblockEng (setFrond (atTime s t) f fr s.obs) f c e) f c e g) f m =
      setFrond (atTime s t) f (withCtx (slotTaken (atTime s t) m fr) c (setEngQ (ctx s f c) e (g { q with blk := none } :: l))) o' := by
  have hget : fr.ctxs.get c = ctx s f c := by rw [hfr]; rfl
  rw [← hget] at hq ⊢
  exact takeSlot_modEng_unblockEng (atTime s t) f fr s.obs c e q l hq m g

/-- The slot that ends it. -/
theorem takeSlot_gathered (fr : Frond) (hfr : fr.ctxs = (frond s f).ctxs) (ws : List Word) :
    ∃ o', takeSlot (flyWords (setFrond (atTime s t) f fr s.obs) f m c e ws false) f m =
      setFrond (atTime s t) f (withCtx (carrying (atTime s t) m fr (.engRead c e ws false)) c
        (setEngQ (ctx s f c) e ({ q with busy := some 0, blk := none } :: l))) o' := by
  have hget : fr.ctxs.get c = ctx s f c := by rw [hfr]; rfl
  rw [← hget] at hq ⊢
  exact takeSlot_flyWords (atTime s t) f fr s.obs c e q l hq m ws false

end

/-! ### Gathers as commands -/

section
variable (t : Time) (f : FrondId) (m : Mem) (e : Engine) (c : CtxId) (q : EngCmd) (l : List EngCmd) (s : State)
  (hslot : SlotOf (ownerSlot (engOwner e)) t f m s) (hruns : Runs t f c s) (hq : engQ (ctx s f c) e = q :: l)
  (hb : q.busy = none) (hp : q.poison = false) (hs : stopsHere (ctx s f c) = false) (hbuf : q.buf = none)
  (hc : ∀ lo hi, sbConflict (ctx s f c) (engOwner e) m lo hi false = false)
include hslot hruns hq hb hp hs hbuf hc

/-- A slot of a strided read before its last (R216). -/
theorem exec_stridedRead_early (a0 st : BitVec 16) (tag : TagKind) (hsrc : q.args.src = .strided m a0 st tag)
    (hg : q.slots + 1 < gatherSlots m ((stridedWords a0 st (engWords q.args)).map (·.toNat))) :
    ∃ o', exec (.stridedRead t f c e) s = .next (guarded s (setFrond (atTime s t) f (withCtx (slotTaken (atTime s t) m (frond s f)) c
      (setEngQ (ctx s f c) e ({ q with slots := q.slots + 1, blk := none } :: l))) o')) := by
  obtain ⟨o, ho⟩ := takeSlot_gathers t f c e q l m s hq (frond s f) rfl fun q => { q with slots := q.slots + 1 }
  rw [show setFrond (atTime s t) f (frond s f) s.obs = atTime s t from setFrond_self ..] at ho
  exact ⟨o, by rw [exec_stridedRead t f m e c q l s hslot hruns hq hb hp a0 st tag hs hbuf hsrc,
    stridedSlot_early (atTime s t) f c e q m a0 st tag hc hg, ho]⟩

/-- Its last slot, which reads its words (R216, R219). -/
theorem exec_stridedRead_last (a0 st : BitVec 16) (tag : TagKind) (hsrc : q.args.src = .strided m a0 st tag)
    (hg : ¬ q.slots + 1 < gatherSlots m ((stridedWords a0 st (engWords q.args)).map (·.toNat)))
    (ht : tagBlocks (frond s f) m (readKind tag) (linesOfWords ((stridedWords a0 st (engWords q.args)).map (·.toNat))) = none) :
    ∃ full sbmix o', (tagLines (frond s f) m (readKind tag) (linesOfWords ((stridedWords a0 st (engWords q.args)).map (·.toNat)))).full = full ∧
      exec (.stridedRead t f c e) s = .next (guarded s (setFrond (atTime s t) f
        (withCtx (carrying (atTime s t) m { frond s f with full := full, sbmix := sbmix }
          (.engRead c e (((stridedWords a0 st (engWords q.args)).map (·.toNat)).map fun w => rdWord s (padAddr f m w)) false)) c
          (setEngQ (ctx s f c) e ({ q with busy := some 0, blk := none } :: l))) o')) := by
  obtain ⟨full, sbmix, hlines⟩ := tagLines_only m (readKind tag)
    (linesOfWords ((stridedWords a0 st (engWords q.args)).map (·.toNat))) (frond s f)
  obtain ⟨o, ho⟩ := takeSlot_gathered t f c e q l m s hq { frond s f with full := full, sbmix := sbmix } rfl
    (((stridedWords a0 st (engWords q.args)).map (·.toNat)).map fun w => rdWord s (padAddr f m w))
  have hlast := stridedSlot_last (atTime s t) f c e q m a0 st tag (ecc_of_slotOf hslot) hc hg ht
  rw [frond_atTime, hlines] at hlast
  refine ⟨full, sbmix, o, congrArg Frond.full hlines, ?_⟩
  rw [exec_stridedRead t f m e c q l s hslot hruns hq hb hp a0 st tag hs hbuf hsrc, hlast]
  exact congrArg (fun x => Host.Outcome.next (guarded s x)) ho

variable (a0 : BitVec 16) (fmt : BitVec 2) (tag : TagKind) (fr : Frond) (hsrc : q.args.src = .transposed m a0 fmt tag)
  (ht : tagAccess (frond s f) m (a0.toNat / 32 * 32 + q.part.length) (readKind tag) = some fr)
include hsrc ht

/-- A slot of a transposed read before its last: it holds one more line (R217, R219). -/
theorem exec_transposedRead_more (hn : (q.part ++ padWords s f m (a0.toNat / 32 * 32 + q.part.length) 32).length < engWords q.args) :
    ∃ o', exec (.transposedRead t f c e) s = .next (guarded s (setFrond (atTime s t) f
      (withCtx (slotTaken (atTime s t) m { frond s f with full := fr.full, sbmix := fr.sbmix }) c (setEngQ (ctx s f c) e
        ({ q with slots := q.slots + 1, part := q.part ++ padWords s f m (a0.toNat / 32 * 32 + q.part.length) 32, blk := none } :: l))) o')) := by
  obtain ⟨o, ho⟩ := takeSlot_gathers t f c e q l m s hq { frond s f with full := fr.full, sbmix := fr.sbmix } rfl
    fun x => { x with slots := x.slots + 1, part := q.part ++ padWords s f m (a0.toNat / 32 * 32 + q.part.length) 32 }
  refine ⟨o, ?_⟩
  rw [exec_transposedRead t f m e c q l s hslot hruns hq hb hp a0 fmt tag hs hbuf hsrc,
    transposedSlot_clean (atTime s t) f c e q m a0 fmt tag fr (ecc_of_slotOf hslot) hc ht]
  exact congrArg (fun x => Host.Outcome.next (guarded s x)) ((congrArg (takeSlot · f m) (if_pos hn)).trans ho)

/-- Its last slot, which delivers the block by columns. -/
theorem exec_transposedRead_last (hn : ¬ (q.part ++ padWords s f m (a0.toNat / 32 * 32 + q.part.length) 32).length < engWords q.args) :
    ∃ o', exec (.transposedRead t f c e) s = .next (guarded s (setFrond (atTime s t) f
      (withCtx (carrying (atTime s t) m { frond s f with full := fr.full, sbmix := fr.sbmix } (.engRead c e
          (transposeWords (packOf false fmt) (q.part ++ padWords s f m (a0.toNat / 32 * 32 + q.part.length) 32)) false)) c
        (setEngQ (ctx s f c) e ({ q with busy := some 0, blk := none } :: l))) o')) := by
  obtain ⟨o, ho⟩ := takeSlot_gathered t f c e q l m s hq { frond s f with full := fr.full, sbmix := fr.sbmix } rfl
    (transposeWords (packOf false fmt) (q.part ++ padWords s f m (a0.toNat / 32 * 32 + q.part.length) 32))
  refine ⟨o, ?_⟩
  rw [exec_transposedRead t f m e c q l s hslot hruns hq hb hp a0 fmt tag hs hbuf hsrc,
    transposedSlot_clean (atTime s t) f c e q m a0 fmt tag fr (ecc_of_slotOf hslot) hc ht]
  exact congrArg (fun x => Host.Outcome.next (guarded s x)) ((congrArg (takeSlot · f m) (if_neg hn)).trans ho)

end

/-- Settles O38, from what an issue, a slot, a return and a port do with the first command of an engine. -/
theorem engineCommandsQueueMoveLinesAndRetire : Obligations.EngineCommandsQueueMoveLinesAndRetire := by
  unfold Obligations.EngineCommandsQueueMoveLinesAndRetire
  refine ⟨?issue, ?readSlot, ?readBack, ?writeSlot, ?written, ?strided, ?transposed, ?retire, ?portRead, ?portWrite⟩
  case issue =>
    intro k a i e c s hi hci hsrc hdst hst hsb hn
    simp only [Completes, exec_engCommand k a i e s hi]
    exact ⟨crumb_engCommand_readsHere k a e c s hsrc hdst hci hst hsb hn,
      fun b tag p hq ha hp => crumb_engCommand_sends k a e c s hsrc hdst hci hst hsb hq hn b tag p ha hp,
      crumb_engCommand_behind k a e c s hsrc hdst hci hst hsb, crumb_engCommand_held k a e c s hsrc hdst hci⟩
  case readSlot =>
    intro t f m e c q l b tag w fr s hslot hruns hq hs hb hp hbuf hsrc hpl hc ht
    obtain ⟨o, h⟩ := exec_slot_engRead t f m e c q l s hslot hruns hq hb hp b tag w fr hs hbuf hsrc hpl hc ht
    refine ⟨_, h, ctx_setFrond_withCtx .., fun d hd => ctx_setFrond_withCtx_ne rfl hd, ?_, rfl,
      onlyFrondAndMemory_setFrond rfl⟩
    rw [frond_guarded, frond_setFrond]; rfl
  case readBack =>
    intro t f c e q l ws at0 s hm hf ha hq hd
    have h := exec_scratchpadAccessDone t f at0 _ s hm hf ha
    rw [flightDone, engGot_writesHere (atTime s t) f { frond s f with flight := [] } s.obs c e q l hq ws hd] at h
    refine ⟨_, h, ctx_setFrond_withCtx .., ?_, fun d hd => ctx_setFrond_withCtx_ne rfl hd, rfl,
      onlyFrondAndMemory_setFrond rfl⟩
    rw [frond_guarded, frond_setFrond]; rfl
  case writeSlot =>
    intro t f m e c q l ws b tag w fr s hslot hruns hq hb hp hbuf hdst hpl hc ht
    obtain ⟨o, wb, h⟩ := exec_slot_engWrite t f m e c q l s hslot hruns hq hb hp ws b tag w fr hbuf hdst hpl hc ht
    have hlen : (ws.take (min ws.length (32 - w % 32))).length = min ws.length (32 - w % 32) := by simp
    have hwr := padWords_written s (atTime s t) f m w (ws.take (min ws.length (32 - w % 32)))
      (withCtx (carrying (atTime s t) m { frond s f with full := fr.full, sbmix := fr.sbmix, wback := wb }
          (.engAck c e (min ws.length (32 - w % 32)))) c (setEngQ (ctx s f c) e ({ q with busy := some 0, blk := none } :: l))) o rfl
    rw [hlen] at hwr
    refine ⟨_, h, ⟨hwr.1, hwr.2, ?_⟩, ctx_setFrond_withCtx .., ?_, fun d hd => ctx_setFrond_withCtx_ne rfl hd,
      onlyFrondAndMemory_setFrond (wrWords_only ..)⟩
    · rw [frond_guarded, frond_setFrond]; rfl
    · rw [frond_guarded, frond_setFrond]; rfl
  case written =>
    intro t f c e q n at0 s hm hf ha hq hn
    have h := exec_scratchpadAccessDone t f at0 _ s hm hf ha
    obtain ⟨fb, o, hmoved, hfb⟩ := engMoved_last (atTime s t) f { frond s f with flight := [] } s.obs c e q [] hq n hn
    rw [flightDone, hmoved, engKicks_ended] at h
    refine ⟨_, h, ctx_setFrond_withCtx .., ?_, fun d hd => ctx_setFrond_withCtx_ne rfl hd, fun g hg => ?_, rfl, hfb⟩
    · rw [frond_guarded, frond_setFrond]; rfl
    · rw [frond_guarded, frond_setFrond_ne _ _ _ _ _ hg]; rfl
  case strided =>
    intro t f c e q l m a0 st tag s hslot hruns hq hs hb hp hbuf hsrc hc htag
    by_cases hg : q.slots + 1 < gatherSlots m ((stridedWords a0 st (engWords q.args)).map (·.toNat))
    · obtain ⟨o, h⟩ := exec_stridedRead_early t f m e c q l s hslot hruns hq hb hp hs hbuf hc a0 st tag hsrc hg
      refine ⟨_, h, ?_, rfl, fun d hd => ctx_setFrond_withCtx_ne rfl hd, onlyFrondAndMemory_setFrond rfl⟩
      dsimp only
      rw [if_pos hg, frond_guarded, frond_setFrond]
      exact ⟨ctx_setFrond_withCtx .., rfl, rfl⟩
    · obtain ⟨full, sbmix, o, hfull, h⟩ := exec_stridedRead_last t f m e c q l s hslot hruns hq hb hp hs hbuf hc a0 st tag hsrc hg
        (htag.resolve_left hg)
      refine ⟨_, h, ?_, rfl, fun d hd => ctx_setFrond_withCtx_ne rfl hd, onlyFrondAndMemory_setFrond rfl⟩
      dsimp only
      rw [if_neg hg, frond_guarded, frond_setFrond]
      exact ⟨ctx_setFrond_withCtx .., rfl, hfull.symm⟩
  case transposed =>
    intro t f c e q l m a0 fmt tag fr s hslot hruns hq hs hb hp hbuf hsrc hc htag
    by_cases hn : (q.part ++ padWords s f m (a0.toNat / 32 * 32 + q.part.length) 32).length < engWords q.args
    · obtain ⟨o, h⟩ := exec_transposedRead_more t f m e c q l s hslot hruns hq hb hp hs hbuf hc a0 fmt tag fr hsrc htag hn
      refine ⟨_, h, ?_, ?_, rfl, fun d hd => ctx_setFrond_withCtx_ne rfl hd, onlyFrondAndMemory_setFrond rfl⟩
      · dsimp only
        rw [if_pos hn, frond_guarded, frond_setFrond]
        exact ⟨ctx_setFrond_withCtx .., rfl⟩
      · rw [frond_guarded, frond_setFrond]; rfl
    · obtain ⟨o, h⟩ := exec_transposedRead_last t f m e c q l s hslot hruns hq hb hp hs hbuf hc a0 fmt tag fr hsrc htag hn
      refine ⟨_, h, ?_, ?_, rfl, fun d hd => ctx_setFrond_withCtx_ne rfl hd, onlyFrondAndMemory_setFrond rfl⟩
      · dsimp only
        rw [if_neg hn, frond_guarded, frond_setFrond]
        exact ⟨ctx_setFrond_withCtx .., rfl⟩
      · rw [frond_guarded, frond_setFrond]; rfl
  case retire =>
    intro t f c i s hm
    have h := exec_rangeRetire t f c i s hm
    by_cases hheld : rangeHeld (heldAt s t f) c i.val = true
    · rw [if_pos hheld] at h
      have hctx : ∀ d, ctx (guarded s (setFrond (atTime s t) f (heldAt s t f) s.obs)) f d = ctx s f d := fun d => ctx_setFrond ..
      refine ⟨_, h, ?_, fun j _ => ?_, ?_, fun d _ => hctx d, fun g hg => ?_, rfl⟩
      · rw [hctx]; exact (if_pos hheld).symm ▸ rfl
      · rw [hctx]
      · rw [hctx]
      · rw [frond_guarded, frond_setFrond_ne _ _ _ _ _ hg]; rfl
    · rw [if_neg hheld] at h
      refine ⟨_, h, ?_, fun j hj => ?_, ?_, fun d hd => ctx_setFrond_withCtx_ne rfl hd, fun g hg => ?_, rfl⟩
      · rw [ctx_setFrond_withCtx]; exact (if_neg hheld).symm ▸ (vset_get ..).trans (if_pos rfl)
      · rw [ctx_setFrond_withCtx]; exact (vset_get ..).trans (if_neg hj)
      · rw [ctx_setFrond_withCtx]
      · rw [frond_guarded, frond_setFrond_ne _ _ _ _ _ hg]; rfl
  case portRead =>
    intro t port f c e a n q l z ref rest s hserve hq hb hd
    have hecc : s.ecc = [] := ecc_of_portServes hserve
    obtain ⟨fb, hsv, -⟩ := served_only (atTime s t) (ssPortNo port) ref rest
    have h := exec_ssLineAccess t port z ref rest _ s hserve
    rw [hsv, ssPerform_engRead { atTime s t with fabric := fb } f c e a n q l ref hecc hq hb (.inr hd)] at h
    refine ⟨_, h, ctx_setFrond_withCtx .., rfl, fun d hd => ctx_setFrond_withCtx_ne rfl hd, fun g hg => ?_⟩
    rw [frond_guarded, frond_setFrond_ne _ _ _ _ _ hg]; rfl
  case portWrite =>
    intro t port f c e a ws o j q z ref rest s hserve hq hb hn hh hj
    obtain ⟨fb, hsv, -⟩ := served_only (atTime s t) (ssPortNo port) ref rest
    have h := exec_ssLineAccess t port z ref rest _ s hserve
    obtain ⟨jobs, fb', o', hperf, hout⟩ := ssPerform_engWrite { atTime s t with fabric := fb } f c e a ws o j q ref hq hb hn hh hj
    rw [hsv, hperf] at h
    refine ⟨_, h, ?_, fun x hx => ?_, ctx_setFrond_withCtx .., hout, fun d hd => ctx_setFrond_withCtx_ne rfl hd,
      fun g hg => ?_⟩
    · exact rdWords_wrWords { atTime s t with fabric := fb } a ws
    · exact cellGet_wrWords_out { atTime s t with fabric := fb } a x ws hx
    · rw [frond_guarded, frond_setFrond_ne _ _ _ _ _ hg, wrWords_only]; rfl

end Sys2Proof.Proofs
end

section
/-!
PROOFS. A register claimed for what an access brings back (R305, log entry 28): the normal form of `claim`, and an instruction that
claims a register and takes effect.
-/
namespace Sys2Proof.Proofs
open Sys2Proof.Machine Sys2Proof.Safety Sys2Proof.Laws

/-- A unit's operation that writes a register of a context no more. -/
def withoutOut (c : CtxId) (r : Reg) (u : UnitOp) : UnitOp := if u.ctx = c then { u with outs := u.outs.filter (·.1 != r) } else u

@[simp] theorem withoutOut_trap (c : CtxId) (r : Reg) (u : UnitOp) : (withoutOut c r u).trap = u.trap := by
  unfold withoutOut; split <;> rfl

/-- A Frond whose units and accesses on their way back write a register of a context no more. -/
def withoutWriter (fr : Frond) (c : CtxId) (r : Reg) : Frond := { fr with
  mul := fr.mul.map (withoutOut c r), div := fr.div.map (withoutOut c r)
  flight := fr.flight.map fun p => match p.2 with
    | .load d rd x => (p.1, .load d (if d = c ∧ rd = some r then none else rd) x)
    | _ => p }

theorem trapPending_withoutWriter (fr : Frond) (c : CtxId) (r : Reg) : trapPending (withoutWriter fr c r) = trapPending fr := by
  unfold trapPending withoutWriter
  cases fr.mul <;> cases fr.div <;> simp

section
variable (s : State) (f : FrondId) (c : CtxId) (r : Reg)

/-- A context that awaits no load loses nothing of its own when it claims a register. -/
theorem claim_setFrond (fr : Frond) (o : Obs) (h : (fr.ctxs.get c).load = none) :
    claim (setFrond s f fr o) f c r = setFrond s f (withoutWriter fr c r) o := by
  have hself : ∀ g : LoadWait → LoadWait, vmod fr.ctxs c (fun x => { x with load := x.load.map g }) = fr.ctxs := by
    intro g
    have hx : ({ fr.ctxs.get c with load := (fr.ctxs.get c).load.map g } : Ctx) = fr.ctxs.get c := by rw [h, Option.map_none, ← h]
    exact (congrArg (vset fr.ctxs c) hx).trans (vset_get_self ..)
  exact (modFrond_setFrond ..).trans (congrArg (fun v => setFrond s f { withoutWriter fr c r with ctxs := v } o) (hself _))

theorem withoutWriter_withCtx (fr : Frond) (d : CtxId) (x : Ctx) :
    withoutWriter (withCtx fr d x) c r = withCtx (withoutWriter fr c r) d x := rfl

variable (h : (ctx s f c).load = none)
include h

theorem claim_eq : claim s f c r = setFrond s f (withoutWriter (frond s f) c r) s.obs := by
  have heq := claim_setFrond s f c r (frond s f) s.obs h
  rwa [setFrond_self] at heq

theorem ctx_claim (g : FrondId) (d : CtxId) : ctx (claim s f c r) g d = ctx s g d := by
  rw [claim_eq s f c r h]
  by_cases hg : f = g
  · subst hg; rw [ctx_setFrond]; rfl
  · exact congrArg (fun fr : Frond => fr.ctxs.get d) (frond_setFrond_ne s f _ _ g hg)

theorem frond_claim : frond (claim s f c r) f = withoutWriter (frond s f) c r := by
  rw [claim_eq s f c r h, frond_setFrond]

end

section
variable (k : Issue) (regs : List Reg) (s : State) (c : CtxId) (rd : Reg) (hl : (ctx s k.f c).load = none)
include hl

/-- What an instruction writes of its Frond stands where the claim stood. -/
theorem setFrond_issueBase_claim (n free : Nat) (fb : Fabric) (fr : Frond) (o : Obs) :
    setFrond (issueBase (claim s k.f c rd) k n free fb) k.f fr o = setFrond (issueBase s k n free fb) k.f fr o := by
  rw [claim_eq s k.f c rd hl]
  exact setFrond_setFrond (issueBase s k n free fb) k.f _ _ fr o

theorem mayIssue_claim : mayIssue (atTime (claim s k.f c rd) k.t) k c = mayIssue (atTime s k.t) k c := by
  have hfr : frond (atTime (claim s k.f c rd) k.t) k.f = withoutWriter (frond s k.f) c rd := frond_claim s k.f c rd hl
  have hctx : ∀ g d, ctx (atTime (claim s k.f c rd) k.t) g d = ctx (atTime s k.t) g d := ctx_claim s k.f c rd hl
  have hact : actionPending (atTime (claim s k.f c rd) k.t) k.f c = actionPending (atTime s k.t) k.f c := by
    simp only [actionPending, ctxJob, ctxsOf, hctx]
    rfl
  simp only [mayIssue, hfr, hact, trapPending_withoutWriter]
  rfl

theorem canIssue_claim (h : CanIssue k regs s c) : CanIssue k [] (claim s k.f c rd) c := by
  obtain ⟨htest, hrun, hmay, -, hfetch, hmark⟩ := h
  have hfr := frond_claim s k.f c rd hl
  refine ⟨htest, ?_, (mayIssue_claim k s c rd hl).trans hmay, rfl, by rw [hfr]; exact hfetch, hmark⟩
  rw [runningCtx_iff] at hrun ⊢
  rw [hfr, ctx_claim s k.f c rd hl]
  exact hrun

/-- An instruction that claims a register, changes its context and sends something on takes effect as one of the state with the register claimed. -/
theorem crumb_done_claims (body : CtxId → State → Issued) (n free : Nat) (fb : Fabric) (o : Obs) (x : Ctx) (h : CanIssue k regs s c)
    (hb : body c (modCtx (atTime s k.t) k.f c fun x => { x with atCheap := none }) =
      .done (setFrond (issueBase (claim s k.f c rd) k n free fb) k.f (withCtx (frond (claim s k.f c rd) k.f) c { x with atCheap := none }) o)) :
    ∃ o' b, crumb k regs s body = .next (guarded (claim s k.f c rd) (setFrond (issueBase (claim s k.f c rd) k n free fb) k.f
      (steppedFrond (claim s k.f c rd) k c x b) o')) := by
  have h' := canIssue_claim k regs s c rd hl h
  obtain ⟨o', b, hdone⟩ := crumb_done k (claim s k.f c rd) c
    (fun _ _ => .done (setFrond (issueBase (claim s k.f c rd) k n free fb) k.f (withCtx (frond (claim s k.f c rd) k.f) c { x with atCheap := none }) o))
    n free fb o x h' rfl
  rw [issue_runs k [] _ c _ h'] at hdone
  refine ⟨o', b, ?_⟩
  rw [issue_runs k regs s c body h, hb]
  exact hdone

end

end Sys2Proof.Proofs
end

section
/-!
PROOFS. Fences and atomics at their issue: what passes, what waits, and what an atomic sends (R304, R305).
-/
namespace Sys2Proof.Proofs
open Sys2Proof.Machine Sys2Proof.Safety Sys2Proof.Laws

/-! ### Fences (R304) -/

theorem ctx_body (k : Issue) (c : CtxId) (s : State) :
    ctx (modCtx (atTime s k.t) k.f c fun x => { x with atCheap := none }) k.f c = bodyCtx s k.f c := by
  rw [body_state, ctx_setFrond, withCtx_get, if_pos rfl]

section
variable (k : Issue) (c : CtxId) (s : State) (ok : Ctx → Bool) (hci : CanIssue k [] s c)
include hci

theorem fence_passes (hok : ok (bodyCtx s k.f c) = true) : ∃ s', fence k ok s = .next s' ∧ Steps false k c (ctx s k.f c) s s' := by
  obtain ⟨o, b, h⟩ := crumb_done k s c (fun c s => if ok (ctx s k.f c) then .done s else .held s) s.nextId s.freeCtr s.fabric s.obs
    (ctx s k.f c) hci (by rw [ctx_body, hok]; rfl)
  obtain ⟨hctx, ⟨hfronds, -⟩, hin⟩ := steps_stepped s k c (ctx s k.f c) b s.freeCtr s.fabric o
  exact ⟨_, h, hctx, ⟨hfronds, rfl⟩, hin⟩

/-- An instruction that waits as it stood uses its issue slot alone. -/
theorem crumb_held (body : CtxId → State → Issued) (hb : body c (modCtx (atTime s k.t) k.f c fun x => { x with atCheap := none }) =
      .held (modCtx (atTime s k.t) k.f c fun x => { x with atCheap := none })) :
    ∃ s', crumb k [] s body = .next s' ∧ HeldForSlot k c (ctx s k.f c) s s' := by
  have hheld : crumb k [] s body = .next (guarded s (setFrond (atTime s k.t) k.f
      { withCtx (frond s k.f) c (ctx s k.f c) with issueAt := issuedAt k s + tFC s } s.obs)) := by
    rw [issue_runs k [] s c body hci, hb, body_state]
    refine congrArg (fun x => Host.Outcome.next (guarded s x)) ?_
    dsimp only
    rw [modCtx_setFrond, withCtx_withCtx, withCtx_get, if_pos rfl, useFc, modFrond_setFrond]
    rfl
  refine ⟨_, hheld, ?_, fun d hd => ?_, fun f hf => ?_, ?_, rfl⟩
  · rw [ctx_guarded, ctx_setFrond]; exact (withCtx_get ..).trans (if_pos rfl)
  · rw [ctx_guarded, ctx_setFrond]; exact (withCtx_get ..).trans (if_neg hd)
  · rw [frond_guarded, frond_setFrond_ne _ _ _ _ _ hf]; rfl
  · rw [frond_guarded, frond_setFrond]; rfl

theorem fence_waits (hok : ok (bodyCtx s k.f c) = false) : ∃ s', fence k ok s = .next s' ∧ HeldForSlot k c (ctx s k.f c) s s' :=
  crumb_held k c s hci (fun c s => if ok (ctx s k.f c) then .done s else .held s) (by rw [ctx_body, hok]; rfl)

end

/-! ### An atomic asks its port (R305) -/

theorem exec_amo (k : Issue) (i : Instr) (op : AmoOp) (rd : Reg) (addr : Addr) (x y : Reg) (s : State)
    (hi : i = .amoswap k rd addr x ∧ op = .swap ∧ y = x ∨ i = .amoadd k rd addr x ∧ op = .add ∧ y = x ∨ i = .amocas k rd addr x y ∧ op = .cas) :
    ∃ regs, (∀ r, r ∈ regs ↔ r ∈ [x, y]) ∧ exec i s = crumb k regs s (amo k op rd addr x y) := by
  rcases hi with ⟨rfl, rfl, rfl⟩ | ⟨rfl, rfl, rfl⟩ | ⟨rfl, rfl⟩
  · exact ⟨_, by simp, rfl⟩
  · exact ⟨_, by simp, rfl⟩
  · exact ⟨_, fun _ => Iff.rfl, rfl⟩

/-- Which registers an instruction reads counts, not how often it names them. -/
theorem canIssue_of_mem_iff (k : Issue) (regs regs' : List Reg) (s : State) (c : CtxId) (hr : ∀ r, r ∈ regs ↔ r ∈ regs')
    (h : CanIssue k regs' s c) : CanIssue k regs s c := by
  obtain ⟨htest, hrun, hmay, hbusy, hrest⟩ := h
  refine ⟨htest, hrun, hmay, ?_, hrest⟩
  rw [List.any_eq_false] at hbusy ⊢
  exact fun r hm => hbusy r ((hr r).mp hm)

section
variable (k : Issue) (op : AmoOp) (rd : Reg) (addr : Addr) (x y : Reg) (a : Nat)

variable (ha : inImage a 4 = true) (hlt : addr.toNat < 0x8000000000)
include ha hlt

theorem amo_setFrond (c : CtxId) (b : State) (fr : Frond) (o : Obs) (hp : placeOf b k.f addr.toNat = .shared a)
    (hst : (fr.ctxs.get c).store = []) (hl : (fr.ctxs.get c).load = none) : amo k op rd addr x y c (setFrond b k.f fr o) =
    .done (setFrond (withXfer b (frondReq k.f) (((fr.ctxs.get c).job.bind (jobOf b)).map (·.part))
        (.amo k.f c b.nextId a op ((fr.ctxs.get c).g.get x) ((fr.ctxs.get c).g.get y))) k.f
      (withCtx (withoutWriter fr c rd) c { fr.ctxs.get c with
        load := some { home := .shared, addr := a, rd := some rd, id := b.nextId, amo := true } }) o) := by
  have hp' : placeOf (setFrond b k.f fr o) k.f addr.toNat = .shared a := hp
  have hhere : decide (0x8000000000 ≤ addr.toNat) = false := decide_eq_false (Nat.not_le.mpr hlt)
  have hsent : ∀ part : Option PartId, ∀ g, (putXfer (setFrond b k.f fr o) (frondReq k.f) part g).2 =
      setFrond (withXfer b (frondReq k.f) part (g b.nextId)) k.f fr o := fun _ _ => rfl
  have hatt : ctxAtt (setFrond b k.f fr o) k.f c = ((fr.ctxs.get c).job.bind (jobOf b)).map (·.part) := by
    rw [ctxAtt, ctxJob, ctx_setFrond]; rfl
  have hready : (!storesVisible (fr.ctxs.get c) || (fr.ctxs.get c).load.isSome) = false := by simp [storesVisible, hst, hl]
  simp only [amo, hp', ha, hhere, hready, ctx_setFrond, hsent, hatt, regVal, claim_setFrond _ k.f c rd fr o hl, modCtx_setFrond,
    Bool.not_true, Bool.or_self, Bool.false_eq_true, if_false]
  rfl

/-- An atomic takes effect: it is put before its port, and its context awaits the old word. -/
theorem amo_sends (regs : List Reg) (c : CtxId) (s : State) (hci : CanIssue k regs s c) (hp : placeOf s k.f addr.toNat = .shared a)
    (hst : (ctx s k.f c).store = []) (hl : (ctx s k.f c).load = none) :
    ∃ s', crumb k regs s (amo k op rd addr x y) = .next s' ∧
      StepsSending k c { ctx s k.f c with load := some { home := .shared, addr := a, rd := some rd, id := s.nextId, amo := true } }
        (claim s k.f c rd) s' ∧
      s'.fabric = { s.fabric with xfers := s.fabric.xfers ++
        [{ id := s.nextId, req := frondReq k.f, part := ctxAtt s k.f c, x := .amo k.f c s.nextId a op (regVal s k.f c x) (regVal s k.f c y) }] } ∧
      s'.nextId = s.nextId + 1 ∧ s'.links = s.links ∧ s'.tree = s.tree := by
  have hget : (withCtx (frond s k.f) c (bodyCtx s k.f c)).ctxs.get c = bodyCtx s k.f c := (withCtx_get ..).trans (if_pos rfl)
  have hsend := amo_setFrond k op rd addr x y a ha hlt c (atTime s k.t) (withCtx (frond s k.f) c (bodyCtx s k.f c)) s.obs hp
    (by rw [hget]; exact hst) (by rw [hget]; exact hl)
  rw [hget, withoutWriter_withCtx, withCtx_withCtx, ← frond_claim s k.f c rd hl] at hsend
  obtain ⟨o, b, h⟩ := crumb_done_claims k regs s c rd hl (amo k op rd addr x y) (s.nextId + 1) s.freeCtr
    { s.fabric with xfers := s.fabric.xfers ++
      [{ id := s.nextId, req := frondReq k.f, part := ctxAtt s k.f c, x := .amo k.f c s.nextId a op (regVal s k.f c x) (regVal s k.f c y) }] }
    s.obs { ctx s k.f c with load := some { home := .shared, addr := a, rd := some rd, id := s.nextId, amo := true } } hci
    (by rw [body_state, hsend, setFrond_issueBase_claim k s c rd hl]; rfl)
  exact ⟨_, h, stepsSending_stepped .., rfl, rfl, congrArg (·.links) (claim_eq s k.f c rd hl), congrArg (·.tree) (claim_eq s k.f c rd hl)⟩

end

end Sys2Proof.Proofs
end

section
/-!
PROOFS. Stores and atomics at the port that performs them (R141, R305), and the statement about fences and atomics.
-/
namespace Sys2Proof.Proofs
open Sys2Proof.Machine Sys2Proof.Safety Sys2Proof.Laws

/-! ### One word of a program at its port -/

/-- A word for the header of a state block is discarded (R141). -/
theorem progStore_header (s : State) (a : Nat) (w : Word) (h : inHeader s a = true) : progStore s a [w] = s := by
  simp [progStore, upto, h]

/-- Any other word is stored; the transfers are as before (R141). -/
theorem progStore_word (s : State) (a : Nat) (w : Word) (h : inHeader s a = false) :
    ∃ fb, progStore s a [w] = { wrWord s a w with fabric := fb } ∧ fb.xfers = s.fabric.xfers := by
  have hone : progStore s a [w] = ssStore s a [w] := by simp [progStore, upto, wordAt, h]
  exact ⟨_, hone, rfl⟩

/-- A load's word comes back to the context that awaits it. -/
theorem loadBack_setFrond (s : State) (f : FrondId) (c : CtxId) (l : LoadWait) (d : Reg) (v : Word) (hl : (ctx s f c).load = some l)
    (hd : l.rd = some d) : loadBack s f c l.id v false =
      setFrond s f (withCtx (frond s f) c { ctx s f c with load := none, g := vset (ctx s f c).g d v }) s.obs := by
  have hnone : modCtx s f c (fun x => { x with load := none }) =
      setFrond s f (withCtx (frond s f) c { ctx s f c with load := none }) s.obs := rfl
  simp only [loadBack, hl, hd, bne_self_eq_false, Bool.false_eq_true, if_false, hnone, setReg, modCtx_setFrond, withCtx_get, if_true,
    withCtx_withCtx]

/-- A store buffer whose sent entry of a number is done. -/
def storedIn (l : List StoreEnt) (i : Nat) : List StoreEnt := l.map fun e => if e.sent = true ∧ e.id = i then { e with done := true } else e

theorem storeDone_setFrond (s : State) (f : FrondId) (c : CtxId) (i : Nat) :
    storeDone s f c i = setFrond s f (withCtx (frond s f) c { ctx s f c with store := storedIn (ctx s f c).store i }) s.obs := by
  have hmap : ((ctx s f c).store.map fun e => if e.sent && e.id == i then { e with done := true } else e) = storedIn (ctx s f c).store i := by
    simp [storedIn]
  rw [← hmap]
  rfl

section
variable (s : State) (f : FrondId) (c : CtxId) (i a id : Nat) (h : inHeader s a = false)
include h

theorem ssPerform_store (v : Word) : ∃ fb, fb.xfers = s.fabric.xfers ∧ ssPerform s id (.store f c i a v) =
    setFrond { wrWord s a v with fabric := fb } f (withCtx (frond s f) c { ctx s f c with store := storedIn (ctx s f c).store i }) s.obs := by
  obtain ⟨fb, hst, hx⟩ := progStore_word s a v h
  refine ⟨fb, hx, ?_⟩
  rw [ssPerform, hst, storeDone_setFrond]
  rfl

/-- An atomic at its port: the old word goes to the register, the new one to memory (R305). -/
theorem ssPerform_amo (op : AmoOp) (u v : Word) (l : LoadWait) (d : Reg) (he : s.ecc = []) (hl : (ctx s f c).load = some l) (hd : l.rd = some d) :
    ∃ fb, fb.xfers = s.fabric.xfers ∧ ssPerform s id (.amo f c l.id a op u v) =
      setFrond { wrWord s a (amoWord op (rdWord s a) u v) with fabric := fb } f
        (withCtx (frond s f) c { ctx s f c with load := none, g := vset (ctx s f c).g d (rdWord s a) }) s.obs := by
  obtain ⟨fb, hst, hx⟩ := progStore_word s a (amoWord op (rdWord s a) u v) h
  refine ⟨fb, hx, ?_⟩
  rw [ssPerform, ssCheck_clean s he]
  simp only [Bool.false_eq_true, if_false]
  rw [hst]
  exact loadBack_setFrond { wrWord s a (amoWord op (rdWord s a) u v) with fabric := fb } f c l d _ hl hd

end

/-! ### A port that writes one word for a context -/

/-- The state behind a port's write of a word at `a` for a context, which is `x` behind it. -/
def portWrote (t : Time) (f : FrondId) (c : CtxId) (s : State) (a : Nat) (w : Word) (x : Ctx) (fb : Fabric) : State :=
  guarded s (setFrond { wrWord (atTime s t) a w with fabric := fb } f (withCtx (frond s f) c x) s.obs)

section
variable {t : Time} {f : FrondId} {c : CtxId} {s : State} {a : Nat} {w : Word} {x : Ctx} {fb : Fabric}

theorem rdWord_portWrote : rdWord (portWrote t f c s a w x fb) a = w := rdWord_wrWord (atTime s t) a w
theorem onlyBytes_portWrote : OnlyBytes a (a + 4) s (portWrote t f c s a w x fb) := fun y hy => cellGet_wrWord_out (atTime s t) a y w hy
theorem ctx_portWrote : ctx (portWrote t f c s a w x fb) f c = x := ctx_setFrond_withCtx ..
theorem ctx_portWrote_ne : ∀ d, c ≠ d → ctx (portWrote t f c s a w x fb) f d = ctx s f d := fun _ hd => ctx_setFrond_withCtx_ne rfl hd
theorem frond_portWrote_ne : ∀ h, f ≠ h → frond (portWrote t f c s a w x fb) h = frond s h := by
  intro h hh
  rw [portWrote, frond_guarded, frond_setFrond_ne _ _ _ _ _ hh]; rfl
theorem portWrote_only : portWrote t f c s a w x fb = { s with
    now := max s.now t, mem := (portWrote t f c s a w x fb).mem, ecc := (portWrote t f c s a w x fb).ecc
    fronds := (portWrote t f c s a w x fb).fronds, fabric := (portWrote t f c s a w x fb).fabric } := rfl

end

section
variable (t : Time) (port : Fin 16) (f : FrondId) (c : CtxId) (i a z ref : Nat) (rest : List (Nat × Nat)) (s : State)

theorem exec_portStore (v : Word) (hserve : PortServes t port z ref rest (.store f c i a v) s) (h : inHeader s a = false) :
    ∃ fb, fb.xfers = s.fabric.xfers.filter (·.id != ref) ∧ exec (.ssLineAccess t port []) s =
      .next (portWrote t f c s a v { ctx s f c with store := storedIn (ctx s f c).store i } fb) := by
  obtain ⟨fb, hserved, -, hx, -⟩ := served_only (atTime s t) (ssPortNo port) ref rest
  obtain ⟨fb', hx', hperf⟩ := ssPerform_store { atTime s t with fabric := fb } f c i a ref h v
  exact ⟨fb', hx'.trans hx, by rw [exec_ssLineAccess t port z ref rest _ s hserve, hserved, hperf]; rfl⟩

theorem exec_portStore_header (v : Word) (hserve : PortServes t port z ref rest (.store f c i a v) s) (h : inHeader s a = true) :
    ∃ fb, exec (.ssLineAccess t port []) s = .next (guarded s (setFrond { atTime s t with fabric := fb } f
      (withCtx (frond s f) c { ctx s f c with store := storedIn (ctx s f c).store i }) s.obs)) := by
  obtain ⟨fb, hserved, -⟩ := served_only (atTime s t) (ssPortNo port) ref rest
  refine ⟨fb, ?_⟩
  rw [exec_ssLineAccess t port z ref rest _ s hserve, hserved, ssPerform, progStore_header { atTime s t with fabric := fb } a v h, storeDone_setFrond]
  rfl

theorem exec_portAmo (op : AmoOp) (u v : Word) (l : LoadWait) (d : Reg) (hserve : PortServes t port z ref rest (.amo f c i a op u v) s)
    (h : inHeader s a = false) (hl : (ctx s f c).load = some l) (hi : l.id = i) (hd : l.rd = some d) :
    ∃ fb, fb.xfers = s.fabric.xfers.filter (·.id != ref) ∧ exec (.ssLineAccess t port []) s =
      .next (portWrote t f c s a (amoWord op (rdWord s a) u v)
        { ctx s f c with load := none, g := vset (ctx s f c).g d (rdWord s a) } fb) := by
  subst hi
  obtain ⟨fb, hserved, -, hx, -⟩ := served_only (atTime s t) (ssPortNo port) ref rest
  obtain ⟨fb', hx', hperf⟩ := ssPerform_amo { atTime s t with fabric := fb } f c a ref h op u v l d (ecc_of_portServes hserve :) hl hd
  exact ⟨fb', hx'.trans hx, by rw [exec_ssLineAccess t port z ref rest _ s hserve, hserved, hperf]; rfl⟩

end

/-- Settles O36, from what a fence or an atomic does at its issue and what the port does with a store or an atomic. -/
theorem fencesWaitAndAtomicsAreOneAccess : Obligations.FencesWaitAndAtomicsAreOneAccess := by
  unfold Obligations.FencesWaitAndAtomicsAreOneAccess
  refine ⟨?passes, ?waits, ?asks, ?amo, ?discards, ?store⟩
  case passes =>
    rintro k i c s hci (⟨rfl, hst⟩ | ⟨rfl, heng⟩ | ⟨rfl, hst, heng⟩)
    · exact fence_passes k c s storesVisible hci (List.isEmpty_iff.mpr hst)
    · exact fence_passes k c s enginesRetired hci heng
    · exact fence_passes k c s (fun x => storesVisible x && enginesRetired x) hci (Bool.and_eq_true_iff.mpr ⟨List.isEmpty_iff.mpr hst, heng⟩)
  case waits =>
    have hbusy : ∀ x : Ctx, x.store ≠ [] → storesVisible x = false := fun x h => by simpa [storesVisible] using h
    rintro k i c s hci (⟨rfl | rfl, hst⟩ | ⟨rfl | rfl, heng⟩)
    · exact fence_waits k c s storesVisible hci (hbusy (bodyCtx s k.f c) hst)
    · exact fence_waits k c s (fun x => storesVisible x && enginesRetired x) hci (Bool.and_eq_false_iff.mpr (.inl (hbusy (bodyCtx s k.f c) hst)))
    · exact fence_waits k c s enginesRetired hci heng
    · exact fence_waits k c s (fun x => storesVisible x && enginesRetired x) hci (Bool.and_eq_false_iff.mpr (.inr heng))
  case asks =>
    intro k i op rd addr x y a c s hi hci hp ha hlt hst hl
    obtain ⟨regs, hregs, hexec⟩ := exec_amo k i op rd addr x y s hi
    rw [Completes, hexec]
    exact amo_sends k op rd addr x y a ha hlt regs c s (canIssue_of_mem_iff k regs [x, y] s c hregs hci) hp hst hl
  case amo =>
    intro t port f c i a op u v l d q ref rest s hserve hh hl hi hd
    obtain ⟨fb, hx, h⟩ := exec_portAmo t port f c i a q ref rest s op u v l d hserve hh hl hi hd
    refine ⟨_, h, ⟨?_, ctx_portWrote⟩, onlyBytes_portWrote, hx, ctx_portWrote_ne, frond_portWrote_ne, portWrote_only⟩
    rw [rdWord_portWrote]
    cases op <;> rfl
  case discards =>
    intro t port f c i a v q ref rest s hserve hh
    obtain ⟨fb, h⟩ := exec_portStore_header t port f c i a q ref rest s v hserve hh
    exact ⟨_, h, rfl, congrArg (·.store) (ctx_setFrond_withCtx ..)⟩
  case store =>
    intro t port f c i a v q ref rest s hserve hh
    obtain ⟨fb, hx, h⟩ := exec_portStore t port f c i a q ref rest s v hserve hh
    exact ⟨_, h, rdWord_portWrote, onlyBytes_portWrote, congrArg (·.store) (ctx_portWrote), hx, ctx_portWrote_ne,
      frond_portWrote_ne, portWrote_only⟩

end Sys2Proof.Proofs
end

section
/-!
PROOFS. The end of the boot: the firmware's start, the program-set digest, the lock sequence, and the priming of the CACHE 1 pairs
that ends in READY (R169, R271, R273, R376, R379).
-/
namespace Sys2Proof.Proofs
open Sys2Proof.Machine Sys2Proof.Safety Sys2Proof.Laws

/-! ### The fabric at the lock (R269, R271, R273) -/

section
variable (f : Fabric) (m : BitVec 2) (xc : Nat)

@[simp] theorem setMode_mode : (setMode f m).mode = m := by
  unfold setMode
  split
  · exact Eq.symm ‹_›
  · rfl

@[simp] theorem setMode_live : (setMode f m).live = f.live := by
  unfold setMode; split <;> rfl

@[simp] theorem setMode_ports : (setMode f m).ports = f.ports := by
  unfold setMode; split <;> rfl

/-- Behind a commit a change of MODE finds no shadow to discard (R271). -/
theorem setMode_shadow (h : f.shadow = f.live) : (setMode f m).shadow = f.live := by
  unfold setMode
  split
  · exact h
  · rfl

@[simp] theorem clampAge_seed (t : Tickets) : (clampAge f t).seed = t.seed := by
  unfold clampAge; split <;> rfl

@[simp] theorem commitTickets_live : (commitTickets xc f).live = clampAge f f.shadow := rfl
@[simp] theorem commitTickets_shadow : (commitTickets xc f).shadow = clampAge f f.shadow := rfl

/-- Every port's generator starts again from the committed SEED (R262, R271). -/
theorem commitTickets_lfsr (k : Fin 21) : ((commitTickets xc f).ports.get k).lfsr = lfsrLoad f.shadow.seed k.val := by
  simp [commitTickets, startCredits]

/-- Every regulator's credit starts at BURST (R273). -/
theorem commitTickets_credit (k : Fin 21) (p : PartId) :
    ((commitTickets xc f).ports.get k).credit.get p = Int.ofNat (regOf f (portClass k) p).burst.toNat * 256 := by
  simp [commitTickets, startCredits, regOf]

end

/-! ### Priming (R169, log entry 23) -/

theorem mem_insertNat_iff (n x : Nat) (l : List Nat) : x ∈ insertNat n l ↔ x = n ∨ x ∈ l := by
  induction l with
  | nil => simp [insertNat]
  | cons y l ih =>
    rw [insertNat]
    split
    · simp
    · split
      · subst y; simp
      · simp only [List.mem_cons, ih]; exact or_left_comm

/-- Which programs run from a cache on a Frond is told by the program records alone. -/
theorem cachePrograms_congr {s s' : State} (h : s'.programs = s.programs) (f : FrondId) : cachePrograms s' f = cachePrograms s f := by
  have hrec : ∀ p, progRec s' p = progRec s p := fun p => by rw [progRec, progRec, h]
  have hpf : ∀ p w hi lo, pf s' p w hi lo = pf s p w hi lo := fun p w hi lo => by rw [pf, pf, hrec]
  simp only [cachePrograms, h, progCache, progForm, progFronds, progNFrond, hrec, hpf]

theorem setCopy_cacheValid (s : State) (f g : FrondId) (p q : Nat) (piv sat : Bool) :
    q ∈ (frond (setCopy s f p piv sat) g).cacheValid ↔ (f = g ∧ q = p) ∨ q ∈ (frond s g).cacheValid := by
  by_cases h : f = g
  · subst g; simp [setCopy, frond, modFrond, mem_insertNat_iff]
  · simp [setCopy_others s f g p piv sat h, h]

/-- What priming some pairs of a Frond and a program does: free values are drawn, valid bits of those pairs alone are set, every one
whose priming does not fail is, and the rest goes to the event rings. -/
structure Primes (pairs : FrondId → Nat → Prop) (s s' : State) : Prop where
  only : s' = { s with freeCtr := s'.freeCtr, fronds := s'.fronds, obs := s'.obs }
  valid : ∀ g q, q ∈ (frond s' g).cacheValid → pairs g q ∨ q ∈ (frond s g).cacheValid
  keeps : ∀ g q, q ∈ (frond s g).cacheValid → q ∈ (frond s' g).cacheValid
  primed : ∀ g q, pairs g q → (∀ n, Config.primeFails n g.val q = false) → q ∈ (frond s' g).cacheValid

section
variable {A B : FrondId → Nat → Prop} {s s1 s2 : State}

theorem Primes.programs (h : Primes A s s1) : s1.programs = s.programs := by
  rw [h.only]

theorem Primes.congr (h : Primes A s s1) (hab : ∀ g q, A g q ↔ B g q) : Primes B s s1 where
  only := h.only
  valid g q hq := (h.valid g q hq).imp_left (hab g q).mp
  keeps := h.keeps
  primed g q hq := h.primed g q ((hab g q).mpr hq)

theorem Primes.none (s : State) : Primes (fun _ _ => False) s s :=
  ⟨rfl, fun _ _ => .inr, fun _ _ => id, fun _ _ h => h.elim⟩

theorem Primes.trans (ha : Primes A s s1) (hb : Primes B s1 s2) : Primes (fun g q => A g q ∨ B g q) s s2 where
  only := by rw [hb.only, ha.only]
  valid g q h := (hb.valid g q h).elim (fun h => .inl (.inr h)) fun h => (ha.valid g q h).imp_left .inl
  keeps g q h := hb.keeps g q (ha.keeps g q h)
  primed g q h hn := h.elim (fun h => hb.keeps g q (ha.primed g q h hn)) fun h => hb.primed g q h hn

/-- What is logged concerns no pair. -/
theorem Primes.logged (h : Primes A s s1) (o : Obs) : Primes A s { s1 with obs := o } :=
  ⟨by rw [h.only], h.valid, h.keeps, h.primed⟩

end

/-- Priming step by step primes the pairs of every step. -/
theorem Primes.foldl {α : Type} {step : State → α → State} {pairs : α → FrondId → Nat → Prop} (xs : List α) (s : State)
    (hstep : ∀ s1 x, s1.programs = s.programs → Primes (pairs x) s1 (step s1 x)) :
    Primes (fun g q => ∃ x, x ∈ xs ∧ pairs x g q) s (xs.foldl step s) := by
  induction xs generalizing s with
  | nil => exact (Primes.none s).congr fun g q => by simp only [List.not_mem_nil, false_and, exists_false]
  | cons x xs ih =>
    have hx := hstep s x rfl
    have hxs := ih (step s x) fun s1 y h => hstep s1 y (h.trans hx.programs)
    exact (hx.trans hxs).congr fun g q => by simp only [List.mem_cons, or_and_right, exists_or, exists_eq_left]

/-- A pair whose priming does not fail: its copy becomes valid. -/
theorem setCopy_primes (s : State) (f : FrondId) (p n : Nat) (piv sat : Bool) :
    Primes (fun g q => f = g ∧ q = p) s (setCopy { s with freeCtr := n } f p piv sat) := by
  have hiff := fun g q => setCopy_cacheValid s f g p q piv sat
  exact ⟨rfl, fun g q => (hiff g q).mp, fun g q h => (hiff g q).mpr (.inr h), fun g q h _ => (hiff g q).mpr (.inl h)⟩

/-- A pair whose priming fails: only a free value is drawn. -/
theorem failed_primes (s : State) (f : FrondId) (p n : Nat) (h : Config.primeFails s.freeCtr f.val p = true) :
    Primes (fun g q => f = g ∧ q = p) s { s with freeCtr := n } := by
  refine ⟨rfl, fun _ _ => .inr, fun _ _ => id, ?_⟩
  rintro g q ⟨rfl, rfl⟩ hn
  exact absurd (h.symm.trans (hn _)) Bool.noConfusion

theorem primePair_primes (f : FrondId) (s : State) (p : Nat) : Primes (fun g q => f = g ∧ q = p) s (primePair f s p) := by
  rw [primePair]
  dsimp only
  split
  case isTrue hfail => exact failed_primes s f p _ hfail
  case isFalse =>
    split
    · rw [logPivots_only]; exact (setCopy_primes ..).logged _
    · exact setCopy_primes ..

/-- The state in which priming begins: every pair is invalid (R169, R447). -/
def uncached (s : State) : State :=
  { s with fronds := s.fronds.map fun fr => { fr with cacheValid := [], cachePivb := [], cacheSat := [] } }

theorem uncached_cacheValid (s : State) (f : FrondId) : (frond (uncached s) f).cacheValid = [] := by
  simp [uncached, frond]

/-- Priming as a whole primes the pairs of CACHE 1 (R169). -/
theorem primeAll_primes (s : State) : Primes (fun f p => p ∈ cachePrograms s f) (uncached s) (primeAll s) := by
  have hfrond : ∀ s1 f, s1.programs = s.programs →
      Primes (fun g q => f = g ∧ q ∈ cachePrograms s f) s1 ((cachePrograms s1 f).foldl (primePair f) s1) := by
    intro s1 f h
    rw [← cachePrograms_congr h f]
    refine (Primes.foldl _ s1 fun s2 p _ => primePair_primes f s2 p).congr fun g q => ⟨?_, ?_⟩
    · rintro ⟨p, hp, hf, rfl⟩; exact ⟨hf, hp⟩
    · rintro ⟨hf, hq⟩; exact ⟨q, hq, hf, rfl⟩
  refine (Primes.foldl (allFin 128) (uncached s) hfrond).congr fun g q => ⟨?_, ?_⟩
  · rintro ⟨f, _, rfl, hq⟩; exact hq
  · intro hq; exact ⟨g, List.mem_finRange g, rfl, hq⟩

theorem primeAll_only (s : State) : ∃ n fr o, primeAll s = { s with freeCtr := n, fronds := fr, obs := o } :=
  ⟨_, _, _, (primeAll_primes s).only⟩

/-- Only a CACHE 1 program that runs on the Frond has a valid copy there (R169). -/
theorem primeAll_valid (s : State) (f : FrondId) (p : Nat) (h : p ∈ (frond (primeAll s) f).cacheValid) : p ∈ cachePrograms s f :=
  ((primeAll_primes s).valid f p h).elim id fun h => absurd (uncached_cacheValid s f ▸ h) List.not_mem_nil

theorem primeAll_primed (s : State) (f : FrondId) (p : Nat) (h : p ∈ cachePrograms s f)
    (hn : ∀ n, Config.primeFails n f.val p = false) : p ∈ (frond (primeAll s) f).cacheValid :=
  (primeAll_primes s).primed f p h hn

/-! ### The commands from the firmware's start to READY (R376, R379) -/

theorem exec_firmwareReady (t : Time) (s : State) (hm : s.testMode = false) (hp : s.boot.phase = .fwStart)
    (ht : max s.now t ≤ s.boot.phaseAt + 100 * tMs) :
    exec (.firmwareReady t) s = .next (guarded s (toPhase (atTime s t) .digest)) := by
  rw [exec, execFirmwareReady]
  exact live_eq hm (by simp [hp, ht])

theorem exec_fwStartTimeout (t : Time) (s : State) (hm : s.testMode = false) (hp : s.boot.phase = .fwStart)
    (ht : s.boot.phaseAt + 100 * tMs ≤ max s.now t) :
    exec (.fwStartTimeout t) s = .next (guarded s (bootStop (atTime s t) 0x31)) := by
  rw [exec, execFwStartTimeout]
  exact live_eq hm (by simp [hp, ht])

theorem exec_programSetDigest (t : Time) (s : State) (hm : s.testMode = false) (hp : s.boot.phase = .digest) :
    exec (.programSetDigest t) s = .next (guarded s (toPhase (modBoot (atTime s t) fun b => { b with
      progDigest := sha256 (programBytes s ++ (allFin 128).flatMap (poweredW s))
      wDigests := (allFin 128).map fun f => sha256 (poweredW s f) }) .lock)) := by
  have hprog : programBytes (atTime s t) = programBytes s := rfl
  have hw : poweredW (atTime s t) = poweredW s := rfl
  rw [exec, execProgramSetDigest]
  exact live_eq hm (by simp [hp, hprog, hw])

/-- The fabric that the lock sequence leaves: the tickets committed, MODE at NORMAL (R379). -/
def lockedFabric (s : State) : Fabric := setMode (commitTickets (xcNow s) s.fabric) 1

theorem exec_lockSequence (t : Time) (s : State) (hm : s.testMode = false) (hp : s.boot.phase = .lock) :
    exec (.lockSequence t) s = .next (guarded s { atTime s t with
      fabric := lockedFabric (atTime s t)
      obs := { s.obs with checkAt := Vector.replicate 4 (max s.now t) }
      boot := { s.boot with lock0 := true, lock1 := true, lock2 := true, phase := .priming, phaseAt := max s.now t } }) := by
  rw [exec, execLockSequence]
  exact live_eq hm (by simp only [atTime_boot, hp, beq_self_eq_true, when_true]; rfl)

/-- The boot state once priming has ended (R379, R383). -/
def bootedAt (now : Time) (b : Boot) : Boot :=
  { b with ready := true, bootDone := true, code := if b.lower then 0x02 else 0x00, phase := .ready, phaseAt := now }

theorem exec_bootReady (t : Time) (s : State) (hm : s.testMode = false) (hp : s.boot.phase = .priming)
    (hr : s.power.resetting = false) (hh : s.obs.halted = false) :
    exec (.bootReady t) s = .next (guarded s { primeAll (atTime s t) with boot := bootedAt (max s.now t) s.boot }) := by
  have hend : toPhase (modBoot (primeAll (atTime s t)) fun b =>
      { b with ready := true, bootDone := true, code := if b.lower then 0x02 else 0x00 }) .ready =
      { primeAll (atTime s t) with boot := bootedAt (max s.now t) s.boot } := by
    obtain ⟨n, fr, o, h⟩ := primeAll_only (atTime s t)
    rw [h]; rfl
  rw [exec, execBootReady]
  exact live_eq hm (by simpa [hp, hr, hh] using hend)

/-- Settles O18, from what each command of the boot's end comes to, the fabric behind a commit, and what priming does. -/
theorem lockSequenceLocksAndReadyEndsTheBoot : Obligations.LockSequenceLocksAndReadyEndsTheBoot := by
  unfold Obligations.LockSequenceLocksAndReadyEndsTheBoot
  refine ⟨?ready, ?timeout, ?digest, ?lock, ?boot⟩
  case ready => exact exec_firmwareReady
  case timeout =>
    intro t s hm hp ht
    exact ⟨_, exec_fwStartTimeout t s hm hp ht, rfl, rfl, rfl, rfl, rfl⟩
  case digest =>
    intro t s hm hp
    exact ⟨_, exec_programSetDigest t s hm hp, rfl, rfl, rfl⟩
  case lock =>
    intro t s hm hp
    have hshadow : (lockedFabric (atTime s t)).shadow = (lockedFabric (atTime s t)).live :=
      (setMode_shadow _ 1 rfl).trans (setMode_live ..).symm
    have hports : (lockedFabric (atTime s t)).ports = (commitTickets (xcNow (atTime s t)) s.fabric).ports := setMode_ports ..
    refine ⟨_, exec_lockSequence t s hm hp, rfl, rfl, rfl, rfl, rfl, setMode_mode .., setMode_live .., hshadow, fun k => ?_,
      fun k p => ?_, rfl⟩
    · exact (congrArg (fun v => (v.get k).lfsr) hports).trans (commitTickets_lfsr ..)
    · exact (congrArg (fun v => (v.get k).credit.get p) hports).trans (commitTickets_credit ..)
  case boot =>
    intro t s hm hp hr hh
    have hprog : ∀ f, cachePrograms (atTime s t) f = cachePrograms s f := cachePrograms_congr rfl
    have hexec := exec_bootReady t s hm hp hr hh
    have hvalid := primeAll_valid (atTime s t)
    have hprimed := primeAll_primed (atTime s t)
    obtain ⟨n, fr, o, honly⟩ := primeAll_only (atTime s t)
    rw [honly] at hexec hvalid hprimed
    refine ⟨_, hexec, rfl, rfl, rfl, rfl, rfl, fun f p h => ?_, fun f p h hn => ?_, rfl⟩
    · exact hprog f ▸ hvalid f p h
    · exact hprimed f p (hprog f ▸ h) hn

end Sys2Proof.Proofs
end
